-- ==== Sys2Proof/Word.lean ====
section
/-! DEFINITION. The words of the link and of the clocks. -/

namespace Sys2Proof

/-- One character of the link (R169). -/
abbrev Byte := BitVec 8

/-- A check, a record tag or a pass counter (R170, R42, R93). -/
abbrev Word16 := BitVec 16

/-- The timestamp and the interval clock (R161, R17). -/
abbrev Word32 := BitVec 32

/-- Four input levels, bit n for pin n: the address straps (R173). -/
abbrev Levels4 := BitVec 4

end Sys2Proof
end

