-- ==== Sys2Proof/Syntax.lean ====
section
/-! DEFINITION. The commands of the block: one constructor of `Instr` for each row of spec/opcode_table.json, with the
operands the manual gives each. A request carries the body of its frame as bytes, as the link port receives it (R179). -/

namespace Sys2Proof

/-- The two quadrature lines of the encoder (R1). -/
inductive EncLine | a | b
  deriving DecidableEq, Repr

/-- The levels present on the sampled inputs at power-on and at a restart: ENCA, ENCB, ADDR0 to ADDR3 (bit n for ADDRn)
and CSNS0 to CSNS3 (R1, R173, R125). -/
structure PinLevels where
  encA : Bool
  encB : Bool
  straps : Levels4
  senses : Vector Bool 4
  deriving DecidableEq, Repr

/-- The two silent outcomes of a poll (R127). -/
inductive SilentOutcome | noReply | malformed
  deriving DecidableEq, Repr

/-- The outcome of a poll: GOOD with motion and tension, or silent (R127). -/
inductive PollOutcome
  | good (motion : BitVec 8) (tension : BitVec 10)
  | silent (how : SilentOutcome)
  deriving DecidableEq, Repr

/-- The outcome of a head write (R128). -/
inductive WriteOutcome | ok | noReply
  deriving DecidableEq, Repr

/-- The unit byte of a request frame that concerns this unit: its own address or 15 (R172). -/
inductive Dest | addressed | broadcast
  deriving DecidableEq, Repr

/-- The commands: the operations and events of spec/opcode_table.json, each whole and indivisible. -/
inductive Instr
  /-- POWER_ON (R191). -/
  | powerOn (pins : PinLevels)
  /-- RESTART, the request (R182). -/
  | restart (body : List Byte)
  /-- RESTART_EFFECT: the release of the pair after the RESTART reply (R182). -/
  | restartEffect (pins : PinLevels)
  /-- COUNT_TRANSITION: one encoder line changes (R1). -/
  | countTransition (line : EncLine)
  /-- ILLEGAL_TRANSITION: both encoder lines change (R2). -/
  | illegalTransition
  /-- HOME_MARK_EDGE: a rising edge of HOMEIN (R7, R9). -/
  | homeMarkEdge
  /-- NEEDLE_MARK_EDGE: a rising edge of NMARK (R11). -/
  | needleMarkEdge
  /-- SEEK_TIMER_EXPIRY (R8). -/
  | seekTimerExpiry
  /-- STALL_TIMER_EXPIRY (R19). -/
  | stallTimerExpiry
  /-- TAKE_COUNTDOWN_EXPIRY of one system's latch (R112). -/
  | takeCountdownExpiry (system : Fin 4)
  /-- RELEASE_COUNTDOWN_EXPIRY of one system's latch (R115). -/
  | releaseCountdownExpiry (system : Fin 4)
  /-- COUPLE_SENSE_EDGE: CSNS of one system changes to a level (R118). -/
  | coupleSenseEdge (system : Fin 4) (level : Bool)
  /-- SWEEP_TIMER_EXPIRY (R129). -/
  | sweepTimerExpiry
  /-- POLL_START: the next poll of the sweep would begin (R131). -/
  | pollStart
  /-- POLL_END with its outcome (R134). -/
  | pollEnd (outcome : PollOutcome)
  /-- HEAD_WRITE_END with its outcome (R142). -/
  | headWriteEnd (outcome : WriteOutcome)
  /-- STRAP_READ: the levels of ADDR0 to ADDR3 now (R174). -/
  | strapRead (levels : Levels4)
  /-- SETTINGS_DISTURBANCE: what the stored checksum becomes (R184). -/
  | settingsDisturbance (checksum : Word16)
  /-- FRAME_ABANDON (R171). -/
  | frameAbandon
  /-- BAD_CHECK_FRAME (R172). -/
  | badCheckFrame
  /-- UNKNOWN_KIND: an addressed frame whose kind byte names no kind (R175). -/
  | unknownKind (kind : Byte)
  /-- BROADCAST_REFUSED: a broadcast of a kind that may not be broadcast (R177). -/
  | broadcastRefused (kind : Byte)
  /-- REPLY_END: the pair is released after a reply (R176). -/
  | replyEnd
  /-- STATUS (R178). -/
  | status (body : List Byte)
  /-- HOME (R5). -/
  | home (body : List Byte)
  /-- QUERY_POSITION (R21). -/
  | queryPosition (body : List Byte)
  /-- DEFINE_LINE (R27). -/
  | defineLine (body : List Byte)
  /-- WRITE_LINE (R29). -/
  | writeLine (body : List Byte)
  /-- SEAL_LINE (R32). -/
  | sealLine (body : List Byte)
  /-- REOPEN_LINE (R34). -/
  | reopenLine (body : List Byte)
  /-- DROP_LINE (R35). -/
  | dropLine (body : List Byte)
  /-- QUERY_LINE (R36). -/
  | queryLine (body : List Byte)
  /-- QUEUE_PASS (R45). -/
  | queuePass (body : List Byte)
  /-- CANCEL_QUEUED (R67). -/
  | cancelQueued (body : List Byte)
  /-- STOP_CYCLING (R68). -/
  | stopCycling (body : List Byte)
  /-- RESUME (R61). -/
  | resume (body : List Byte)
  /-- HALT, addressed or broadcast (R62). -/
  | halt (dest : Dest) (body : List Byte)
  /-- GO, addressed or broadcast (R64). -/
  | go (dest : Dest) (body : List Byte)
  /-- QUERY_QUEUE (R69). -/
  | queryQueue (body : List Byte)
  /-- DECLARE_FEEDER (R104). -/
  | declareFeeder (body : List Byte)
  /-- FORGET_FEEDER (R105). -/
  | forgetFeeder (body : List Byte)
  /-- QUERY_FEEDERS (R124). -/
  | queryFeeders (body : List Byte)
  /-- HEAD_WRITE (R141). -/
  | headWrite (body : List Byte)
  /-- QUERY_HEADS (R145). -/
  | queryHeads (body : List Byte)
  /-- QUERY_CONDITIONS (R167). -/
  | queryConditions (body : List Byte)
  /-- CLEAR_CONDITIONS, addressed or broadcast (R153). -/
  | clearConditions (dest : Dest) (body : List Byte)
  /-- FORCE (R157). -/
  | force (body : List Byte)
  /-- READ_EVENTS (R166). -/
  | readEvents (body : List Byte)
  /-- SYNC_TIME, addressed or broadcast (R162). -/
  | syncTime (dest : Dest) (body : List Byte)
  /-- READ_SETTING (R185). -/
  | readSetting (body : List Byte)
  /-- WRITE_SETTING (R186). -/
  | writeSetting (body : List Byte)
  /-- LOCK_SETTINGS (R187). -/
  | lockSettings (body : List Byte)
  /-- UNLOCK_SETTINGS (R189). -/
  | unlockSettings (body : List Byte)
  /-- IDENTIFY (R185). -/
  | identify (body : List Byte)
  /-- FRAME_START: an A7h with a good stop bit (R171). -/
  | frameStart
  /-- FOREIGN_FRAME: a complete good frame that does not concern this unit (R172). -/
  | foreignFrame
  deriving DecidableEq, Repr

end Sys2Proof
end

