-- ==== Sys2Proof/Decode.lean ====
section
/-! DEFINITION. The decoder over the opcode table's bits. The table gives no row any bits: the rows are the block's
commands, and none of them is spelled by a word, so no word decodes. -/

namespace Sys2Proof

/-- No row of spec/opcode_table.json gives bits, so no word of any width spells a command. -/
def decodeTableWord (_nbits _w : Nat) : Option Instr := none

end Sys2Proof
end

