-- ==== Sys2Proof/Config.lean ====
section
/-! DEFINITION. What the part fixes for good, and the free values: results the manual leaves open.
A free value has no body, so a claim that is proved holds whatever it is. -/

namespace Sys2Proof

/-- R185: the vendor code that IDENTIFY answers. -/
def Config.vendorCode : Nat := 0x1E6B

/-- R185: the part code. -/
def Config.partCode : Nat := 412

/-- R185: the silicon revision. -/
def Config.siliconRevision : Nat := 3

/-- R163: the event queue holds at most 128 entries. -/
def Config.eventCapacity : Nat := 128

/-- R44: the pass queue holds at most 8 records. -/
def Config.queueCapacity : Nat := 8

/-- R26: the code-cell pool. -/
def Config.codeCells : Nat := 24576

/-- Interval-clock units (0.1 µs, R17) in a millisecond. -/
def Config.ticksPerMs : Nat := 10000

/-- Interval-clock units in a second. -/
def Config.ticksPerSecond : Nat := 10000000

/-- Interval-clock units in one timestamp unit of 10 µs (R161). -/
def Config.ticksPerStamp : Nat := 100

/-- R126: the gap of 20 µs between two transactions, in interval-clock units. -/
def Config.busGapTicks : Nat := 200

/-- FREE VALUE (log 5). QUERY_POSITION gives the seek time remaining in whole milliseconds (R21), and the manual does not
say how a part of a millisecond is rounded: whether it rounds up, for the time remaining in units of 0.1 µs. -/
opaque Config.freeSeekRoundsUp : Nat → Bool

/-- FREE VALUE (log 6). The two bytes that the position record of QUERY_POSITION carries for an X that does not fit a signed
16-bit field. R22 clamps X in the status summary and R181 in payloads and details, and neither speaks of this record. -/
opaque Config.freeWideX : Int → Word16

/-- FREE VALUE (log 7). Whether a HEAD_SILENT raised by a write of SILENT_LIMIT reports MALFORMED (else NO_REPLY):
R143 gives the detail only the head. It is applied to the state's counter of free values. -/
opaque Config.freeSilentMalformed : Nat → Bool

/-- FREE VALUE (log 8). Whether the locator of a QUEUE_PASS refused with CYCLE_FEEDER names a system: R52 does not say. -/
opaque Config.freeCycleNamesSystem : Bool

/-- FREE VALUE (log 8). Whether that locator names a feeder. -/
opaque Config.freeCycleNamesFeeder : Bool

/-- FREE VALUE (log 22). The code byte of a RACK_RANGE refusal: R48 names the result and the table of section 8.7 gives it no
code. Only its remainder by 22 is used, since a reply carries one of 23 codes, never code 7, and a refusal does not carry ACCEPTED's
code 0. -/
opaque Config.freeRackRangeCode : Nat

end Sys2Proof
end

