-- ==== Sys2Proof/Machine/Types.lean ====
section
/-! DEFINITION. The kinds of value the manual names: states, modes, records, conditions, events and replies. Plain data. -/

namespace Sys2Proof.Machine

/-! ### Position tracker (chapter 1) -/

/-- Direction of a step or of a pass. -/
inductive Direction | rightward | leftward
  deriving DecidableEq, Repr

/-- The position states of section 1.1. -/
inductive PosState | unreferenced | seeking | referenced | doubtful | lost
  deriving DecidableEq, Repr

/-- The side on which C entered the window of the expected mark (R10). -/
inductive EntrySide | low | high
  deriving DecidableEq, Repr

/-- The mark window: the index K of the expected mark (its count is K × M), the entry side and the satisfied flag (R10). -/
structure MarkWindow where
  mark : Int
  side : EntrySide
  satisfied : Bool
  deriving DecidableEq, Repr

/-- The tracker's copy of the state of the pass (R16). -/
inductive PassPhase | none | active | finishing
  deriving DecidableEq, Repr

/-! ### Line store (chapter 2) -/

/-- The four selection codes. -/
inductive Code | miss | tuck | knit | send
  deriving DecidableEq, Repr

/-- What a line that is not FREE holds; its length L is the number of its codes. -/
structure LineData where
  codes : List Code
  cursor : Nat
  extent : Nat
  deriving DecidableEq, Repr

/-- A line record: FREE, OPEN or SEALED with its census (each code at most once, in rising value) and reference count. -/
inductive Line
  | free
  | opened (d : LineData)
  | sealed (d : LineData) (census : List Code) (refs : Nat)
  deriving DecidableEq, Repr

/-! ### Pass records (chapter 3) -/

/-- Cam modes of a system entry. -/
inductive CamMode | knit | xfer | idle
  deriving DecidableEq, Repr

/-- Whether a channel's line repeats or is laid once (R43). -/
inductive ChannelMode | tile | span
  deriving DecidableEq, Repr

/-- A channel (R43). -/
structure Channel where
  line : Nat
  start : Nat
  width : Nat
  offset : Nat
  mode : ChannelMode
  fill : Code
  deriving DecidableEq, Repr

/-- A feeder action (R43). -/
inductive FeederAction
  | take (f : Nat)
  | release (f : Nat) (x : Int)
  deriving DecidableEq, Repr

/-- The progress mark of an action (R59). -/
inductive Mark | notReached | pending | asPlanned | otherwise
  deriving DecidableEq, Repr

/-- An action with its mark; outside an ACTIVE or FINISHING record the mark stands at NOT_REACHED and is not read. -/
structure MarkedAction where
  act : FeederAction
  mark : Mark
  deriving DecidableEq, Repr

/-- A system entry (R43). -/
structure SystemEntry where
  system : Nat
  mode : CamMode
  front : Option Channel
  back : Option Channel
  actions : List MarkedAction
  deriving DecidableEq, Repr

/-- How a record starts (R42). -/
inductive StartKind | onEntry | onGo
  deriving DecidableEq, Repr

/-- GO state of an ARMED record whose start is ON_GO (R42). -/
inductive GoState | waitGo | goGiven
  deriving DecidableEq, Repr

/-- Record states; an ARMED record carries its GO state where its start is ON_GO (R42, R44). -/
inductive RecordState
  | queued
  | armed (go : Option GoState)
  | active
  | finishing
  deriving DecidableEq, Repr

/-- A pass record (R42). -/
structure PassRecord where
  tag : Word16
  direction : Direction
  start : StartKind
  cycle : Bool
  racking : Int
  entries : List SystemEntry
  state : RecordState
  deriving DecidableEq, Repr

/-- HELD or RUNNING (section 3.4). -/
inductive PlanState | held | running
  deriving DecidableEq, Repr

/-- A feeder entry of the projected feeder table (R58). -/
inductive ProjFeeder
  | undeclared
  | parked (rail : Nat) (pos : Int)
  | coupled (rail : Nat) (system : Nat)
  | faulted (rail : Nat)
  deriving DecidableEq, Repr

/-- The projected feeder table: a state for each feeder and a holder for each latch (R58). -/
structure Projection where
  feeders : Vector ProjFeeder 16
  holders : Vector (Option Nat) 4
  deriving DecidableEq, Repr

/-! ### Pass engine (chapter 4) -/

/-- What the engine holds with a current record (R71). -/
structure Pass where
  dir : Direction
  racking : Int
  furthestX : Int
  furthestPair : Option Int
  deriving DecidableEq, Repr

/-- The codes a system's two banks present (R89). -/
structure BankPair where
  front : Code
  back : Code
  deriving DecidableEq, Repr

/-- The two lines of a selector bank: A has weight 1, B weight 2 (R183). -/
structure BankLines where
  a : Bool
  b : Bool
  deriving DecidableEq, Repr

/-- What an output pin does: it stands low or high, it is released, or it carries a transaction or a reply bit by bit (the bits'
timing is left out, log 28). -/
inductive PinState | low | high | released | signalling
  deriving DecidableEq, Repr

/-! ### Feeder unit (chapter 5) -/

/-- A feeder record: its state with the fields present in that state (R101). -/
inductive Feeder
  | undeclared
  | parked (rail : Nat) (pos : Int)
  | taking (rail : Nat) (system : Nat)
  | coupled (rail : Nat) (system : Nat)
  | releasing (rail : Nat) (system : Nat) (point : Int)
  | faulted (rail : Nat)
  deriving DecidableEq, Repr

/-- A latch state with the fields present in that state (R102). -/
inductive LatchState
  | opened
  | closing (f : Nat) (takePos : Int)
  | closed (f : Nat)
  | opening (f : Nat)
  deriving DecidableEq, Repr

/-- A latch record (R102); the couple sense is held with the pins. -/
structure Latch where
  state : LatchState
  countdown : Nat
  deriving DecidableEq, Repr

/-! ### Yarn monitor (chapter 6) -/

/-- Progress of a tension spike (R133). -/
inductive Spike
  | calm
  | rising (k : Nat)
  | settling (j : Nat)
  | snagged
  deriving DecidableEq, Repr

/-- A head record (R133). -/
structure HeadRecord where
  silentRun : Nat
  stillRun : Nat
  spike : Spike
  travel : Bool
  lastMotion : Option (BitVec 8)
  lastTension : Option (BitVec 10)
  deriving DecidableEq, Repr

/-- A pending head write (R141). -/
structure HeadWrite where
  head : Nat
  item : Nat
  value : Nat
  deriving DecidableEq, Repr

/-- The transaction in progress on the yarn head bus: the write, or a poll of feeder f's head with its travel cut (R136)
and whether its outcome is to be discarded (R131). -/
inductive Transaction
  | write
  | poll (f : Nat) (cut : Bool) (discarded : Bool)
  deriving DecidableEq, Repr

/-- A sweep in progress: its transaction, which is on the bus once the bus gap has run out, and the feeders of the polls still to
come. -/
structure Sweep where
  current : Option Transaction
  rest : List Nat
  deriving DecidableEq, Repr

/-! ### Conditions and events (chapter 7) -/

/-- The 23 conditions, in the order of their numbers. -/
inductive Cond
  | posJump | markSlip | posLost | homeTimeout | stall | overspeed | reversal | wrongWay | noGo | starved
  | xferClash | xferEdge | feederMissed | feederStuck | yarnStop | yarnSnag | yarnKnot | headSilent
  | settingsCheck | strapChange | addressParity | frameFault | eventOverrun
  deriving DecidableEq, Repr

/-- Source of a MARK_SLIP with its detail: a deviation in counts, or the expected mark as an X (R12). -/
inductive SlipSource
  | needle (deviation : Int)
  | home (deviation : Int)
  | absent (markX : Int)
  deriving DecidableEq, Repr

/-- Cause of a POS_LOST. -/
inductive LostCause | jump | slip
  deriving DecidableEq, Repr

/-- The bed of a demoted code. -/
inductive Bed | front | back
  deriving DecidableEq, Repr

/-- Source of a FEEDER_MISSED. -/
inductive MissedSource | take | senseHigh | dropped
  deriving DecidableEq, Repr

/-- Cause of a FRAME_FAULT. -/
inductive FrameCause | check | kind | body | broadcast
  deriving DecidableEq, Repr

/-- Event tags (R164). -/
inductive EventTag
  | passStarted | passEnded | passAborted | feederTaken | feederReleased | condition | homed | passMark
  | headWriteDone | queueFlushed
  deriving DecidableEq, Repr

/-- The detail of a raise; its constructor names the condition (section 7.1). -/
inductive Detail
  | posJump (state : PosState)
  | markSlip (source : SlipSource)
  | posLost (cause : LostCause)
  | homeTimeout
  | stall (phase : PassPhase) (x : Int)
  | overspeed (period : Nat)
  | reversal (retreat : Int) (x : Int)
  | wrongWay (tag : Word16) (crossing : Direction)
  | noGo (tag : Word16)
  | starved (crossing : Direction)
  | xferClash (system : Nat) (pair : Int)
  | xferEdge (system : Nat) (pair : Int) (bed : Bed)
  | feederMissed (f system : Nat) (source : MissedSource)
  | feederStuck (f system : Nat) (point : Int)
  | yarnStop (head : Nat)
  | yarnSnag (head tension : Nat)
  | yarnKnot (head : Nat)
  | headSilent (head : Nat) (how : SilentOutcome)
  | settingsCheck (stored computed : Word16)
  | strapChange (sampled now : Levels4)
  | addressParity (sampled : Levels4)
  | frameFault (cause : FrameCause) (kind : Option Byte)
  | eventOverrun (tag : EventTag)
  deriving DecidableEq, Repr

/-- Why a pass was aborted (R95). -/
inductive AbortReason
  | reversal | overspeed | posLost | feederMissed | feederStuck | settingsCheck | wrongWay | noGo | halt
  | routed (c : Cond)
  deriving DecidableEq, Repr

/-- Why the queue was emptied (R66, R67). -/
inductive FlushCause | abort | halt | unconfirmed | cancel
  deriving DecidableEq, Repr

/-- An event's tag and payload (R164). -/
inductive Event
  | passStarted (tag : Word16) (dir : Direction)
  | passEnded (tag : Word16) (counter : Word16)
  | passAborted (tag : Word16) (reason : AbortReason) (furthest : Option Int)
  | feederTaken (f system : Nat) (pos : Int)
  | feederReleased (f system : Nat) (point : Int)
  | condition (d : Detail)
  | homed (count : Int) (x : Int)
  | passMark (counter : Word16)
  | headWriteDone (head : Nat) (outcome : WriteOutcome)
  | queueFlushed (removed : Nat) (cause : FlushCause)
  deriving DecidableEq, Repr

/-- An entry of the event queue (R163). -/
structure EventEntry where
  timestamp : Word32
  event : Event
  deriving DecidableEq, Repr

/-- A condition record: the latch detail is present exactly while the latched flag is set (R148). -/
structure CondRecord where
  latched : Option Detail
  captured : Bool
  deriving DecidableEq, Repr

/-! ### The link (chapter 8) -/

/-- Result codes (section 8.7). -/
inductive ResultCode
  | accepted | badRequest | range | locked | notLocked | notReady | busy | queueFull | noRoom | lineState | inUse
  | shortLine | badSystem | lineNotSealed | codeMode | rackRange | feederState | offPath | actionOrder | railBlocked
  | railShared | cycleFeeder | notWaiting | headBusy
  deriving DecidableEq, Repr

/-- The status summary of a reply (R178). -/
structure Summary where
  alert : Bool
  caution : Bool
  service : Bool
  ready : Bool
  running : Bool
  passBusy : Bool
  stop : Bool
  forced : Bool
  queueLength : Nat
  unread : Nat
  position : PosState
  x : Int
  deriving DecidableEq, Repr

/-- A reply as it was assembled (R175, R176). -/
structure Reply where
  address : Nat
  kind : Byte
  result : ResultCode
  summary : Summary
  data : List Byte
  deriving DecidableEq, Repr

/-- The receiver (R171); in REPLY the reply on the pair is held with it. -/
inductive Rx
  | hunt
  | frame
  | reply (r : Reply)
  deriving DecidableEq, Repr

end Sys2Proof.Machine
end

