-- ==== Sys2Proof/Machine/State.lean ====
section
/-! DEFINITION. The state of the part, block by block (spec/00_scope.md section 2), the queue of waiting commands, and the state
right after power-on. All of it is plain data. -/

namespace Sys2Proof.Machine

/-- Why the machine stops with a fault. The part has no such stop: what the manual calls a fault is a condition it raises
and goes on from (R148), and an abort is a state change (R96). So there is no constructor, and no command faults. -/
inductive Fault
  deriving DecidableEq, Repr

/-- Why a command has no meaning. -/
inductive Refusal
  /-- Raised by an arm of `exec` for a command that has no meaning yet. Safe: the model stops. -/
  | notModelled (mnemonic : String)
  /-- Raised by UNKNOWN_KIND and BROADCAST_REFUSED for a kind byte that no frame of that row carries: the command is ill
  formed (`Instr.wellFormed`), and the frame it would stand for is another row's. Safe: the model stops. -/
  | illFormed (mnemonic : String)
  deriving DecidableEq, Repr

/-- The position tracker (section 1.1). Times remaining are in units of 0.1 µs. -/
structure Tracker where
  count : Int
  position : PosState
  lastDir : Direction
  encA : Bool
  encB : Bool
  seekTimer : Option Nat
  markWindow : Option MarkWindow
  phase : PassPhase
  lastAdvance : Option Word32
  lastPeriod : Option Nat
  stallTimer : Option Nat
  stallLive : Bool
  clock : Word32
  deriving DecidableEq, Repr

/-- The pass queue: records from head to tail, plan state and projected feeder table (R42, R58, R61). -/
structure PassQueue where
  records : List PassRecord
  plan : PlanState
  proj : Projection
  deriving DecidableEq, Repr

/-- The pass engine; the current record is the head of the queue while `pass` is present (R71). -/
structure Engine where
  passCounter : Word16
  pass : Option Pass
  banks : Vector BankPair 4
  deriving DecidableEq, Repr

/-- The feeder unit, with the levels on the couple-sense inputs (R101, R102). -/
structure FeederUnit where
  table : Vector Feeder 16
  latches : Vector Latch 4
  senses : Vector Bool 4
  deriving DecidableEq, Repr

/-- The yarn monitor (chapter 6). `gap` is what is left of the bus gap of R126 in units of 0.1 µs; it outlives the sweep whose
last transaction began it. -/
structure YarnMonitor where
  sweepTimer : Nat
  gap : Nat
  sweep : Option Sweep
  pendingWrite : Option HeadWrite
  heads : Vector HeadRecord 16
  deriving DecidableEq, Repr

/-- The condition monitor (chapter 7); `subStamp` counts the units of 0.1 µs within one timestamp unit. -/
structure ConditionMonitor where
  records : Vector CondRecord 23
  forcedAlert : Bool
  forcedCaution : Bool
  timestamp : Word32
  subStamp : Nat
  events : List EventEntry
  deriving DecidableEq, Repr

/-- The link port (chapter 8): receiver, strap levels as sampled and as last read, and whether an answered RESTART waits. -/
structure LinkPort where
  rx : Rx
  straps : Levels4
  reading : Levels4
  restartPending : Bool
  deriving DecidableEq, Repr

/-- The settings block (R184): settings 0 to 29 in number order, the lock and the stored checksum. -/
structure SettingsBlock where
  values : Vector Int 30
  locked : Bool
  checksum : Option Word16
  deriving DecidableEq, Repr

/-- The state of the part, the commands that wait (oldest first) and the counter of free values. -/
structure State where
  pending : List Instr
  tracker : Tracker
  store : Vector Line 64
  queue : PassQueue
  engine : Engine
  feeders : FeederUnit
  yarn : YarnMonitor
  monitor : ConditionMonitor
  link : LinkPort
  settings : SettingsBlock
  freeCount : Nat
  deriving DecidableEq, Repr

/-- R184: the defaults of the 30 settings in number order. -/
def defaultSettings : Vector Int 30 :=
  #v[512, 4, 16, 1, 3, -256, 20, -90, -30, 30,
     90, 3, 8, 8, 10, 250, 1, 4, 10, 20,
     3, 600, 2, 3, 32, 0, 0x4F1E4, 0x7FFFFF, 0xF1E4, 0x7FFFFF]

/-- The levels that the inputs are taken to have at the power-on that State.reset follows: ADDR0 alone high, as in section
10.1, and every other input low (DESIGN CHOICE, log 3). -/
def defaultPins : PinLevels :=
  PinLevels.mk false false 1#4 (Vector.replicate 4 false)

/-- R23. -/
def Tracker.initial (pins : PinLevels) : Tracker where
  count := 0
  position := .unreferenced
  lastDir := .rightward
  encA := pins.encA
  encB := pins.encB
  seekTimer := none
  markWindow := none
  phase := .none
  lastAdvance := none
  lastPeriod := none
  stallTimer := none
  stallLive := false
  clock := 0

/-- R70. -/
def PassQueue.initial : PassQueue where
  records := []
  plan := .held
  proj := Projection.mk (Vector.replicate 16 .undeclared) (Vector.replicate 4 none)

/-- R100. -/
def Engine.initial : Engine where
  passCounter := 0
  pass := none
  banks := Vector.replicate 4 (BankPair.mk .miss .miss)

/-- R125. -/
def FeederUnit.initial (pins : PinLevels) : FeederUnit where
  table := Vector.replicate 16 .undeclared
  latches := Vector.replicate 4 (Latch.mk .opened 0)
  senses := pins.senses

/-- A head record after a reset (R146). -/
def HeadRecord.initial : HeadRecord where
  silentRun := 0
  stillRun := 0
  spike := .calm
  travel := false
  lastMotion := none
  lastTension := none

/-- R146; the sweep timer starts at SWEEP_INTERVAL milliseconds, and no gap is left from before the reset (log 23). -/
def YarnMonitor.initial (sweepInterval : Int) : YarnMonitor where
  sweepTimer := sweepInterval.toNat * Config.ticksPerMs
  gap := 0
  sweep := none
  pendingWrite := none
  heads := Vector.replicate 16 HeadRecord.initial

/-- R168. -/
def ConditionMonitor.initial : ConditionMonitor where
  records := Vector.replicate 23 (CondRecord.mk none false)
  forcedAlert := false
  forcedCaution := false
  timestamp := 0
  subStamp := 0
  events := []

/-- R171, R173, R182. -/
def LinkPort.initial (pins : PinLevels) : LinkPort where
  rx := .hunt
  straps := pins.straps
  reading := pins.straps
  restartPending := false

/-- R191. -/
def SettingsBlock.initial : SettingsBlock where
  values := defaultSettings
  locked := false
  checksum := none

/-- The part right after power-on with the inputs at `defaultPins`, nothing waiting. -/
def State.reset : State where
  pending := []
  tracker := Tracker.initial defaultPins
  store := Vector.replicate 64 .free
  queue := PassQueue.initial
  engine := Engine.initial
  feeders := FeederUnit.initial defaultPins
  yarn := YarnMonitor.initial 10
  monitor := ConditionMonitor.initial
  link := LinkPort.initial defaultPins
  settings := SettingsBlock.initial
  freeCount := 0

end Sys2Proof.Machine
end

