-- ==== Sys2Proof/Machine/Ops.lean ====
section
/-! DEFINITION. The named operations over the state: one update per block, the settings under their names, the geometry of
section 3 of the introduction, the tables read and written by number, byte orders and the check of R170. -/

namespace Sys2Proof.Machine

/-! ### Updates of one block -/

/-- Replaces the queue of waiting commands. -/
def State.setPending (s : State) (v : List Instr) : State := { s with pending := v }
/-- Replaces the tracker. -/
def State.setTracker (s : State) (v : Tracker) : State := { s with tracker := v }
/-- Replaces the line store. -/
def State.setStore (s : State) (v : Vector Line 64) : State := { s with store := v }
/-- Replaces the pass queue. -/
def State.setQueue (s : State) (v : PassQueue) : State := { s with queue := v }
/-- Replaces the pass engine. -/
def State.setEngine (s : State) (v : Engine) : State := { s with engine := v }
/-- Replaces the feeder unit. -/
def State.setFeeders (s : State) (v : FeederUnit) : State := { s with feeders := v }
/-- Replaces the yarn monitor. -/
def State.setYarn (s : State) (v : YarnMonitor) : State := { s with yarn := v }
/-- Replaces the condition monitor. -/
def State.setMonitor (s : State) (v : ConditionMonitor) : State := { s with monitor := v }
/-- Replaces the link port. -/
def State.setLink (s : State) (v : LinkPort) : State := { s with link := v }
/-- Replaces the settings block. -/
def State.setSettings (s : State) (v : SettingsBlock) : State := { s with settings := v }
/-- Replaces the counter of free values. -/
def State.setFreeCount (s : State) (v : Nat) : State := { s with freeCount := v }

/-! ### Settings by name (R184) -/

/-- The value of setting number n. -/
def State.setting (s : State) (n : Nat) : Int := s.settings.values.getD n 0

/-- N, the needles of each bed. -/
def State.needles (s : State) : Int := s.setting 0
/-- The number of fitted systems. -/
def State.systems (s : State) : Nat := (s.setting 1).toNat
/-- COUNTS_PER_NEEDLE. -/
def State.countsPerNeedle (s : State) : Int := s.setting 2
/-- MARK_SPACING. -/
def State.markSpacing (s : State) : Int := s.setting 3
/-- MARK_WINDOW. -/
def State.markWindowWidth (s : State) : Int := s.setting 4
/-- HOME_COUNT. -/
def State.homeCount (s : State) : Int := s.setting 5
/-- HOME_TIMEOUT in units of 0.1 µs. -/
def State.homeTimeout (s : State) : Nat := (s.setting 6).toNat * Config.ticksPerSecond
/-- OFFSET_i. -/
def State.offset (s : State) (i : Nat) : Int := s.setting (7 + i)
/-- LEAD. -/
def State.lead (s : State) : Int := s.setting 11
/-- FIELD_MARGIN. -/
def State.fieldMargin (s : State) : Int := s.setting 12
/-- MAX_RACK. -/
def State.maxRack (s : State) : Int := s.setting 13
/-- MIN_NEEDLE_PERIOD in units of 0.1 µs. -/
def State.minNeedlePeriod (s : State) : Int := s.setting 14
/-- STALL_TIME in units of 0.1 µs. -/
def State.stallTime (s : State) : Nat := (s.setting 15).toNat * Config.ticksPerMs
/-- REVERSAL_TOLERANCE. -/
def State.reversalTolerance (s : State) : Int := s.setting 16
/-- CONFIRM_NEEDLES. -/
def State.confirmNeedles (s : State) : Nat := (s.setting 17).toNat
/-- SWEEP_INTERVAL in units of 0.1 µs. -/
def State.sweepInterval (s : State) : Nat := (s.setting 18).toNat * Config.ticksPerMs
/-- STOP_SWEEPS. -/
def State.stopSweeps (s : State) : Nat := (s.setting 19).toNat
/-- SILENT_LIMIT. -/
def State.silentLimit (s : State) : Nat := (s.setting 20).toNat
/-- KNOT_LEVEL. -/
def State.knotLevel (s : State) : Nat := (s.setting 21).toNat
/-- SHOCK_SWEEPS. -/
def State.shockSweeps (s : State) : Nat := (s.setting 22).toNat
/-- QUIET_SWEEPS. -/
def State.quietSweeps (s : State) : Nat := (s.setting 23).toNat
/-- EVENT_WATERMARK. -/
def State.eventWatermark (s : State) : Nat := (s.setting 24).toNat
/-- PASS_MARK_INTERVAL. -/
def State.passMarkInterval (s : State) : Nat := (s.setting 25).toNat
/-- The set of conditions held by setting n (26 to 29) has condition number c. -/
def State.setHolds (s : State) (n c : Nat) : Bool := (s.setting n).toNat.testBit c

/-- The fitted systems in rising number. -/
def State.fitted (s : State) : List Nat := List.range s.systems

/-! ### Geometry (introduction, section 3) -/

/-- +1 rightward, −1 leftward. -/
def Direction.sign : Direction → Int
  | .rightward => 1
  | .leftward => -1

/-- field_low. -/
def State.fieldLow (s : State) : Int := -s.maxRack - s.fieldMargin
/-- field_high. -/
def State.fieldHigh (s : State) : Int := s.needles - 1 + s.maxRack + s.fieldMargin
/-- A position in the field. -/
def State.inField (s : State) (x : Int) : Bool := decide (s.fieldLow ≤ x) && decide (x ≤ s.fieldHigh)
/-- The largest offset of the fitted systems. -/
def State.maxOffset (s : State) : Int := s.fitted.foldl (fun m i => max m (s.offset i)) (s.offset 0)
/-- The smallest offset of the fitted systems. -/
def State.minOffset (s : State) : Int := s.fitted.foldl (fun m i => min m (s.offset i)) (s.offset 0)

/-- The entry point of direction d (section 3.6). -/
def State.entryPoint (s : State) : Direction → Int
  | .rightward => s.fieldLow - s.maxOffset - s.lead
  | .leftward => s.fieldHigh - s.minOffset + s.lead

/-- X lies beyond the exit of direction d (section 3.6). -/
def State.beyondExit (s : State) : Direction → Int → Bool
  | .rightward, x => decide (s.fieldHigh - s.minOffset < x)
  | .leftward, x => decide (x < s.fieldLow - s.maxOffset)

/-- y lies further along direction d than x. -/
def Direction.beyond (d : Direction) (y x : Int) : Bool :=
  match d with
  | .rightward => decide (x < y)
  | .leftward => decide (y < x)

/-- The selection point of system i at X (section 3.4). -/
def State.selectionPoint (s : State) (i : Nat) (x : Int) (d : Direction) : Int := x + s.offset i + d.sign * s.lead

/-- The latch point of system i at X (section 3.4). -/
def State.latchPoint (s : State) (i : Nat) (x : Int) : Int := x + s.offset i

/-- Pair p exists for racking r (section 3.5). -/
def State.pairExists (s : State) (r p : Int) : Bool :=
  decide (min 0 (-r) ≤ p) && decide (p ≤ max (s.needles - 1) (s.needles - 1 - r))

/-- Needle n exists on its bed (section 3.1). -/
def State.needleExists (s : State) (n : Int) : Bool := decide (0 ≤ n) && decide (n < s.needles)

/-! ### Position -/

/-- REFERENCED or DOUBTFUL: X is meaningful and steps are emitted (section 1.1). -/
def PosState.valid : PosState → Bool
  | .referenced | .doubtful => true
  | .unreferenced | .seeking | .lost => false

/-- The position of a count: floor(C / COUNTS_PER_NEEDLE) (R3). -/
def State.positionOf (s : State) (c : Int) : Int := c / s.countsPerNeedle

/-- The carriage position X. -/
def State.carriageX (s : State) : Int := s.positionOf s.tracker.count

/-- R22: an X clamped to a signed 16-bit field. -/
def clampX (x : Int) : Int := max (-32768) (min 32767 x)

/-! ### Tables by number; a number past the end of a table reads as an empty entry and writes nothing -/

/-- A table with g applied to every entry, written so that the kernel evaluates it. -/
def mapTable {α β : Type} {n : Nat} (g : α → β) (v : Vector α n) : Vector β n :=
  Vector.mk (Array.mk (v.toList.map g)) (by simp)

/-- Line id. -/
def State.line (s : State) (id : Nat) : Line := s.store.getD id .free
/-- Writes line id. -/
def State.putLine (s : State) (id : Nat) (l : Line) : State := s.setStore (s.store.setIfInBounds id l)
/-- Feeder f. -/
def State.feeder (s : State) (f : Nat) : Feeder := s.feeders.table.getD f .undeclared
/-- The latch record of system i. -/
def State.latch (s : State) (i : Nat) : Latch := s.feeders.latches.getD i (Latch.mk .opened 0)
/-- Writes the latch record of system i. -/
def State.putLatch (s : State) (i : Nat) (l : Latch) : State :=
  s.setFeeders { s.feeders with latches := s.feeders.latches.setIfInBounds i l }
/-- The level on the couple-sense input of system i. -/
def State.sense (s : State) (i : Nat) : Bool := s.feeders.senses.getD i false
/-- The head record of feeder f's head, whose bus address is f + 1. -/
def State.head (s : State) (f : Nat) : HeadRecord := s.yarn.heads.getD f HeadRecord.initial
/-- Writes that head record. -/
def State.putHead (s : State) (f : Nat) (h : HeadRecord) : State :=
  s.setYarn { s.yarn with heads := s.yarn.heads.setIfInBounds f h }
/-- The codes that system i's banks present. -/
def State.bank (s : State) (i : Nat) : BankPair := s.engine.banks.getD i (BankPair.mk .miss .miss)
/-- Gives system i's banks their codes. -/
def State.putBank (s : State) (i : Nat) (b : BankPair) : State :=
  s.setEngine { s.engine with banks := s.engine.banks.setIfInBounds i b }
/-- Every bank to MISS (R89). -/
def State.clearBanks (s : State) : State :=
  s.setEngine { s.engine with banks := Vector.replicate 4 (BankPair.mk .miss .miss) }

/-! ### Bytes (R169) -/

/-- The n bytes of v in two's complement, least significant byte first. -/
def bytesOf (n : Nat) (v : Int) : List Byte := (List.range n).map fun i => BitVec.ofInt 8 (v / (256 : Int) ^ i)

/-- A byte from its bits, bit 0 first. -/
def bitsByte (bs : List Bool) : Byte := BitVec.ofNat 8 (bs.foldr (fun b acc => 2 * acc + b.toNat) 0)

/-- Two bytes as an unsigned number, low byte first. -/
def word16 (lo hi : Byte) : Nat := lo.toNat + 256 * hi.toNat

/-- An unsigned number of n bits read as two's complement. -/
def signedOf (n : Nat) (v : Nat) : Int := if v < 2 ^ (n - 1) then (v : Int) else (v : Int) - (2 : Int) ^ n

/-! ### The check (R170) -/

/-- One bit step of the check register: generator x^16 + x^12 + x^5 + 1. -/
def crcBit (c : Word16) : Word16 := if c.msb then (c <<< 1) ^^^ 0x1021#16 else c <<< 1

/-- A byte taken into the check register most significant bit first. -/
def crcByte (c : Word16) (b : Byte) : Word16 :=
  crcBit (crcBit (crcBit (crcBit (crcBit (crcBit (crcBit (crcBit (c ^^^ (b.setWidth 16 <<< 8)))))))))

/-- The check register after bytes have been taken in. Both arms of the test say the same; the test has each byte evaluated before
the next one is taken. -/
def crcOver : List Byte → Word16 → Word16
  | [], c => c
  | b :: bs, c => if crcByte c b = 0xFFFF#16 then crcOver bs 0xFFFF#16 else crcOver bs (crcByte c b)

/-- The check over a list of bytes: preset FFFFh, no final inversion. -/
def crc16 (bs : List Byte) : Word16 := crcOver bs 0xFFFF#16

/-- R187: the checksum of the present setting values, over 120 bytes. -/
def State.computedChecksum (s : State) : Word16 := crc16 (s.settings.values.toList.flatMap (bytesOf 4))

/-! ### Link port -/

/-- R173: an odd number of the sampled levels are high. -/
def parityGood (l : Levels4) : Bool := ((l.getLsbD 0 ^^ l.getLsbD 1) ^^ l.getLsbD 2) ^^ l.getLsbD 3

/-- R173: the address that the sampled levels give. -/
def LinkPort.address (p : LinkPort) : Nat := p.straps.toNat % 8

/-- Sets the receiver. -/
def State.setRx (s : State) (r : Rx) : State := s.setLink { s.link with rx := r }

/-! ### Pass and plan -/

/-- The engine has a record ACTIVE or FINISHING. -/
def State.passInProgress (s : State) : Bool := s.engine.pass.isSome

/-- The queue's head is ACTIVE. -/
def State.headActive (s : State) : Bool :=
  match s.queue.records with
  | r :: _ => decide (r.state = .active)
  | [] => false

/-- The queue's head is FINISHING. -/
def State.headFinishing (s : State) : Bool :=
  match s.queue.records with
  | r :: _ => decide (r.state = .finishing)
  | [] => false

/-- The feeder is TAKING, COUPLED or RELEASING (R101). -/
def Feeder.carried : Feeder → Bool
  | .taking _ _ | .coupled _ _ | .releasing _ _ _ => true
  | .undeclared | .parked _ _ | .faulted _ => false

/-- The latch is CLOSING or OPENING. -/
def LatchState.outstanding : LatchState → Bool
  | .closing _ _ | .opening _ => true
  | .opened | .closed _ => false

/-- R102: the drive is closed while the latch is CLOSING or CLOSED. -/
def LatchState.driveClosed : LatchState → Bool
  | .closing _ _ | .closed _ => true
  | .opened | .opening _ => false

/-- Some latch is CLOSING or OPENING. -/
def State.latchOutstanding (s : State) : Bool := (List.range 4).any fun i => (s.latch i).state.outstanding

/-- R183: the drive line of system i, open for a system that is not fitted. -/
def State.latchDrive (s : State) (i : Nat) : Bool := decide (i < s.systems) && (s.latch i).state.driveClosed

/-- The feeders that are carried, in rising number. -/
def State.carriedFeeders (s : State) : List Nat := (List.range 16).filter fun f => (s.feeder f).carried

end Sys2Proof.Machine
end

