-- ==== Sys2Proof/Machine/Clock.lean ====
section
/-! DEFINITION. The passage of time: one unit of 0.1 µs of the interval clock, taken by a step that finds no command waiting
(DESIGN CHOICE, log 2). A timer that runs out puts its expiry's command into the queue. -/

namespace Sys2Proof.Machine

/-- R17: the interval clock advances by one and wraps; the seek and stall timers count down. -/
def Tracker.tick (t : Tracker) : Tracker :=
  { t with
    clock := t.clock + 1
    seekTimer := t.seekTimer.map fun n => n - 1
    stallTimer := t.stallTimer.map fun n => n - 1 }

/-- R161: the timestamp advances by one every 10 µs and wraps. -/
def ConditionMonitor.tick (m : ConditionMonitor) : ConditionMonitor :=
  if Config.ticksPerStamp ≤ m.subStamp + 1 then { m with timestamp := m.timestamp + 1, subStamp := 0 }
  else { m with subStamp := m.subStamp + 1 }

/-- R129, R126: the sweep timer and the bus gap. -/
def YarnMonitor.tick (y : YarnMonitor) : YarnMonitor :=
  { y with sweepTimer := y.sweepTimer - 1, gap := y.gap - 1 }

/-- A timer runs out at the tick. -/
def runsOut (t : Option Nat) : Bool := (t.map fun n => decide (n ≤ 1)).getD false

/-- The next poll of a sweep in progress would begin at the tick (R126, R131). -/
def YarnMonitor.pollDue (y : YarnMonitor) : Bool :=
  match y.sweep with
  | some (Sweep.mk none _) => decide (y.gap ≤ 1)
  | some (Sweep.mk (some _) _) | none => false

/-- The commands that the tick brings about, in this order (log 2). -/
def State.expiries (s : State) : List Instr :=
  (if runsOut s.tracker.seekTimer then [Instr.seekTimerExpiry] else [])
    ++ (if runsOut s.tracker.stallTimer then [Instr.stallTimerExpiry] else [])
    ++ (if decide (s.yarn.sweepTimer ≤ 1) then [Instr.sweepTimerExpiry] else [])
    ++ (if s.yarn.pollDue then [Instr.pollStart] else [])

/-- One unit of time passes. -/
def State.tick (s : State) : State :=
  { s with
    pending := s.pending ++ s.expiries
    tracker := s.tracker.tick
    monitor := s.monitor.tick
    yarn := s.yarn.tick }

end Sys2Proof.Machine
end

