-- ==== Sys2Proof/Machine/Flags.lean ====
section
/-! DEFINITION. The condition monitor (chapter 7): raising without its handover, the event queue, the live values, the summary
flags and the output lines. -/

namespace Sys2Proof.Machine

/-! ### Conditions -/

/-- The conditions in the order of their numbers. -/
def Cond.all : List Cond :=
  [.posJump, .markSlip, .posLost, .homeTimeout, .stall, .overspeed, .reversal, .wrongWay, .noGo, .starved,
   .xferClash, .xferEdge, .feederMissed, .feederStuck, .yarnStop, .yarnSnag, .yarnKnot, .headSilent,
   .settingsCheck, .strapChange, .addressParity, .frameFault, .eventOverrun]

/-- The number of a condition (section 7.1). -/
def Cond.num : Cond → Nat
  | .posJump => 0 | .markSlip => 1 | .posLost => 2 | .homeTimeout => 3 | .stall => 4 | .overspeed => 5
  | .reversal => 6 | .wrongWay => 7 | .noGo => 8 | .starved => 9 | .xferClash => 10 | .xferEdge => 11
  | .feederMissed => 12 | .feederStuck => 13 | .yarnStop => 14 | .yarnSnag => 15 | .yarnKnot => 16
  | .headSilent => 17 | .settingsCheck => 18 | .strapChange => 19 | .addressParity => 20
  | .frameFault => 21 | .eventOverrun => 22

/-- The live conditions of section 7.1. -/
def Cond.isLiveKind : Cond → Bool
  | .posLost | .stall | .yarnStop | .yarnSnag | .headSilent | .strapChange | .addressParity => true
  | .posJump | .markSlip | .homeTimeout | .overspeed | .reversal | .wrongWay | .noGo | .starved | .xferClash
  | .xferEdge | .feederMissed | .feederStuck | .yarnKnot | .settingsCheck | .frameFault | .eventOverrun => false

/-- The pass-fatal conditions of section 7.1, each with its own abort reason (R95). -/
def Cond.fatalReason : Cond → Option AbortReason
  | .posLost => some .posLost
  | .overspeed => some .overspeed
  | .reversal => some .reversal
  | .wrongWay => some .wrongWay
  | .noGo => some .noGo
  | .feederMissed => some .feederMissed
  | .feederStuck => some .feederStuck
  | .settingsCheck => some .settingsCheck
  | .posJump | .markSlip | .homeTimeout | .stall | .starved | .xferClash | .xferEdge | .yarnStop | .yarnSnag
  | .yarnKnot | .headSilent | .strapChange | .addressParity | .frameFault | .eventOverrun => none

/-- The condition a detail belongs to. -/
def Detail.cond : Detail → Cond
  | .posJump _ => .posJump
  | .markSlip _ => .markSlip
  | .posLost _ => .posLost
  | .homeTimeout => .homeTimeout
  | .stall _ _ => .stall
  | .overspeed _ => .overspeed
  | .reversal _ _ => .reversal
  | .wrongWay _ _ => .wrongWay
  | .noGo _ => .noGo
  | .starved _ => .starved
  | .xferClash _ _ => .xferClash
  | .xferEdge _ _ _ => .xferEdge
  | .feederMissed _ _ _ => .feederMissed
  | .feederStuck _ _ _ => .feederStuck
  | .yarnStop _ => .yarnStop
  | .yarnSnag _ _ => .yarnSnag
  | .yarnKnot _ => .yarnKnot
  | .headSilent _ _ => .headSilent
  | .settingsCheck _ _ => .settingsCheck
  | .strapChange _ _ => .strapChange
  | .addressParity _ => .addressParity
  | .frameFault _ _ => .frameFault
  | .eventOverrun _ => .eventOverrun

/-- The tag of an event (R164). -/
def Event.tag : Event → EventTag
  | .passStarted _ _ => .passStarted
  | .passEnded _ _ => .passEnded
  | .passAborted _ _ _ => .passAborted
  | .feederTaken _ _ _ => .feederTaken
  | .feederReleased _ _ _ => .feederReleased
  | .condition _ => .condition
  | .homed _ _ => .homed
  | .passMark _ => .passMark
  | .headWriteDone _ _ => .headWriteDone
  | .queueFlushed _ _ => .queueFlushed

/-- The record of condition c. -/
def ConditionMonitor.record (m : ConditionMonitor) (c : Cond) : CondRecord := m.records.getD c.num (CondRecord.mk none false)

/-- Writes the record of condition c. -/
def ConditionMonitor.putRecord (m : ConditionMonitor) (c : Cond) (r : CondRecord) : ConditionMonitor :=
  { m with records := m.records.setIfInBounds c.num r }

/-- The event queue holds its 128 entries, so an append is discarded (R165). -/
def ConditionMonitor.full (m : ConditionMonitor) : Bool := decide (Config.eventCapacity ≤ m.events.length)

/-- R165: a raise of EVENT_OVERRUN for a discarded entry. Its own CONDITION entry meets the same full queue and is discarded
without a further raise. -/
def ConditionMonitor.noteOverrun (m : ConditionMonitor) (t : EventTag) : ConditionMonitor :=
  m.putRecord .eventOverrun (CondRecord.mk ((m.record .eventOverrun).latched.or (some (.eventOverrun t))) true)

/-- R163, R165: an append at the tail with the present timestamp; on a full queue the entry is discarded and EVENT_OVERRUN
raised. -/
def ConditionMonitor.append (m : ConditionMonitor) (e : Event) : ConditionMonitor :=
  if m.full then m.noteOverrun e.tag
  else { m with events := m.events ++ [EventEntry.mk m.timestamp e] }

/-- Steps 1 and 2 of R150. Step 3 needs no action, since the lines and the summary flags are computed from the state; step 4
is `State.raise` in Machine/Pass.lean. -/
def ConditionMonitor.noteRaise (m : ConditionMonitor) (d : Detail) : ConditionMonitor :=
  let marked := m.putRecord d.cond (CondRecord.mk ((m.record d.cond).latched.or (some d)) true)
  if (m.record d.cond).latched.isSome then marked else marked.append (.condition d)

/-- The raise of d discards its CONDITION entry and so raises EVENT_OVERRUN within itself (R165). -/
def ConditionMonitor.overruns (m : ConditionMonitor) (d : Detail) : Bool := !(m.record d.cond).latched.isSome && m.full

/-- A raise without its handover. -/
def State.noteRaise (s : State) (d : Detail) : State := s.setMonitor (s.monitor.noteRaise d)

/-- An append without a handover. -/
def State.append (s : State) (e : Event) : State := s.setMonitor (s.monitor.append e)

/-! ### Live values (R148): computed from the state of their owners -/

/-- R133: the head's HEAD_SILENT contribution. -/
def State.silentContribution (s : State) (f : Nat) : Bool := decide ((s.head f).silentRun = s.silentLimit)
/-- R133: the head's YARN_STOP contribution. -/
def State.stopContribution (s : State) (f : Nat) : Bool := decide ((s.head f).stillRun = s.stopSweeps)
/-- R133: the head's YARN_SNAG contribution. -/
def State.snagContribution (s : State) (f : Nat) : Bool := decide ((s.head f).spike = .snagged)

/-- R173: ADDRESS_PARITY is live from a sample of bad parity to the next sample. -/
def State.addressParityLive (s : State) : Bool := !parityGood s.link.straps

/-- R174: STRAP_CHANGE is live while the last reading differs from the sample. -/
def State.strapChangeLive (s : State) : Bool := decide (s.link.reading ≠ s.link.straps)

/-- The live value of a condition; false for an event condition, which has none. -/
def State.live (s : State) : Cond → Bool
  | .posLost => decide (s.tracker.position = .lost)
  | .stall => s.tracker.stallLive
  | .yarnStop => (List.range 16).any s.stopContribution
  | .yarnSnag => (List.range 16).any s.snagContribution
  | .headSilent => (List.range 16).any s.silentContribution
  | .strapChange => s.strapChangeLive
  | .addressParity => s.addressParityLive
  | .posJump | .markSlip | .homeTimeout | .overspeed | .reversal | .wrongWay | .noGo | .starved | .xferClash
  | .xferEdge | .feederMissed | .feederStuck | .yarnKnot | .settingsCheck | .frameFault | .eventOverrun => false

/-! ### Masks, summary flags and lines -/

/-- ALERT_MASK holds c. -/
def State.inAlertMask (s : State) (c : Cond) : Bool := s.setHolds 26 c.num
/-- CAUTION_MASK holds c. -/
def State.inCautionMask (s : State) (c : Cond) : Bool := s.setHolds 27 c.num
/-- STOP_ROUTE holds c. -/
def State.inStopRoute (s : State) (c : Cond) : Bool := s.setHolds 28 c.num
/-- ATTN_ROUTE holds c. -/
def State.inAttnRoute (s : State) (c : Cond) : Bool := s.setHolds 29 c.num

/-- The latched flag of c. -/
def State.latched (s : State) (c : Cond) : Bool := (s.monitor.record c).latched.isSome
/-- The captured flag of c. -/
def State.captured (s : State) (c : Cond) : Bool := (s.monitor.record c).captured

/-- R155. -/
def State.alert (s : State) : Bool :=
  s.monitor.forcedAlert || Cond.all.any fun c => s.inAlertMask c && (s.captured c || s.live c)

/-- R156. -/
def State.caution (s : State) : Bool :=
  s.monitor.forcedCaution || Cond.all.any fun c => s.inCautionMask c && s.latched c

/-- R159. -/
def State.service (s : State) : Bool := decide (s.eventWatermark ≤ s.monitor.events.length)

/-- R158: the STOP line is asserted. -/
def State.stopLine (s : State) : Bool := Cond.all.any fun c => s.inStopRoute c && s.latched c

/-- R159: the ATTN line is asserted. -/
def State.attnLine (s : State) : Bool := s.service || Cond.all.any fun c => s.inAttnRoute c && s.latched c

/-- R190: the READY line is high. -/
def State.readyLine (s : State) : Bool := s.settings.locked && s.tracker.position.valid && !s.addressParityLive

/-- R178, R22: the status summary of the state as it stands. -/
def State.summary (s : State) : Summary where
  alert := s.alert
  caution := s.caution
  service := s.service
  ready := s.readyLine
  running := decide (s.queue.plan = .running)
  passBusy := s.passInProgress
  stop := s.stopLine
  forced := s.monitor.forcedAlert || s.monitor.forcedCaution
  queueLength := s.queue.records.length
  unread := s.monitor.events.length
  position := s.tracker.position
  x := if s.tracker.position.valid then clampX s.carriageX else 0

/-- R154: every captured flag cleared. -/
def ConditionMonitor.clearCaptured (m : ConditionMonitor) : ConditionMonitor :=
  { m with records := mapTable (fun r => { r with captured := false }) m.records }

/-- R153: a latched flag is cleared unless its condition is live and true. -/
def State.clearConditions (s : State) : State :=
  s.setMonitor (Cond.all.foldl
    (fun m c => if s.live c then m else m.putRecord c { m.record c with latched := none }) s.monitor)

end Sys2Proof.Machine
end

