-- ==== Sys2Proof/Machine/Records.lean ====
section
/-! DEFINITION. Shared operations of the pass queue and the feeder unit: references, the projection, action marks, the change
of a feeder's state, the resolution of latches, the flush and the arming of the head. -/

namespace Sys2Proof.Machine

/-! ### References to lines (R37, R38) -/

/-- The channels of a record, entry by entry, front before back. -/
def PassRecord.channels (r : PassRecord) : List Channel :=
  r.entries.flatMap fun e => e.front.toList ++ e.back.toList

/-- One reference more; only a SEALED line takes one (R37). -/
def Line.addRef : Line → Line
  | .sealed d c n => .sealed d c (n + 1)
  | .free => .free
  | .opened d => .opened d

/-- One reference less. -/
def Line.dropRef : Line → Line
  | .sealed d c n => .sealed d c (n - 1)
  | .free => .free
  | .opened d => .opened d

/-- R37: the counts of the lines a record names are raised, once for each channel. -/
def addRefs (store : Vector Line 64) (r : PassRecord) : Vector Line 64 :=
  r.channels.foldl (fun st c => st.setIfInBounds c.line (st.getD c.line .free).addRef) store

/-- R38: the counts a record took are returned. -/
def dropRefs (store : Vector Line 64) (r : PassRecord) : Vector Line 64 :=
  r.channels.foldl (fun st c => st.setIfInBounds c.line (st.getD c.line .free).dropRef) store

/-! ### The projected feeder table (R58) -/

/-- The rail of a feeder record; an UNDECLARED feeder has none. -/
def Feeder.rail? : Feeder → Option Nat
  | .undeclared => none
  | .parked r _ | .taking r _ | .coupled r _ | .releasing r _ _ | .faulted r => some r

/-- The rail, 0 where there is none. -/
def Feeder.rail (f : Feeder) : Nat := f.rail?.getD 0

/-- R66, R67: a feeder of the actual table as the projection takes it: a TAKING feeder as COUPLED, a RELEASING one as PARKED
at its release point. -/
def Feeder.project : Feeder → ProjFeeder
  | .undeclared => .undeclared
  | .parked r p => .parked r p
  | .taking r i => .coupled r i
  | .coupled r i => .coupled r i
  | .releasing r _ x => .parked r x
  | .faulted r => .faulted r

/-- R66, R67: the projected holder of a latch. -/
def Latch.projectedHolder (l : Latch) : Option Nat :=
  match l.state with
  | .closing f _ | .closed f => some f
  | .opened | .opening _ => none

/-- The projection rebuilt from the actual table. -/
def FeederUnit.project (u : FeederUnit) : Projection where
  feeders := mapTable Feeder.project u.table
  holders := mapTable Latch.projectedHolder u.latches

/-- A projected feeder's rail. -/
def ProjFeeder.rail? : ProjFeeder → Option Nat
  | .undeclared => none
  | .parked r _ | .coupled r _ | .faulted r => some r

/-- Projected feeder f. -/
def Projection.feeder (p : Projection) (f : Nat) : ProjFeeder := p.feeders.getD f .undeclared
/-- The projected holder of latch i. -/
def Projection.holder (p : Projection) (i : Nat) : Option Nat := p.holders.getD i none

/-- R57: one action of system i applied to the projection. -/
def Projection.advance (p : Projection) (i : Nat) : FeederAction → Projection
  | .take f =>
    Projection.mk (p.feeders.setIfInBounds f (.coupled ((p.feeder f).rail?.getD 0) i)) (p.holders.setIfInBounds i (some f))
  | .release f x =>
    Projection.mk (p.feeders.setIfInBounds f (.parked ((p.feeder f).rail?.getD 0) x)) (p.holders.setIfInBounds i none)

/-- R57, R67: the record's actions marked NOT_REACHED applied in list order, entry by entry. -/
def Projection.advanceRecord (p : Projection) (r : PassRecord) : Projection :=
  r.entries.foldl (fun q e => e.actions.foldl
    (fun q a => if a.mark = .notReached then q.advance e.system a.act else q) q) p

/-! ### The head record -/

/-- Applies g to the head record. -/
def State.mapHead (s : State) (g : PassRecord → PassRecord) : State :=
  s.setQueue { s.queue with records := match s.queue.records with
    | [] => []
    | r :: rs => g r :: rs }

/-- Gives the head record a state (R44). -/
def State.setHeadState (s : State) (v : RecordState) : State := s.mapHead fun r => { r with state := v }

/-- The system entry of the head record for system i. -/
def State.headEntry (s : State) (i : Nat) : Option SystemEntry :=
  match s.queue.records with
  | r :: _ => r.entries.find? fun e => e.system == i
  | [] => none

/-- The first mark equal to `old` becomes `new`. -/
def markFirst (old new : Mark) : List MarkedAction → List MarkedAction
  | [] => []
  | a :: as => if a.mark = old then { a with mark := new } :: as else a :: markFirst old new as

/-- In the head record, the first action of system i with mark `old` takes the mark `new` (R59). -/
def State.remark (s : State) (i : Nat) (old new : Mark) : State :=
  s.mapHead fun r => { r with entries := r.entries.map fun e =>
    if e.system = i then { e with actions := markFirst old new e.actions } else e }

/-- R59: the pending action of system i is settled. -/
def State.settle (s : State) (i : Nat) (m : Mark) : State := s.remark i .pending m

/-- R82: the next action of system i: the first of its entry whose mark is NOT_REACHED. -/
def State.nextAction (s : State) (i : Nat) : Option FeederAction :=
  match s.headEntry i with
  | some e => (e.actions.find? fun a => decide (a.mark = .notReached)).map MarkedAction.act
  | none => none

/-! ### Feeders and latches -/

/-- R132: the head record of a feeder that leaves the carried states. -/
def HeadRecord.reset (h : HeadRecord) : HeadRecord :=
  { h with silentRun := 0, stillRun := 0, spike := .calm, travel := false }

/-- R131: the poll in progress of feeder f's head will be discarded. -/
def Sweep.discard (f : Nat) (w : Sweep) : Sweep :=
  match w.current with
  | some (.poll g cut _) => if g = f then { w with current := some (.poll g cut true) } else w
  | some .write | none => w

/-- R131, R132: what the yarn monitor does when feeder f leaves the carried states. -/
def State.leaveCarried (s : State) (f : Nat) : State :=
  s.setYarn { s.yarn with
    heads := s.yarn.heads.setIfInBounds f (s.head f).reset
    sweep := s.yarn.sweep.map (Sweep.discard f) }

/-- Gives feeder f a record; a feeder that leaves the carried states resets its head record in the same event (R132). -/
def State.putFeeder (s : State) (f : Nat) (v : Feeder) : State :=
  let t := s.setFeeders { s.feeders with table := s.feeders.table.setIfInBounds f v }
  if (s.feeder f).carried && !v.carried then t.leaveCarried f else t

/-- The latch of system i becomes OPEN with no held feeder and countdown 0. -/
def State.openLatch (s : State) (i : Nat) : State := s.putLatch i (Latch.mk .opened 0)

/-- The release point of a RELEASING feeder. -/
def Feeder.releasePoint : Feeder → Int
  | .releasing _ _ x => x
  | .undeclared | .parked _ _ | .taking _ _ | .coupled _ _ | .faulted _ => 0

/-- Feeder f returns to its take position and its latch opens (R112, R119). -/
def State.returnFeeder (s : State) (i f : Nat) (pos : Int) : State :=
  (s.putFeeder f (.parked (s.feeder f).rail pos)).openLatch i

/-- Feeder f becomes FAULTED, keeping its rail, and its latch opens (R115, R117, R119). -/
def State.faultFeeder (s : State) (i f : Nat) : State :=
  (s.putFeeder f (.faulted (s.feeder f).rail)).openLatch i

/-- R119: the resolution of the latch of system i. -/
def State.resolveLatch (s : State) (i : Nat) : State :=
  match (s.latch i).state with
  | .closing f pos => (s.returnFeeder i f pos).settle i .otherwise
  | .opening f => (s.faultFeeder i f).settle i .otherwise
  | .opened | .closed _ => s

/-- R119: the resolution of every latch that is CLOSING or OPENING. -/
def State.resolveAll (s : State) : State := (List.range 4).foldl State.resolveLatch s

/-! ### Flush and arming -/

/-- R66: every record is removed with its references, the projection is rebuilt, the plan becomes HELD and QUEUE_FLUSHED is
logged. -/
def State.flush (s : State) (cause : FlushCause) : State :=
  let removed := s.queue.records.length
  let t := s.setStore (s.queue.records.foldl dropRefs s.store)
  let u := t.setQueue (PassQueue.mk [] .held t.feeders.project)
  u.append (.queueFlushed removed cause)

/-- R63: a QUEUED head arms while the plan is RUNNING. -/
def PassRecord.arm (r : PassRecord) : PassRecord :=
  { r with state := match r.start with
    | .onEntry => .armed none
    | .onGo => .armed (some .waitGo) }

/-- R63. -/
def State.armHead (s : State) : State :=
  if s.queue.plan = .running then s.mapHead fun r => if r.state = .queued then r.arm else r else s

/-- R123: while the queue is empty the projection follows the actual table. -/
def State.followProjection (s : State) : State :=
  match s.queue.records with
  | [] => s.setQueue { s.queue with proj := s.feeders.project }
  | _ :: _ => s

end Sys2Proof.Machine
end

