-- ==== Sys2Proof/Machine/Pass.lean ====
section
/-! DEFINITION. The pass engine (chapter 4): the abort and the completion of a pass, the raise with its handover, entry
crossings, steps, pair arrivals, and the feeder unit's handling of a step (R107 to R116). -/

namespace Sys2Proof.Machine

/-! ### Abort, raise and completion -/

/-- R16: the end of the pass, as the engine marks it to the tracker. -/
def Tracker.endPass (t : Tracker) : Tracker :=
  { t with phase := .none, lastAdvance := none, stallTimer := none, stallLive := false }

/-- The tag of the head record. -/
def State.headTag (s : State) : Word16 :=
  match s.queue.records with
  | r :: _ => r.tag
  | [] => 0

/-- R96: the abort of the ACTIVE or FINISHING record, taken at most once (R99): banks to MISS, latches resolved, end of pass to
the tracker, PASS_ABORTED, flush. -/
def State.abortPass (s : State) (reason : AbortReason) : State :=
  match s.engine.pass with
  | none => s
  | some p =>
    let t := s.clearBanks.resolveAll
    let u := (t.setTracker t.tracker.endPass).append (.passAborted s.headTag reason p.furthestPair)
    (u.setEngine { u.engine with pass := none }).flush .abort

/-- R97: the abort of an ARMED head at an entry crossing. -/
def State.abortHead (s : State) (reason : AbortReason) : State :=
  (s.append (.passAborted s.headTag reason none)).flush .abort

/-- R151, R95, R165: the reason with which a raise of d aborts a pass in progress: its own where the condition is pass-fatal,
ROUTED where STOP_ROUTE holds it, and otherwise that of a routed EVENT_OVERRUN raised within it. -/
def State.abortReason (s : State) (d : Detail) (overran : Bool) : Option AbortReason :=
  match d.cond.fatalReason with
  | some r => some r
  | none =>
    if s.inStopRoute d.cond then some (.routed d.cond)
    else if overran && s.inStopRoute .eventOverrun then some (.routed .eventOverrun) else none

/-- An abort for an optional reason. -/
def State.abortFor (s : State) : Option AbortReason → State
  | some r => s.abortPass r
  | none => s

/-- R150: a raise taken whole, with its handover to the pass engine. -/
def State.raise (s : State) (d : Detail) : State :=
  (s.noteRaise d).abortFor (s.abortReason d (s.monitor.overruns d))

/-- An append outside a raise and outside an abort: an EVENT_OVERRUN that it raises is handed over at once (R165, R151). -/
def State.log (s : State) (e : Event) : State :=
  (s.append e).abortFor (if s.monitor.full && s.inStopRoute .eventOverrun then some (.routed .eventOverrun) else none)

/-- Some action of the head record is marked OTHERWISE (R60). -/
def State.headOffPlan (s : State) : Bool :=
  match s.queue.records with
  | r :: _ => r.entries.any fun e => e.actions.any fun a => decide (a.mark = .otherwise)
  | [] => false

/-- R65: the queue removes the completed head, returns its references and appends a cycling record again; the new head arms. -/
def State.completeRecord (s : State) : State :=
  match s.queue.records with
  | [] => s
  | r :: rs =>
    let t := s.setStore (dropRefs s.store r)
    let u :=
      if r.cycle then
        (t.setStore (addRefs t.store r)).setQueue { s.queue with records := rs ++ [{ r with state := .queued }] }
      else t.setQueue { s.queue with records := rs }
    u.armHead

/-- R93: the counter's new value is due a PASS_MARK. -/
def State.markDue (s : State) (counter : Word16) : Bool :=
  decide (s.passMarkInterval ≠ 0) && decide (counter.toNat % s.passMarkInterval = 0)

/-- R92: the completion of the pass. The completion is taken before anything its own entries raise (R99), so its appends hand
no abort over (log 9). -/
def State.completePass (s : State) : State :=
  let counter := s.engine.passCounter + 1
  let off := s.headOffPlan
  let t := (s.setTracker s.tracker.endPass).setEngine { s.engine with passCounter := counter, pass := none }
  let u := t.append (.passEnded s.headTag counter)
  let v := if s.markDue counter then u.append (.passMark counter) else u
  let w := v.completeRecord
  if off then w.flush .unconfirmed else w

/-- R91: a FINISHING pass with no latch CLOSING or OPENING completes. -/
def State.completeIfSettled (s : State) : State :=
  if s.passInProgress && s.headFinishing && !s.latchOutstanding then s.completePass else s

/-! ### Selection codes (R85 to R88) -/

/-- R40: the code at index i of a line. -/
def Line.codeAt (l : Line) (i : Nat) : Code :=
  match l with
  | .free => .miss
  | .opened d | .sealed d _ _ => d.codes.getD i .miss

/-- The length of a line, 0 where it is FREE. -/
def Line.length : Line → Nat
  | .free => 0
  | .opened d | .sealed d _ _ => d.codes.length

/-- R86: the code that a channel gives needle n of its bed. -/
def State.channelCode (s : State) (c : Channel) (n : Int) : Code :=
  if decide ((c.start : Int) ≤ n) && decide (n < (c.start : Int) + (c.width : Int)) then
    let i := (n - (c.start : Int)).toNat
    let l := s.line c.line
    match c.mode with
    | .tile => l.codeAt ((c.offset + i) % l.length)
    | .span => if c.offset + i < l.length then l.codeAt (c.offset + i) else c.fill
  else c.fill

/-- R86, R87: the code found for needle n of a bed, MISS where the channel is absent or the needle does not exist. -/
def State.foundCode (s : State) (c : Option Channel) (n : Int) : Code :=
  if s.needleExists n then
    match c with
    | some ch => s.channelCode ch n
    | none => .miss
  else .miss

/-- R88: the codes an XFER-mode system presents at pair p, and the raise of a demotion. -/
def State.judgeTransfer (s : State) (i : Nat) (r p : Int) (f b : Code) : BankPair × Option Detail :=
  if f = .send ∧ b = .send then (BankPair.mk .miss .miss, some (.xferClash i p))
  else if f = .send ∧ s.needleExists (p + r) = false then (BankPair.mk .miss b, some (.xferEdge i p .front))
  else if b = .send ∧ s.needleExists p = false then (BankPair.mk f .miss, some (.xferEdge i p .back))
  else (BankPair.mk f b, none)

/-- R85: what system i presents at pair p, by the cam mode of its entry in the current record. -/
def State.arrivalCodes (s : State) (i : Nat) (r p : Int) : BankPair × Option Detail :=
  match s.headEntry i with
  | none => (BankPair.mk .miss .miss, none)
  | some e =>
    match e.mode with
    | .idle => (BankPair.mk .miss .miss, none)
    | .knit => (BankPair.mk (s.foundCode e.front p) (s.foundCode e.back (p + r)), none)
    | .xfer => s.judgeTransfer i r p (s.foundCode e.front p) (s.foundCode e.back (p + r))

/-- R71, R82: the furthest pair reached after an arrival at p. -/
def furtherPair (d : Direction) (old : Option Int) (p : Int) : Option Int :=
  match old with
  | none => some p
  | some q => if d.beyond p q then some p else some q

/-- R85: the pair arrival of system i at pair p. `moves` is false at a re-arrival, which does not move the furthest pair. -/
def State.arriveAt (s : State) (moves : Bool) (pass : Pass) (i : Nat) (p : Int) : State :=
  let codes := s.arrivalCodes i pass.racking p
  let t := s.putBank i codes.1
  let u := if moves then
      t.setEngine { t.engine with pass := some { pass with furthestPair := furtherPair pass.dir pass.furthestPair p } }
    else t
  match codes.2 with
  | some d => u.raise d
  | none => u

/-- The arrival of system i at X, where its selection point stands on an existing pair and the pass is still in progress. -/
def State.arrive (moves : Bool) (x : Int) (s : State) (i : Nat) : State :=
  match s.engine.pass with
  | none => s
  | some pass =>
    let p := s.selectionPoint i x pass.dir
    if s.pairExists pass.racking p then s.arriveAt moves pass i p else s

/-- The arrivals of one step, in rising system number; an abort ends them (R85). -/
def State.arrivals (s : State) (moves : Bool) (x : Int) : State := s.fitted.foldl (State.arrive moves x) s

/-! ### The feeder unit's handling of a step (R107) -/

/-- R112: a take whose countdown has run out: FEEDER_MISSED, the feeder back at its take position, the latch open. -/
def State.expireTake (s : State) (i f : Nat) (pos : Int) : State :=
  (((s.noteRaise (.feederMissed f i .take)).returnFeeder i f pos).settle i .otherwise)

/-- R115: a release whose countdown has run out: FEEDER_STUCK, the feeder FAULTED, the latch open. -/
def State.expireRelease (s : State) (i f : Nat) : State :=
  (((s.noteRaise (.feederStuck f i (s.feeder f).releasePoint)).faultFeeder i f).settle i .otherwise)

/-- Stage 1 of R107 for one latch: its countdown falls by one and is judged at 0; the first reason of the step is kept (R116). -/
def State.countdownStep (acc : State × Option AbortReason) (i : Nat) : State × Option AbortReason :=
  let s := acc.1
  let l := s.latch i
  match l.state with
  | .opened | .closed _ => acc
  | .closing f pos =>
    if l.countdown ≤ 1 then (s.expireTake i f pos, acc.2.or (some .feederMissed))
    else (s.putLatch i { l with countdown := l.countdown - 1 }, acc.2)
  | .opening f =>
    if l.countdown ≤ 1 then (s.expireRelease i f, acc.2.or (some .feederStuck))
    else (s.putLatch i { l with countdown := l.countdown - 1 }, acc.2)

/-- Stage 1 of R107: every countdown is judged before the abort is taken, once, with the first reason. -/
def State.countdowns (s : State) : State :=
  let r := s.fitted.foldl State.countdownStep (s, none)
  r.1.abortFor r.2

/-- R109: system i has reached TAKE(f), f being parked on the rail at pos. -/
def State.driveTake (s : State) (i f rail : Nat) (pos : Int) : State :=
  if s.sense i then
    ((s.noteRaise (.feederMissed f i .senseHigh)).remark i .notReached .otherwise).abortPass .feederMissed
  else
    (((s.putLatch i (Latch.mk (.closing f pos) s.confirmNeedles)).putFeeder f (.taking rail i)).remark i .notReached .pending)

/-- R113: system i has reached RELEASE(f, x), and latch i is CLOSED with f. -/
def State.driveRelease (s : State) (i f : Nat) (x : Int) : State :=
  (((s.putLatch i (Latch.mk (.opening f) s.confirmNeedles)).putFeeder f (.releasing (s.feeder f).rail i x)).remark i
    .notReached .pending)

/-- Stage 2 of R107 for system i: its next action is carried out where its latch point stands on the action's path position;
a RELEASE that fails the check of R108 is settled OTHERWISE and the next action is judged at the same step. A TAKE is carried out
on an OPEN latch, as R109 finds it; with another latch state, which no run reaches, it waits (log 26). The fuel is the number of
actions an entry can hold. -/
def State.reach (x : Int) (i : Nat) : Nat → State → State
  | 0, s => s
  | fuel + 1, s =>
    match s.nextAction i with
    | none => s
    | some (.take f) =>
      match s.feeder f with
      | .parked rail pos =>
        if s.latchPoint i x = pos ∧ (s.latch i).state = .opened then s.driveTake i f rail pos else s
      | .undeclared | .taking _ _ | .coupled _ _ | .releasing _ _ _ | .faulted _ => s
    | some (.release f px) =>
      if s.latchPoint i x = px then
        if (s.latch i).state = .closed f then s.driveRelease i f px
        else State.reach x i fuel (s.remark i .notReached .otherwise)
      else s

/-- Stage 2 for system i, unless the pass has ended within the step. -/
def State.reachIfPass (x : Int) (s : State) (i : Nat) : State :=
  if s.passInProgress then State.reach x i 2 s else s

/-- R107: the step as the feeder unit takes it. -/
def State.feederStep (s : State) (x : Int) : State :=
  let t := s.countdowns
  if t.passInProgress then t.fitted.foldl (State.reachIfPass x) t else t

/-! ### Steps (R73, R74) -/

/-- R136: the travel marks of the heads whose feeders are carried. -/
def State.markTravel (s : State) : State :=
  s.carriedFeeders.foldl (fun t f => t.putHead f { t.head f with travel := true }) s

/-- R17, R18: the needle period of an advancing step of an ACTIVE pass. -/
def State.measurePeriod (s : State) : State :=
  match s.tracker.lastAdvance with
  | none => s
  | some t0 =>
    let period := min 65535 (s.tracker.clock - t0).toNat
    let t := s.setTracker { s.tracker with lastPeriod := some period, lastAdvance := some s.tracker.clock }
    if (period : Int) < s.minNeedlePeriod then t.raise (.overspeed period) else t

/-- R90: the exit step at the end of R82. -/
def State.exitPass (s : State) : State :=
  let t := s.clearBanks
  if t.latchOutstanding then
    (t.setHeadState .finishing).setTracker { t.tracker with phase := .finishing }
  else t.completePass

/-- R82, R90: an advancing step of an ACTIVE record, whose furthest X has been moved; an abort ends the step, but a feeder unit
that has taken the step leaves the yarn monitor its count (log 10). -/
def State.activeAdvance (s : State) (d : Direction) (x : Int) : State :=
  let t := s.measurePeriod
  if t.passInProgress then
    let u := t.arrivals true x
    if u.passInProgress then
      let v := (u.feederStep x).markTravel
      if v.passInProgress && v.beyondExit d x then v.exitPass else v
    else u
  else t

/-- R74, R82, R91: a step in the pass direction beyond the furthest X. -/
def State.advance (s : State) (pass : Pass) (x : Int) : State :=
  let t := s.setEngine { s.engine with pass := some { pass with furthestX := x } }
  if s.headActive then t.activeAdvance pass.dir x else t.feederStep x

/-- R83: a re-arrival; in a FINISHING record it presents no code. -/
def State.reArrival (s : State) (x : Int) : State := if s.headActive then s.arrivals false x else s

/-- R84: a step against the pass direction. -/
def State.retreat (s : State) (pass : Pass) (x : Int) : State :=
  let r := (pass.furthestX - x) * pass.dir.sign
  if s.reversalTolerance < r then s.raise (.reversal r x) else s

/-- R79: the pass starts at X. -/
def State.startPass (s : State) (r : PassRecord) (x : Int) : State :=
  let t := s.mapHead fun h => { h with
    state := .active
    entries := h.entries.map fun e => { e with actions := e.actions.map fun a => { a with mark := .notReached } } }
  let u := t.setEngine { t.engine with pass := some (Pass.mk r.direction r.racking x none) }
  let v := u.setTracker { u.tracker with
    phase := .active, lastAdvance := some u.tracker.clock, stallTimer := some u.stallTime, stallLive := false }
  (v.log (.passStarted r.tag r.direction)).arrivals true x

/-- R78, R188: the computed checksum agrees with the stored one. -/
def State.checksumAgrees (s : State) : Bool := decide (s.settings.checksum = some s.computedChecksum)

/-- R75 to R79: an entry crossing in direction d while the plan is RUNNING. -/
def State.entryCrossing (s : State) (d : Direction) (x : Int) : State :=
  match s.queue.records with
  | [] => s.raise (.starved d)
  | r :: _ =>
    match r.state with
    | .queued | .active | .finishing => s
    | .armed go =>
      if r.direction ≠ d then (s.raise (.wrongWay r.tag d)).abortHead .wrongWay
      else if go = some .waitGo then (s.raise (.noGo r.tag)).abortHead .noGo
      else if s.checksumAgrees then s.startPass r x
      else (s.raise (.settingsCheck (s.settings.checksum.getD 0) s.computedChecksum)).abortHead .settingsCheck

/-- R73: a step while the engine has no current record. -/
def State.noPassStep (s : State) (d : Direction) (x : Int) : State :=
  if x = s.entryPoint d ∧ s.queue.plan = .running then s.entryCrossing d x else s

/-- R19: a step of a pass restarts the stall timer and ends STALL. -/
def State.restartStall (s : State) : State :=
  if s.tracker.phase = .none then s
  else s.setTracker { s.tracker with stallTimer := some s.stallTime, stallLive := false }

/-- R3, R4, R73, R74: a step event that takes X to x in direction d. -/
def State.carriageStep (s : State) (d : Direction) (x : Int) : State :=
  let t := (s.setTracker { s.tracker with lastDir := d }).restartStall
  match t.engine.pass with
  | none => t.noPassStep d x
  | some pass =>
    if d = pass.dir then
      if d.beyond x pass.furthestX then t.advance pass x else t.reArrival x
    else t.retreat pass x

end Sys2Proof.Machine
end

