-- ==== Sys2Proof/Machine/Replies.lean ====
section
/-! DEFINITION. The bytes that the part sends: named values, records, event entries and reply frames, as sections 8.1 and 8.6 to
8.8 lay them out. -/

namespace Sys2Proof.Machine

/-! ### Named values (R179) -/

/-- Direction. -/
def Direction.code : Direction → Nat
  | .rightward => 0
  | .leftward => 1

/-- Position state code (section 1.1). -/
def PosState.code : PosState → Nat
  | .unreferenced => 0 | .seeking => 1 | .referenced => 2 | .doubtful => 3 | .lost => 4

/-- Pass phase. -/
def PassPhase.code : PassPhase → Nat
  | .none => 0 | .active => 1 | .finishing => 2

/-- Selection code. -/
def Code.value : Code → Nat
  | .miss => 0 | .tuck => 1 | .knit => 2 | .send => 3

/-- Census: bit n set when the code of value n occurs. -/
def censusByte (c : List Code) : Byte :=
  bitsByte [c.contains .miss, c.contains .tuck, c.contains .knit, c.contains .send]

/-- Record state. -/
def RecordState.code : RecordState → Nat
  | .queued => 0 | .armed _ => 1 | .active => 2 | .finishing => 3

/-- Plan state. -/
def PlanState.code : PlanState → Nat
  | .held => 0 | .running => 1

/-- Feeder state. -/
def Feeder.code : Feeder → Nat
  | .undeclared => 0 | .parked _ _ => 1 | .taking _ _ => 2 | .coupled _ _ => 3 | .releasing _ _ _ => 4 | .faulted _ => 5

/-- Feeder state of a projected feeder. -/
def ProjFeeder.code : ProjFeeder → Nat
  | .undeclared => 0 | .parked _ _ => 1 | .coupled _ _ => 3 | .faulted _ => 5

/-- Latch state. -/
def LatchState.code : LatchState → Nat
  | .opened => 0 | .closing _ _ => 1 | .closed _ => 2 | .opening _ => 3

/-- Spike state in bits 0 and 1, its count in bits 4 to 7. -/
def Spike.code : Spike → Nat
  | .calm => 0 | .rising k => 1 + 16 * k | .settling j => 2 + 16 * j | .snagged => 3

/-- Abort reason. -/
def AbortReason.code : AbortReason → Nat
  | .reversal => 0 | .overspeed => 1 | .posLost => 2 | .feederMissed => 3 | .feederStuck => 4 | .settingsCheck => 5
  | .wrongWay => 6 | .noGo => 7 | .halt => 8 | .routed _ => 9

/-- Flush cause. -/
def FlushCause.code : FlushCause → Nat
  | .abort => 0 | .halt => 1 | .unconfirmed => 2 | .cancel => 3

/-- Source of a FEEDER_MISSED. -/
def MissedSource.code : MissedSource → Nat
  | .take => 0 | .senseHigh => 1 | .dropped => 2

/-- Cause of a FRAME_FAULT. -/
def FrameCause.code : FrameCause → Nat
  | .check => 0 | .kind => 1 | .body => 2 | .broadcast => 3

/-- Silent outcome. -/
def silentCode : SilentOutcome → Nat
  | .noReply => 0
  | .malformed => 1

/-- Head write outcome. -/
def writeCode : WriteOutcome → Nat
  | .ok => 0
  | .noReply => 1

/-- Event tag code (section 8.8.4). -/
def EventTag.code : EventTag → Nat
  | .passStarted => 1 | .passEnded => 2 | .passAborted => 3 | .feederTaken => 4 | .feederReleased => 5
  | .condition => 6 | .homed => 7 | .passMark => 8 | .headWriteDone => 9 | .queueFlushed => 10

/-- Result code (section 8.7); RACK_RANGE has no code there, and its byte is one of the 22 other than 0 and 7 (log 22). -/
def ResultCode.code : ResultCode → Nat
  | .accepted => 0 | .badRequest => 1 | .range => 2 | .locked => 3 | .notLocked => 4 | .notReady => 5 | .busy => 6
  | .queueFull => 8 | .noRoom => 9 | .lineState => 10 | .inUse => 11 | .shortLine => 12 | .badSystem => 13
  | .lineNotSealed => 14 | .codeMode => 15 | .feederState => 16 | .offPath => 17 | .actionOrder => 18
  | .railBlocked => 19 | .railShared => 20 | .cycleFeeder => 21 | .notWaiting => 22 | .headBusy => 23
  | .rackRange => if Config.freeRackRangeCode % 22 < 6 then Config.freeRackRangeCode % 22 + 1
      else Config.freeRackRangeCode % 22 + 2

/-! ### Events and details (section 8.8.4) -/

/-- A list of bytes filled up with zeros to length n. -/
def padTo (n : Nat) (bs : List Byte) : List Byte := (bs ++ List.replicate n 0).take n

/-- R12: a deviation of magnitude above 127 is reported as −128 or +127. -/
def clampDeviation (d : Int) : Int := if d < -127 then -128 else min 127 d

/-- A MARK_SLIP detail. -/
def SlipSource.bytes : SlipSource → List Byte
  | .needle d => bytesOf 1 0 ++ bytesOf 1 (clampDeviation d)
  | .home d => bytesOf 1 1 ++ bytesOf 1 (clampDeviation d)
  | .absent x => bytesOf 1 2 ++ bytesOf 2 (clampX x)

/-- The fields of a condition's detail. -/
def Detail.fields : Detail → List Byte
  | .posJump st => bytesOf 1 st.code
  | .markSlip src => src.bytes
  | .posLost .jump => bytesOf 1 0
  | .posLost .slip => bytesOf 1 1
  | .homeTimeout => []
  | .stall ph x => bytesOf 1 ph.code ++ bytesOf 2 (clampX x)
  | .overspeed p => bytesOf 2 p
  | .reversal r x => bytesOf 1 r ++ bytesOf 2 (clampX x)
  | .wrongWay t d => bytesOf 2 t.toNat ++ bytesOf 1 d.code
  | .noGo t => bytesOf 2 t.toNat
  | .starved d => bytesOf 1 d.code
  | .xferClash i p => bytesOf 1 i ++ bytesOf 2 p
  | .xferEdge i p .front => bytesOf 1 i ++ bytesOf 2 p ++ bytesOf 1 0
  | .xferEdge i p .back => bytesOf 1 i ++ bytesOf 2 p ++ bytesOf 1 1
  | .feederMissed f i src => bytesOf 1 f ++ bytesOf 1 i ++ bytesOf 1 src.code
  | .feederStuck f i x => bytesOf 1 f ++ bytesOf 1 i ++ bytesOf 2 x
  | .yarnStop h => bytesOf 1 h
  | .yarnSnag h t => bytesOf 1 h ++ bytesOf 2 t
  | .yarnKnot h => bytesOf 1 h
  | .headSilent h o => bytesOf 1 h ++ bytesOf 1 (silentCode o)
  | .settingsCheck a b => bytesOf 2 a.toNat ++ bytesOf 2 b.toNat
  | .strapChange a b => bytesOf 1 a.toNat ++ bytesOf 1 b.toNat
  | .addressParity a => bytesOf 1 a.toNat
  | .frameFault c k => bytesOf 1 c.code ++ [k.getD 0]
  | .eventOverrun t => bytesOf 1 t.code

/-- The 4-byte detail. -/
def Detail.bytes (d : Detail) : List Byte := padTo 4 d.fields

/-- The condition number that PASS_ABORTED carries; FFh where it is absent (R181). -/
def AbortReason.condByte : AbortReason → Byte
  | .routed c => BitVec.ofNat 8 c.num
  | .reversal | .overspeed | .posLost | .feederMissed | .feederStuck | .settingsCheck | .wrongWay | .noGo | .halt => 0xFF#8

/-- The payload fields of an event; a furthest pair of none is sent as 8000h (R181). -/
def Event.fields : Event → List Byte
  | .passStarted t d => bytesOf 2 t.toNat ++ bytesOf 1 d.code
  | .passEnded t c => bytesOf 2 t.toNat ++ bytesOf 2 c.toNat
  | .passAborted t r p => bytesOf 2 t.toNat ++ bytesOf 1 r.code ++ bytesOf 2 (p.getD (-32768)) ++ [r.condByte]
  | .feederTaken f i x => bytesOf 1 f ++ bytesOf 1 i ++ bytesOf 2 x
  | .feederReleased f i x => bytesOf 1 f ++ bytesOf 1 i ++ bytesOf 2 x
  | .condition d => bytesOf 1 d.cond.num ++ d.bytes
  | .homed c x => bytesOf 4 c ++ bytesOf 2 (clampX x)
  | .passMark c => bytesOf 2 c.toNat
  | .headWriteDone h o => bytesOf 1 h ++ bytesOf 1 (writeCode o)
  | .queueFlushed n c => bytesOf 1 n ++ bytesOf 1 c.code

/-- A READ_EVENTS entry: tag 1, timestamp 4, payload 6. -/
def EventEntry.bytes (e : EventEntry) : List Byte :=
  bytesOf 1 e.event.tag.code ++ bytesOf 4 e.timestamp.toNat ++ padTo 6 e.event.fields

/-! ### Query records (section 8.8.3); an absent field is sent as zeros -/

/-- A presence byte: bit n for the n-th optional field (R179). -/
def presence (bs : List Bool) : Byte := bitsByte bs

/-- R21: the seek time remaining in milliseconds. A part of a millisecond rounds one way or the other (log 5). -/
def seekMs (remaining : Nat) : Nat :=
  if remaining % Config.ticksPerMs = 0 then remaining / Config.ticksPerMs
  else remaining / Config.ticksPerMs + (Config.freeSeekRoundsUp remaining).toNat

/-- An X of the position record; one beyond the field is open (log 6). -/
def positionX (x : Int) : List Byte :=
  if x = clampX x then bytesOf 2 x else bytesOf 2 (Config.freeWideX x).toNat

/-- R21. -/
def State.positionRecord (s : State) : List Byte :=
  let t := s.tracker
  let seek : Option Nat := if t.position = .seeking then t.seekTimer else none
  [presence [t.position.valid, seek.isSome, t.markWindow.isSome, t.lastPeriod.isSome]]
    ++ bytesOf 1 t.position.code ++ bytesOf 4 t.count
    ++ (if t.position.valid then positionX s.carriageX else bytesOf 2 0)
    ++ [bitsByte [decide (t.lastDir = .leftward), decide (t.phase = .active), decide (t.phase = .finishing), t.stallLive,
        (t.markWindow.map fun w => decide (w.side = .high)).getD false, (t.markWindow.map MarkWindow.satisfied).getD false]]
    ++ bytesOf 2 ((seek.map seekMs).getD 0)
    ++ (match t.markWindow with
        | some w => positionX (w.mark * s.markSpacing)
        | none => bytesOf 2 0)
    ++ bytesOf 2 (t.lastPeriod.getD 0)

/-- The number of lines that are not FREE. -/
def State.linesNotFree (s : State) : Nat := (s.store.toList.filter fun l => decide (l ≠ .free)).length

/-- The length L of a line, 0 where it is FREE. -/
def lineCells : Line → Nat
  | .free => 0
  | .opened d | .sealed d _ _ => d.codes.length

/-- R26: the cell count. -/
def State.cellCount (s : State) : Nat := (s.store.toList.map lineCells).sum

/-- R26: the cells free. -/
def State.cellsFree (s : State) : Nat := Config.codeCells - s.cellCount

/-- R36. -/
def State.lineRecord (s : State) (id : Nat) : List Byte :=
  bytesOf 1 id
    ++ (match s.line id with
        | .free => [presence [false, false]] ++ bytesOf 1 0 ++ bytesOf 2 0 ++ bytesOf 2 0 ++ bytesOf 2 0 ++ bytesOf 1 0
            ++ bytesOf 1 0
        | .opened d => [presence [true, false]] ++ bytesOf 1 1 ++ bytesOf 2 d.codes.length ++ bytesOf 2 d.cursor
            ++ bytesOf 2 d.extent ++ bytesOf 1 0 ++ bytesOf 1 0
        | .sealed d c n => [presence [true, true]] ++ bytesOf 1 2 ++ bytesOf 2 d.codes.length ++ bytesOf 2 d.cursor
            ++ bytesOf 2 d.extent ++ [censusByte c] ++ bytesOf 1 n)
    ++ bytesOf 1 s.linesNotFree ++ bytesOf 2 s.cellsFree

/-- One record of QUERY_QUEUE (R69). -/
def PassRecord.bytes (r : PassRecord) : List Byte :=
  let go : Option GoState := match r.state with
    | .armed g => g
    | .queued | .active | .finishing => none
  bytesOf 2 r.tag.toNat
    ++ [bitsByte [decide (r.direction = .leftward), decide (r.start = .onGo), r.cycle, go.isSome, decide (go = some .goGiven)]]
    ++ bytesOf 1 r.racking ++ bytesOf 1 r.entries.length ++ bytesOf 1 r.state.code

/-- One projected feeder (presence: rail, position, system). -/
def ProjFeeder.bytes (f : ProjFeeder) : List Byte :=
  match f with
  | .undeclared => [presence [false, false, false]] ++ bytesOf 1 f.code ++ bytesOf 1 0 ++ bytesOf 2 0 ++ bytesOf 1 0
  | .parked r p => [presence [true, true, false]] ++ bytesOf 1 f.code ++ bytesOf 1 r ++ bytesOf 2 p ++ bytesOf 1 0
  | .coupled r i => [presence [true, false, true]] ++ bytesOf 1 f.code ++ bytesOf 1 r ++ bytesOf 2 0 ++ bytesOf 1 i
  | .faulted r => [presence [true, false, false]] ++ bytesOf 1 f.code ++ bytesOf 1 r ++ bytesOf 2 0 ++ bytesOf 1 0

/-- A projected holder. -/
def holderBytes (h : Option Nat) : List Byte := [presence [h.isSome]] ++ bytesOf 1 (h.getD 0)

/-- R69: queue and projection. -/
def State.queueRecord (s : State) : List Byte :=
  bytesOf 1 s.queue.plan.code ++ bytesOf 1 s.queue.records.length
    ++ s.queue.records.flatMap PassRecord.bytes
    ++ s.queue.proj.feeders.toList.flatMap ProjFeeder.bytes
    ++ s.fitted.flatMap fun i => holderBytes (s.queue.proj.holder i)

/-- A feeder record (presence: rail, parked position, system, release point). -/
def Feeder.bytes (f : Feeder) : List Byte :=
  match f with
  | .undeclared => [presence [false, false, false, false]] ++ bytesOf 1 f.code ++ bytesOf 1 0 ++ bytesOf 2 0 ++ bytesOf 1 0
      ++ bytesOf 2 0
  | .parked r p => [presence [true, true, false, false]] ++ bytesOf 1 f.code ++ bytesOf 1 r ++ bytesOf 2 p ++ bytesOf 1 0
      ++ bytesOf 2 0
  | .taking r i | .coupled r i => [presence [true, false, true, false]] ++ bytesOf 1 f.code ++ bytesOf 1 r ++ bytesOf 2 0
      ++ bytesOf 1 i ++ bytesOf 2 0
  | .releasing r i x => [presence [true, false, true, true]] ++ bytesOf 1 f.code ++ bytesOf 1 r ++ bytesOf 2 0
      ++ bytesOf 1 i ++ bytesOf 2 x
  | .faulted r => [presence [true, false, false, false]] ++ bytesOf 1 f.code ++ bytesOf 1 r ++ bytesOf 2 0 ++ bytesOf 1 0
      ++ bytesOf 2 0

/-- A latch record (presence: held feeder, take position). -/
def latchBytes (l : Latch) (sense : Bool) : List Byte :=
  let held : Option Nat := match l.state with
    | .closing f _ | .closed f | .opening f => some f
    | .opened => none
  let pos : Option Int := match l.state with
    | .closing _ p => some p
    | .closed _ | .opening _ | .opened => none
  [presence [held.isSome, pos.isSome]] ++ bytesOf 1 l.state.code ++ bytesOf 1 (held.getD 0) ++ bytesOf 2 (pos.getD 0)
    ++ bytesOf 1 l.countdown ++ [bitsByte [l.state.driveClosed, sense]]

/-- R124: feeder and latch records. -/
def State.feederRecords (s : State) : List Byte :=
  s.feeders.table.toList.flatMap Feeder.bytes ++ s.fitted.flatMap fun i => latchBytes (s.latch i) (s.sense i)

/-- One head record of QUERY_HEADS (R145). -/
def State.headBytes (s : State) (f : Nat) : List Byte :=
  let h := s.head f
  [bitsByte [(s.feeder f).carried, h.travel, s.silentContribution f, s.stopContribution f, s.snagContribution f,
      h.lastMotion.isSome]]
    ++ bytesOf 1 h.silentRun ++ bytesOf 1 h.stillRun ++ bytesOf 1 h.spike.code
    ++ bytesOf 1 ((h.lastMotion.map BitVec.toNat).getD 0) ++ bytesOf 2 ((h.lastTension.map BitVec.toNat).getD 0)

/-- R145: head records, pending write, sweep in progress. -/
def State.headRecords (s : State) : List Byte :=
  (List.range 16).flatMap s.headBytes
    ++ (match s.yarn.pendingWrite with
        | some w => [presence [true]] ++ bytesOf 1 w.head ++ bytesOf 1 w.item ++ bytesOf 2 w.value
        | none => [presence [false]] ++ bytesOf 1 0 ++ bytesOf 1 0 ++ bytesOf 2 0)
    ++ bytesOf 1 s.yarn.sweep.isSome.toNat

/-- One condition record of QUERY_CONDITIONS (R167). -/
def State.conditionBytes (s : State) (c : Cond) : List Byte :=
  let r := s.monitor.record c
  [bitsByte [r.latched.isSome, r.captured, c.isLiveKind, s.live c, r.latched.isSome]]
    ++ (match r.latched with
        | some d => d.bytes
        | none => bytesOf 4 0)

/-- R167: condition records, summary flags and lines. -/
def State.conditionRecords (s : State) : List Byte :=
  Cond.all.flatMap s.conditionBytes
    ++ [bitsByte [s.monitor.forcedAlert, s.monitor.forcedCaution, s.alert, s.caution, s.service, s.stopLine, s.attnLine]]

/-! ### Replies -/

/-- The status summary in bytes (section 8.6). -/
def Summary.bytes (m : Summary) : List Byte :=
  [bitsByte [m.alert, m.caution, m.service, m.ready, m.running, m.passBusy, m.stop, m.forced]]
    ++ bytesOf 1 m.queueLength ++ bytesOf 1 m.unread ++ bytesOf 1 m.position.code ++ bytesOf 2 m.x

/-- The body of a reply: result code, status summary, request-specific data. -/
def Reply.body (r : Reply) : List Byte := bytesOf 1 r.result.code ++ r.summary.bytes ++ r.data

/-- R169, R170: the reply as it stands on the pair: sync, unit, kind with 80h added, length, body, check low byte first. -/
def Reply.frame (r : Reply) : List Byte :=
  let covered := bytesOf 1 r.address ++ [r.kind + 0x80#8] ++ bytesOf 1 r.body.length ++ r.body
  [0xA7#8] ++ covered ++ bytesOf 2 (crc16 covered).toNat

end Sys2Proof.Machine
end

