-- ==== Sys2Proof/WellFormed.lean ====
section
/-! DEFINITION. Which commands are well formed: the operands an event of that row can have. -/

namespace Sys2Proof

/-- A kind byte of 80h or above marks a reply (R172). -/
def kindIsReply (k : Byte) : Bool := 0x80 ≤ k.toNat

/-- The table of section 8.8 names the kinds 01h to 20h. -/
def kindIsKnown (k : Byte) : Bool := decide (0x01 ≤ k.toNat) && decide (k.toNat ≤ 0x20)

/-- The four kinds that may be broadcast: HALT 0Eh, GO 0Fh, CLEAR_CONDITIONS 17h and SYNC_TIME 1Ah (R177). -/
def kindMayBeBroadcast (k : Byte) : Bool :=
  k.toNat == 0x0E || k.toNat == 0x0F || k.toNat == 0x17 || k.toNat == 0x1A

/-- A frame body has 0 to 240 bytes; a longer length byte abandons the frame (R169, R171). -/
def bodyFits (body : List Byte) : Bool := decide (body.length ≤ 240)

/-- The kind byte of an UNKNOWN_KIND: a request kind that names no kind (R175). -/
def unknownKindByte (k : Byte) : Bool := !kindIsReply k && !kindIsKnown k

/-- The kind byte of a BROADCAST_REFUSED: a request kind, known or unknown, outside the four (R177). -/
def refusedBroadcastByte (k : Byte) : Bool := !kindIsReply k && !kindMayBeBroadcast k

/-- The check of one command. -/
def Instr.wellFormed : Instr → Bool
  | .powerOn _ | .restartEffect _ | .countTransition _ | .illegalTransition => true
  | .homeMarkEdge | .needleMarkEdge | .seekTimerExpiry | .stallTimerExpiry => true
  | .takeCountdownExpiry _ | .releaseCountdownExpiry _ | .coupleSenseEdge _ _ => true
  | .sweepTimerExpiry | .pollStart | .pollEnd _ | .headWriteEnd _ => true
  | .strapRead _ | .settingsDisturbance _ | .frameAbandon | .badCheckFrame | .replyEnd => true
  | .frameStart | .foreignFrame => true
  | .unknownKind k => unknownKindByte k
  | .broadcastRefused k => refusedBroadcastByte k
  | .restart b | .status b | .home b | .queryPosition b | .defineLine b | .writeLine b | .sealLine b => bodyFits b
  | .reopenLine b | .dropLine b | .queryLine b | .queuePass b | .cancelQueued b | .stopCycling b => bodyFits b
  | .resume b | .halt _ b | .go _ b | .queryQueue b | .declareFeeder b | .forgetFeeder b => bodyFits b
  | .queryFeeders b | .headWrite b | .queryHeads b | .queryConditions b | .clearConditions _ b => bodyFits b
  | .force b | .readEvents b | .syncTime _ b | .readSetting b | .writeSetting b | .lockSettings b => bodyFits b
  | .unlockSettings b | .identify b => bodyFits b

end Sys2Proof
end

