-- ==== Sys2Proof/Machine/Link.lean ====
section
/-! DEFINITION. The link port: how a request is taken and answered, and the frame commands (chapter 8). -/

namespace Sys2Proof.Machine

/-- What a block answers to a request: the result code and the request-specific data. -/
structure Answer where
  result : ResultCode
  data : List Byte
  deriving DecidableEq, Repr

/-- ACCEPTED with data. -/
def accept (data : List Byte) : Answer := Answer.mk .accepted data

/-- A refusal with the status summary only. -/
def refuse (r : ResultCode) : Answer := Answer.mk r []

/-- The outcome of every meaning but an ill-formed command's. -/
abbrev Next := Host.Outcome State Fault Refusal

/-- R154, R175: the reply is assembled from the state as it stands, the captured flags are cleared in the same event, and the
receiver enters REPLY. -/
def State.sendReply (s : State) (kind : Byte) (a : Answer) : State :=
  (s.setMonitor s.monitor.clearCaptured).setRx (.reply (Reply.mk s.link.address kind a.result s.summary a.data))

/-- The receiver is sending a reply, so what arrives is discarded (R171). -/
def Rx.busy : Rx → Bool
  | .reply _ => true
  | .hunt | .frame => false

/-- R175: the parsed request goes to its owner, or the malformed body is answered BAD_REQUEST. -/
def State.judgeRequest {α : Type} (s : State) (kind : Byte) (parsed : Option α) (owner : α → State → State × Answer) : State :=
  match parsed with
  | none => (s.raise (.frameFault .body (some kind))).sendReply kind (refuse .badRequest)
  | some a => (owner a s).1.sendReply kind (owner a s).2

/-- R171, R172, R175: a complete good frame addressed to this unit. In REPLY its characters are discarded; while ADDRESS_PARITY
is live it is foreign. A request command stands for its whole frame, so it is taken in HUNT as in FRAME (log 4). -/
def State.addressed {α : Type} (s : State) (kind : Byte) (parsed : Option α) (owner : α → State → State × Answer) : State :=
  if s.link.rx.busy then s
  else if s.addressParityLive then s.setRx .hunt
  else s.judgeRequest kind parsed owner

/-- R177: a good broadcast of a kind that may be broadcast; it is not answered. -/
def State.broadcast {α : Type} (s : State) (kind : Byte) (parsed : Option α) (owner : α → State → State × Answer) : State :=
  if s.link.rx.busy then s
  else match parsed with
    | none => (s.raise (.frameFault .body (some kind))).setRx .hunt
    | some a => (owner a s).1.setRx .hunt

/-- An addressed or broadcast request. -/
def State.request {α : Type} (s : State) (dest : Dest) (kind : Byte) (parsed : Option α)
    (owner : α → State → State × Answer) : State :=
  match dest with
  | .addressed => s.addressed kind parsed owner
  | .broadcast => s.broadcast kind parsed owner

/-- An owner that changes nothing and answers ACCEPTED with data read from the state. -/
def reads {α : Type} (data : α → State → List Byte) (a : α) (s : State) : State × Answer := (s, accept (data a s))

/-! ### The frame commands -/

/-- FRAME_START (R171): in HUNT the receiver enters FRAME; an A7h inside a frame is an ordinary byte, and one in REPLY is
discarded. -/
def execFrameStart (s : State) : Next :=
  .next (match s.link.rx with
    | .hunt => s.setRx .frame
    | .frame | .reply _ => s)

/-- A frame that ends without a reply and raises FRAME_FAULT, unless the receiver is in REPLY. -/
def State.faultFrame (s : State) (cause : FrameCause) (kind : Option Byte) : State :=
  if s.link.rx.busy then s else (s.raise (.frameFault cause kind)).setRx .hunt

/-- FRAME_ABANDON (R171). -/
def execFrameAbandon (s : State) : Next := .next (s.faultFrame .check none)

/-- BAD_CHECK_FRAME (R172 case 1). -/
def execBadCheckFrame (s : State) : Next := .next (s.faultFrame .check none)

/-- FOREIGN_FRAME (R172 cases 2 and 5): ignored without a condition. -/
def execForeignFrame (s : State) : Next := .next (if s.link.rx.busy then s else s.setRx .hunt)

/-- UNKNOWN_KIND (R175 case 1): FRAME_FAULT with cause KIND, then the BAD_REQUEST reply. -/
def execUnknownKind (kind : Byte) (s : State) : Next :=
  if unknownKindByte kind then
    .next (if s.link.rx.busy then s
      else if s.addressParityLive then s.setRx .hunt
      else (s.raise (.frameFault .kind (some kind))).sendReply kind (refuse .badRequest))
  else .refused (.illFormed "UNKNOWN_KIND")

/-- BROADCAST_REFUSED (R177): ignored with FRAME_FAULT cause BROADCAST, by every unit, with or without an address. -/
def execBroadcastRefused (kind : Byte) (s : State) : Next :=
  if refusedBroadcastByte kind then .next (s.faultFrame .broadcast (some kind))
  else .refused (.illFormed "BROADCAST_REFUSED")

/-- REPLY_END (R171, R176): the pair is released and the receiver returns to HUNT. The release after a RESTART reply is
RESTART_EFFECT's event and not this one (R182, log 12). -/
def execReplyEnd (s : State) : Next :=
  .next (if s.link.rx.busy && !s.link.restartPending then s.setRx .hunt else s)

/-- STRAP_READ (R174): the levels now; the reading that makes STRAP_CHANGE true is its raise. -/
def execStrapRead (levels : Levels4) (s : State) : Next :=
  let t := s.setLink { s.link with reading := levels }
  .next (if t.strapChangeLive && !s.strapChangeLive then t.raise (.strapChange s.link.straps levels) else t)

end Sys2Proof.Machine
end

