-- ==== Sys2Proof/Machine/Operands.lean ====
section
/-! DEFINITION. The request bodies of section 8.8: what each kind's body says, read from its bytes, with none for a malformed body
(R179, R180), and the encoders that write a body, from the same layouts. -/

namespace Sys2Proof.Machine

/-! ### Kinds (section 8.8) -/

/-- The kind byte number n. -/
abbrev kindByte (n : Nat) : Byte := BitVec.ofNat 8 n

/-! ### Fixed bodies -/

/-- An empty body. -/
def parseEmpty : List Byte → Option Unit
  | [] => some ()
  | _ :: _ => none

/-- One unsigned byte: a line id, a feeder, a count of events or a setting number. -/
def parseByte : List Byte → Option Nat
  | [b] => some b.toNat
  | _ => none

/-- DEFINE_LINE: id and length. -/
def parseDefineLine : List Byte → Option (Nat × Nat)
  | [i, l0, l1] => some (i.toNat, word16 l0 l1)
  | _ => none

/-- A DECLARE_FEEDER request. -/
structure DeclareRequest where
  feeder : Nat
  rail : Nat
  position : Int
  deriving DecidableEq, Repr

/-- DECLARE_FEEDER: feeder, rail, signed position. -/
def parseDeclare : List Byte → Option DeclareRequest
  | [f, r, p0, p1] => some (DeclareRequest.mk f.toNat r.toNat (signedOf 16 (word16 p0 p1)))
  | _ => none

/-- HEAD_WRITE: head, item, value. -/
def parseHeadWrite : List Byte → Option HeadWrite
  | [h, i, v0, v1] => some (HeadWrite.mk h.toNat i.toNat (word16 v0 v1))
  | _ => none

/-- FORCE: which flag (true for ALERT) and the setting; values outside the lists are malformed (R157). -/
def parseForce : List Byte → Option (Bool × Bool)
  | [w, v] => if w.toNat ≤ 1 ∧ v.toNat ≤ 1 then some (decide (w.toNat = 0), decide (v.toNat = 1)) else none
  | _ => none

/-- SYNC_TIME: a 32-bit value. -/
def parseSyncTime : List Byte → Option Word32
  | [a, b, c, d] => some (BitVec.ofNat 32 (word16 a b + 65536 * word16 c d))
  | _ => none

/-- WRITE_SETTING: number and signed 32-bit value. -/
def parseWriteSetting : List Byte → Option (Nat × Int)
  | [n, a, b, c, d] => some (n.toNat, signedOf 32 (word16 a b + 65536 * word16 c d))
  | _ => none

/-! ### WRITE_LINE (8.8.1) -/

/-- A WRITE_LINE request; no start stands for "at cursor". -/
structure WriteRequest where
  id : Nat
  start : Option Nat
  count : Nat
  codes : List Code
  deriving DecidableEq, Repr

/-- The code of a value's two low bits. -/
def codeOf (n : Nat) : Code :=
  match n % 4 with
  | 0 => .miss
  | 1 => .tuck
  | 2 => .knit
  | _ => .send

/-- The four codes of a byte, the lowest index in bits 0 and 1. -/
def unpackByte (b : Byte) : List Code :=
  [codeOf b.toNat, codeOf (b.toNat / 4), codeOf (b.toNat / 16), codeOf (b.toNat / 64)]

/-- WRITE_LINE: the length must agree with the count, and unused bit pairs of the last byte must be 0. -/
def parseWriteLine : List Byte → Option WriteRequest
  | i :: s0 :: s1 :: c0 :: c1 :: rest =>
    let count := word16 c0 c1
    let codes := rest.flatMap unpackByte
    if rest.length = (count + 3) / 4 ∧ (codes.drop count).all (fun c => decide (c = .miss)) then
      some (WriteRequest.mk i.toNat (if word16 s0 s1 = 0xFFFF then none else some (word16 s0 s1)) count (codes.take count))
    else none
  | _ => none

/-! ### QUEUE_PASS (8.8.2) -/

/-- The cam mode of a byte. -/
def camModeOf (n : Nat) : Option CamMode :=
  match n with
  | 0 => some .knit
  | 1 => some .xfer
  | 2 => some .idle
  | _ => none

/-- A channel: line, start needle, width, line offset, mode and fill. -/
def parseChannel : List Byte → Option (Channel × List Byte)
  | l :: a0 :: a1 :: w0 :: w1 :: o0 :: o1 :: m :: rest =>
    if m.toNat / 2 % 2 = 0 ∧ m.toNat / 16 = 0 then
      some (Channel.mk l.toNat (word16 a0 a1) (word16 w0 w1) (word16 o0 o1)
        (if m.toNat % 2 = 1 then .span else .tile) (codeOf (m.toNat / 4)), rest)
    else none
  | _ => none

/-- A feeder action; the position bytes of a TAKE must be 0 (R180). -/
def parseAction : List Byte → Option (MarkedAction × List Byte)
  | a :: p0 :: p1 :: rest =>
    if 128 ≤ a.toNat then some (MarkedAction.mk (.release (a.toNat - 128) (signedOf 16 (word16 p0 p1))) .notReached, rest)
    else if word16 p0 p1 = 0 then some (MarkedAction.mk (.take a.toNat) .notReached, rest) else none
  | _ => none

/-- n items read one after another. -/
def parseMany {α : Type} (item : List Byte → Option (α × List Byte)) : Nat → List Byte → Option (List α × List Byte)
  | 0, bs => some ([], bs)
  | n + 1, bs =>
    match item bs with
    | none => none
    | some (a, rest) =>
      match parseMany item n rest with
      | none => none
      | some (as, left) => some (a :: as, left)

/-- A channel where the layout byte says that there is one. -/
def parseOptional (present : Bool) (bs : List Byte) : Option (Option Channel × List Byte) :=
  if present then
    match parseChannel bs with
    | none => none
    | some (c, rest) => some (some c, rest)
  else some (none, bs)

/-- A system entry with its channels and actions. -/
def parseEntry : List Byte → Option (SystemEntry × List Byte)
  | i :: m :: lay :: rest =>
    match camModeOf m.toNat with
    | none => none
    | some mode =>
      if lay.toNat / 16 = 0 ∧ lay.toNat / 4 ≤ 2 then
        match parseOptional (lay.toNat % 2 = 1) rest with
        | none => none
        | some (front, r1) =>
          match parseOptional (lay.toNat / 2 % 2 = 1) r1 with
          | none => none
          | some (back, r2) =>
            match parseMany parseAction (lay.toNat / 4) r2 with
            | none => none
            | some (actions, r3) => some (SystemEntry.mk i.toNat mode front back actions, r3)
      else none
  | _ => none

/-- QUEUE_PASS: header and system entries, with nothing left over. The record stands QUEUED, its widths as sent. -/
def parseQueuePass : List Byte → Option PassRecord
  | t0 :: t1 :: fl :: rk :: n :: rest =>
    if fl.toNat / 8 = 0 ∧ n.toNat ≤ 4 then
      match parseMany parseEntry n.toNat rest with
      | some (entries, []) =>
        some (PassRecord.mk (BitVec.ofNat 16 (word16 t0 t1)) (if fl.toNat % 2 = 1 then .leftward else .rightward)
          (if fl.toNat / 2 % 2 = 1 then .onGo else .onEntry) (decide (fl.toNat / 4 % 2 = 1)) (signedOf 8 rk.toNat)
          entries .queued)
      | some (_, _ :: _) | none => none
    else none
  | _ => none

/-! ### Encoders -/

/-- The value of a selection code in a body. -/
def codeBits : Code → Nat
  | .miss => 0 | .tuck => 1 | .knit => 2 | .send => 3

/-- Codes packed four to a byte; the last byte is filled up with zeros. -/
def packCodes : List Code → List Byte
  | [] => []
  | [a] => [BitVec.ofNat 8 (codeBits a)]
  | [a, b] => [BitVec.ofNat 8 (codeBits a + 4 * codeBits b)]
  | [a, b, c] => [BitVec.ofNat 8 (codeBits a + 4 * codeBits b + 16 * codeBits c)]
  | a :: b :: c :: d :: rest =>
    BitVec.ofNat 8 (codeBits a + 4 * codeBits b + 16 * codeBits c + 64 * codeBits d) :: packCodes rest

/-- Two bytes of an unsigned number. -/
def encodeWord (n : Nat) : List Byte := [BitVec.ofNat 8 n, BitVec.ofNat 8 (n / 256)]

/-- Two bytes of a signed number. -/
def encodeSigned (x : Int) : List Byte := encodeWord (x % 65536).toNat

/-- A WRITE_LINE body. -/
def encodeWriteLine (w : WriteRequest) : List Byte :=
  BitVec.ofNat 8 w.id :: (encodeWord (w.start.getD 0xFFFF) ++ encodeWord w.count ++ packCodes w.codes)

/-- A channel. -/
def encodeChannel (c : Channel) : List Byte :=
  BitVec.ofNat 8 c.line :: (encodeWord c.start ++ encodeWord c.width ++ encodeWord c.offset
    ++ [BitVec.ofNat 8 ((if c.mode = .span then 1 else 0) + 4 * codeBits c.fill)])

/-- A feeder action. -/
def encodeAction (a : MarkedAction) : List Byte :=
  match a.act with
  | .take f => BitVec.ofNat 8 f :: encodeWord 0
  | .release f x => BitVec.ofNat 8 (128 + f) :: encodeSigned x

/-- A cam mode. -/
def camModeBits : CamMode → Nat
  | .knit => 0 | .xfer => 1 | .idle => 2

/-- A system entry. -/
def encodeEntry (e : SystemEntry) : List Byte :=
  [BitVec.ofNat 8 e.system, BitVec.ofNat 8 (camModeBits e.mode),
    BitVec.ofNat 8 (e.front.isSome.toNat + 2 * e.back.isSome.toNat + 4 * e.actions.length)]
    ++ (e.front.toList.flatMap encodeChannel ++ (e.back.toList.flatMap encodeChannel ++ e.actions.flatMap encodeAction))

/-- A QUEUE_PASS body. -/
def encodeQueuePass (r : PassRecord) : List Byte :=
  encodeWord r.tag.toNat
    ++ [BitVec.ofNat 8 ((if r.direction = .leftward then 1 else 0) + 2 * (if r.start = .onGo then 1 else 0) + 4 * r.cycle.toNat),
      BitVec.ofNat 8 (r.racking % 256).toNat, BitVec.ofNat 8 r.entries.length]
    ++ r.entries.flatMap encodeEntry

end Sys2Proof.Machine
end

