-- ==== Sys2Proof/Machine/Latches.lean ====
section
/-! DEFINITION. The feeder unit's commands (chapter 5). -/

namespace Sys2Proof.Machine

/-! ### Couple-sense edges (R110, R114, R117, R118) -/

/-- R110: a rising edge confirms a take. -/
def State.confirmTake (s : State) (i f : Nat) (pos : Int) : State :=
  let t := (s.putLatch i (Latch.mk (.closed f) 0)).putFeeder f (.coupled (s.feeder f).rail i)
  ((t.log (.feederTaken f i pos)).settle i .asPlanned).completeIfSettled

/-- R114: a falling edge confirms a release. -/
def State.confirmRelease (s : State) (i f : Nat) : State :=
  let x := (s.feeder f).releasePoint
  let t := (s.putFeeder f (.parked (s.feeder f).rail x)).openLatch i
  ((t.log (.feederReleased f i x)).settle i .asPlanned).completeIfSettled

/-- R123: the projection after a drop of feeder f by latch i with no pass running. -/
def State.correctProjection (s : State) (i f : Nat) : State :=
  match s.queue.records with
  | [] => s.followProjection
  | _ :: _ =>
    match s.queue.proj.feeder f with
    | .coupled rail j =>
      if j = i then
        let proj := Projection.mk (s.queue.proj.feeders.setIfInBounds f (.faulted rail))
          (s.queue.proj.holders.setIfInBounds i none)
        s.setQueue { s.queue with proj := proj }
      else s
    | .undeclared | .parked _ _ | .faulted _ => s

/-- R117: a falling edge on a CLOSED latch is a drop. -/
def State.dropFeeder (s : State) (i f : Nat) : State :=
  let t := (s.noteRaise (.feederMissed f i .dropped)).faultFeeder i f
  if t.passInProgress then t.abortPass .feederMissed else t.correctProjection i f

/-- The level on a couple-sense input. -/
def State.setSense (s : State) (i : Nat) (level : Bool) : State :=
  s.setFeeders { s.feeders with senses := s.feeders.senses.setIfInBounds i level }

/-- R118: how an edge is taken in each latch state; the input of a system that is not fitted is not read (R102). -/
def State.takeEdge (s : State) (i : Nat) (level : Bool) : State :=
  if i < s.systems then
    match (s.latch i).state, level with
    | .closing f pos, true => s.confirmTake i f pos
    | .opening f, false => s.confirmRelease i f
    | .closed f, false => s.dropFeeder i f
    | .closing _ _, false | .opening _, true | .closed _, true | .opened, _ => s
  else s

/-- COUPLE_SENSE_EDGE (R118); an input that already stands at the level has no edge. -/
def execCoupleSenseEdge (system : Fin 4) (level : Bool) (s : State) : Next :=
  .next (if s.sense system.val = level then s else (s.setSense system.val level).takeEdge system.val level)

/-! ### Countdowns that run out (R112, R115) -/

/-- TAKE_COUNTDOWN_EXPIRY (R112): the countdown of a CLOSING latch reaches 0. Within a step it is taken by the step itself
(R107); a latch that is not CLOSING has no such countdown. -/
def execTakeCountdownExpiry (system : Fin 4) (s : State) : Next :=
  .next (match (s.latch system.val).state with
    | .closing f pos => (s.expireTake system.val f pos).abortPass .feederMissed
    | .opened | .closed _ | .opening _ => s)

/-- RELEASE_COUNTDOWN_EXPIRY (R115): the countdown of an OPENING latch reaches 0. -/
def execReleaseCountdownExpiry (system : Fin 4) (s : State) : Next :=
  .next (match (s.latch system.val).state with
    | .opening f => (s.expireRelease system.val f).abortPass .feederStuck
    | .opened | .closed _ | .closing _ _ => s)

/-! ### Requests -/

/-- R104 check 5: another feeder of the rail is PARKED at the position. -/
def State.spotTaken (s : State) (f rail : Nat) (pos : Int) : Bool :=
  (List.range 16).any fun g => decide (g ≠ f) && decide (s.feeder g = .parked rail pos)

/-- The feeder number and record that DECLARE_FEEDER and FORGET_FEEDER answer. -/
def State.feederAnswer (s : State) (f : Nat) : Answer := accept (bytesOf 1 f ++ (s.feeder f).bytes)

/-- R104. -/
def State.declareFeeder (q : DeclareRequest) (s : State) : State × Answer :=
  if 15 < q.feeder ∨ 7 < q.rail then (s, refuse .range)
  else if s.queue.records ≠ [] then (s, refuse .busy)
  else if (s.feeder q.feeder).carried then (s, refuse .feederState)
  else if s.inField q.position = false then (s, refuse .range)
  else if s.spotTaken q.feeder q.rail q.position then (s, refuse .railBlocked)
  else
    let t := (s.putFeeder q.feeder (.parked q.rail q.position)).followProjection
    (t, t.feederAnswer q.feeder)

/-- DECLARE_FEEDER (R104). -/
def execDeclareFeeder (body : List Byte) (s : State) : Next :=
  .next (s.addressed (kindByte 0x11) (parseDeclare body) State.declareFeeder)

/-- R105. -/
def State.forgetFeeder (f : Nat) (s : State) : State × Answer :=
  if 15 < f then (s, refuse .range)
  else if s.queue.records ≠ [] then (s, refuse .busy)
  else if (s.feeder f).carried then (s, refuse .feederState)
  else
    let t := (s.putFeeder f .undeclared).followProjection
    (t, t.feederAnswer f)

/-- FORGET_FEEDER (R105). -/
def execForgetFeeder (body : List Byte) (s : State) : Next :=
  .next (s.addressed (kindByte 0x12) (parseByte body) State.forgetFeeder)

/-- QUERY_FEEDERS (R124). -/
def execQueryFeeders (body : List Byte) (s : State) : Next :=
  .next (s.addressed (kindByte 0x13) (parseEmpty body) (reads fun _ t => t.feederRecords))

end Sys2Proof.Machine
end

