-- ==== Sys2Proof/Machine/Lines.lean ====
section
/-! DEFINITION. The line store's requests (chapter 2). -/

namespace Sys2Proof.Machine

/-- R27: a length of 0 stands for 1,024. -/
def definedLength (length : Nat) : Nat := if length = 0 then 1024 else length

/-- R27, R28. -/
def State.defineLine (req : Nat × Nat) (s : State) : State × Answer :=
  let length := definedLength req.2
  if 63 < req.1 ∨ 1024 < length then (s, refuse .range)
  else
    match s.line req.1 with
    | .opened _ | .sealed _ _ _ => (s, refuse .lineState)
    | .free =>
      if s.cellsFree < length then (s, refuse .noRoom)
      else
        let t := s.putLine req.1 (.opened (LineData.mk (List.replicate length .miss) 0 0))
        (t, accept (bytesOf 2 length ++ bytesOf 2 t.cellsFree))

/-- DEFINE_LINE (R27, R28). -/
def execDefineLine (body : List Byte) (s : State) : Next :=
  .next (s.addressed (kindByte 0x04) (parseDefineLine body) State.defineLine)

/-- R30: the codes written from index start onward, the cursor at their end and the extent no lower than it. -/
def LineData.write (d : LineData) (start : Nat) (codes : List Code) : LineData where
  codes := d.codes.take start ++ codes ++ d.codes.drop (start + codes.length)
  cursor := start + codes.length
  extent := max d.extent (start + codes.length)

/-- R29, R30. -/
def State.writeLine (req : WriteRequest) (s : State) : State × Answer :=
  if 63 < req.id ∨ req.count < 1 ∨ 512 < req.count then (s, refuse .range)
  else
    match s.line req.id with
    | .free | .sealed _ _ _ => (s, refuse .lineState)
    | .opened d =>
      let start := req.start.getD d.cursor
      if d.codes.length < start + req.count then (s, refuse .range)
      else
        let v := d.write start req.codes
        (s.putLine req.id (.opened v), accept (bytesOf 2 v.cursor ++ bytesOf 2 v.extent))

/-- WRITE_LINE (R29, R30). -/
def execWriteLine (body : List Byte) (s : State) : Next :=
  .next (s.addressed (kindByte 0x05) (parseWriteLine body) State.writeLine)

/-- R33: the census of a line's codes. -/
def censusOf (codes : List Code) : List Code := [Code.miss, .tuck, .knit, .send].filter codes.contains

/-- R32, R33. -/
def State.sealLine (id : Nat) (s : State) : State × Answer :=
  if 63 < id then (s, refuse .range)
  else
    match s.line id with
    | .free | .sealed _ _ _ => (s, refuse .lineState)
    | .opened d =>
      if d.extent < d.codes.length then (s, refuse .shortLine)
      else (s.putLine id (.sealed d (censusOf d.codes) 0), accept [censusByte (censusOf d.codes)])

/-- SEAL_LINE (R32). -/
def execSealLine (body : List Byte) (s : State) : Next :=
  .next (s.addressed (kindByte 0x06) (parseByte body) State.sealLine)

/-- R34. -/
def State.reopenLine (id : Nat) (s : State) : State × Answer :=
  if 63 < id then (s, refuse .range)
  else
    match s.line id with
    | .free | .opened _ => (s, refuse .lineState)
    | .sealed d _ refs =>
      if 0 < refs then (s, refuse .inUse)
      else (s.putLine id (.opened (LineData.mk d.codes 0 d.codes.length)), accept (bytesOf 2 d.codes.length))

/-- REOPEN_LINE (R34). -/
def execReopenLine (body : List Byte) (s : State) : Next :=
  .next (s.addressed (kindByte 0x07) (parseByte body) State.reopenLine)

/-- R35. -/
def State.dropLine (id : Nat) (s : State) : State × Answer :=
  if 63 < id then (s, refuse .range)
  else
    match s.line id with
    | .free => (s, refuse .lineState)
    | .opened _ => (s.putLine id .free, accept (bytesOf 2 (s.putLine id .free).cellsFree))
    | .sealed _ _ refs =>
      if 0 < refs then (s, refuse .inUse)
      else (s.putLine id .free, accept (bytesOf 2 (s.putLine id .free).cellsFree))

/-- DROP_LINE (R35). -/
def execDropLine (body : List Byte) (s : State) : Next :=
  .next (s.addressed (kindByte 0x08) (parseByte body) State.dropLine)

/-- R36. -/
def State.queryLine (id : Nat) (s : State) : State × Answer :=
  if 63 < id then (s, refuse .range) else (s, accept (s.lineRecord id))

/-- QUERY_LINE (R36). -/
def execQueryLine (body : List Byte) (s : State) : Next :=
  .next (s.addressed (kindByte 0x09) (parseByte body) State.queryLine)

end Sys2Proof.Machine
end

