-- ==== Sys2Proof/Machine/Monitor.lean ====
section
/-! DEFINITION. The condition monitor's requests (chapter 7). -/

namespace Sys2Proof.Machine

/-- QUERY_CONDITIONS (R167): the captured flags are reported as they stand before the reply clears them. -/
def execQueryConditions (body : List Byte) (s : State) : Next :=
  .next (s.addressed (kindByte 0x16) (parseEmpty body) (reads fun _ t => t.conditionRecords))

/-- R153. -/
def State.takeClear (_ : Unit) (s : State) : State × Answer := (s.clearConditions, accept [])

/-- CLEAR_CONDITIONS (R153). -/
def execClearConditions (dest : Dest) (body : List Byte) (s : State) : Next :=
  .next (s.request dest (kindByte 0x17) (parseEmpty body) State.takeClear)

/-- R157: the named forced flag takes the setting. -/
def State.takeForce (q : Bool × Bool) (s : State) : State × Answer :=
  (s.setMonitor (if q.1 then { s.monitor with forcedAlert := q.2 } else { s.monitor with forcedCaution := q.2 }), accept [])

/-- FORCE (R157). -/
def execForce (body : List Byte) (s : State) : Next :=
  .next (s.addressed (kindByte 0x18) (parseForce body) State.takeForce)

/-- R166: the oldest entries are removed and carried in the reply. -/
def State.takeEvents (k : Nat) (s : State) : State × Answer :=
  if k < 1 ∨ 16 < k then (s, refuse .range)
  else
    let given := s.monitor.events.take k
    (s.setMonitor { s.monitor with events := s.monitor.events.drop k },
      accept (bytesOf 1 given.length ++ given.flatMap EventEntry.bytes))

/-- READ_EVENTS (R166). -/
def execReadEvents (body : List Byte) (s : State) : Next :=
  .next (s.addressed (kindByte 0x19) (parseByte body) State.takeEvents)

/-- R162: the timestamp is loaded; the pace of R161 at which it counts on is not touched. -/
def State.loadTime (v : Word32) (s : State) : State × Answer :=
  (s.setMonitor { s.monitor with timestamp := v }, accept [])

/-- SYNC_TIME (R162). -/
def execSyncTime (dest : Dest) (body : List Byte) (s : State) : Next :=
  .next (s.request dest (kindByte 0x1A) (parseSyncTime body) State.loadTime)

/-- STATUS (R178). -/
def execStatus (body : List Byte) (s : State) : Next :=
  .next (s.addressed (kindByte 0x01) (parseEmpty body) (reads fun _ _ => []))

end Sys2Proof.Machine
end

