-- ==== Sys2Proof/Machine/Motion.lean ====
section
/-! DEFINITION. The position tracker (chapter 1): encoder transitions, marks, timers, HOME and QUERY_POSITION. -/

namespace Sys2Proof.Machine

/-! ### LOST, slips and marks -/

/-- R14: the tracker enters LOST; POS_LOST becomes live, which is its raise. -/
def State.enterLost (s : State) (cause : LostCause) : State :=
  (s.setTracker { s.tracker with position := .lost, markWindow := none }).raise (.posLost cause)

/-- R12: a slip raises MARK_SLIP and takes REFERENCED to DOUBTFUL and DOUBTFUL to LOST. -/
def State.slip (s : State) (src : SlipSource) : State :=
  let t := s.raise (.markSlip src)
  match t.tracker.position with
  | .referenced => t.setTracker { t.tracker with position := .doubtful }
  | .doubtful => t.enterLost .slip
  | .unreferenced | .seeking | .lost => t

/-- R9, R11: a good mark takes DOUBTFUL to REFERENCED. -/
def PosState.good : PosState → PosState
  | .doubtful => .referenced
  | .unreferenced => .unreferenced
  | .seeking => .seeking
  | .referenced => .referenced
  | .lost => .lost

/-- M, the mark pitch. -/
def State.markPitch (s : State) : Int := s.markSpacing * s.countsPerNeedle

/-- The index K of the mark nearest to count c; halfway, the lower one (R11). -/
def State.nearestMark (s : State) (c : Int) : Int :=
  let m := s.markPitch
  if 2 * (c % m) ≤ m then c / m else c / m + 1

/-- R11: the deviation of a count from the nearest mark. -/
def State.markDeviation (s : State) (c : Int) : Int := c - s.nearestMark c * s.markPitch

/-- The magnitude of a deviation is at most MARK_WINDOW. -/
def State.withinWindow (s : State) (d : Int) : Bool := decide (-s.markWindowWidth ≤ d) && decide (d ≤ s.markWindowWidth)

/-- The mark whose window holds the count, if any (R10). -/
def State.windowAt (s : State) (c : Int) : Option Int :=
  if s.withinWindow (s.markDeviation c) then some (s.nearestMark c) else none

/-- R10: the mark window after a transition from `old` to `new`, and whether the expected mark was passed without an edge. -/
def State.nextWindow (s : State) (old new : Int) : Option MarkWindow × Option Int :=
  let entered : Option MarkWindow := (s.windowAt new).map fun k =>
    MarkWindow.mk k (if old < k * s.markPitch then .low else .high) false
  match s.tracker.markWindow with
  | none => (entered, none)
  | some w =>
    if s.windowAt new = some w.mark then (some w, none)
    else
      let passed := match w.side with
        | .low => decide (w.mark * s.markPitch < new)
        | .high => decide (new < w.mark * s.markPitch)
      (entered, if passed && !w.satisfied then some w.mark else none)

/-! ### Encoder transitions -/

/-- R2: what an illegal transition does besides taking the new levels as reference. -/
def State.positionJump (s : State) : State :=
  if s.tracker.position.valid then (s.raise (.posJump s.tracker.position)).enterLost .jump else s

/-- Takes new encoder reference levels. -/
def State.setLevels (s : State) (a b : Bool) : State := s.setTracker { s.tracker with encA := a, encB := b }

/-- R1: the direction of a change of one line against the reference levels: (0,0), (1,0), (1,1), (0,1) counts up. -/
def Tracker.direction (t : Tracker) : EncLine → Direction
  | .a => if t.encA = t.encB then .rightward else .leftward
  | .b => if t.encA = t.encB then .leftward else .rightward

/-- The range of the count field. -/
def countInRange (c : Int) : Bool := decide (-2147483648 ≤ c) && decide (c ≤ 2147483647)

/-- R3, R10, R13: a legal transition of a tracker that is REFERENCED or DOUBTFUL, whose new count has been taken: first the
mark window, then the step. -/
def State.trackTransition (s : State) (d : Direction) (old : Int) : State :=
  let new := s.tracker.count
  let w := s.nextWindow old new
  let t := s.setTracker { s.tracker with markWindow := w.1 }
  let u := match w.2 with
    | some k => t.slip (.absent (k * t.markSpacing))
    | none => t
  if u.tracker.position.valid && decide (s.positionOf old ≠ s.positionOf new) then u.carriageStep d (s.positionOf new) else u

/-- COUNT_TRANSITION (R1, R2, R3). -/
def execCountTransition (line : EncLine) (s : State) : Next :=
  let d := s.tracker.direction line
  let t := match line with
    | .a => s.setLevels (!s.tracker.encA) s.tracker.encB
    | .b => s.setLevels s.tracker.encA (!s.tracker.encB)
  let c := s.tracker.count + d.sign
  .next (if countInRange c then
      let u := t.setTracker { t.tracker with count := c }
      if s.tracker.position.valid then u.trackTransition d s.tracker.count else u
    else t.positionJump)

/-- ILLEGAL_TRANSITION (R2): both lines change. -/
def execIllegalTransition (s : State) : Next :=
  .next (s.setLevels (!s.tracker.encA) (!s.tracker.encB)).positionJump

/-! ### Marks -/

/-- R7: the mark window that a load of count c sets. -/
def State.loadedWindow (s : State) (c : Int) : Option MarkWindow :=
  (s.windowAt c).map fun k => MarkWindow.mk k (if c ≤ k * s.markPitch then .low else .high) true

/-- R7: the home mark ends the seek. -/
def State.loadHome (s : State) : State :=
  let c := s.homeCount
  (s.setTracker { s.tracker with
    count := c, position := .referenced, seekTimer := none, markWindow := s.loadedWindow c }).log (.homed c (s.positionOf c))

/-- A good mark. -/
def State.goodMark (s : State) : State := s.setTracker { s.tracker with position := s.tracker.position.good }

/-- HOME_MARK_EDGE (R7, R9). -/
def execHomeMarkEdge (s : State) : Next :=
  .next (match s.tracker.position with
    | .seeking => s.loadHome
    | .referenced | .doubtful =>
      let d := s.tracker.count - s.homeCount
      if s.withinWindow d then s.goodMark else s.slip (.home d)
    | .unreferenced | .lost => s)

/-- R11: a good needle mark sets the satisfied flag of the mark window. -/
def State.satisfyWindow (s : State) : State :=
  s.setTracker { s.tracker with markWindow := s.tracker.markWindow.map fun w => { w with satisfied := true } }

/-- NEEDLE_MARK_EDGE (R11). -/
def execNeedleMarkEdge (s : State) : Next :=
  .next (if s.tracker.position.valid then
      let d := s.markDeviation s.tracker.count
      if s.withinWindow d then s.goodMark.satisfyWindow else s.slip (.needle d)
    else s)

/-! ### Timers -/

/-- SEEK_TIMER_EXPIRY (R8): the tracker stands as at power-on but for C and the direction of last step, so the last needle period
becomes absent. The reference levels and the interval clock go on as R1 and R17 give them (the model's reading, log 29). The timer
runs only in SEEKING, so elsewhere there is no expiry (log 27). -/
def execSeekTimerExpiry (s : State) : Next :=
  .next (if s.tracker.position = .seeking then
      (s.setTracker { s.tracker with position := .unreferenced, seekTimer := none, lastPeriod := none }).raise .homeTimeout
    else s)

/-- R19, R121: the expiry during a pass: STALL becomes live, and in FINISHING the outstanding confirmations are resolved. -/
def State.stallExpires (s : State) : State :=
  let t := s.setTracker { s.tracker with stallTimer := none, stallLive := true }
  let u := if s.tracker.stallLive then t else t.raise (.stall s.tracker.phase s.carriageX)
  if s.tracker.phase = .finishing ∧ u.passInProgress = true then u.resolveAll.completeIfSettled else u

/-- STALL_TIMER_EXPIRY (R19); a stopped timer has no expiry. -/
def execStallTimerExpiry (s : State) : Next :=
  .next (if s.tracker.stallTimer.isSome && decide (s.tracker.phase ≠ .none) then s.stallExpires else s)

/-! ### Requests -/

/-- R6: a HOME that is taken. -/
def State.startSeek (s : State) : State :=
  s.setTracker { s.tracker with position := .seeking, seekTimer := some s.homeTimeout, markWindow := none }

/-- R5. -/
def State.takeHome (_ : Unit) (s : State) : State × Answer :=
  if s.settings.locked = false then (s, refuse .notLocked)
  else if s.passInProgress then (s, refuse .busy)
  else (s.startSeek, accept [])

/-- HOME (R5, R6). -/
def execHome (body : List Byte) (s : State) : Next :=
  .next (s.addressed (kindByte 0x02) (parseEmpty body) State.takeHome)

/-- QUERY_POSITION (R21). -/
def execQueryPosition (body : List Byte) (s : State) : Next :=
  .next (s.addressed (kindByte 0x03) (parseEmpty body) (reads fun _ t => t.positionRecord))

end Sys2Proof.Machine
end

