-- ==== Sys2Proof/Machine/Admission.lean ====
section
/-! DEFINITION. The ten admission checks of QUEUE_PASS (R46 to R56), made against the standing projection. -/

namespace Sys2Proof.Machine

/-- The locator of a refused QUEUE_PASS (R45). -/
structure Locator where
  system : Option Nat
  feeder : Option Nat
  deriving DecidableEq, Repr

/-- A locator in bytes (R180). -/
def Locator.bytes (l : Locator) : List Byte :=
  [presence [l.system.isSome, l.feeder.isSome]] ++ bytesOf 1 (l.system.getD 0) ++ bytesOf 1 (l.feeder.getD 0)

/-- A failed check. -/
structure Rejection where
  result : ResultCode
  locator : Locator
  deriving DecidableEq, Repr

/-- A rejection that names a system. -/
def rejectSystem (r : ResultCode) (i : Nat) : Rejection := Rejection.mk r (Locator.mk (some i) none)

/-- A channel of a record, with the system and the cam mode of its entry. -/
structure PlacedChannel where
  system : Nat
  mode : CamMode
  channel : Channel
  deriving DecidableEq, Repr

/-- The channels of a record in body order. -/
def PassRecord.placedChannels (r : PassRecord) : List PlacedChannel :=
  r.entries.flatMap fun e => (e.front.toList ++ e.back.toList).map (PlacedChannel.mk e.system e.mode)

/-- An action of a record, with the system of its entry. -/
structure PlacedAction where
  system : Nat
  act : FeederAction
  deriving DecidableEq, Repr

/-- The actions of a record in body order. -/
def PassRecord.placedActions (r : PassRecord) : List PlacedAction :=
  r.entries.flatMap fun e => e.actions.map fun a => PlacedAction.mk e.system a.act

/-- The feeder an action names. -/
def FeederAction.feeder : FeederAction → Nat
  | .take f => f
  | .release f _ => f

/-- The action is a TAKE. -/
def FeederAction.isTake : FeederAction → Bool
  | .take _ => true
  | .release _ _ => false

/-! ### Checks 1 to 7 -/

/-- Check 1 (R46). -/
def State.checkRoom (s : State) : Option Rejection :=
  if Config.queueCapacity ≤ s.queue.records.length then some (Rejection.mk .queueFull (Locator.mk none none)) else none

/-- Check 2 (R47): the first entry that names an unfitted system or one already named, or an IDLE entry with a channel. -/
def badSystem (systems : Nat) : List Nat → List SystemEntry → Option Rejection
  | _, [] => none
  | seen, e :: es =>
    if systems ≤ e.system ∨ e.system ∈ seen ∨ (e.mode = .idle ∧ (e.front.isSome ∨ e.back.isSome)) then
      some (rejectSystem .badSystem e.system)
    else badSystem systems (e.system :: seen) es

/-- Check 3 (R48). -/
def State.checkRacking (s : State) (r : PassRecord) : Option Rejection :=
  if s.maxRack < r.racking ∨ s.maxRack < -r.racking then some (Rejection.mk .rackRange (Locator.mk none none)) else none

/-- A line is SEALED. -/
def Line.isSealed : Line → Bool
  | .sealed _ _ _ => true
  | .free | .opened _ => false

/-- The first channel that fails a test. -/
def firstChannel (r : PassRecord) (code : ResultCode) (bad : PlacedChannel → Bool) : Option Rejection :=
  (r.placedChannels.find? bad).map fun p => rejectSystem code p.system

/-- Check 4 (R49). -/
def State.checkSealed (s : State) (r : PassRecord) : Option Rejection :=
  firstChannel r .lineNotSealed fun p => !(s.line p.channel.line).isSealed

/-- Check 5 (R50); a width of 0 stands for N − a. -/
def State.checkRange (s : State) (r : PassRecord) : Option Rejection :=
  firstChannel r .range fun p =>
    decide (s.needles ≤ (p.channel.start : Int))
      || (decide (p.channel.width ≠ 0) && decide (s.needles < ((p.channel.start + p.channel.width : Nat) : Int)))
      || decide ((s.line p.channel.line).length ≤ p.channel.offset)

/-- The codes a cam mode permits. -/
def CamMode.permits : CamMode → Code → Bool
  | .knit, .miss | .knit, .tuck | .knit, .knit => true
  | .knit, .send => false
  | .xfer, .miss | .xfer, .send => true
  | .xfer, .tuck | .xfer, .knit => false
  | .idle, .miss | .idle, .tuck | .idle, .knit | .idle, .send => false

/-- The census of a line, empty unless it is SEALED. -/
def Line.census : Line → List Code
  | .sealed _ c _ => c
  | .free | .opened _ => []

/-- Check 6 (R51). -/
def State.checkCodes (s : State) (r : PassRecord) : Option Rejection :=
  firstChannel r .codeMode fun p => ((s.line p.channel.line).census ++ [p.channel.fill]).any fun c => !p.mode.permits c

/-- Check 7 (R52). What its locator names is open (log 8). -/
def checkCycle (r : PassRecord) : Option Rejection :=
  if r.cycle then
    match r.placedActions with
    | [] => none
    | a :: _ => some (Rejection.mk .cycleFeeder (Locator.mk
        (if Config.freeCycleNamesSystem then some a.system else none)
        (if Config.freeCycleNamesFeeder then some a.act.feeder else none)))
  else none

/-! ### Check 8 (R53 to R55) -/

/-- The projected state of the feeder is PARKED. -/
def ProjFeeder.isParked : ProjFeeder → Bool
  | .parked _ _ => true
  | .undeclared | .coupled _ _ | .faulted _ => false

/-- The parked position of a projected feeder. -/
def ProjFeeder.pos : ProjFeeder → Int
  | .parked _ p => p
  | .undeclared | .coupled _ _ | .faulted _ => 0

/-- R54: the feeder is already named by an action of another entry, or by an action of the same kind of this entry. -/
def namedBefore (before : List PlacedAction) (a : PlacedAction) : Bool :=
  before.any fun b => decide (b.act.feeder = a.act.feeder) &&
    (decide (b.system ≠ a.system) || decide (b.act.isTake = a.act.isTake))

/-- R54: an action fails against the standing projection and the walk's holders. -/
def Projection.rejects (p : Projection) (holders : Vector (Option Nat) 4) (before : List PlacedAction) (a : PlacedAction) : Bool :=
  decide (15 < a.act.feeder) || namedBefore before a ||
  match a.act with
  | .take f => !(p.feeder f).isParked || (holders.getD a.system none).isSome
  | .release f _ => decide (holders.getD a.system none ≠ some f)

/-- The walk's holder after an action. -/
def walkHolders (holders : Vector (Option Nat) 4) (a : PlacedAction) : Vector (Option Nat) 4 :=
  match a.act with
  | .take f => holders.setIfInBounds a.system (some f)
  | .release _ _ => holders.setIfInBounds a.system none

/-- Check 8, first part (R54): the walk over the actions in body order. -/
def Projection.walk (p : Projection) : Vector (Option Nat) 4 → List PlacedAction → List PlacedAction → Option Rejection
  | _, _, [] => none
  | holders, before, a :: as =>
    if p.rejects holders before a then
      some (Rejection.mk .feederState (Locator.mk (some a.system) (some a.act.feeder)))
    else Projection.walk p (walkHolders holders a) (a :: before) as

/-- R53: the path position of an action. -/
def Projection.pathPosition (p : Projection) : FeederAction → Int
  | .take f => (p.feeder f).pos
  | .release _ x => x

/-- Check 8, second part (R55): a release outside the field. -/
def State.checkOnPath (s : State) (r : PassRecord) : Option Rejection :=
  (r.placedActions.find? fun a => match a.act with
    | .take _ => false
    | .release _ x => !s.inField x).map fun a =>
      Rejection.mk .offPath (Locator.mk (some a.system) (some a.act.feeder))

/-- R55: the two actions of an entry are too close or listed against the path. -/
def State.badSpacing (s : State) (d : Direction) (e : SystemEntry) : Bool :=
  match e.actions with
  | [a, b] => decide ((s.queue.proj.pathPosition b.act - s.queue.proj.pathPosition a.act) * d.sign < (s.confirmNeedles : Int))
  | _ => false

/-- Check 8, second part (R55): the spacing. -/
def State.checkSpacing (s : State) (r : PassRecord) : Option Rejection :=
  (r.entries.find? (s.badSpacing r.direction)).map fun e => rejectSystem .actionOrder e.system

/-! ### Checks 9 and 10 (R53, R56) -/

/-- A carried feeder with its rail and its carried interval, ends included. -/
structure Carried where
  feeder : Nat
  rail : Nat
  low : Int
  high : Int
  deriving DecidableEq, Repr

/-- The entry edge of a pass (R53). -/
def State.entryEdge (s : State) : Direction → Int
  | .rightward => s.fieldLow
  | .leftward => s.fieldHigh

/-- The far edge of a pass (R53). -/
def State.farEdge (s : State) : Direction → Int
  | .rightward => s.fieldHigh
  | .leftward => s.fieldLow

/-- The position at which an entry releases feeder f. -/
def SystemEntry.releaseOf (e : SystemEntry) (f : Nat) : Option Int :=
  e.actions.findSome? fun a => match a.act with
    | .take _ => none
    | .release g x => if g = f then some x else none

/-- A carried feeder between two path positions. -/
def Projection.carriedBetween (p : Projection) (f : Nat) (x y : Int) : Carried :=
  Carried.mk f ((p.feeder f).rail?.getD 0) (min x y) (max x y)

/-- The feeders carried on the latch of one entry: the one it holds in the projection, then those it takes, in list order. -/
def State.carriedByEntry (s : State) (d : Direction) (e : SystemEntry) : List Carried :=
  let p := s.queue.proj
  (p.holder e.system).toList.map (fun g => p.carriedBetween g (s.entryEdge d) ((e.releaseOf g).getD (s.farEdge d)))
    ++ e.actions.filterMap fun a => match a.act with
      | .take f => some (p.carriedBetween f (p.feeder f).pos ((e.releaseOf f).getD (s.farEdge d)))
      | .release _ _ => none

/-- R53: every feeder carried by the record, entry by entry, then those on the latches of systems it names in no entry. -/
def State.carriedBy (s : State) (r : PassRecord) : List Carried :=
  r.entries.flatMap (s.carriedByEntry r.direction)
    ++ (s.fitted.filter fun i => r.entries.all fun e => decide (e.system ≠ i)).flatMap fun i =>
      (s.queue.proj.holder i).toList.map fun g =>
        s.queue.proj.carriedBetween g (s.entryEdge r.direction) (s.farEdge r.direction)

/-- Two carried feeders of one rail whose intervals have a position in common. -/
def Carried.clashes (a b : Carried) : Bool :=
  decide (a.feeder ≠ b.feeder) && decide (a.rail = b.rail) && decide (max a.low b.low ≤ min a.high b.high)

/-- Check 9 (R56). It compares path positions, so it lets two systems of different offsets carry two feeders of one rail on disjoint
intervals at one moment, which the law of R103 denies; the model follows the check (log 30). -/
def checkShared (cs : List Carried) : Option Rejection :=
  (cs.find? fun a => cs.any a.clashes).map fun a => Rejection.mk .railShared (Locator.mk none (some a.feeder))

/-- A parked feeder of the projection, not taken by the record, stands in a carried feeder's way. -/
def Projection.blocks (p : Projection) (taken : List Nat) (c : Carried) (f : Nat) : Bool :=
  match p.feeder f with
  | .parked rail pos => decide (f ∉ taken) && decide (rail = c.rail) && decide (c.low ≤ pos) && decide (pos ≤ c.high)
  | .undeclared | .coupled _ _ | .faulted _ => false

/-- The feeders a record takes. -/
def PassRecord.taken (r : PassRecord) : List Nat :=
  r.placedActions.filterMap fun a => match a.act with
    | .take f => some f
    | .release _ _ => none

/-- Check 10 (R56). -/
def checkBlocked (p : Projection) (taken : List Nat) (cs : List Carried) : Option Rejection :=
  (cs.find? fun c => (List.range 16).any (p.blocks taken c)).map fun c =>
    Rejection.mk .railBlocked (Locator.mk none (some c.feeder))

/-- R45: the first check that fails. -/
def State.admission (s : State) (r : PassRecord) : Option Rejection :=
  s.checkRoom.or <| (badSystem s.systems [] r.entries).or <| (s.checkRacking r).or <| (s.checkSealed r).or <|
  (s.checkRange r).or <| (s.checkCodes r).or <| (checkCycle r).or <|
  (s.queue.proj.walk s.queue.proj.holders [] r.placedActions).or <| (s.checkOnPath r).or <| (s.checkSpacing r).or <|
  (checkShared (s.carriedBy r)).or <| checkBlocked s.queue.proj r.taken (s.carriedBy r)

end Sys2Proof.Machine
end

