-- ==== Sys2Proof/Machine/Queue.lean ====
section
/-! DEFINITION. The pass queue's requests (chapter 3). -/

namespace Sys2Proof.Machine

/-! ### QUEUE_PASS -/

/-- R43: a width of 0 stands for N − a. -/
def Channel.resolve (n : Int) (c : Channel) : Channel :=
  if c.width = 0 then { c with width := (n - (c.start : Int)).toNat } else c

/-- R57 step 1: the record with its widths resolved. -/
def PassRecord.resolve (n : Int) (r : PassRecord) : PassRecord :=
  { r with entries := r.entries.map fun e =>
    { e with front := e.front.map (Channel.resolve n), back := e.back.map (Channel.resolve n) } }

/-- R57: the record is appended, its references raised, the projection advanced, and the head armed where it is due. -/
def State.enqueue (s : State) (r : PassRecord) : State :=
  let v := r.resolve s.needles
  let t := s.setStore (addRefs s.store v)
  (t.setQueue (PassQueue.mk (s.queue.records ++ [v]) s.queue.plan (s.queue.proj.advanceRecord v))).armHead

/-- The code of a head's record state, 4 for no record (R179). -/
def State.headStateCode (s : State) : Nat :=
  match s.queue.records with
  | r :: _ => r.state.code
  | [] => 4

/-- The code of the tail's record state. -/
def State.tailStateCode (s : State) : Nat := (s.queue.records.getLast?.map fun r => r.state.code).getD 4

/-- R45, R57. -/
def State.queuePass (r : PassRecord) (s : State) : State × Answer :=
  if s.settings.locked = false then (s, Answer.mk .notLocked (Locator.mk none none).bytes)
  else
    match s.admission r with
    | some j => (s, Answer.mk j.result j.locator.bytes)
    | none =>
      let t := s.enqueue r
      (t, accept (bytesOf 1 t.queue.records.length ++ bytesOf 1 t.tailStateCode))

/-- QUEUE_PASS (R45). -/
def execQueuePass (body : List Byte) (s : State) : Next :=
  .next (s.addressed (kindByte 0x0A) (parseQueuePass body) State.queuePass)

/-! ### Requests on the plan -/

/-- The record stands ACTIVE or FINISHING. -/
def RecordState.inPass : RecordState → Bool
  | .active | .finishing => true
  | .queued | .armed _ => false

/-- R67: every QUEUED or ARMED record is removed, the projection rebuilt and QUEUE_FLUSHED logged with cause CANCEL. -/
def State.cancelQueued (_ : Unit) (s : State) : State × Answer :=
  let kept := s.queue.records.filter fun r => r.state.inPass
  let gone := s.queue.records.filter fun r => !r.state.inPass
  let t := s.setStore (gone.foldl dropRefs s.store)
  let u := t.setQueue (PassQueue.mk kept s.queue.plan (kept.foldl Projection.advanceRecord s.feeders.project))
  (u.log (.queueFlushed gone.length .cancel), accept (bytesOf 1 gone.length))

/-- CANCEL_QUEUED (R67). -/
def execCancelQueued (body : List Byte) (s : State) : Next :=
  .next (s.addressed (kindByte 0x0B) (parseEmpty body) State.cancelQueued)

/-- R68. -/
def State.stopCycling (_ : Unit) (s : State) : State × Answer :=
  (s.setQueue { s.queue with records := s.queue.records.map fun r => { r with cycle := false } },
    accept (bytesOf 1 (s.queue.records.filter PassRecord.cycle).length))

/-- STOP_CYCLING (R68). -/
def execStopCycling (body : List Byte) (s : State) : Next :=
  .next (s.addressed (kindByte 0x0C) (parseEmpty body) State.stopCycling)

/-- R61. -/
def State.resume (_ : Unit) (s : State) : State × Answer :=
  match s.queue.plan with
  | .running => (s, accept (bytesOf 1 s.queue.plan.code ++ bytesOf 1 s.headStateCode))
  | .held =>
    if s.settings.locked = false then (s, refuse .notLocked)
    else if s.tracker.position.valid = false then (s, refuse .notReady)
    else
      let t := (s.setQueue { s.queue with plan := .running }).armHead
      (t, accept (bytesOf 1 t.queue.plan.code ++ bytesOf 1 t.headStateCode))

/-- RESUME (R61). -/
def execResume (body : List Byte) (s : State) : Next :=
  .next (s.addressed (kindByte 0x0D) (parseEmpty body) State.resume)

/-- R62. -/
def State.halt (_ : Unit) (s : State) : State × Answer :=
  (if s.passInProgress then s.abortPass .halt else s.flush .halt, accept [])

/-- HALT (R62). -/
def execHalt (dest : Dest) (body : List Byte) (s : State) : Next :=
  .next (s.request dest (kindByte 0x0E) (parseEmpty body) State.halt)

/-- The head is ARMED in WAIT_GO. -/
def State.headWaits (s : State) : Bool :=
  match s.queue.records with
  | r :: _ => decide (r.state = .armed (some .waitGo))
  | [] => false

/-- R64. -/
def State.giveGo (_ : Unit) (s : State) : State × Answer :=
  if s.headWaits then (s.setHeadState (.armed (some .goGiven)), accept []) else (s, refuse .notWaiting)

/-- GO (R64). -/
def execGo (dest : Dest) (body : List Byte) (s : State) : Next :=
  .next (s.request dest (kindByte 0x0F) (parseEmpty body) State.giveGo)

/-- QUERY_QUEUE (R69). -/
def execQueryQueue (body : List Byte) (s : State) : Next :=
  .next (s.addressed (kindByte 0x10) (parseEmpty body) (reads fun _ t => t.queueRecord))

end Sys2Proof.Machine
end

