-- ==== Sys2Proof/Machine/Settings.lean ====
section
/-! DEFINITION. The settings block (chapter 9): reading, writing with what each write brings about, the lock, the disturbance of
the store, and IDENTIFY. -/

namespace Sys2Proof.Machine

/-! ### READ_SETTING and IDENTIFY (R185) -/

/-- R185. -/
def State.readSetting (n : Nat) (s : State) : State × Answer :=
  if 29 < n then (s, refuse .range) else (s, accept (bytesOf 1 n ++ bytesOf 4 (s.setting n)))

/-- READ_SETTING (R185). -/
def execReadSetting (body : List Byte) (s : State) : Next :=
  .next (s.addressed (kindByte 0x1B) (parseByte body) State.readSetting)

/-- R185: vendor code, part code, silicon revision. -/
def identity : List Byte :=
  bytesOf 2 Config.vendorCode ++ bytesOf 2 Config.partCode ++ bytesOf 1 Config.siliconRevision

/-- IDENTIFY (R185). -/
def execIdentify (body : List Byte) (s : State) : Next :=
  .next (s.addressed (kindByte 0x20) (parseEmpty body) (reads fun _ _ => identity))

/-! ### WRITE_SETTING (R186) -/

/-- A value between two bounds. -/
def between (a b v : Int) : Bool := decide (a ≤ v) && decide (v ≤ b)

/-- The range of each setting (R184). -/
def settingInRange (n : Nat) (v : Int) : Bool :=
  match n with
  | 0 => between 64 1024 v
  | 1 => between 1 4 v
  | 2 => between 4 64 v
  | 3 => decide (v = 1) || decide (v = 2) || decide (v = 4) || decide (v = 8)
  | 4 => between 0 31 v
  | 5 => between (-32768) 32767 v
  | 6 => between 1 60 v
  | 7 | 8 | 9 | 10 => between (-128) 127 v
  | 11 => between 1 8 v
  | 12 => between 0 64 v
  | 13 => between 0 16 v
  | 14 => between 5 2550 v
  | 15 => between 10 2000 v
  | 16 => between 0 3 v
  | 17 => between 1 16 v
  | 18 => between 2 50 v
  | 19 => between 2 100 v
  | 20 => between 1 16 v
  | 21 => between 1 1023 v
  | 22 => between 1 8 v
  | 23 => between 1 8 v
  | 24 => between 1 128 v
  | 25 => between 0 1000 v
  | 26 | 27 | 28 | 29 => between 0 0x7FFFFF v
  | _ => false

/-- The setting holds the value. -/
def State.putSetting (s : State) (n : Nat) (v : Int) : State :=
  s.setSettings { s.settings with values := s.settings.values.setIfInBounds n v }

/-- R15: a tracking setting was written. -/
def State.trackingWritten (s : State) : State :=
  if s.tracker.position.valid then s.setTracker { s.tracker with position := .unreferenced, markWindow := none } else s

/-- R106, the field: a feeder parked outside the field becomes FAULTED. -/
def State.faultOutside (s : State) (f : Nat) : State :=
  match s.feeder f with
  | .parked rail pos => if s.inField pos then s else s.putFeeder f (.faulted rail)
  | .undeclared | .taking _ _ | .coupled _ _ | .releasing _ _ _ | .faulted _ => s

/-- R106, R123: a field setting was written. -/
def State.fieldWritten (s : State) : State := ((List.range 16).foldl State.faultOutside s).followProjection

/-- R106, the fitted systems: the latch record of system i is removed, its feeder FAULTED; a record not fitted stands OPEN. -/
def State.removeLatch (s : State) (i : Nat) : State :=
  match (s.latch i).state with
  | .closing f _ | .closed f | .opening f => s.faultFeeder i f
  | .opened => s.openLatch i

/-- R106, R123: SYSTEMS was written; the records from the new value upward are removed, and a newly fitted one stands OPEN. -/
def State.systemsWritten (s : State) : State :=
  (((List.range 4).filter fun i => decide (s.systems ≤ i)).foldl State.removeLatch s).followProjection

/-- R143: the silent run of feeder f's head brought into the range of SILENT_LIMIT; `old` is the limit before the write. The
outcome in the detail of a raise is open (log 7). -/
def State.limitSilent (old : Nat) (s : State) (f : Nat) : State :=
  let h := s.head f
  let run := min h.silentRun s.silentLimit
  let t := s.putHead f { h with silentRun := run }
  if run = s.silentLimit ∧ h.silentRun ≠ old then
    (t.setFreeCount (t.freeCount + 1)).raise
      (.headSilent (f + 1) (if Config.freeSilentMalformed t.freeCount then .malformed else .noReply))
  else t

/-- R143: the still run of feeder f's head brought into the range of STOP_SWEEPS. -/
def State.limitStill (old : Nat) (s : State) (f : Nat) : State :=
  let h := s.head f
  let run := min h.stillRun s.stopSweeps
  let t := s.putHead f { h with stillRun := run }
  if run = s.stopSweeps ∧ h.stillRun ≠ old then t.raise (.yarnStop (f + 1)) else t

/-- R186: what the readers of setting n do with the write; the limits before it come with it. -/
def State.settingWritten (n : Nat) (oldStop oldSilent : Nat) (s : State) : State :=
  match n with
  | 2 | 3 | 4 | 5 => s.trackingWritten
  | 0 | 12 | 13 => s.fieldWritten
  | 1 => s.systemsWritten
  | 19 => (List.range 16).foldl (State.limitStill oldStop) s
  | 20 => (List.range 16).foldl (State.limitSilent oldSilent) s
  | _ => s

/-- R186. -/
def State.writeSetting (q : Nat × Int) (s : State) : State × Answer :=
  if 29 < q.1 then (s, refuse .range)
  else if s.settings.locked then (s, refuse .locked)
  else if settingInRange q.1 q.2 = false then (s, refuse .range)
  else ((s.putSetting q.1 q.2).settingWritten q.1 s.stopSweeps s.silentLimit, accept [])

/-- WRITE_SETTING (R186). -/
def execWriteSetting (body : List Byte) (s : State) : Next :=
  .next (s.addressed (kindByte 0x1C) (parseWriteSetting body) State.writeSetting)

/-! ### The lock (R187, R189) -/

/-- R187 cross-check 1: the offsets of the fitted systems all differ. -/
def State.offsetsDiffer (s : State) : Bool := decide (s.fitted.map s.offset).Nodup

/-- R187 cross-check 2. -/
def State.windowsApart (s : State) : Bool := decide (2 * s.markWindowWidth + 2 < s.countsPerNeedle)

/-- R187. -/
def State.lockSettings (_ : Unit) (s : State) : State × Answer :=
  if s.settings.locked then (s, accept (bytesOf 2 ((s.settings.checksum.map BitVec.toNat).getD 0)))
  else if s.offsetsDiffer && s.windowsApart then
    (s.setSettings { s.settings with locked := true, checksum := some s.computedChecksum },
      accept (bytesOf 2 s.computedChecksum.toNat))
  else (s, refuse .range)

/-- LOCK_SETTINGS (R187). -/
def execLockSettings (body : List Byte) (s : State) : Next :=
  .next (s.addressed (kindByte 0x1D) (parseEmpty body) State.lockSettings)

/-- R189. -/
def State.unlockSettings (_ : Unit) (s : State) : State × Answer :=
  if s.settings.locked then
    if s.queue.records ≠ [] ∨ s.queue.plan = .running ∨ s.tracker.position = .seeking then (s, refuse .busy)
    else (s.setSettings { s.settings with locked := false }, accept [])
  else (s, accept [])

/-- UNLOCK_SETTINGS (R189). -/
def execUnlockSettings (body : List Byte) (s : State) : Next :=
  .next (s.addressed (kindByte 0x1E) (parseEmpty body) State.unlockSettings)

/-- SETTINGS_DISTURBANCE (R184): the stored checksum of LOCKED settings is altered; the values stand. A disturbance is of locked
settings, so unlocked ones have none. -/
def execSettingsDisturbance (checksum : Word16) (s : State) : Next :=
  .next (if s.settings.locked then s.setSettings { s.settings with checksum := some checksum } else s)

end Sys2Proof.Machine
end

