-- ==== Sys2Proof/Machine/Start.lean ====
section
/-! DEFINITION. Power-on and RESTART (R191, R182). -/

namespace Sys2Proof.Machine

/-- Every block at its power-on values with the settings block given: R23, R41, R70, R100, R125, R146, R168, R171. The queue of
waiting commands and the counter of free values are the model's own and stay. -/
def State.blocksReset (s : State) (block : SettingsBlock) (pins : PinLevels) : State where
  pending := s.pending
  tracker := Tracker.initial pins
  store := Vector.replicate 64 .free
  queue := PassQueue.initial
  engine := Engine.initial
  feeders := FeederUnit.initial pins
  yarn := YarnMonitor.initial (block.values.getD 18 0)
  monitor := ConditionMonitor.initial
  link := LinkPort.initial pins
  settings := block
  freeCount := s.freeCount

/-- R168, R173: the strap sample comes after the monitor's reset values, so bad parity is a raise of ADDRESS_PARITY. -/
def State.sampleStraps (s : State) : State :=
  if s.addressParityLive then s.raise (.addressParity s.link.straps) else s

/-- POWER_ON (R191): the settings take their defaults, unlocked. -/
def execPowerOn (pins : PinLevels) (s : State) : Next := .next (s.blocksReset SettingsBlock.initial pins).sampleStraps

/-- R182: a RESTART is answered before it acts. -/
def State.takeRestart (_ : Unit) (s : State) : State × Answer :=
  (s.setLink { s.link with restartPending := true }, accept [])

/-- RESTART (R182). -/
def execRestart (body : List Byte) (s : State) : Next :=
  .next (s.addressed (kindByte 0x1F) (parseEmpty body) State.takeRestart)

/-- RESTART_EFFECT (R182): the settings, their lock and their checksum are kept. With no answered RESTART there is no release
to act at. -/
def execRestartEffect (pins : PinLevels) (s : State) : Next :=
  .next (if s.link.restartPending then (s.blocksReset s.settings pins).sampleStraps else s)

end Sys2Proof.Machine
end

