-- ==== Sys2Proof/Machine/Yarn.lean ====
section
/-! DEFINITION. The yarn monitor (chapter 6): sweeps, polls, head writes and their requests. -/

namespace Sys2Proof.Machine

/-! ### Sweeps (R129 to R131) -/

/-- Sets the sweep. -/
def State.setSweep (s : State) (w : Option Sweep) : State := s.setYarn { s.yarn with sweep := w }

/-- R130: the sweep that starts: the pending write as its first transaction, then the polls of the carried feeders; an empty
list ends at once. What is left of the gap after the last sweep's last transaction goes on running before the first one (R126). -/
def State.newSweep (s : State) : Option Sweep :=
  match s.yarn.pendingWrite with
  | some _ => some (Sweep.mk (some .write) s.carriedFeeders)
  | none => if s.carriedFeeders = [] then none else some (Sweep.mk none s.carriedFeeders)

/-- SWEEP_TIMER_EXPIRY (R129): the timer restarts; an expiry during a sweep starts none. -/
def execSweepTimerExpiry (s : State) : Next :=
  .next (s.setYarn { s.yarn with
    sweepTimer := s.sweepInterval
    sweep := match s.yarn.sweep with
      | some w => some w
      | none => s.newSweep })

/-- R131, R136: the polls whose feeders are no longer carried are skipped, and the first other one begins: it takes the travel
mark into its cut and clears the mark; it is on the bus, so no gap is left. The sweep ends where no poll is left. -/
def State.startPoll (s : State) (rest : List Nat) : State :=
  match rest.dropWhile fun f => !(s.feeder f).carried with
  | [] => s.setSweep none
  | f :: later =>
    let t := s.putHead f { s.head f with travel := false }
    t.setYarn { t.yarn with gap := 0, sweep := some (Sweep.mk (some (.poll f (s.head f).travel false)) later) }

/-- POLL_START (R131): with a transaction on the bus, or no sweep, no poll would begin. -/
def execPollStart (s : State) : Next :=
  .next (match s.yarn.sweep with
    | some (Sweep.mk none rest) => s.startPoll rest
    | some (Sweep.mk (some _) _) | none => s)

/-- R126, R131: a transaction has ended: the bus gap begins, and the sweep goes on after it or ends with its list. -/
def State.endTransaction (s : State) (rest : List Nat) : State :=
  s.setYarn { s.yarn with
    gap := Config.busGapTicks
    sweep := if rest = [] then none else some (Sweep.mk none rest) }

/-! ### Poll outcomes (R134 to R140) -/

/-- R135, R136: a silent poll adds to the silent run, puts its travel cut back, and raises HEAD_SILENT when the run reaches
SILENT_LIMIT. -/
def State.applySilent (s : State) (f : Nat) (cut : Bool) (how : SilentOutcome) : State :=
  let h := s.head f
  let run := if h.silentRun < s.silentLimit then h.silentRun + 1 else s.silentLimit
  let t := s.putHead f { h with silentRun := run, travel := h.travel || cut }
  if h.silentRun < s.silentLimit ∧ run = s.silentLimit then t.raise (.headSilent (f + 1) how) else t

/-- R137: the still run after a GOOD poll. -/
def nextStill (limit : Nat) (travelling : Bool) (motion run : Nat) : Nat :=
  if motion = 0 then
    if travelling then (if run < limit then run + 1 else limit) else run
  else 0

/-- R134 steps 1 to 3, R137. -/
def State.applyMotion (s : State) (f : Nat) (cut : Bool) (motion : BitVec 8) (tension : BitVec 10) : State :=
  let h := s.head f
  let run := nextStill s.stopSweeps cut motion.toNat h.stillRun
  let t := s.putHead f { h with silentRun := 0, stillRun := run, lastMotion := some motion, lastTension := some tension }
  if h.stillRun < s.stopSweeps ∧ run = s.stopSweeps then t.raise (.yarnStop (f + 1)) else t

/-- R138 to R140: the spike state after a GOOD poll of a tension, and what it raises. -/
def State.nextSpike (s : State) (head tension : Nat) (spike : Spike) : Spike × Option Detail :=
  if s.knotLevel < tension then
    match spike with
    | .calm => (.rising 1, none)
    | .rising k => if s.shockSweeps < k + 1 then (.snagged, some (.yarnSnag head tension)) else (.rising (k + 1), none)
    | .settling _ => (.rising 1, none)
    | .snagged => (.snagged, none)
  else
    match spike with
    | .calm => (.calm, none)
    | .rising _ => if s.quietSweeps ≤ 1 then (.calm, some (.yarnKnot head)) else (.settling 1, none)
    | .settling j => if s.quietSweeps ≤ j + 1 then (.calm, some (.yarnKnot head)) else (.settling (j + 1), none)
    | .snagged => (.calm, none)

/-- R134 step 4. -/
def State.applyTension (s : State) (f : Nat) (tension : Nat) : State :=
  let h := s.head f
  let n := s.nextSpike (f + 1) tension h.spike
  let t := s.putHead f { h with spike := n.1 }
  match n.2 with
  | some d => t.raise d
  | none => t

/-- R134: an outcome applied to the head record of feeder f. Where the raise of step 3 aborts a pass and the abort takes the
feeder out of the carried states, its record has been reset and step 4 leaves it so (R132, R145, log 11). -/
def State.applyOutcome (s : State) (f : Nat) (cut : Bool) (o : PollOutcome) : State :=
  match o with
  | .silent how => s.applySilent f cut how
  | .good motion tension =>
    let t := s.applyMotion f cut motion tension
    if (t.feeder f).carried then t.applyTension f tension.toNat else t

/-- POLL_END (R134): a discarded outcome changes nothing in the head record (R131). -/
def execPollEnd (outcome : PollOutcome) (s : State) : Next :=
  .next (match s.yarn.sweep with
    | some (Sweep.mk (some (.poll f cut discarded)) rest) =>
      let t := s.endTransaction rest
      if discarded then t else t.applyOutcome f cut outcome
    | some (Sweep.mk (some .write) _) | some (Sweep.mk none _) | none => s)

/-- HEAD_WRITE_END (R142): HEAD_WRITE_DONE is logged and the pending write becomes absent. -/
def execHeadWriteEnd (outcome : WriteOutcome) (s : State) : Next :=
  .next (match s.yarn.sweep with
    | some (Sweep.mk (some .write) rest) =>
      let head := (s.yarn.pendingWrite.map HeadWrite.head).getD 0
      let t := (s.setYarn { s.yarn with pendingWrite := none }).endTransaction rest
      t.log (.headWriteDone head outcome)
    | some (Sweep.mk (some (.poll _ _ _)) _) | some (Sweep.mk none _) | none => s)

/-! ### Requests -/

/-- R141. -/
def State.holdWrite (w : HeadWrite) (s : State) : State × Answer :=
  if w.head < 1 ∨ 16 < w.head ∨ 15 < w.item ∨ 1023 < w.value then (s, refuse .range)
  else if s.yarn.pendingWrite.isSome then (s, refuse .headBusy)
  else (s.setYarn { s.yarn with pendingWrite := some w }, accept [])

/-- HEAD_WRITE (R141). -/
def execHeadWrite (body : List Byte) (s : State) : Next :=
  .next (s.addressed (kindByte 0x14) (parseHeadWrite body) State.holdWrite)

/-- QUERY_HEADS (R145). -/
def execQueryHeads (body : List Byte) (s : State) : Next :=
  .next (s.addressed (kindByte 0x15) (parseEmpty body) (reads fun _ t => t.headRecords))

end Sys2Proof.Machine
end

