-- ==== Sys2Proof/Machine/Dispatch.lean ====
section
/-! DEFINITION. The meaning of every command: one arm per constructor. -/

namespace Sys2Proof.Machine

def exec (i : Instr) (s : State) : Host.Outcome State Fault Refusal :=
  match i with
  | .powerOn pins => Sys2Proof.Machine.execPowerOn pins s
  | .restart body => Sys2Proof.Machine.execRestart body s
  | .restartEffect pins => Sys2Proof.Machine.execRestartEffect pins s
  | .countTransition line => Sys2Proof.Machine.execCountTransition line s
  | .illegalTransition => Sys2Proof.Machine.execIllegalTransition s
  | .homeMarkEdge => Sys2Proof.Machine.execHomeMarkEdge s
  | .needleMarkEdge => Sys2Proof.Machine.execNeedleMarkEdge s
  | .seekTimerExpiry => Sys2Proof.Machine.execSeekTimerExpiry s
  | .stallTimerExpiry => Sys2Proof.Machine.execStallTimerExpiry s
  | .takeCountdownExpiry system => Sys2Proof.Machine.execTakeCountdownExpiry system s
  | .releaseCountdownExpiry system => Sys2Proof.Machine.execReleaseCountdownExpiry system s
  | .coupleSenseEdge system level => Sys2Proof.Machine.execCoupleSenseEdge system level s
  | .sweepTimerExpiry => Sys2Proof.Machine.execSweepTimerExpiry s
  | .pollStart => Sys2Proof.Machine.execPollStart s
  | .pollEnd outcome => Sys2Proof.Machine.execPollEnd outcome s
  | .headWriteEnd outcome => Sys2Proof.Machine.execHeadWriteEnd outcome s
  | .strapRead levels => Sys2Proof.Machine.execStrapRead levels s
  | .settingsDisturbance checksum => Sys2Proof.Machine.execSettingsDisturbance checksum s
  | .frameAbandon => Sys2Proof.Machine.execFrameAbandon s
  | .badCheckFrame => Sys2Proof.Machine.execBadCheckFrame s
  | .unknownKind kind => Sys2Proof.Machine.execUnknownKind kind s
  | .broadcastRefused kind => Sys2Proof.Machine.execBroadcastRefused kind s
  | .replyEnd => Sys2Proof.Machine.execReplyEnd s
  | .status body => Sys2Proof.Machine.execStatus body s
  | .home body => Sys2Proof.Machine.execHome body s
  | .queryPosition body => Sys2Proof.Machine.execQueryPosition body s
  | .defineLine body => Sys2Proof.Machine.execDefineLine body s
  | .writeLine body => Sys2Proof.Machine.execWriteLine body s
  | .sealLine body => Sys2Proof.Machine.execSealLine body s
  | .reopenLine body => Sys2Proof.Machine.execReopenLine body s
  | .dropLine body => Sys2Proof.Machine.execDropLine body s
  | .queryLine body => Sys2Proof.Machine.execQueryLine body s
  | .queuePass body => Sys2Proof.Machine.execQueuePass body s
  | .cancelQueued body => Sys2Proof.Machine.execCancelQueued body s
  | .stopCycling body => Sys2Proof.Machine.execStopCycling body s
  | .resume body => Sys2Proof.Machine.execResume body s
  | .halt dest body => Sys2Proof.Machine.execHalt dest body s
  | .go dest body => Sys2Proof.Machine.execGo dest body s
  | .queryQueue body => Sys2Proof.Machine.execQueryQueue body s
  | .declareFeeder body => Sys2Proof.Machine.execDeclareFeeder body s
  | .forgetFeeder body => Sys2Proof.Machine.execForgetFeeder body s
  | .queryFeeders body => Sys2Proof.Machine.execQueryFeeders body s
  | .headWrite body => Sys2Proof.Machine.execHeadWrite body s
  | .queryHeads body => Sys2Proof.Machine.execQueryHeads body s
  | .queryConditions body => Sys2Proof.Machine.execQueryConditions body s
  | .clearConditions dest body => Sys2Proof.Machine.execClearConditions dest body s
  | .force body => Sys2Proof.Machine.execForce body s
  | .readEvents body => Sys2Proof.Machine.execReadEvents body s
  | .syncTime dest body => Sys2Proof.Machine.execSyncTime dest body s
  | .readSetting body => Sys2Proof.Machine.execReadSetting body s
  | .writeSetting body => Sys2Proof.Machine.execWriteSetting body s
  | .lockSettings body => Sys2Proof.Machine.execLockSettings body s
  | .unlockSettings body => Sys2Proof.Machine.execUnlockSettings body s
  | .identify body => Sys2Proof.Machine.execIdentify body s
  | .frameStart => Sys2Proof.Machine.execFrameStart s
  | .foreignFrame => Sys2Proof.Machine.execForeignFrame s

end Sys2Proof.Machine
end

