-- ==== Sys2Proof/Machine/Layouts.lean ====
section
/-! DEFINITION. The layouts of section 8.8 as facts about bytes: where a field of a record, of an event entry or of a detail stands
and what it holds, and which request bodies break their layout (R179 to R181). Statements about bytes are made in these terms. -/

namespace Sys2Proof.Machine

/-! ### Reading a field -/

/-- The unsigned number in the n bytes from offset i, low byte first. -/
def fieldAt (bs : List Byte) (i n : Nat) : Nat := ((bs.drop i).take n).foldr (fun b acc => b.toNat + 256 * acc) 0

/-- The signed number in the n bytes from offset i. -/
def signedAt (bs : List Byte) (i n : Nat) : Int := Int.bmod (fieldAt bs i n) (256 ^ n)

/-- Bit k of the byte at offset i. -/
def bitAt (bs : List Byte) (i k : Nat) : Bool := (bs.getD i 0).getLsbD k

/-- The bits of the byte at offset i, bit 0 first, are set while these facts hold, and no bit beyond them is set. -/
def bitsAt (bs : List Byte) (i : Nat) (facts : List Prop) : Prop := ∀ k < 8, bitAt bs i k = true ↔ facts.getD k False

/-- The records of n bytes that follow one another from offset i: the k-th. -/
def recordAt (bs : List Byte) (i n k : Nat) : List Byte := (bs.drop (i + n * k)).take n

/-! ### Details and payloads (section 8.8.4) -/

/-- What the four bytes of a detail hold; the bytes after the last field are 0. -/
def Detail.laidOut (b : List Byte) : Detail → Prop
  | .posJump st => fieldAt b 0 1 = st.code ∧ b.drop 1 = [0, 0, 0]
  | .markSlip (.needle d) => fieldAt b 0 1 = 0 ∧ signedAt b 1 1 = max (-128) (min 127 d) ∧ b.drop 2 = [0, 0]
  | .markSlip (.home d) => fieldAt b 0 1 = 1 ∧ signedAt b 1 1 = max (-128) (min 127 d) ∧ b.drop 2 = [0, 0]
  | .markSlip (.absent x) => fieldAt b 0 1 = 2 ∧ signedAt b 1 2 = clampX x ∧ b.drop 3 = [0]
  | .posLost .jump => b = [0, 0, 0, 0]
  | .posLost .slip => b = [1, 0, 0, 0]
  | .homeTimeout => b = [0, 0, 0, 0]
  | .stall ph x => fieldAt b 0 1 = ph.code ∧ signedAt b 1 2 = clampX x ∧ b.drop 3 = [0]
  | .overspeed p => fieldAt b 0 2 = p % 65536 ∧ b.drop 2 = [0, 0]
  | .reversal r x => (fieldAt b 0 1 : Int) = r % 256 ∧ signedAt b 1 2 = clampX x ∧ b.drop 3 = [0]
  | .wrongWay t d => fieldAt b 0 2 = t.toNat ∧ fieldAt b 2 1 = d.code ∧ b.drop 3 = [0]
  | .noGo t => fieldAt b 0 2 = t.toNat ∧ b.drop 2 = [0, 0]
  | .starved d => fieldAt b 0 1 = d.code ∧ b.drop 1 = [0, 0, 0]
  | .xferClash i p => fieldAt b 0 1 = i % 256 ∧ signedAt b 1 2 = Int.bmod p 65536 ∧ b.drop 3 = [0]
  | .xferEdge i p .front => fieldAt b 0 1 = i % 256 ∧ signedAt b 1 2 = Int.bmod p 65536 ∧ b.drop 3 = [0]
  | .xferEdge i p .back => fieldAt b 0 1 = i % 256 ∧ signedAt b 1 2 = Int.bmod p 65536 ∧ b.drop 3 = [1]
  | .feederMissed f i src => fieldAt b 0 1 = f % 256 ∧ fieldAt b 1 1 = i % 256 ∧ fieldAt b 2 1 = src.code ∧ b.drop 3 = [0]
  | .feederStuck f i x => fieldAt b 0 1 = f % 256 ∧ fieldAt b 1 1 = i % 256 ∧ signedAt b 2 2 = Int.bmod x 65536
  | .yarnStop h => fieldAt b 0 1 = h % 256 ∧ b.drop 1 = [0, 0, 0]
  | .yarnSnag h t => fieldAt b 0 1 = h % 256 ∧ fieldAt b 1 2 = t % 65536 ∧ b.drop 3 = [0]
  | .yarnKnot h => fieldAt b 0 1 = h % 256 ∧ b.drop 1 = [0, 0, 0]
  | .headSilent h o => fieldAt b 0 1 = h % 256 ∧ fieldAt b 1 1 = silentCode o ∧ b.drop 2 = [0, 0]
  | .settingsCheck k c => fieldAt b 0 2 = k.toNat ∧ fieldAt b 2 2 = c.toNat
  | .strapChange k l => fieldAt b 0 1 = k.toNat ∧ fieldAt b 1 1 = l.toNat ∧ b.drop 2 = [0, 0]
  | .addressParity k => fieldAt b 0 1 = k.toNat ∧ b.drop 1 = [0, 0, 0]
  | .frameFault c k => fieldAt b 0 1 = c.code ∧ b.getD 1 0 = k.getD 0 ∧ b.drop 2 = [0, 0]
  | .eventOverrun t => fieldAt b 0 1 = t.code ∧ b.drop 1 = [0, 0, 0]

/-- What the six payload bytes of an event hold (R181 for the absent fields); the bytes after the last field are 0. -/
def Event.laidOut (b : List Byte) : Event → Prop
  | .passStarted t d => fieldAt b 0 2 = t.toNat ∧ fieldAt b 2 1 = d.code ∧ b.drop 3 = [0, 0, 0]
  | .passEnded t c => fieldAt b 0 2 = t.toNat ∧ fieldAt b 2 2 = c.toNat ∧ b.drop 4 = [0, 0]
  | .passAborted t r p => fieldAt b 0 2 = t.toNat ∧ fieldAt b 2 1 = r.code ∧ signedAt b 3 2 = Int.bmod (p.getD (-32768)) 65536
      ∧ fieldAt b 5 1 = match r with
        | .routed c => c.num
        | .reversal | .overspeed | .posLost | .feederMissed | .feederStuck | .settingsCheck | .wrongWay | .noGo | .halt => 255
  | .feederTaken f i x => fieldAt b 0 1 = f % 256 ∧ fieldAt b 1 1 = i % 256 ∧ signedAt b 2 2 = Int.bmod x 65536 ∧ b.drop 4 = [0, 0]
  | .feederReleased f i x => fieldAt b 0 1 = f % 256 ∧ fieldAt b 1 1 = i % 256 ∧ signedAt b 2 2 = Int.bmod x 65536 ∧ b.drop 4 = [0, 0]
  | .condition d => fieldAt b 0 1 = d.cond.num ∧ d.laidOut ((b.drop 1).take 4) ∧ b.drop 5 = [0]
  | .homed c x => signedAt b 0 4 = Int.bmod c 4294967296 ∧ signedAt b 4 2 = clampX x
  | .passMark c => fieldAt b 0 2 = c.toNat ∧ b.drop 2 = [0, 0, 0, 0]
  | .headWriteDone h o => fieldAt b 0 1 = h % 256 ∧ fieldAt b 1 1 = writeCode o ∧ b.drop 2 = [0, 0, 0, 0]
  | .queueFlushed n c => fieldAt b 0 1 = n % 256 ∧ fieldAt b 1 1 = c.code ∧ b.drop 2 = [0, 0, 0, 0]

/-! ### Bodies that break their layout (R179, R180) -/

/-- A WRITE_LINE body (section 8.8.1): a length other than 5 + ⌈count / 4⌉, or an unused bit pair of the last byte that is not 0. -/
def writeLineMalformed (b : List Byte) : Prop :=
  b.length < 5 ∨ b.length ≠ 5 + (fieldAt b 3 2 + 3) / 4
  ∨ ∃ j, fieldAt b 3 2 ≤ j ∧ j < 4 * ((fieldAt b 3 2 + 3) / 4) ∧ fieldAt b (5 + j / 4) 1 / 4 ^ (j % 4) % 4 ≠ 0

/-- The number of channels that an entry's layout byte announces. -/
def entryChannels (b : List Byte) : Nat := (bitAt b 2 0).toNat + (bitAt b 2 1).toNat

/-- The number of actions that an entry's layout byte announces. -/
def entryActions (b : List Byte) : Nat := fieldAt b 2 1 / 4 % 4

/-- The length of an entry: 3, 8 for each channel and 3 for each action (R180). -/
def entryLength (b : List Byte) : Nat := 3 + 8 * entryChannels b + 3 * entryActions b

/-- A system entry of a QUEUE_PASS body (section 8.8.2): too short, a cam mode above 2, more than 2 actions, a bit with no meaning
set in the layout byte or in a channel's last byte, or a TAKE whose position bytes are not 0. -/
def entryMalformed (b : List Byte) : Prop :=
  b.length < 3 ∨ b.length < entryLength b ∨ 2 < fieldAt b 1 1 ∨ 2 < entryActions b ∨ 16 ≤ fieldAt b 2 1
  ∨ (∃ k < entryChannels b, bitAt b (10 + 8 * k) 1 = true ∨ 16 ≤ fieldAt b (10 + 8 * k) 1)
  ∨ ∃ k < entryActions b, bitAt b (3 + 8 * entryChannels b + 3 * k) 7 = false
      ∧ fieldAt b (4 + 8 * entryChannels b + 3 * k) 2 ≠ 0

/-- The entries of a QUEUE_PASS body: one of the n announced is malformed, or bytes are left after the last. -/
def entriesMalformed : Nat → List Byte → Prop
  | 0, b => b ≠ []
  | n + 1, b => entryMalformed b ∨ entriesMalformed n (b.drop (entryLength b))

/-- A QUEUE_PASS body: a short header, a flag bit with no meaning set, more than 4 entries, or malformed entries. -/
def queuePassMalformed (b : List Byte) : Prop :=
  b.length < 5 ∨ 8 ≤ fieldAt b 2 1 ∨ 4 < fieldAt b 4 1 ∨ entriesMalformed (fieldAt b 4 1) (b.drop 5)

end Sys2Proof.Machine
end

