-- ==== Sys2Proof/Machine/Pins.lean ====
section
/-! DEFINITION. The output pins of section 8.10 (R183), read from the state that each of them follows. -/

namespace Sys2Proof.Machine

/-- R183: a code on a bank's two lines, from MISS with both low to SEND with both high. -/
def Code.lines : Code → BankLines
  | .miss => BankLines.mk false false
  | .tuck => BankLines.mk true false
  | .knit => BankLines.mk false true
  | .send => BankLines.mk true true

/-- R183, R89: the lines SELF of system i; those of a system that is not fitted are held at MISS. -/
def State.frontLines (s : State) (i : Nat) : BankLines := (if i < s.systems then (s.bank i).front else .miss).lines

/-- R183, R89: the lines SELB of system i. -/
def State.backLines (s : State) (i : Nat) : BankLines := (if i < s.systems then (s.bank i).back else .miss).lines

/-- A pin that stands high while a fact holds. -/
def highWhile (b : Bool) : PinState := if b then .high else .low

/-- R183: LDRV of system i, high while the drive is closed (R102). -/
def State.drivePin (s : State) (i : Nat) : PinState := highWhile (s.latchDrive i)

/-- R126: no transaction is on the yarn head bus: no sweep is in progress, none of its transactions has begun, or the gap before
the next one is running. -/
def YarnMonitor.busIdle (y : YarnMonitor) : Bool :=
  match y.sweep with
  | some (Sweep.mk (some _) _) => decide (0 < y.gap)
  | some (Sweep.mk none _) | none => true

/-- R183, R126: YCLK rests low while the bus is idle. -/
def State.clockPin (s : State) : PinState := if s.yarn.busIdle then .low else .signalling

/-- R183, R126: YDAT is released while the bus is idle. -/
def State.dataPin (s : State) : PinState := if s.yarn.busIdle then .released else .signalling

/-- R183, R158: STOP is asserted low and driven high otherwise. -/
def State.stopPin (s : State) : PinState := highWhile !s.stopLine

/-- R183, R159: ATTN is asserted low and released otherwise. -/
def State.attnPin (s : State) : PinState := if s.attnLine then .low else .released

/-- R183, R190: READY is high while ready and driven low otherwise. -/
def State.readyPin (s : State) : PinState := highWhile s.readyLine

/-- R183, R176: the link pair is released but for a reply. -/
def State.linkPins (s : State) : PinState :=
  match s.link.rx with
  | .reply _ => .signalling
  | .hunt | .frame => .released

end Sys2Proof.Machine
end

