-- ==== Sys2Proof/Safety.lean ====
section
/-! DEFINITION. What the laws of the device say of one state, each as a predicate, and the few terms in which statements about
commands are made. -/

namespace Sys2Proof.Machine

/-! ### Terms of statements -/

/-- A request addressed to this unit is taken: the receiver is not sending, and the unit has an address (R171, R172). -/
def State.listening (s : State) : Prop := s.link.rx.busy = false ∧ s.addressParityLive = false

/-- The kind number of a request of section 8.8, how its frame is addressed, and its body. -/
def requestOf : Instr → Option (Nat × Dest × List Byte)
  | .status b => some (0x01, .addressed, b)
  | .home b => some (0x02, .addressed, b)
  | .queryPosition b => some (0x03, .addressed, b)
  | .defineLine b => some (0x04, .addressed, b)
  | .writeLine b => some (0x05, .addressed, b)
  | .sealLine b => some (0x06, .addressed, b)
  | .reopenLine b => some (0x07, .addressed, b)
  | .dropLine b => some (0x08, .addressed, b)
  | .queryLine b => some (0x09, .addressed, b)
  | .queuePass b => some (0x0A, .addressed, b)
  | .cancelQueued b => some (0x0B, .addressed, b)
  | .stopCycling b => some (0x0C, .addressed, b)
  | .resume b => some (0x0D, .addressed, b)
  | .halt d b => some (0x0E, d, b)
  | .go d b => some (0x0F, d, b)
  | .queryQueue b => some (0x10, .addressed, b)
  | .declareFeeder b => some (0x11, .addressed, b)
  | .forgetFeeder b => some (0x12, .addressed, b)
  | .queryFeeders b => some (0x13, .addressed, b)
  | .headWrite b => some (0x14, .addressed, b)
  | .queryHeads b => some (0x15, .addressed, b)
  | .queryConditions b => some (0x16, .addressed, b)
  | .clearConditions d b => some (0x17, d, b)
  | .force b => some (0x18, .addressed, b)
  | .readEvents b => some (0x19, .addressed, b)
  | .syncTime d b => some (0x1A, d, b)
  | .readSetting b => some (0x1B, .addressed, b)
  | .writeSetting b => some (0x1C, .addressed, b)
  | .lockSettings b => some (0x1D, .addressed, b)
  | .unlockSettings b => some (0x1E, .addressed, b)
  | .restart b => some (0x1F, .addressed, b)
  | .identify b => some (0x20, .addressed, b)
  | .powerOn _ | .restartEffect _ | .countTransition _ | .illegalTransition | .homeMarkEdge | .needleMarkEdge => none
  | .seekTimerExpiry | .stallTimerExpiry | .takeCountdownExpiry _ | .releaseCountdownExpiry _ => none
  | .coupleSenseEdge _ _ | .sweepTimerExpiry | .pollStart | .pollEnd _ | .headWriteEnd _ | .strapRead _ => none
  | .settingsDisturbance _ | .frameAbandon | .badCheckFrame | .unknownKind _ | .broadcastRefused _ => none
  | .replyEnd | .frameStart | .foreignFrame => none

/-- The number of body bytes that section 8.8 gives a kind; WRITE_LINE and QUEUE_PASS have no fixed number. -/
def bodyLengthOf (kind : Nat) : Option Nat :=
  match kind with
  | 0x01 | 0x02 | 0x03 | 0x0B | 0x0C | 0x0D | 0x0E | 0x0F | 0x10 | 0x13 | 0x15 | 0x16 | 0x17 => some 0
  | 0x1D | 0x1E | 0x1F | 0x20 => some 0
  | 0x06 | 0x07 | 0x08 | 0x09 | 0x12 | 0x19 | 0x1B => some 1
  | 0x18 => some 2
  | 0x04 => some 3
  | 0x11 | 0x14 | 0x1A => some 4
  | 0x1C => some 5
  | _ => none

/-- The commands that stand for characters on the pair (R171, R172); REPLY_END, the end of this unit's own reply, is not one. -/
def comesFromPair (c : Instr) : Bool :=
  (requestOf c).isSome ||
  match c with
  | .frameStart | .frameAbandon | .badCheckFrame | .foreignFrame | .unknownKind _ | .broadcastRefused _ => true
  | _ => false

/-- The event queue has room for n entries more (R163). -/
def State.room (s : State) (n : Nat) : Prop := s.monitor.events.length + n ≤ 128

/-- An entry appended now (R163). -/
def State.entry (s : State) (e : Event) : EventEntry := EventEntry.mk s.monitor.timestamp e

/-- The data of a line without its reference count: its state, codes, cursor, extent and census (R37 changes none of them). -/
def Line.content : Line → Line
  | .free => .free
  | .opened d => .opened d
  | .sealed d c _ => .sealed d c 0

/-- The reference count of a line; only a SEALED line has one above 0 (section 2.1). -/
def Line.refs : Line → Nat
  | .free | .opened _ => 0
  | .sealed _ _ n => n

/-- The feeder a latch holds (R102). -/
def LatchState.held : LatchState → Option Nat
  | .opened => none
  | .closing f _ | .closed f | .opening f => some f

/-! ### Laws -/

/-- R163: the event queue holds at most 128 entries. -/
def State.eventLaw (s : State) : Prop := s.monitor.events.length ≤ 128

/-- R61: the plan is RUNNING only while the settings are locked. -/
def State.lockLaw (s : State) : Prop := s.queue.plan = .running → s.settings.locked = true

/-- R26: the lengths of the lines that are not FREE sum to at most 24,576. -/
def State.storeLaw (s : State) : Prop := s.cellCount ≤ 24576

/-- The channels of the records in the queue that name line id. -/
def State.namesOf (s : State) (id : Nat) : Nat := (s.queue.records.flatMap PassRecord.channels).countP fun c => decide (c.line = id)

/-- R37: each line's reference count is the number of channels, in records now in the queue, that name it. -/
def State.referenceLaw (s : State) : Prop := ∀ id, (s.line id).refs = s.namesOf id

/-- R44, R45, R63: the order of the queue. -/
structure State.QueueLaw (s : State) : Prop where
  /-- R44: at most 8 records. -/
  bounded : s.queue.records.length ≤ 8
  /-- R44: every record behind the head is QUEUED. -/
  behind : ∀ r ∈ s.queue.records.tail, r.state = .queued
  /-- R44: while the plan is HELD every record is QUEUED. -/
  held : s.queue.plan = .held → ∀ r ∈ s.queue.records, r.state = .queued
  /-- R63: while the plan is RUNNING the head is armed or in its pass. -/
  armed : s.queue.plan = .running → ∀ r ∈ s.queue.records.head?, r.state ≠ .queued
  /-- R45: a record is in the queue only under locked settings. -/
  underLock : s.queue.records ≠ [] → s.settings.locked = true

/-- R71, R16, R79, R89: the pass, and what stands with it. -/
structure State.PassLaw (s : State) : Prop where
  /-- R71: there is a current record exactly while the head is ACTIVE or FINISHING. -/
  current : s.passInProgress = (s.headActive || s.headFinishing)
  /-- R16: the tracker's copy of the state of the pass. -/
  phase : s.tracker.phase = if s.headActive then .active else if s.headFinishing then .finishing else .none
  /-- R79: a pass is in progress only with a valid position. -/
  position : s.passInProgress = true → s.tracker.position.valid = true
  /-- R89: while no record is ACTIVE every bank presents MISS. -/
  banks : s.headActive = false → s.engine.banks = Vector.replicate 4 (BankPair.mk .miss .miss)
  /-- R20: with no pass the stall timer is stopped and STALL is not live. -/
  stall : s.passInProgress = false → s.tracker.stallTimer = none ∧ s.tracker.stallLive = false

/-- The plan's laws together (R44, R61, R71, R79, R89); each needs the others to be kept. -/
structure State.PlanLaw (s : State) : Prop where
  /-- The queue. -/
  queue : s.QueueLaw
  /-- The pass. -/
  pass : s.PassLaw
  /-- The lock (R61). -/
  lock : s.lockLaw

/-- R102: a feeder is TAKING, COUPLED or RELEASING with system i exactly while latch i is CLOSING, CLOSED or OPENING and names
it as its held feeder. -/
structure State.LatchLaw (s : State) : Prop where
  /-- TAKING and CLOSING. -/
  taking : ∀ i < 4, ∀ f, (∃ rail, s.feeder f = .taking rail i) ↔ ∃ p, (s.latch i).state = .closing f p
  /-- COUPLED and CLOSED. -/
  coupled : ∀ i < 4, ∀ f, (∃ rail, s.feeder f = .coupled rail i) ↔ (s.latch i).state = .closed f
  /-- RELEASING and OPENING. -/
  releasing : ∀ i < 4, ∀ f, (∃ rail x, s.feeder f = .releasing rail i x) ↔ (s.latch i).state = .opening f
  /-- A feeder is carried by one of the four latches. -/
  system : ∀ f i, (∃ rail x, s.feeder f = .taking rail i ∨ s.feeder f = .coupled rail i ∨ s.feeder f = .releasing rail i x) →
    i < 4

/-- R102, R184, R91: what stands with the law of the latches. -/
structure State.FeederLaw (s : State) : Prop where
  /-- R102. -/
  latches : s.LatchLaw
  /-- R184: at most four systems are fitted. -/
  systems : s.systems ≤ 4
  /-- R91, R106, R122: a latch is CLOSING or OPENING only while a pass is in progress. -/
  settled : s.engine.pass = none → s.latchOutstanding = false

/-- R103, the second half of its law: no two PARKED feeders of one rail share a parked position. -/
def State.parkedLaw (s : State) : Prop :=
  ∀ f g rail x, s.feeder f = .parked rail x → s.feeder g = .parked rail x → f = g

/-- R58: a feeder is COUPLED to system i in the projection exactly when latch i has it as projected holder. -/
def Projection.holderLaw (p : Projection) : Prop := ∀ f i, (∃ rail, p.feeder f = .coupled rail i) ↔ p.holder i = some f

/-- R103 for the table as the queue plans it: no two feeders of one rail are COUPLED, and no two PARKED ones share a position. -/
structure Projection.RailLaw (p : Projection) : Prop where
  /-- The carried feeders. -/
  carried : ∀ f g rail i j, p.feeder f = .coupled rail i → p.feeder g = .coupled rail j → f = g
  /-- The parked ones. -/
  parked : ∀ f g rail x, p.feeder f = .parked rail x → p.feeder g = .parked rail x → f = g

/-! ### Admission (R53 to R56), in the terms of the manual -/

/-- R54: the walk's holder of an entry's latch where the actions `before` it in the entry have been walked. -/
def Projection.walkHolder (p : Projection) (i : Nat) (before : List MarkedAction) : Option Nat :=
  match before.getLast? with
  | none => p.holder i
  | some a => match a.act with
    | .take f => some f
    | .release _ _ => none

/-- R54: an action that fails where the walk reaches it. -/
def Projection.actionFails (p : Projection) (i : Nat) (before : List MarkedAction) : FeederAction → Prop
  | .take f => 15 < f ∨ (∀ rail x, p.feeder f ≠ .parked rail x) ∨ p.walkHolder i before ≠ none
  | .release f _ => 15 < f ∨ p.walkHolder i before ≠ some f

/-- R54: a feeder named by actions of two entries, or twice by one kind of action of one entry. -/
def PassRecord.namesTwice (r : PassRecord) : Prop :=
  (∃ e ∈ r.entries, ∃ f ∈ r.entries, e.system ≠ f.system ∧ ∃ a ∈ e.actions, ∃ b ∈ f.actions, a.act.feeder = b.act.feeder)
  ∨ ∃ e ∈ r.entries, ∃ before a between b after, e.actions = before ++ a :: between ++ b :: after
      ∧ a.act.feeder = b.act.feeder ∧ a.act.isTake = b.act.isTake

/-- R53: y is where entry e ends the carrying of feeder f: its release, or the far edge. -/
def State.carriesUntil (s : State) (d : Direction) (e : SystemEntry) (f : Nat) (y : Int) : Prop :=
  (∃ a ∈ e.actions, a.act = .release f y) ∨ (∀ a ∈ e.actions, ∀ z, a.act ≠ .release f z) ∧ y = s.farEdge d

/-- R53: feeder f is carried by the record, from path position x to path position y: held by a latch from the entry edge on, or
taken by an action; to its release or to the far edge. -/
def State.carries (s : State) (r : PassRecord) (f : Nat) (x y : Int) : Prop :=
  (∃ i < s.systems, s.queue.proj.holder i = some f ∧ x = s.entryEdge r.direction
    ∧ ((∃ e ∈ r.entries, e.system = i ∧ s.carriesUntil r.direction e f y)
      ∨ (∀ e ∈ r.entries, e.system ≠ i) ∧ y = s.farEdge r.direction))
  ∨ ∃ e ∈ r.entries, ∃ a ∈ e.actions, a.act = .take f ∧ (∃ rail, s.queue.proj.feeder f = .parked rail x)
      ∧ s.carriesUntil r.direction e f y

/-- z lies between x and y, ends included. -/
def liesBetween (z x y : Int) : Prop := min x y ≤ z ∧ z ≤ max x y

/-- R56, check 9: two carried feeders of one rail whose intervals share a position. -/
def State.railShared (s : State) (r : PassRecord) : Prop :=
  ∃ f g x y v w z, f ≠ g ∧ s.carries r f x y ∧ s.carries r g v w
    ∧ (s.queue.proj.feeder f).rail? = (s.queue.proj.feeder g).rail? ∧ liesBetween z x y ∧ liesBetween z v w

/-- R56, check 10: a parked feeder, not taken, on the rail and within the interval of a carried one. -/
def State.railBlocked (s : State) (r : PassRecord) : Prop :=
  ∃ f x y g rail z, s.carries r f x y ∧ (s.queue.proj.feeder f).rail? = some rail ∧ s.queue.proj.feeder g = .parked rail z
    ∧ (∀ e ∈ r.entries, ∀ a ∈ e.actions, a.act ≠ .take g) ∧ liesBetween z x y

/-- R170: one bit taken into the check register; generator x^16 + x^12 + x^5 + 1. -/
def checkBit (c : Word16) (x : Bool) : Word16 := if c.msb ^^ x then (c <<< 1) ^^^ 0x1021#16 else c <<< 1

/-- R170: the check register, preset to FFFFh, after these bytes have been taken in, each most significant bit first. -/
def checkRegister (bs : List Byte) : Word16 :=
  (bs.flatMap fun b => [7, 6, 5, 4, 3, 2, 1, 0].map fun k => b.getLsbD k).foldl checkBit 0xFFFF#16

/-- R59: the first action with the mark `old` has taken the mark `new`; where none has it, the actions stand. -/
def firstRemarked (old new : Mark) (as bs : List MarkedAction) : Prop :=
  (∀ before a after, as = before ++ a :: after → (∀ b ∈ before, b.mark ≠ old) → a.mark = old →
    bs = before ++ { a with mark := new } :: after)
  ∧ ((∀ a ∈ as, a.mark ≠ old) → bs = as)

/-- R59: in the entries of the systems that are hit the first action with the mark `old` has taken the mark `new`; all else of the
entries stands. -/
def entriesRemarked (hit : Nat → Prop) (old new : Mark) (es fs : List SystemEntry) : Prop :=
  fs.length = es.length ∧ ∀ (k : Nat) (e : SystemEntry), es[k]? = some e → ∃ bs, fs[k]? = some { e with actions := bs }
    ∧ (hit e.system → firstRemarked old new e.actions bs) ∧ (¬ hit e.system → bs = e.actions)

end Sys2Proof.Machine
end

