-- ==== Sys2Proof/Certificates/Slice0/Obligations.lean ====
section
/-! DEFINITION. The statements for the provers. A request that is `listening` finds the receiver not sending and the unit with an
address, in HUNT as in FRAME, since a request command stands for its whole frame (the model's choice, log 4); `room n` says that n entries more fit in the event queue. The replies are said through `State.sendReply`, whose content
`ReplyReportsAndClears` states; raises through `State.raise`, whose content `RaisesAndAppends` states. -/

section Sys2ProofObligations

open Sys2Proof Sys2Proof.Machine

/-! ### The machine -/

/-- A step takes the command at the front of the queue and runs it with the queue's rest. -/
def Obligations.StepRunsFrontCommand : Prop :=
  ∀ (c : Instr) (s : State) (rest : List Instr),
    step { s with pending := c :: rest } = exec c { s with pending := rest }

/-- With no command waiting a step is one unit of 0.1 µs: the interval clock advances (R17), the timers and the bus gap run down,
the timestamp advances every 100 units (R161), and nothing else changes but the queue, which takes the expiries. That a step on
an empty queue is such a unit is the model's choice (log 2). -/
def Obligations.EmptyQueueStepPassesOneTick : Prop :=
  ∀ s : State, s.pending = [] → ∃ t, step s = .next t
    ∧ t.tracker = { s.tracker with
        clock := s.tracker.clock + 1
        seekTimer := s.tracker.seekTimer.map (· - 1)
        stallTimer := s.tracker.stallTimer.map (· - 1) }
    ∧ (s.monitor.subStamp < 99 → t.monitor = { s.monitor with subStamp := s.monitor.subStamp + 1 })
    ∧ (99 ≤ s.monitor.subStamp → t.monitor = { s.monitor with subStamp := 0, timestamp := s.monitor.timestamp + 1 })
    ∧ t.yarn = { s.yarn with
        sweepTimer := s.yarn.sweepTimer - 1
        gap := s.yarn.gap - 1 }
    ∧ (Instr.seekTimerExpiry ∈ t.pending ↔ ∃ n ≤ 1, s.tracker.seekTimer = some n)
    ∧ (Instr.stallTimerExpiry ∈ t.pending ↔ ∃ n ≤ 1, s.tracker.stallTimer = some n)
    ∧ (Instr.sweepTimerExpiry ∈ t.pending ↔ s.yarn.sweepTimer ≤ 1)
    ∧ (Instr.pollStart ∈ t.pending ↔ s.yarn.gap ≤ 1 ∧ ∃ w, s.yarn.sweep = some w ∧ w.current = none)
    ∧ t.store = s.store ∧ t.queue = s.queue ∧ t.engine = s.engine ∧ t.feeders = s.feeders ∧ t.link = s.link
    ∧ t.settings = s.settings ∧ t.freeCount = s.freeCount

/-- Every command completes with a next state that leaves the waiting commands alone, but for an UNKNOWN_KIND or a
BROADCAST_REFUSED whose kind byte is not of its row, and that one is refused as ill formed (the model's own refusal). No command
faults. -/
def Obligations.EveryWellFormedCommandCompletes : Prop :=
  ∀ (c : Instr) (s : State),
    (c.wellFormed = true → ∃ t, exec c s = .next t ∧ t.pending = s.pending)
    ∧ (∀ f, exec c s ≠ .fault f)
    ∧ (∀ k, unknownKindByte k = false → exec (.unknownKind k) s = .refused (.illFormed "UNKNOWN_KIND"))
    ∧ (∀ k, refusedBroadcastByte k = false → exec (.broadcastRefused k) s = .refused (.illFormed "BROADCAST_REFUSED"))

/-! ### Power-on and RESTART -/

/-- What the manual says of each block right after power-on (R23, R41, R70, R100, R125, R146, R168, R171, R184, R191) and of the pins
(R183). -/
def Obligations.ResetHoldsPowerOnValues : Prop :=
  State.reset.pending = []
  ∧ State.reset.tracker.count = 0 ∧ State.reset.tracker.position = .unreferenced
  ∧ State.reset.tracker.lastDir = .rightward ∧ State.reset.tracker.seekTimer = none
  ∧ State.reset.tracker.markWindow = none ∧ State.reset.tracker.phase = .none
  ∧ State.reset.tracker.lastAdvance = none ∧ State.reset.tracker.lastPeriod = none
  ∧ State.reset.tracker.stallTimer = none ∧ State.reset.tracker.stallLive = false ∧ State.reset.tracker.clock = 0
  ∧ (∀ id, State.reset.line id = .free) ∧ State.reset.cellCount = 0
  ∧ State.reset.queue.records = [] ∧ State.reset.queue.plan = .held
  ∧ (∀ f, State.reset.queue.proj.feeder f = .undeclared) ∧ (∀ i, State.reset.queue.proj.holder i = none)
  ∧ State.reset.engine.passCounter = 0 ∧ State.reset.engine.pass = none
  ∧ (∀ i, State.reset.bank i = BankPair.mk .miss .miss)
  ∧ (∀ f, State.reset.feeder f = .undeclared) ∧ (∀ i, State.reset.latch i = Latch.mk .opened 0)
  ∧ State.reset.yarn.sweepTimer = 100000 ∧ State.reset.yarn.sweep = none ∧ State.reset.yarn.pendingWrite = none
  ∧ (∀ f, State.reset.head f = HeadRecord.mk 0 0 .calm false none none)
  ∧ (∀ c, State.reset.monitor.record c = CondRecord.mk none false)
  ∧ State.reset.monitor.forcedAlert = false ∧ State.reset.monitor.forcedCaution = false
  ∧ State.reset.monitor.timestamp = 0 ∧ State.reset.monitor.events = []
  ∧ State.reset.stopLine = false ∧ State.reset.attnLine = false ∧ State.reset.readyLine = false
  ∧ State.reset.link.rx = .hunt
  ∧ State.reset.settings.values.toList
      = [512, 4, 16, 1, 3, -256, 20, -90, -30, 30, 90, 3, 8, 8, 10, 250, 1, 4, 10, 20, 3, 600, 2, 3, 32, 0,
         0x4F1E4, 0x7FFFFF, 0xF1E4, 0x7FFFFF]
  ∧ State.reset.settings.locked = false ∧ State.reset.settings.checksum = none
  ∧ (∀ i, State.reset.frontLines i = BankLines.mk false false ∧ State.reset.backLines i = BankLines.mk false false
      ∧ State.reset.drivePin i = .low)
  ∧ State.reset.clockPin = .low ∧ State.reset.dataPin = .released ∧ State.reset.stopPin = .high
  ∧ State.reset.attnPin = .released ∧ State.reset.readyPin = .low ∧ State.reset.linkPins = .released

/-- R182, R191 and the blocks' own reset rules: POWER_ON gives every block its power-on values with the inputs as sampled, and
bad strap parity is the first raise after it (R168, R173). RESTART is answered ACCEPTED and acts at the release of the pair: the
same values, with the settings, their lock and their checksum kept. What waits and the counter of free values are the model's
own. RESTART_EFFECT with no answered RESTART changes nothing (the model's choice, log 12). R173: the parity is good exactly
where an odd number of the four levels is high. -/
def Obligations.PowerOnAndRestartResetEveryBlock : Prop :=
  ((∀ (pins : PinLevels) (s : State),
      let fresh : State := { State.reset with
        pending := s.pending
        freeCount := s.freeCount
        tracker := { State.reset.tracker with encA := pins.encA, encB := pins.encB }
        feeders := { State.reset.feeders with senses := pins.senses }
        link := { State.reset.link with straps := pins.straps, reading := pins.straps } }
      (parityGood pins.straps = true → exec (.powerOn pins) s = .next fresh)
      ∧ (parityGood pins.straps = false →
          exec (.powerOn pins) s = .next { fresh with
            monitor := { fresh.monitor.putRecord .addressParity (CondRecord.mk (some (.addressParity pins.straps)) true) with
              events := [EventEntry.mk 0 (.condition (.addressParity pins.straps))] } }))
  ∧ ((∀ s : State, s.listening →
      exec (.restart []) s
        = .next (State.sendReply { s with link := { s.link with restartPending := true } } (kindByte 0x1F) (accept [])))
    ∧ ∀ (pins : PinLevels) (s : State),
      let fresh : State := { State.reset with
        pending := s.pending
        freeCount := s.freeCount
        settings := s.settings
        tracker := { State.reset.tracker with encA := pins.encA, encB := pins.encB }
        feeders := { State.reset.feeders with senses := pins.senses }
        yarn := { State.reset.yarn with sweepTimer := s.sweepInterval }
        link := { State.reset.link with straps := pins.straps, reading := pins.straps } }
      (s.link.restartPending = true → parityGood pins.straps = true → exec (.restartEffect pins) s = .next fresh)
      ∧ (s.link.restartPending = true → parityGood pins.straps = false →
          exec (.restartEffect pins) s = .next { fresh with
            monitor := { fresh.monitor.putRecord .addressParity (CondRecord.mk (some (.addressParity pins.straps)) true) with
              events := [EventEntry.mk 0 (.condition (.addressParity pins.straps))] } })
      ∧ (s.link.restartPending = false → exec (.restartEffect pins) s = .next s)))
  ∧ ∀ l : Levels4, parityGood l = true ↔ (List.range 4).countP (fun i => l.getLsbD i) % 2 = 1

/-! ### The link -/

/-- R171, R172, R173: what arrives while the unit sends a reply is discarded without a condition; while ADDRESS_PARITY is live
every addressed frame is foreign, and is ignored without a condition. ADDRESS_PARITY is live exactly where an even number of the
sampled levels is high. -/
def Obligations.FramesThatAreNotTaken : Prop :=
  ((∀ (c : Instr) (s : State), comesFromPair c = true → c.wellFormed = true → s.link.rx.busy = true → exec c s = .next s)
  ∧ (∀ (c : Instr) (s : State), s.link.rx.busy = false → s.addressParityLive = true →
      ((∃ k b, requestOf c = some (k, .addressed, b)) ∨ (∃ k, c = .unknownKind k ∧ unknownKindByte k = true)) →
      exec c s = .next { s with link := { s.link with rx := .hunt } }))
  ∧ ∀ s : State, s.addressParityLive = true ↔ (List.range 4).countP (fun i => s.link.straps.getLsbD i) % 2 = 0

/-- R175, R176, R177, R178, R154: an addressed frame of any kind is answered with one reply, from this unit's address and of its
kind, assembled (`sendReply`) from the state after the request has acted; the reply's summary is, field by field, the state's as
it then stands, and every captured flag is cleared. A broadcast of one of the four kinds is not answered and clears none. R173:
ADDR0 to ADDR2 give the address with the weights 1, 2 and 4. R169, R170: the reply on the pair: sync, unit, kind with 80h added,
the number of body bytes, the body of result code, summary and data, and the check, bit by bit (`checkRegister`), low byte
first; a number of several bytes goes low byte first. Section 8.7: the result codes (that of RACK_RANGE is open, log 22). -/
def Obligations.AddressedRequestIsAnsweredOnce : Prop :=
  ((∀ (c : Instr) (k : Nat) (b : List Byte) (s : State), requestOf c = some (k, .addressed, b) → s.listening →
    ∃ (u : State) (a : Answer) (t : State) (r : Reply), exec c s = .next t ∧ t = u.sendReply (kindByte k) a ∧ t.link.rx = .reply r
      ∧ r.address = s.link.address ∧ r.kind = kindByte k ∧ r.result = a.result ∧ r.data = a.data
      ∧ (∀ x, (t.monitor.record x).captured = false)
      ∧ r.summary.alert = u.alert ∧ r.summary.caution = t.caution ∧ r.summary.service = t.service
      ∧ r.summary.ready = t.readyLine ∧ (r.summary.running = true ↔ t.queue.plan = .running)
      ∧ (r.summary.passBusy = true ↔ t.engine.pass ≠ none) ∧ r.summary.stop = t.stopLine
      ∧ (r.summary.forced = true ↔ t.monitor.forcedAlert = true ∨ t.monitor.forcedCaution = true)
      ∧ r.summary.queueLength = t.queue.records.length ∧ r.summary.unread = t.monitor.events.length
      ∧ r.summary.position = t.tracker.position
      ∧ r.summary.x = if t.tracker.position.valid then clampX t.carriageX else 0)
  ∧ ∀ (c : Instr) (k : Nat) (b : List Byte) (s : State), requestOf c = some (k, .broadcast, b) → s.link.rx.busy = false →
    ∃ t, exec c s = .next t ∧ t.link.rx = .hunt
      ∧ ∀ x, (s.monitor.record x).captured = true → (t.monitor.record x).captured = true)
  ∧ (∀ p : LinkPort, p.address
      = (p.straps.getLsbD 0).toNat + 2 * (p.straps.getLsbD 1).toNat + 4 * (p.straps.getLsbD 2).toNat)
  ∧ (∀ r : Reply,
      let body : List Byte := [BitVec.ofNat 8 r.result.code] ++ r.summary.bytes ++ r.data
      let covered : List Byte := [BitVec.ofNat 8 r.address, r.kind + 0x80, BitVec.ofNat 8 body.length] ++ body
      r.frame = [(0xA7 : Byte)] ++ covered ++ [(crc16 covered).setWidth 8, (crc16 covered >>> 8).setWidth 8]
      ∧ r.summary.bytes.length = 6)
  ∧ (∀ bs : List Byte, crc16 bs = checkRegister bs)
  ∧ ([ResultCode.accepted, .badRequest, .range, .locked, .notLocked, .notReady, .busy, .queueFull, .noRoom, .lineState, .inUse,
        .shortLine, .badSystem, .lineNotSealed, .codeMode, .feederState, .offPath, .actionOrder, .railBlocked, .railShared, .cycleFeeder,
        .notWaiting, .headBusy].map ResultCode.code
      = [0, 1, 2, 3, 4, 5, 6, 8, 9, 10, 11, 12, 13, 14, 15, 16, 17, 18, 19, 20, 21, 22, 23]
    ∧ 1 ≤ ResultCode.rackRange.code ∧ ResultCode.rackRange.code ≤ 23 ∧ ResultCode.rackRange.code ≠ 7)
  ∧ ∀ (n : Nat) (v : Int), (bytesOf n v).length = n ∧ ∀ i < n, (((bytesOf n v).getD i 0).toNat : Int) = v / 256 ^ i % 256

/-- R154, R175: what assembling a reply does: the reply holds the summary of the state as it stands, every captured flag is
cleared, and nothing else changes. An accepted answer carries its data, a refusal none. -/
def Obligations.ReplyReportsAndClears : Prop :=
  (∀ (s : State) (k : Byte) (a : Answer), ∃ m, s.sendReply k a
      = { s with
          monitor := m
          link := { s.link with rx := .reply (Reply.mk s.link.address k a.result s.summary a.data) } }
    ∧ (∀ x, (m.record x).captured = false ∧ (m.record x).latched = (s.monitor.record x).latched)
    ∧ m.events = s.monitor.events ∧ m.timestamp = s.monitor.timestamp ∧ m.subStamp = s.monitor.subStamp
    ∧ m.forcedAlert = s.monitor.forcedAlert ∧ m.forcedCaution = s.monitor.forcedCaution)
  ∧ (∀ data : List Byte, accept data = Answer.mk .accepted data) ∧ (∀ code : ResultCode, refuse code = Answer.mk code [])
  ∧ ∀ k < 256, (kindByte k).toNat = k

/-- R175, R177, R179, R180: a body whose length is not its kind's, a FORCE value outside its lists, and a WRITE_LINE or QUEUE_PASS body
that breaks its layout (`writeLineMalformed`, `queuePassMalformed`: the lengths its own counts give, the values outside a list, the
bits with no meaning) raise FRAME_FAULT with cause BODY; the addressed frame is answered BAD_REQUEST, the broadcast is ignored. A
body that keeps its layout is read. -/
def Obligations.MalformedBodyIsAnsweredBadRequest : Prop :=
  (∀ (c : Instr) (k : Nat) (d : Dest) (b : List Byte) (s : State), requestOf c = some (k, d, b) →
    ((∃ n, bodyLengthOf k = some n ∧ b.length ≠ n)
      ∨ (k = 0x18 ∧ ∃ w v, b = [w, v] ∧ (1 < w.toNat ∨ 1 < v.toNat))
      ∨ (k = 0x05 ∧ writeLineMalformed b) ∨ (k = 0x0A ∧ queuePassMalformed b)) →
    (d = .addressed → s.listening →
      exec c s = .next ((s.raise (.frameFault .body (some (kindByte k)))).sendReply (kindByte k) (refuse .badRequest)))
    ∧ (d = .broadcast → s.link.rx.busy = false →
      exec c s = .next ((s.raise (.frameFault .body (some (kindByte k)))).setRx .hunt)))
  ∧ ∀ b : List Byte, (parseWriteLine b = none ↔ writeLineMalformed b) ∧ (parseQueuePass b = none ↔ queuePassMalformed b)

/-- R171, R172, R175, R176, R177: the frames that no owner takes, and the end of a reply. While the reply sent is that of a
RESTART the release is RESTART_EFFECT, and the end of a reply is left to it (log 12). -/
def Obligations.FramesWithoutOwner : Prop :=
  (∀ s : State, s.link.rx = .hunt → exec .frameStart s = .next { s with link := { s.link with rx := .frame } })
  ∧ (∀ s : State, s.link.rx = .frame → exec .frameStart s = .next s)
  ∧ (∀ s : State, s.link.rx.busy = false → exec .foreignFrame s = .next { s with link := { s.link with rx := .hunt } })
  ∧ (∀ s : State, s.link.rx.busy = false → exec .frameAbandon s = .next ((s.raise (.frameFault .check none)).setRx .hunt))
  ∧ (∀ s : State, s.link.rx.busy = false → exec .badCheckFrame s = .next ((s.raise (.frameFault .check none)).setRx .hunt))
  ∧ (∀ (k : Byte) (s : State), 0x21 ≤ k.toNat ∧ k.toNat ≤ 0x7F ∨ k = 0 → s.listening →
      exec (.unknownKind k) s
        = .next ((s.raise (.frameFault .kind (some k))).sendReply k (refuse .badRequest)))
  ∧ (∀ (k : Byte) (s : State), k.toNat ≤ 0x7F → k ≠ 0x0E → k ≠ 0x0F → k ≠ 0x17 → k ≠ 0x1A → s.link.rx.busy = false →
      exec (.broadcastRefused k) s = .next ((s.raise (.frameFault .broadcast (some k))).setRx .hunt))
  ∧ (∀ (r : Reply) (s : State), s.link.rx = .reply r → s.link.restartPending = false →
      exec .replyEnd s = .next { s with link := { s.link with rx := .hunt } })

/-- R178: the status summary, and STATUS, which answers ACCEPTED with the summary alone, in every state; a broadcast of its kind is
refused. -/
def Obligations.StatusSummary : Prop :=
  (∀ s : State,
    s.summary.alert = s.alert ∧ s.summary.caution = s.caution ∧ s.summary.service = s.service
    ∧ s.summary.ready = s.readyLine ∧ (s.summary.running = true ↔ s.queue.plan = .running)
    ∧ (s.summary.passBusy = true ↔ s.engine.pass ≠ none) ∧ s.summary.stop = s.stopLine
    ∧ (s.summary.forced = true ↔ s.monitor.forcedAlert = true ∨ s.monitor.forcedCaution = true)
    ∧ s.summary.queueLength = s.queue.records.length ∧ s.summary.unread = s.monitor.events.length
    ∧ s.summary.position = s.tracker.position
    ∧ (s.tracker.position = .referenced ∨ s.tracker.position = .doubtful →
        s.summary.x = max (-32768) (min 32767 (s.tracker.count / s.countsPerNeedle)))
    ∧ (s.tracker.position = .unreferenced ∨ s.tracker.position = .seeking ∨ s.tracker.position = .lost → s.summary.x = 0)
    ∧ ∃ f, s.summary.bytes = [f] ++ bytesOf 1 s.summary.queueLength ++ bytesOf 1 s.summary.unread
        ++ bytesOf 1 s.tracker.position.code ++ bytesOf 2 s.summary.x
      ∧ f.getLsbD 0 = s.alert ∧ f.getLsbD 1 = s.caution ∧ f.getLsbD 2 = s.service ∧ f.getLsbD 3 = s.readyLine
      ∧ f.getLsbD 4 = s.summary.running ∧ f.getLsbD 5 = s.summary.passBusy ∧ f.getLsbD 6 = s.stopLine
      ∧ f.getLsbD 7 = s.summary.forced)
  ∧ (∀ s : State, s.listening → exec (.status []) s = .next (s.sendReply (kindByte 0x01) (accept [])))
  ∧ ∀ s : State, s.link.rx.busy = false →
      exec (.broadcastRefused 0x01) s = .next ((s.raise (.frameFault .broadcast (some 0x01))).setRx .hunt)

/-- R21, R36, R69, R124, R145, R167: the queries answer their record, in every state, and change nothing but what every reply
does. The bits of a presence byte follow the order of the optional fields (log 19). Section 8.8.3: the sizes and the layout of
every record, field by field, with the values of absent fields 0 and the named values of R179. How a part of a millisecond of
the seek time rounds, and an X beyond 16 bits in the position record, are open (log 5, log 6). -/
def Obligations.QueriesOnlyReport : Prop :=
  (∀ s : State, s.listening →
    exec (.queryPosition []) s = .next (s.sendReply (kindByte 0x03) (accept s.positionRecord))
    ∧ (∀ id : Byte, id.toNat ≤ 63 → exec (.queryLine [id]) s = .next (s.sendReply (kindByte 0x09) (accept (s.lineRecord id.toNat))))
    ∧ (∀ id : Byte, 63 < id.toNat → exec (.queryLine [id]) s = .next (s.sendReply (kindByte 0x09) (refuse .range)))
    ∧ exec (.queryQueue []) s = .next (s.sendReply (kindByte 0x10) (accept s.queueRecord))
    ∧ exec (.queryFeeders []) s = .next (s.sendReply (kindByte 0x13) (accept s.feederRecords))
    ∧ exec (.queryHeads []) s = .next (s.sendReply (kindByte 0x15) (accept s.headRecords))
    ∧ exec (.queryConditions []) s = .next (s.sendReply (kindByte 0x16) (accept s.conditionRecords)))
  ∧ (∀ s : State,
    s.positionRecord.length = 15 ∧ (∀ id, (s.lineRecord id).length = 14)
    ∧ s.queueRecord.length = 2 + 6 * s.queue.records.length + 96 + 2 * s.systems
    ∧ s.feederRecords.length = 128 + 7 * s.systems ∧ s.headRecords.length = 118 ∧ s.conditionRecords.length = 116)
  ∧ ([Direction.rightward, .leftward].map Direction.code = [0, 1]
    ∧ [PosState.unreferenced, .seeking, .referenced, .doubtful, .lost].map PosState.code = [0, 1, 2, 3, 4]
    ∧ [PassPhase.none, .active, .finishing].map PassPhase.code = [0, 1, 2]
    ∧ [Code.miss, .tuck, .knit, .send].map Code.value = [0, 1, 2, 3]
    ∧ [RecordState.queued, .armed none, .armed (some .waitGo), .active, .finishing].map RecordState.code = [0, 1, 1, 2, 3]
    ∧ [PlanState.held, .running].map PlanState.code = [0, 1]
    ∧ [LatchState.opened, .closing 0 0, .closed 0, .opening 0].map LatchState.code = [0, 1, 2, 3])
  ∧ (∀ s : State, let b := s.positionRecord; let t := s.tracker
    bitsAt b 0 [t.position.valid, (t.position = .seeking ∧ t.seekTimer ≠ none), t.markWindow.isSome, t.lastPeriod.isSome]
    ∧ fieldAt b 1 1 = t.position.code ∧ signedAt b 2 4 = Int.bmod t.count 4294967296
    ∧ (t.position.valid = false → fieldAt b 6 2 = 0)
    ∧ (t.position.valid = true → s.carriageX = clampX s.carriageX → signedAt b 6 2 = s.carriageX)
    ∧ bitsAt b 8 [(t.lastDir = .leftward), (t.phase = .active), (t.phase = .finishing), t.stallLive,
        (∃ w, t.markWindow = some w ∧ w.side = .high), (∃ w, t.markWindow = some w ∧ w.satisfied = true)]
    ∧ (t.position ≠ .seeking ∨ t.seekTimer = none → fieldAt b 9 2 = 0)
    ∧ (∀ n, t.position = .seeking → t.seekTimer = some n → n ≤ 600000000 →
        fieldAt b 9 2 = n / 10000 ∨ n % 10000 ≠ 0 ∧ fieldAt b 9 2 = n / 10000 + 1)
    ∧ (t.markWindow = none → fieldAt b 11 2 = 0)
    ∧ (∀ w, t.markWindow = some w → w.mark * s.markSpacing = clampX (w.mark * s.markSpacing) →
        signedAt b 11 2 = w.mark * s.markSpacing)
    ∧ fieldAt b 13 2 = (t.lastPeriod.getD 0) % 65536)
  ∧ (∀ (s : State) (id : Nat), let b := s.lineRecord id
    fieldAt b 0 1 = id % 256 ∧ fieldAt b 11 1 = ((List.range 64).countP fun k => decide (s.line k ≠ .free)) ∧ fieldAt b 12 2 = s.cellsFree
    ∧ (s.line id = .free → fieldAt b 1 1 = 0 ∧ fieldAt b 2 1 = 0 ∧ (b.drop 3).take 8 = List.replicate 8 0)
    ∧ (∀ d, s.line id = .opened d → bitsAt b 1 [true, false] ∧ fieldAt b 2 1 = 1 ∧ fieldAt b 3 2 = d.codes.length % 65536
        ∧ fieldAt b 5 2 = d.cursor % 65536 ∧ fieldAt b 7 2 = d.extent % 65536 ∧ fieldAt b 9 2 = 0)
    ∧ (∀ d c n, s.line id = .sealed d c n → bitsAt b 1 [true, true] ∧ fieldAt b 2 1 = 2 ∧ fieldAt b 3 2 = d.codes.length % 65536
        ∧ fieldAt b 5 2 = d.cursor % 65536 ∧ fieldAt b 7 2 = d.extent % 65536
        ∧ bitsAt b 9 ([Code.miss, .tuck, .knit, .send].map fun k => k ∈ c) ∧ fieldAt b 10 1 = n % 256))
  ∧ (∀ s : State, let b := s.queueRecord; let n := s.queue.records.length
    fieldAt b 0 1 = s.queue.plan.code ∧ fieldAt b 1 1 = n % 256
    ∧ (∀ k r, s.queue.records[k]? = some r → let q := recordAt b 2 6 k
        fieldAt q 0 2 = r.tag.toNat
        ∧ bitsAt q 2 [(r.direction = .leftward), (r.start = .onGo), r.cycle, ∃ g, r.state = .armed (some g),
            (r.state = .armed (some .goGiven))]
        ∧ signedAt q 3 1 = Int.bmod r.racking 256 ∧ fieldAt q 4 1 = r.entries.length % 256 ∧ fieldAt q 5 1 = r.state.code)
    ∧ (∀ f < 16, let q := recordAt b (2 + 6 * n) 6 f
        (s.queue.proj.feeder f = .undeclared → q = [0, 0, 0, 0, 0, 0])
        ∧ (∀ rail x, s.queue.proj.feeder f = .parked rail x →
            bitsAt q 0 [true, true, false] ∧ fieldAt q 1 1 = 1 ∧ fieldAt q 2 1 = rail % 256 ∧ signedAt q 3 2 = Int.bmod x 65536 ∧ fieldAt q 5 1 = 0)
        ∧ (∀ rail i, s.queue.proj.feeder f = .coupled rail i →
            bitsAt q 0 [true, false, true] ∧ fieldAt q 1 1 = 3 ∧ fieldAt q 2 1 = rail % 256 ∧ fieldAt q 3 2 = 0 ∧ fieldAt q 5 1 = i % 256)
        ∧ (∀ rail, s.queue.proj.feeder f = .faulted rail →
            bitsAt q 0 [true, false, false] ∧ fieldAt q 1 1 = 5 ∧ fieldAt q 2 1 = rail % 256 ∧ fieldAt q 3 2 = 0 ∧ fieldAt q 5 1 = 0))
    ∧ (∀ i < s.systems, let q := recordAt b (2 + 6 * n + 96) 2 i
        bitsAt q 0 [(s.queue.proj.holder i).isSome] ∧ fieldAt q 1 1 = ((s.queue.proj.holder i).getD 0) % 256))
  ∧ (∀ s : State, let b := s.feederRecords
    (∀ f < 16, let q := recordAt b 0 8 f
        (s.feeder f = .undeclared → q = [0, 0, 0, 0, 0, 0, 0, 0])
        ∧ (∀ rail x, s.feeder f = .parked rail x → bitsAt q 0 [true, true, false, false] ∧ fieldAt q 1 1 = 1
            ∧ fieldAt q 2 1 = rail % 256 ∧ signedAt q 3 2 = Int.bmod x 65536 ∧ fieldAt q 5 1 = 0 ∧ fieldAt q 6 2 = 0)
        ∧ (∀ rail i, s.feeder f = .taking rail i ∨ s.feeder f = .coupled rail i → bitsAt q 0 [true, false, true, false]
            ∧ fieldAt q 1 1 = (if s.feeder f = .taking rail i then 2 else 3)
            ∧ fieldAt q 2 1 = rail % 256 ∧ fieldAt q 3 2 = 0 ∧ fieldAt q 5 1 = i % 256 ∧ fieldAt q 6 2 = 0)
        ∧ (∀ rail i x, s.feeder f = .releasing rail i x → bitsAt q 0 [true, false, true, true] ∧ fieldAt q 1 1 = 4
            ∧ fieldAt q 2 1 = rail % 256 ∧ fieldAt q 3 2 = 0 ∧ fieldAt q 5 1 = i % 256 ∧ signedAt q 6 2 = Int.bmod x 65536)
        ∧ (∀ rail, s.feeder f = .faulted rail → bitsAt q 0 [true, false, false, false] ∧ fieldAt q 1 1 = 5
            ∧ fieldAt q 2 1 = rail % 256 ∧ fieldAt q 3 2 = 0 ∧ fieldAt q 5 1 = 0 ∧ fieldAt q 6 2 = 0))
    ∧ ∀ i < s.systems, let q := recordAt b 128 7 i; let l := s.latch i
        bitsAt q 0 [l.state.held.isSome, (∃ f x, l.state = .closing f x)] ∧ fieldAt q 1 1 = l.state.code
        ∧ fieldAt q 2 1 = (l.state.held.getD 0) % 256 ∧ (∀ f x, l.state = .closing f x → signedAt q 3 2 = Int.bmod x 65536)
        ∧ ((∀ f x, l.state ≠ .closing f x) → fieldAt q 3 2 = 0) ∧ fieldAt q 5 1 = l.countdown % 256
        ∧ bitsAt q 6 [l.state.driveClosed, s.sense i])
  ∧ (∀ s : State, let b := s.headRecords
    (∀ f < 16, let q := recordAt b 0 7 f; let h := s.head f
        bitsAt q 0 [(s.feeder f).carried, h.travel, (h.silentRun = s.silentLimit), (h.stillRun = s.stopSweeps),
          (h.spike = .snagged), h.lastMotion.isSome]
        ∧ fieldAt q 1 1 = h.silentRun % 256 ∧ fieldAt q 2 1 = h.stillRun % 256
        ∧ (h.spike = .calm → fieldAt q 3 1 = 0) ∧ (∀ k < 16, h.spike = .rising k → fieldAt q 3 1 = 1 + 16 * k)
        ∧ (∀ j < 16, h.spike = .settling j → fieldAt q 3 1 = 2 + 16 * j) ∧ (h.spike = .snagged → fieldAt q 3 1 = 3)
        ∧ fieldAt q 4 1 = (h.lastMotion.map BitVec.toNat).getD 0 ∧ fieldAt q 5 2 = (h.lastTension.map BitVec.toNat).getD 0)
    ∧ (s.yarn.pendingWrite = none → (b.drop 112).take 5 = [0, 0, 0, 0, 0])
    ∧ (∀ w, s.yarn.pendingWrite = some w → bitsAt b 112 [true] ∧ fieldAt b 113 1 = w.head % 256 ∧ fieldAt b 114 1 = w.item % 256
        ∧ fieldAt b 115 2 = w.value % 65536)
    ∧ fieldAt b 117 1 = s.yarn.sweep.isSome.toNat)
  ∧ ∀ s : State, let b := s.conditionRecords
    (∀ c : Cond, let q := recordAt b 0 5 c.num
        bitsAt q 0 [s.latched c, s.captured c, c.isLiveKind, s.live c, s.latched c]
        ∧ (∀ d, (s.monitor.record c).latched = some d → d.laidOut (q.drop 1))
        ∧ ((s.monitor.record c).latched = none → q.drop 1 = [0, 0, 0, 0]))
    ∧ bitsAt b 115 [s.monitor.forcedAlert, s.monitor.forcedCaution, s.alert, s.caution, s.service, s.stopLine, s.attnLine]

/-- R174: a strap reading. STRAP_CHANGE is live while the last reading differs from the sample; the first reading that differs is
its raise. The sample, and so the address, stays. -/
def Obligations.StrapReading : Prop :=
  ∀ (l : Levels4) (s : State),
    (s.strapChangeLive = true ↔ s.link.reading ≠ s.link.straps)
    ∧ (l = s.link.straps → exec (.strapRead l) s = .next { s with link := { s.link with reading := l } })
    ∧ (l ≠ s.link.straps → s.link.reading ≠ s.link.straps →
        exec (.strapRead l) s = .next { s with link := { s.link with reading := l } })
    ∧ (l ≠ s.link.straps → s.link.reading = s.link.straps →
        exec (.strapRead l) s
          = .next (State.raise { s with link := { s.link with reading := l } } (.strapChange s.link.straps l)))

/-! ### Conditions, events and lines -/

/-- R150, R151: a raise sets the captured flag, sets the latched flag with its detail where it was clear and then logs a
CONDITION entry where there is room; it touches no other condition but EVENT_OVERRUN. With a pass in progress a pass-fatal or a
stop-routed condition ends it; any other raise, and every raise with no pass, changes the condition monitor alone. R95, R98,
R151: the abort has the condition's own reason where it is pass-fatal, and ROUTED with its number otherwise, and comes after the
raise; an EVENT_OVERRUN within the raise hands its own abort over only where the condition brings none (log 14). The pass-fatal
conditions, and what STOP_ROUTE holds; the live values (R148). R163, R165: an append adds the entry at the tail with the present
timestamp; on a queue of 128 it is discarded, and EVENT_OVERRUN is raised with its tag. An append outside a raise (`State.log`)
hands a routed EVENT_OVERRUN over. -/
def Obligations.RaisesAndAppends : Prop :=
  ((∀ (s : State) (d : Detail),
      ((s.raise d).monitor.record d.cond).captured = true
      ∧ (∀ e, (s.monitor.record d.cond).latched = some e → ((s.raise d).monitor.record d.cond).latched = some e)
      ∧ ((s.monitor.record d.cond).latched = none → ((s.raise d).monitor.record d.cond).latched = some d)
      ∧ (∀ c, c ≠ d.cond → c ≠ .eventOverrun → (s.raise d).monitor.record c = s.monitor.record c)
      ∧ (s.engine.pass = none → s.raise d = { s with monitor := (s.raise d).monitor })
      ∧ (s.engine.pass ≠ none → d.cond.fatalReason = none → s.inStopRoute d.cond = false → s.room 1 →
          s.raise d = { s with monitor := (s.raise d).monitor })
      ∧ (s.engine.pass = none → (s.monitor.record d.cond).latched ≠ none → (s.raise d).monitor.events = s.monitor.events)
      ∧ (s.engine.pass = none → (s.monitor.record d.cond).latched = none → s.room 1 →
          (s.raise d).monitor.events = s.monitor.events ++ [s.entry (.condition d)])
      ∧ (s.engine.pass ≠ none → d.cond.fatalReason ≠ none ∨ s.inStopRoute d.cond = true →
          (s.raise d).engine.pass = none ∧ (s.raise d).queue.records = [] ∧ (s.raise d).queue.plan = .held
          ∧ ∀ i, (s.raise d).bank i = BankPair.mk .miss .miss))
  ∧ (∀ (s : State) (e : Event),
      (s.room 1 → s.append e
        = { s with monitor := { s.monitor with events := s.monitor.events ++ [EventEntry.mk s.monitor.timestamp e] } })
      ∧ (¬ s.room 1 → ∃ m, s.append e = { s with monitor := m } ∧ m.events = s.monitor.events
        ∧ (m.record .eventOverrun).captured = true
        ∧ ((s.monitor.record .eventOverrun).latched = none → (m.record .eventOverrun).latched = some (.eventOverrun e.tag))
        ∧ (∀ d, (s.monitor.record .eventOverrun).latched = some d → (m.record .eventOverrun).latched = some d)
        ∧ ∀ c, c ≠ .eventOverrun → m.record c = s.monitor.record c)))
  ∧ (∀ (s : State) (d : Detail),
      let lost : Prop := (s.monitor.record d.cond).latched = none ∧ ¬ s.room 1
      (∀ reason, d.cond.fatalReason = some reason → s.raise d = (s.noteRaise d).abortPass reason)
      ∧ (d.cond.fatalReason = none → s.inStopRoute d.cond = true → s.raise d = (s.noteRaise d).abortPass (.routed d.cond))
      ∧ (d.cond.fatalReason = none → s.inStopRoute d.cond = false → lost → s.inStopRoute .eventOverrun = true →
          s.raise d = (s.noteRaise d).abortPass (.routed .eventOverrun))
      ∧ (d.cond.fatalReason = none → s.inStopRoute d.cond = false → ¬ lost ∨ s.inStopRoute .eventOverrun = false →
          s.raise d = s.noteRaise d)
      ∧ (∃ m, s.noteRaise d = { s with monitor := m }
        ∧ m.record d.cond = CondRecord.mk ((s.monitor.record d.cond).latched.or (some d)) true
        ∧ (∀ c, c ≠ d.cond → c ≠ .eventOverrun → m.record c = s.monitor.record c)
        ∧ ((s.monitor.record d.cond).latched ≠ none → m.events = s.monitor.events)
        ∧ ((s.monitor.record d.cond).latched = none → s.room 1 → m.events = s.monitor.events ++ [s.entry (.condition d)]))
      ∧ ∀ reason p h rest, s.engine.pass = some p → s.queue.records = h :: rest → s.room 3 →
        d.cond.fatalReason = some reason
          ∨ d.cond.fatalReason = none ∧ s.inStopRoute d.cond = true ∧ reason = .routed d.cond →
        (s.raise d).monitor.events = s.monitor.events
          ++ (if (s.monitor.record d.cond).latched = none then [s.entry (.condition d)] else [])
          ++ [s.entry (.passAborted h.tag reason p.furthestPair), s.entry (.queueFlushed (rest.length + 1) .abort)])
  ∧ (∀ (s : State) (e : Event),
      (s.room 1 ∨ s.inStopRoute .eventOverrun = false → s.log e = s.append e)
      ∧ (¬ s.room 1 → s.inStopRoute .eventOverrun = true → s.log e = (s.append e).abortPass (.routed .eventOverrun)))
  ∧ (∀ c : Cond, (c, c.fatalReason) ∈ [(Cond.posLost, some AbortReason.posLost), (.overspeed, some .overspeed),
        (.reversal, some .reversal), (.wrongWay, some .wrongWay), (.noGo, some .noGo), (.feederMissed, some .feederMissed),
        (.feederStuck, some .feederStuck), (.settingsCheck, some .settingsCheck)]
      ∨ c.fatalReason = none ∧ c ∉ [Cond.posLost, .overspeed, .reversal, .wrongWay, .noGo, .feederMissed, .feederStuck, .settingsCheck])
  ∧ (∀ (s : State) (c : Cond), s.inStopRoute c = true ↔ (s.settings.values.getD 28 0).toNat.testBit c.num = true)
  ∧ ∀ s : State,
      (s.live .posLost = true ↔ s.tracker.position = .lost) ∧ s.live .stall = s.tracker.stallLive
      ∧ (s.live .yarnStop = true ↔ ∃ f < 16, (s.head f).stillRun = s.stopSweeps)
      ∧ (s.live .yarnSnag = true ↔ ∃ f < 16, (s.head f).spike = .snagged)
      ∧ (s.live .headSilent = true ↔ ∃ f < 16, (s.head f).silentRun = s.silentLimit)
      ∧ (s.live .strapChange = true ↔ s.link.reading ≠ s.link.straps) ∧ s.live .addressParity = s.addressParityLive

/-- R155, R156, R158, R159, R190: ALERT and CAUTION, and what the power-on masks make of them; the STOP, ATTN and READY lines
and SERVICE, and the READY flag of the summary. The pins of section 8.10 (R183) follow them, as states of a line that leave its
bits out (log 28): a bank's two lines have the weights 1 and 2 and those of a system that is not fitted stay low; STOP and ATTN
are asserted low; the yarn head bus rests while it is idle (R126), the gap before a write or a poll that waits among it (log
23). -/
def Obligations.SummaryFlagsAndLines : Prop :=
  (∀ s : State,
      (s.alert = true ↔ s.monitor.forcedAlert = true ∨
        ∃ c, s.inAlertMask c = true ∧ (s.captured c = true ∨ s.live c = true))
      ∧ (s.caution = true ↔ s.monitor.forcedCaution = true ∨ ∃ c, s.inCautionMask c = true ∧ s.latched c = true)
      ∧ (∀ c, c.isLiveKind = false → s.live c = false)
      ∧ (s.settings.values = defaultSettings → ∀ c,
          (s.inAlertMask c = true ↔ c.fatalReason ≠ none ∨ c = .yarnStop ∨ c = .yarnSnag) ∧ s.inCautionMask c = true))
  ∧ (∀ s : State,
      (s.stopLine = true ↔ ∃ c, s.inStopRoute c = true ∧ s.latched c = true)
      ∧ (s.service = true ↔ s.eventWatermark ≤ s.monitor.events.length)
      ∧ (s.attnLine = true ↔ s.service = true ∨ ∃ c, s.inAttnRoute c = true ∧ s.latched c = true)
      ∧ (s.settings.values = defaultSettings →
          (s.attnLine = true ↔ 32 ≤ s.monitor.events.length ∨ ∃ c, s.latched c = true))
      ∧ (s.readyLine = true ↔ s.settings.locked = true
          ∧ (s.tracker.position = .referenced ∨ s.tracker.position = .doubtful) ∧ s.addressParityLive = false)
      ∧ s.summary.ready = s.readyLine)
  ∧ ∀ s : State,
      (∀ i < s.systems, (s.frontLines i).a.toNat + 2 * (s.frontLines i).b.toNat = (s.bank i).front.value
        ∧ (s.backLines i).a.toNat + 2 * (s.backLines i).b.toNat = (s.bank i).back.value
        ∧ (s.drivePin i = .high ↔ ∃ f x, (s.latch i).state = .closing f x ∨ (s.latch i).state = .closed f)
        ∧ (s.drivePin i = .low ↔ (s.latch i).state = .opened ∨ ∃ f, (s.latch i).state = .opening f))
      ∧ (∀ i, s.systems ≤ i → s.frontLines i = BankLines.mk false false ∧ s.backLines i = BankLines.mk false false
        ∧ s.drivePin i = .low)
      ∧ (s.stopLine = true → s.stopPin = .low) ∧ (s.stopLine = false → s.stopPin = .high)
      ∧ (s.attnLine = true → s.attnPin = .low) ∧ (s.attnLine = false → s.attnPin = .released)
      ∧ (s.readyLine = true → s.readyPin = .high) ∧ (s.readyLine = false → s.readyPin = .low)
      ∧ (s.yarn.sweep = none ∨ (∃ rest, s.yarn.sweep = some (Sweep.mk none rest)) ∨ 0 < s.yarn.gap →
          s.clockPin = .low ∧ s.dataPin = .released)
      ∧ (∀ x rest, s.yarn.sweep = some (Sweep.mk (some x) rest) → s.yarn.gap = 0 →
          s.clockPin = .signalling ∧ s.dataPin = .signalling)
      ∧ (s.link.rx.busy = false → s.linkPins = .released)

/-- R152, R153: CLEAR_CONDITIONS clears the latched flag and detail of every condition that is not live and true, and leaves
everything else, the captured flags among it, as it is; it may be addressed or broadcast, and only the addressed one is answered. -/
def Obligations.ClearConditionsKeepsLiveOnes : Prop :=
  (∀ s : State, s.listening →
    exec (.clearConditions .addressed []) s = .next (s.clearConditions.sendReply (kindByte 0x17) (accept [])))
  ∧ (∀ s : State, s.link.rx.busy = false →
    exec (.clearConditions .broadcast []) s = .next (s.clearConditions.setRx .hunt))
  ∧ ∀ s : State, ∃ m, s.clearConditions = { s with monitor := m }
    ∧ (∀ c, s.live c = false → m.record c = CondRecord.mk none (s.monitor.record c).captured)
    ∧ (∀ c, s.live c = true → m.record c = s.monitor.record c)
    ∧ (∀ c, s.clearConditions.live c = s.live c)
    ∧ m.events = s.monitor.events ∧ m.timestamp = s.monitor.timestamp ∧ m.subStamp = s.monitor.subStamp
    ∧ m.forcedAlert = s.monitor.forcedAlert ∧ m.forcedCaution = s.monitor.forcedCaution

/-- R157: FORCE gives the flag it names the setting, and nothing else changes; it is taken in every state. A value outside the lists
is malformed, and a broadcast of its kind is refused. R162: SYNC_TIME loads the timestamp, low byte first, and leaves the entries
in the event queue as they are; the broadcast acts as the addressed request but for the reply. That a load leaves the part of a
timestamp unit that has passed as it stands is the model's choice (log 2). -/
def Obligations.ForceAndSyncTime : Prop :=
  ((∀ (v : Byte) (s : State), v.toNat ≤ 1 → s.listening →
      exec (.force [0, v]) s = .next
          (State.sendReply { s with monitor := { s.monitor with forcedAlert := decide (v = 1) } } (kindByte 0x18) (accept []))
      ∧ exec (.force [1, v]) s = .next
          (State.sendReply { s with monitor := { s.monitor with forcedCaution := decide (v = 1) } } (kindByte 0x18) (accept [])))
    ∧ (∀ (w v : Byte) (s : State), 1 < w.toNat ∨ 1 < v.toNat → s.listening →
      exec (.force [w, v]) s
        = .next ((s.raise (.frameFault .body (some 0x18))).sendReply (kindByte 0x18) (refuse .badRequest)))
    ∧ (∀ (a c : Bool) (s : State),
        (s.setMonitor { s.monitor with forcedAlert := a, forcedCaution := c }).stopLine = s.stopLine
        ∧ (s.setMonitor { s.monitor with forcedAlert := a, forcedCaution := c }).attnLine = s.attnLine
        ∧ ((s.setMonitor { s.monitor with forcedAlert := a, forcedCaution := c }).summary.forced = true ↔ a = true ∨ c = true))
    ∧ ∀ s : State, s.link.rx.busy = false →
        exec (.broadcastRefused 0x18) s = .next ((s.raise (.frameFault .broadcast (some 0x18))).setRx .hunt))
  ∧ (∀ (b0 b1 b2 b3 : Byte) (s : State),
      let t : State := { s with monitor := { s.monitor with timestamp := b3 ++ b2 ++ b1 ++ b0 } }
      (s.listening → exec (.syncTime .addressed [b0, b1, b2, b3]) s = .next (t.sendReply (kindByte 0x1A) (accept [])))
      ∧ (s.link.rx.busy = false → exec (.syncTime .broadcast [b0, b1, b2, b3]) s = .next (t.setRx .hunt)))

/-- R166, R181 and section 8.8.4: READ_EVENTS(k) removes the min(k, unread) oldest entries and carries them in queue order, eleven bytes each; a k
outside 1 to 16 is refused with RANGE and removes none; the reply's summary counts what is left. An entry has its tag's code, its
timestamp and the payload that its tag gives it, field by field. -/
def Obligations.ReadEventsRemovesTheOldest : Prop :=
  (∀ (k : Byte) (s : State), 1 ≤ k.toNat → k.toNat ≤ 16 → s.listening →
    exec (.readEvents [k]) s = .next
      (State.sendReply { s with monitor := { s.monitor with events := s.monitor.events.drop k.toNat } } (kindByte 0x19)
        (accept (bytesOf 1 (min k.toNat s.monitor.events.length : Nat)
          ++ (s.monitor.events.take k.toNat).flatMap EventEntry.bytes))))
  ∧ (∀ (k : Byte) (s : State), k.toNat = 0 ∨ 16 < k.toNat → s.listening →
    exec (.readEvents [k]) s = .next (s.sendReply (kindByte 0x19) (refuse .range)))
  ∧ (∀ e : EventEntry, e.bytes.length = 11 ∧ fieldAt e.bytes 0 1 = e.event.tag.code ∧ fieldAt e.bytes 1 4 = e.timestamp.toNat
      ∧ e.event.laidOut (e.bytes.drop 5))
  ∧ ([EventTag.passStarted, .passEnded, .passAborted, .feederTaken, .feederReleased, .condition, .homed, .passMark, .headWriteDone,
        .queueFlushed].map EventTag.code = [1, 2, 3, 4, 5, 6, 7, 8, 9, 10]
    ∧ [AbortReason.reversal, .overspeed, .posLost, .feederMissed, .feederStuck, .settingsCheck, .wrongWay, .noGo, .halt,
        .routed .stall].map AbortReason.code = [0, 1, 2, 3, 4, 5, 6, 7, 8, 9]
    ∧ [FlushCause.abort, .halt, .unconfirmed, .cancel].map FlushCause.code = [0, 1, 2, 3]
    ∧ [MissedSource.take, .senseHigh, .dropped].map MissedSource.code = [0, 1, 2]
    ∧ [FrameCause.check, .kind, .body, .broadcast].map FrameCause.code = [0, 1, 2, 3]
    ∧ [SilentOutcome.noReply, .malformed].map silentCode = [0, 1] ∧ [WriteOutcome.ok, .noReply].map writeCode = [0, 1]
    ∧ Cond.all.map Cond.num = List.range 23)
  ∧ ∀ s : State, s.link.rx.busy = false →
      exec (.broadcastRefused 0x19) s = .next ((s.raise (.frameFault .broadcast (some 0x19))).setRx .hunt)

/-! ### Settings -/

/-- R185: READ_SETTING and IDENTIFY in every state. -/
def Obligations.ReadSettingAndIdentify : Prop :=
  (∀ (n : Byte) (s : State), n.toNat ≤ 29 → s.listening →
    exec (.readSetting [n]) s
      = .next (s.sendReply (kindByte 0x1B) (accept ([n] ++ bytesOf 4 (s.settings.values.getD n.toNat 0)))))
  ∧ (∀ (n : Byte) (s : State), 29 < n.toNat → s.listening →
    exec (.readSetting [n]) s = .next (s.sendReply (kindByte 0x1B) (refuse .range)))
  ∧ (∀ s : State, s.listening →
    exec (.identify []) s = .next (s.sendReply (kindByte 0x20) (accept [0x6B, 0x1E, 0x9C, 0x01, 0x03])))
  ∧ ∀ s : State, s.link.rx.busy = false →
    exec (.broadcastRefused 0x1B) s = .next ((s.raise (.frameFault .broadcast (some 0x1B))).setRx .hunt)
    ∧ exec (.broadcastRefused 0x20) s = .next ((s.raise (.frameFault .broadcast (some 0x20))).setRx .hunt)

/-- R184, R186: WRITE_SETTING's checks in order, and the write of a setting whose readers only read it; the range of each
setting, as the table of R184 gives it. Which setting each name of the model reads, in the units of R184 or in 0.1 µs, and which
conditions a mask holds. -/
def Obligations.WriteSettingTakesTheValue : Prop :=
  ((∀ (n : Nat) (v : Int), settingInRange n v = true ↔ n = 3 ∧ v ∈ [1, 2, 4, 8] ∨ ∃ lo hi : Int, lo ≤ v ∧ v ≤ hi ∧ (n, lo, hi) ∈
      [(0, 64, 1024), (1, 1, 4), (2, 4, 64), (4, 0, 31), (5, -32768, 32767), (6, 1, 60), (7, -128, 127), (8, -128, 127),
        (9, -128, 127), (10, -128, 127), (11, 1, 8), (12, 0, 64), (13, 0, 16), (14, 5, 2550), (15, 10, 2000), (16, 0, 3),
        (17, 1, 16), (18, 2, 50), (19, 2, 100), (20, 1, 16), (21, 1, 1023), (22, 1, 8), (23, 1, 8), (24, 1, 128), (25, 0, 1000),
        (26, 0, 0x7FFFFF), (27, 0, 0x7FFFFF), (28, 0, 0x7FFFFF), (29, 0, 0x7FFFFF)])
  ∧ ∀ (body : List Byte) (n : Nat) (v : Int) (s : State), parseWriteSetting body = some (n, v) → s.listening →
    (29 < n → exec (.writeSetting body) s = .next (s.sendReply (kindByte 0x1C) (refuse .range)))
    ∧ (n ≤ 29 → s.settings.locked = true → exec (.writeSetting body) s = .next (s.sendReply (kindByte 0x1C) (refuse .locked)))
    ∧ (n ≤ 29 → s.settings.locked = false → settingInRange n v = false →
        exec (.writeSetting body) s = .next (s.sendReply (kindByte 0x1C) (refuse .range)))
    ∧ (s.settings.locked = false → settingInRange n v = true →
        n ∈ [6, 7, 8, 9, 10, 11, 14, 15, 16, 17, 18, 21, 22, 23, 24, 25, 26, 27, 28, 29] →
        exec (.writeSetting body) s = .next
          (State.sendReply { s with settings := { s.settings with values := s.settings.values.setIfInBounds n v } }
            (kindByte 0x1C) (accept []))))
  ∧ (∀ n b0 b1 b2 b3 : Byte, parseWriteSetting [n, b0, b1, b2, b3] = some (n.toNat, (b3 ++ b2 ++ b1 ++ b0).toInt))
  ∧ ∀ s : State, let value := fun n : Nat => s.settings.values.getD n 0
      s.needles = value 0 ∧ s.systems = (value 1).toNat ∧ s.countsPerNeedle = value 2 ∧ s.markSpacing = value 3
      ∧ s.markWindowWidth = value 4 ∧ s.homeCount = value 5 ∧ s.homeTimeout = (value 6).toNat * 10000000
      ∧ (∀ i < 4, s.offset i = value (7 + i)) ∧ s.lead = value 11 ∧ s.fieldMargin = value 12 ∧ s.maxRack = value 13
      ∧ s.minNeedlePeriod = value 14 ∧ s.stallTime = (value 15).toNat * 10000 ∧ s.reversalTolerance = value 16
      ∧ s.confirmNeedles = (value 17).toNat ∧ s.sweepInterval = (value 18).toNat * 10000 ∧ s.stopSweeps = (value 19).toNat
      ∧ s.silentLimit = (value 20).toNat ∧ s.knotLevel = (value 21).toNat ∧ s.shockSweeps = (value 22).toNat
      ∧ s.quietSweeps = (value 23).toNat ∧ s.eventWatermark = (value 24).toNat ∧ s.passMarkInterval = (value 25).toNat
      ∧ ∀ c : Cond, (s.inAlertMask c = true ↔ (value 26).toNat.testBit c.num = true)
        ∧ (s.inCautionMask c = true ↔ (value 27).toNat.testBit c.num = true)
        ∧ (s.inStopRoute c = true ↔ (value 28).toNat.testBit c.num = true)
        ∧ (s.inAttnRoute c = true ↔ (value 29).toNat.testBit c.num = true)

/-- R15, R106, R123, R143: what the writes of the tracking settings, the field settings, SYSTEMS, STOP_SWEEPS and SILENT_LIMIT bring
about. -/
def Obligations.WriteSettingMovesItsReaders : Prop :=
  ∀ (body : List Byte) (n : Nat) (v : Int) (s : State), parseWriteSetting body = some (n, v) → s.listening →
    s.settings.locked = false → settingInRange n v = true →
    let w : State := { s with settings := { s.settings with values := s.settings.values.setIfInBounds n v } }
    (n ∈ [2, 3, 4, 5] →
      exec (.writeSetting body) s = .next (State.sendReply
        (if s.tracker.position.valid then { w with tracker := { s.tracker with position := .unreferenced, markWindow := none } }
          else w) (kindByte 0x1C) (accept [])))
    ∧ (n ∈ [0, 12, 13] → ∃ t : State, exec (.writeSetting body) s = .next (t.sendReply (kindByte 0x1C) (accept []))
      ∧ t = { w with feeders := t.feeders, queue := t.queue } ∧ t.feeders.latches = s.feeders.latches
      ∧ (∀ f < 16, ∀ rail pos, s.feeder f = .parked rail pos →
          t.feeder f = if w.fieldLow ≤ pos ∧ pos ≤ w.fieldHigh then .parked rail pos else .faulted rail)
      ∧ (∀ f < 16, (∀ rail pos, s.feeder f ≠ .parked rail pos) → t.feeder f = s.feeder f)
      ∧ t.queue = if s.queue.records = [] then { s.queue with proj := t.feeders.project } else s.queue)
    ∧ (n = 1 → ∃ t : State, exec (.writeSetting body) s = .next (t.sendReply (kindByte 0x1C) (accept []))
      ∧ t = { w with feeders := t.feeders, queue := t.queue, yarn := t.yarn }
      ∧ (∀ i < 4, v.toNat ≤ i → t.latch i = Latch.mk .opened 0)
      ∧ (∀ i < 4, i < v.toNat → t.latch i = s.latch i)
      ∧ (∀ f < 16, (∃ i < 4, v.toNat ≤ i ∧ (s.latch i).state.held = some f) → t.feeder f = .faulted (s.feeder f).rail)
      ∧ (∀ f < 16, (¬ ∃ i < 4, v.toNat ≤ i ∧ (s.latch i).state.held = some f) →
          t.feeder f = s.feeder f ∧ t.head f = s.head f)
      ∧ t.queue = if s.queue.records = [] then { s.queue with proj := t.feeders.project } else s.queue)
    ∧ (n = 19 → s.engine.pass = none → ∃ t : State, exec (.writeSetting body) s = .next (t.sendReply (kindByte 0x1C) (accept []))
      ∧ t = { w with yarn := t.yarn, monitor := t.monitor }
      ∧ (∀ f < 16, t.head f = { s.head f with stillRun := min (s.head f).stillRun v.toNat })
      ∧ ((∃ f < 16, v.toNat ≤ (s.head f).stillRun ∧ (s.head f).stillRun ≠ s.stopSweeps) →
          (t.monitor.record .yarnStop).captured = true ∧ (t.monitor.record .yarnStop).latched ≠ none)
      ∧ ((∀ f < 16, (s.head f).stillRun < v.toNat ∨ (s.head f).stillRun = s.stopSweeps) → t.monitor = s.monitor))
    ∧ (n = 20 → s.engine.pass = none → ∃ t : State, exec (.writeSetting body) s = .next (t.sendReply (kindByte 0x1C) (accept []))
      ∧ t = { w with yarn := t.yarn, monitor := t.monitor, freeCount := t.freeCount }
      ∧ (∀ f < 16, t.head f = { s.head f with silentRun := min (s.head f).silentRun v.toNat })
      ∧ ((∃ f < 16, v.toNat ≤ (s.head f).silentRun ∧ (s.head f).silentRun ≠ s.silentLimit) →
          (t.monitor.record .headSilent).captured = true ∧ (t.monitor.record .headSilent).latched ≠ none)
      ∧ ((∀ f < 16, (s.head f).silentRun < v.toNat ∨ (s.head f).silentRun = s.silentLimit) → t.monitor = s.monitor))

/-- R187, R184, R189: LOCK_SETTINGS with its two cross-checks, the disturbance of a locked store, and UNLOCK_SETTINGS. The
checksum is the check of R170 over 120 bytes, the values of settings 0 to 29 with four bytes each, low byte first. That a
disturbance of unlocked settings does nothing is the model's choice (log 20). -/
def Obligations.LockAndUnlockSettings : Prop :=
  (((∀ s : State, s.listening → s.settings.locked = false →
      (∀ i < s.systems, ∀ j < s.systems, i ≠ j → s.offset i ≠ s.offset j) → 2 * s.markWindowWidth + 2 < s.countsPerNeedle →
      exec (.lockSettings []) s = .next
        (State.sendReply { s with settings := { s.settings with locked := true, checksum := some s.computedChecksum } }
          (kindByte 0x1D) (accept (bytesOf 2 s.computedChecksum.toNat))))
    ∧ (∀ s : State, s.listening → s.settings.locked = false →
      ((∃ i < s.systems, ∃ j < s.systems, i ≠ j ∧ s.offset i = s.offset j) ∨ s.countsPerNeedle ≤ 2 * s.markWindowWidth + 2) →
      exec (.lockSettings []) s = .next (s.sendReply (kindByte 0x1D) (refuse .range)))
    ∧ (∀ (s : State) (k : Word16), s.listening → s.settings.locked = true → s.settings.checksum = some k →
      exec (.lockSettings []) s = .next (s.sendReply (kindByte 0x1D) (accept (bytesOf 2 k.toNat))))
    ∧ ∀ (s : State) (k : Word16),
      (s.settings.locked = true →
        exec (.settingsDisturbance k) s = .next { s with settings := { s.settings with checksum := some k } })
      ∧ (s.settings.locked = false → exec (.settingsDisturbance k) s = .next s))
  ∧ (∀ s : State, s.listening →
      (s.settings.locked = true → (s.queue.records ≠ [] ∨ s.queue.plan = .running ∨ s.tracker.position = .seeking) →
        exec (.unlockSettings []) s = .next (s.sendReply (kindByte 0x1E) (refuse .busy)))
      ∧ (s.settings.locked = true → s.queue.records = [] → s.queue.plan = .held → s.tracker.position ≠ .seeking →
        exec (.unlockSettings []) s = .next
          (State.sendReply { s with settings := { s.settings with locked := false } } (kindByte 0x1E) (accept [])))
      ∧ (s.settings.locked = false → exec (.unlockSettings []) s = .next (s.sendReply (kindByte 0x1E) (accept [])))))
  ∧ ∀ s : State, ∃ bs : List Byte, s.computedChecksum = checkRegister bs ∧ bs.length = 120
    ∧ ∀ n < 30, ∀ j < 4, ((bs.getD (4 * n + j) 0).toNat : Int) = s.settings.values.getD n 0 / 256 ^ j % 256

/-! ### Position -/

/-- R1: every change of one encoder line moves C by one, up along the sequence (0,0), (1,0), (1,1), (0,1) and down against it, in
every position state, and the new levels become the reference levels. Where the position is not valid nothing else changes (R3). -/
def Obligations.CountTransitionCountsInEveryState : Prop :=
  ∀ (line : EncLine) (s : State),
    let old : Bool × Bool := (s.tracker.encA, s.tracker.encB)
    let new : Bool × Bool := match line with
      | .a => (!s.tracker.encA, s.tracker.encB)
      | .b => (s.tracker.encA, !s.tracker.encB)
    let up : Prop := (old, new) ∈ [((false, false), (true, false)), ((true, false), (true, true)),
      ((true, true), (false, true)), ((false, true), (false, false))]
    let c : Int := s.tracker.count + (if up then 1 else -1)
    (-2147483648 ≤ c → c ≤ 2147483647 → ∃ t, exec (.countTransition line) s = .next t
      ∧ t.tracker.count = c ∧ t.tracker.encA = new.1 ∧ t.tracker.encB = new.2 ∧ t.tracker.clock = s.tracker.clock)
    ∧ (-2147483648 ≤ c → c ≤ 2147483647 →
        s.tracker.position = .unreferenced ∨ s.tracker.position = .seeking ∨ s.tracker.position = .lost →
        exec (.countTransition line) s
          = .next { s with tracker := { s.tracker with count := c, encA := new.1, encB := new.2 } })

/-- R10: the mark window after a transition, under the settings that LOCK_SETTINGS lets pass: entering a window, moving within
it and leaving it, with the expected mark where it was passed without an edge. The marks lie MARK_SPACING needles apart, and
`windowAt` names the mark in whose window a count stands. -/
def Obligations.MarkWindowFollowsTheCount : Prop :=
  (∀ (s : State) (old new : Int), 0 ≤ s.markWindowWidth → 2 * s.markWindowWidth + 2 < s.countsPerNeedle → 1 ≤ s.markSpacing →
    (∀ k, k * s.markPitch - s.markWindowWidth ≤ new → new ≤ k * s.markPitch + s.markWindowWidth →
      (s.tracker.markWindow = none →
        s.nextWindow old new = (some (MarkWindow.mk k (if old < k * s.markPitch then .low else .high) false), none))
      ∧ (∀ w, s.tracker.markWindow = some w → w.mark = k → s.nextWindow old new = (some w, none)))
    ∧ ((∀ k, new < k * s.markPitch - s.markWindowWidth ∨ k * s.markPitch + s.markWindowWidth < new) →
      (s.tracker.markWindow = none → s.nextWindow old new = (none, none))
      ∧ ∀ w, s.tracker.markWindow = some w → s.nextWindow old new = (none,
          if w.satisfied = false ∧ ((w.side = .low ∧ w.mark * s.markPitch + s.markWindowWidth < new)
            ∨ (w.side = .high ∧ new < w.mark * s.markPitch - s.markWindowWidth)) then some w.mark else none)))
  ∧ ∀ (s : State) (c : Int), s.markPitch = s.markSpacing * s.countsPerNeedle
    ∧ (0 ≤ s.markWindowWidth → 2 * s.markWindowWidth + 2 < s.countsPerNeedle → 1 ≤ s.markSpacing →
      (∀ k, k * s.markPitch - s.markWindowWidth ≤ c → c ≤ k * s.markPitch + s.markWindowWidth → s.windowAt c = some k)
      ∧ ((∀ k, c < k * s.markPitch - s.markWindowWidth ∨ k * s.markPitch + s.markWindowWidth < c) → s.windowAt c = none))

/-- R3, R4, R10, R13: in REFERENCED and DOUBTFUL a transition first brings the mark window up to date, with a slip of source ABSENT
where the expected mark was passed, and then gives the pass engine one step where X changed and the position is still valid. -/
def Obligations.StepIsDelivered : Prop :=
  ∀ (line : EncLine) (s : State),
    let d := s.tracker.direction line
    let c : Int := s.tracker.count + d.sign
    let x : Int := c / s.countsPerNeedle
    let w := s.nextWindow s.tracker.count c
    let moved : State := { s with tracker := { s.tracker with
      count := c
      encA := if line = .a then !s.tracker.encA else s.tracker.encA
      encB := if line = .b then !s.tracker.encB else s.tracker.encB
      markWindow := w.1 } }
    s.tracker.position.valid = true → countInRange c = true →
    (w.2 = none → x = s.carriageX → exec (.countTransition line) s = .next moved)
    ∧ (w.2 = none → x ≠ s.carriageX → exec (.countTransition line) s = .next (moved.carriageStep d x))
    ∧ ∀ k, w.2 = some k →
      let u := moved.slip (.absent (k * s.markSpacing))
      exec (.countTransition line) s = .next (if u.tracker.position.valid ∧ x ≠ s.carriageX then u.carriageStep d x else u)

/-- R2, R14: an illegal transition, and a transition beyond the range of the count, leave C and take the new levels; in REFERENCED
and DOUBTFUL POS_JUMP is raised and then POS_LOST as the tracker enters LOST, and a pass ends; elsewhere nothing else changes. -/
def Obligations.IllegalTransitionLosesPosition : Prop :=
  ∀ (cmd : Instr) (a b : Bool) (s : State),
    ((cmd = .illegalTransition ∧ a = !s.tracker.encA ∧ b = !s.tracker.encB)
      ∨ (cmd = .countTransition .a ∧ countInRange (s.tracker.count + (s.tracker.direction .a).sign) = false
        ∧ a = !s.tracker.encA ∧ b = s.tracker.encB)
      ∨ (cmd = .countTransition .b ∧ countInRange (s.tracker.count + (s.tracker.direction .b).sign) = false
        ∧ a = s.tracker.encA ∧ b = !s.tracker.encB)) →
    (s.tracker.position.valid = false → exec cmd s = .next { s with tracker := { s.tracker with encA := a, encB := b } })
    ∧ (s.tracker.position.valid = true → ∃ t, exec cmd s = .next t
      ∧ t.tracker.count = s.tracker.count ∧ t.tracker.encA = a ∧ t.tracker.encB = b
      ∧ t.tracker.position = .lost ∧ t.tracker.markWindow = none ∧ t.live .posLost = true ∧ t.readyLine = false
      ∧ t.latched .posJump = true ∧ t.captured .posJump = true ∧ t.latched .posLost = true ∧ t.captured .posLost = true
      ∧ t.engine.pass = none
      ∧ (s.engine.pass = none → s.latched .posJump = false → s.latched .posLost = false → s.room 2 →
          t.monitor.events = s.monitor.events
            ++ [s.entry (.condition (.posJump s.tracker.position)), s.entry (.condition (.posLost .jump))]))

/-- R5, R6, R8: HOME, and the expiry of its timer, which is an event in SEEKING alone (whatever the time the model's timer holds,
log 2; elsewhere the model lets it change nothing, log 27). The expiry leaves the tracker as at power-on but for C and the direction
of last step, so no needle period stands (that the interval clock and the reference levels go on is the model's reading, log 29).
R7, R9: a home mark edge in SEEKING loads HOME_COUNT and ends the seek; in REFERENCED and DOUBTFUL it is checked against the count;
in UNREFERENCED and LOST it is ignored. -/
def Obligations.HomingAndItsTimeout : Prop :=
  (∀ s : State,
      (s.tracker.position = .seeking → s.room 1 → exec .homeMarkEdge s = .next { s with
        tracker := { s.tracker with
          count := s.homeCount
          position := .referenced
          seekTimer := none
          markWindow := (s.windowAt s.homeCount).map fun k =>
            MarkWindow.mk k (if s.homeCount ≤ k * s.markPitch then .low else .high) true }
        monitor := { s.monitor with
          events := s.monitor.events ++ [s.entry (.homed s.homeCount (s.homeCount / s.countsPerNeedle))] } })
      ∧ (s.tracker.position.valid = true → -s.markWindowWidth ≤ s.tracker.count - s.homeCount →
          s.tracker.count - s.homeCount ≤ s.markWindowWidth →
          exec .homeMarkEdge s = .next { s with tracker := { s.tracker with position := .referenced } })
      ∧ (s.tracker.position.valid = true →
          s.tracker.count - s.homeCount < -s.markWindowWidth ∨ s.markWindowWidth < s.tracker.count - s.homeCount →
          exec .homeMarkEdge s = .next (s.slip (.home (s.tracker.count - s.homeCount))))
      ∧ (s.tracker.position = .unreferenced ∨ s.tracker.position = .lost → exec .homeMarkEdge s = .next s))
  ∧ ((∀ s : State, s.listening → s.settings.locked = false →
      exec (.home []) s = .next (s.sendReply (kindByte 0x02) (refuse .notLocked)))
    ∧ (∀ s : State, s.listening → s.settings.locked = true → s.engine.pass ≠ none →
      exec (.home []) s = .next (s.sendReply (kindByte 0x02) (refuse .busy)))
    ∧ (∀ s : State, s.listening → s.settings.locked = true → s.engine.pass = none →
      exec (.home []) s = .next (State.sendReply { s with tracker := { s.tracker with
        position := .seeking
        seekTimer := some ((s.settings.values.getD 6 0).toNat * 10000000)
        markWindow := none } } (kindByte 0x02) (accept [])))
    ∧ (∀ s : State, s.tracker.position = .seeking → exec .seekTimerExpiry s
      = .next (State.raise { s with tracker := { s.tracker with position := .unreferenced, seekTimer := none, lastPeriod := none } } .homeTimeout))
    ∧ ∀ s : State, s.tracker.position ≠ .seeking → exec .seekTimerExpiry s = .next s)

/-- R11: a needle mark edge is judged by its deviation from the nearest mark, the lower one halfway between two. R12, R14: a slip
raises MARK_SLIP; it takes REFERENCED to DOUBTFUL, and DOUBTFUL to LOST with POS_LOST raised after it; C stays. -/
def Obligations.NeedleMarkEdgesAndSlips : Prop :=
  (∀ s : State, 0 < s.markPitch → ∃ d : Int, -s.markPitch < 2 * d ∧ 2 * d ≤ s.markPitch ∧ (s.tracker.count - d) % s.markPitch = 0
      ∧ (s.tracker.position.valid = true → -s.markWindowWidth ≤ d → d ≤ s.markWindowWidth →
          exec .needleMarkEdge s = .next { s with tracker := { s.tracker with
            position := .referenced
            markWindow := s.tracker.markWindow.map fun w => { w with satisfied := true } } })
      ∧ (s.tracker.position.valid = true → d < -s.markWindowWidth ∨ s.markWindowWidth < d →
          exec .needleMarkEdge s = .next (s.slip (.needle d)))
      ∧ (s.tracker.position.valid = false → exec .needleMarkEdge s = .next s))
  ∧ (∀ (src : SlipSource) (s : State),
      let u := s.raise (.markSlip src)
      (s.tracker.position = .referenced → s.slip src = { u with tracker := { u.tracker with position := .doubtful } })
      ∧ (s.tracker.position = .doubtful → s.slip src
          = State.raise { u with tracker := { u.tracker with position := .lost, markWindow := none } } (.posLost .slip))
      ∧ (s.slip src).tracker.count = s.tracker.count)

/-- R19, R20, R121: the stall timer running out in a pass (the command, log 2) makes STALL live, once, and stops; in FINISHING
the outstanding confirmations are resolved and the pass completes, and where STOP_ROUTE holds STALL the raise aborts the pass
instead, with reason ROUTED (R98). With no pass, or a stopped timer, there is no expiry, and the model lets the command change
nothing (log 27). -/
def Obligations.StallTimerExpiryRaisesStall : Prop :=
  (∀ s : State,
    let u : State := { s with tracker := { s.tracker with stallTimer := none, stallLive := true } }
    (s.tracker.phase = .active → s.tracker.stallTimer ≠ none → s.tracker.stallLive = false →
      exec .stallTimerExpiry s = .next (u.raise (.stall .active s.carriageX)))
    ∧ (s.tracker.phase = .finishing → s.tracker.stallTimer ≠ none → s.tracker.stallLive = false → s.engine.pass ≠ none →
        s.inStopRoute .stall = false → s.room 1 →
        exec .stallTimerExpiry s = .next (u.raise (.stall .finishing s.carriageX)).resolveAll.completeIfSettled)
    ∧ (s.tracker.phase = .none ∨ s.tracker.stallTimer = none → exec .stallTimerExpiry s = .next s))
  ∧ ∀ (h : PassRecord) (rest : List PassRecord) (s : State), s.tracker.phase = .finishing → s.tracker.stallTimer ≠ none →
    s.tracker.stallLive = false → s.engine.pass ≠ none → s.queue.records = h :: rest → h.state = .finishing →
    let u : State := { s with tracker := { s.tracker with stallTimer := none, stallLive := true } }
    let d : Detail := .stall .finishing s.carriageX
    (s.inStopRoute .stall = false → s.room 1 → exec .stallTimerExpiry s = .next (u.noteRaise d).resolveAll.completePass)
    ∧ (s.inStopRoute .stall = true → exec .stallTimerExpiry s = .next ((u.noteRaise d).abortPass (.routed .stall)))

/-! ### Lines -/

/-- R26, R27, R28: DEFINE_LINE, its checks in order and its effect. -/
def Obligations.DefineLineOpensALine : Prop :=
  ∀ (i l0 l1 : Byte) (s : State), s.listening →
    let n : Nat := l0.toNat + 256 * l1.toNat
    let len : Nat := if n = 0 then 1024 else n
    let t : State := { s with
      store := s.store.setIfInBounds i.toNat (.opened (LineData.mk (List.replicate len .miss) 0 0)) }
    (63 < i.toNat ∨ 1024 < n → exec (.defineLine [i, l0, l1]) s = .next (s.sendReply (kindByte 0x04) (refuse .range)))
    ∧ (i.toNat ≤ 63 → n ≤ 1024 → s.line i.toNat ≠ .free →
        exec (.defineLine [i, l0, l1]) s = .next (s.sendReply (kindByte 0x04) (refuse .lineState)))
    ∧ (i.toNat ≤ 63 → n ≤ 1024 → s.line i.toNat = .free → s.cellsFree < len →
        exec (.defineLine [i, l0, l1]) s = .next (s.sendReply (kindByte 0x04) (refuse .noRoom)))
    ∧ (i.toNat ≤ 63 → n ≤ 1024 → s.line i.toNat = .free → len ≤ s.cellsFree →
        exec (.defineLine [i, l0, l1]) s
          = .next (t.sendReply (kindByte 0x04) (accept (bytesOf 2 len ++ bytesOf 2 (s.cellsFree - len))))
        ∧ t.cellCount = s.cellCount + len ∧ t.cellsFree = s.cellsFree - len)

/-- R29, R30: WRITE_LINE, its checks in order and its effect: the codes take their places, the cursor stands after the last and
the extent does not fall. -/
def Obligations.WriteLineWritesCodes : Prop :=
  ∀ (body : List Byte) (w : WriteRequest) (s : State), parseWriteLine body = some w → s.listening →
    w.codes.length = w.count
    ∧ (63 < w.id ∨ w.count < 1 ∨ 512 < w.count →
        exec (.writeLine body) s = .next (s.sendReply (kindByte 0x05) (refuse .range)))
    ∧ (w.id ≤ 63 → 1 ≤ w.count → w.count ≤ 512 → (∀ d, s.line w.id ≠ .opened d) →
        exec (.writeLine body) s = .next (s.sendReply (kindByte 0x05) (refuse .lineState)))
    ∧ ∀ d, w.id ≤ 63 → 1 ≤ w.count → w.count ≤ 512 → s.line w.id = .opened d →
      let start : Nat := w.start.getD d.cursor
      (d.codes.length < start + w.count → exec (.writeLine body) s = .next (s.sendReply (kindByte 0x05) (refuse .range)))
      ∧ (start + w.count ≤ d.codes.length → ∃ v : LineData,
          exec (.writeLine body) s = .next
            (State.sendReply { s with store := s.store.setIfInBounds w.id (.opened v) } (kindByte 0x05)
              (accept (bytesOf 2 v.cursor ++ bytesOf 2 v.extent)))
          ∧ v.cursor = start + w.count ∧ v.extent = max d.extent (start + w.count) ∧ v.codes.length = d.codes.length
          ∧ (∀ j, start ≤ j → j < start + w.count → v.codes.getD j .miss = w.codes.getD (j - start) .miss)
          ∧ ∀ j, j < start ∨ start + w.count ≤ j → v.codes.getD j .miss = d.codes.getD j .miss)

/-- R32 to R35: SEAL_LINE with its census, REOPEN_LINE and DROP_LINE. -/
def Obligations.SealReopenAndDropLine : Prop :=
  ∀ (i : Byte) (s : State), s.listening →
    let put := fun l : Line => ({ s with store := s.store.setIfInBounds i.toNat l } : State)
    (63 < i.toNat →
      exec (.sealLine [i]) s = .next (s.sendReply (kindByte 0x06) (refuse .range))
      ∧ exec (.reopenLine [i]) s = .next (s.sendReply (kindByte 0x07) (refuse .range))
      ∧ exec (.dropLine [i]) s = .next (s.sendReply (kindByte 0x08) (refuse .range)))
    ∧ (i.toNat ≤ 63 → s.line i.toNat = .free →
        exec (.sealLine [i]) s = .next (s.sendReply (kindByte 0x06) (refuse .lineState))
        ∧ exec (.reopenLine [i]) s = .next (s.sendReply (kindByte 0x07) (refuse .lineState))
        ∧ exec (.dropLine [i]) s = .next (s.sendReply (kindByte 0x08) (refuse .lineState)))
    ∧ (∀ d, s.line i.toNat = .opened d →
        (d.extent < d.codes.length → exec (.sealLine [i]) s = .next (s.sendReply (kindByte 0x06) (refuse .shortLine)))
        ∧ (d.codes.length ≤ d.extent → ∃ census b,
            exec (.sealLine [i]) s = .next ((put (.sealed d census 0)).sendReply (kindByte 0x06) (accept [b]))
            ∧ (∀ c, c ∈ census ↔ c ∈ d.codes) ∧ (∀ c : Code, b.getLsbD c.value = decide (c ∈ d.codes)))
        ∧ exec (.reopenLine [i]) s = .next (s.sendReply (kindByte 0x07) (refuse .lineState))
        ∧ exec (.dropLine [i]) s = .next ((put .free).sendReply (kindByte 0x08) (accept (bytesOf 2 (put .free).cellsFree))))
    ∧ ∀ d c n, s.line i.toNat = .sealed d c n →
        exec (.sealLine [i]) s = .next (s.sendReply (kindByte 0x06) (refuse .lineState))
        ∧ (0 < n → exec (.reopenLine [i]) s = .next (s.sendReply (kindByte 0x07) (refuse .inUse))
            ∧ exec (.dropLine [i]) s = .next (s.sendReply (kindByte 0x08) (refuse .inUse)))
        ∧ (n = 0 → exec (.reopenLine [i]) s
              = .next ((put (.opened (LineData.mk d.codes 0 d.codes.length))).sendReply (kindByte 0x07)
                (accept (bytesOf 2 d.codes.length)))
            ∧ exec (.dropLine [i]) s
              = .next ((put .free).sendReply (kindByte 0x08) (accept (bytesOf 2 (put .free).cellsFree))))

/-! ### The pass queue -/

/-- R45, R57, R63: QUEUE_PASS is refused without effect while unlocked (with an empty locator, log 24) or where an admission
check fails; otherwise the record is appended with its widths resolved, the line references rise, the projection advances and a
head that is due arms. R43: a width of 0 becomes N less the start. R57: each TAKE and each RELEASE that is not yet reached moves
the projection in body order. R63: how a head arms. The bytes of a locator, its presence bits in the order of its fields (log
19). -/
def Obligations.QueuePassAppendsOrRefuses : Prop :=
  (∀ (body : List Byte) (r : PassRecord) (s : State), parseQueuePass body = some r → s.listening →
    (s.settings.locked = false →
      exec (.queuePass body) s = .next (s.sendReply (kindByte 0x0A) (Answer.mk .notLocked (Locator.mk none none).bytes)))
    ∧ (∀ j, s.settings.locked = true → s.admission r = some j →
      exec (.queuePass body) s = .next (s.sendReply (kindByte 0x0A) (Answer.mk j.result j.locator.bytes)))
    ∧ (s.settings.locked = true → s.admission r = none → ∃ (t : State) (code : Nat),
      exec (.queuePass body) s
        = .next (t.sendReply (kindByte 0x0A) (accept (bytesOf 1 (s.queue.records.length + 1) ++ bytesOf 1 code)))
      ∧ t = { s with store := t.store, queue := t.queue }
      ∧ t.queue.plan = s.queue.plan
      ∧ (∀ id, (t.line id).content = (s.line id).content
          ∧ (t.line id).refs = (s.line id).refs + (r.channels.countP fun c => decide (c.line = id)))
      ∧ t.queue.proj = s.queue.proj.advanceRecord r
      ∧ (s.queue.records ≠ [] → s.queue.plan = .held → code = 0
          ∧ t.queue.records = s.queue.records ++ [r.resolve s.needles])
      ∧ (s.queue.records = [] → s.queue.plan = .held → code = 0 ∧ t.queue.records = [r.resolve s.needles])
      ∧ (s.queue.records = [] → s.queue.plan = .running → code = 1 ∧ t.queue.records = [(r.resolve s.needles).arm])
      ∧ (∀ h rest, s.queue.records = h :: rest → h.state ≠ .queued → s.queue.plan = .running → code = 0
          ∧ t.queue.records = s.queue.records ++ [r.resolve s.needles])))
  ∧ (∀ (r : PassRecord) (n : Int),
      let width := fun c : Channel => if c.width = 0 then { c with width := (n - c.start).toNat } else c
      r.resolve n = { r with entries := r.entries.map fun e => { e with front := e.front.map width, back := e.back.map width } }
      ∧ r.arm = { r with state := if r.start = .onGo then .armed (some .waitGo) else .armed none })
  ∧ (∀ (p : Projection) (i f g j : Nat) (x : Int), i < 4 → f < 16 →
      let rail : Nat := (p.feeder f).rail?.getD 0
      let t := p.advance i (.take f)
      let u := p.advance i (.release f x)
      t.feeder g = (if g = f then .coupled rail i else p.feeder g) ∧ t.holder j = (if j = i then some f else p.holder j)
      ∧ u.feeder g = (if g = f then .parked rail x else p.feeder g) ∧ u.holder j = if j = i then none else p.holder j)
  ∧ (∀ (p : Projection) (r : PassRecord),
      let ahead := r.entries.flatMap fun e => (e.actions.filter fun a => decide (a.mark = .notReached)).map fun a => (e.system, a.act)
      p.advanceRecord r = ahead.foldl (fun q a => q.advance a.1 a.2) p)
  ∧ ∀ l : Locator, l.bytes.length = 3 ∧ bitsAt l.bytes 0 [l.system.isSome, l.feeder.isSome]
    ∧ fieldAt l.bytes 1 1 = l.system.getD 0 % 256 ∧ fieldAt l.bytes 2 1 = l.feeder.getD 0 % 256

/-- R45 to R56: the checks of admission, each in the terms of its rule, in the order of their numbers: the first that fails refuses
the record with its result code (the code of RACK_RANGE is open, log 22), and a record that fails none is admitted. Which item a
locator names is given where the rule gives it (a system, a system and a feeder, a feeder). R53 to R56 are judged in a projection
that keeps the law of R58. -/
def Obligations.AdmittedRecordPassesTheChecks : Prop :=
  ∀ (r : PassRecord) (s : State), s.systems ≤ 4 → s.queue.proj.holderLaw →
    let p := s.queue.proj
    let pathPosition := fun (a : MarkedAction) (x : Int) => match a.act with
      | .take f => ∃ rail, p.feeder f = .parked rail x
      | .release _ y => x = y
    let full : Prop := 8 ≤ s.queue.records.length
    let badSystems : Prop := (∃ e ∈ r.entries, s.systems ≤ e.system) ∨ ¬ (r.entries.map SystemEntry.system).Nodup
      ∨ ∃ e ∈ r.entries, e.mode = .idle ∧ (e.front ≠ none ∨ e.back ≠ none)
    let rackOver : Prop := r.racking < -s.maxRack ∨ s.maxRack < r.racking
    let notSealed : Prop := ∃ c ∈ r.channels, ∀ d census n, s.line c.line ≠ .sealed d census n
    let outOfRange : Prop := ∃ c ∈ r.channels, s.needles ≤ c.start ∨ (c.width ≠ 0 ∧ s.needles < ((c.start + c.width : Nat) : Int))
      ∨ ∀ d census n, s.line c.line = .sealed d census n → d.codes.length ≤ c.offset
    let codesBarred : Prop := ∃ e ∈ r.entries, ∃ c ∈ e.front.toList ++ e.back.toList, ∃ x ∈ (s.line c.line).census ++ [c.fill],
      (e.mode = .knit ∧ x = .send) ∨ (e.mode = .xfer ∧ (x = .tuck ∨ x = .knit))
    let cyclesFeeders : Prop := r.cycle = true ∧ ∃ e ∈ r.entries, e.actions ≠ []
    let actionsFail : Prop := r.namesTwice
      ∨ ∃ e ∈ r.entries, ∃ before a after, e.actions = before ++ a :: after ∧ p.actionFails e.system before a.act
    let offPath : Prop := ∃ e ∈ r.entries, ∃ a ∈ e.actions, ∃ f x, a.act = .release f x ∧ (x < s.fieldLow ∨ s.fieldHigh < x)
    let tooClose : Prop := ∃ e ∈ r.entries, ∃ a b x y, e.actions = [a, b] ∧ pathPosition a x ∧ pathPosition b y
      ∧ (y - x) * r.direction.sign < s.confirmNeedles
    let refused := fun (code : ResultCode) (system feeder : Bool) => ∃ j, s.admission r = some j ∧ j.result = code
      ∧ j.locator.system.isSome = system ∧ j.locator.feeder.isSome = feeder
    (full → refused .queueFull false false)
    ∧ (¬ full → badSystems → refused .badSystem true false)
    ∧ (¬ full → ¬ badSystems → rackOver → refused .rackRange false false)
    ∧ (¬ full → ¬ badSystems → ¬ rackOver → notSealed → refused .lineNotSealed true false)
    ∧ (¬ full → ¬ badSystems → ¬ rackOver → ¬ notSealed → outOfRange → refused .range true false)
    ∧ (¬ full → ¬ badSystems → ¬ rackOver → ¬ notSealed → ¬ outOfRange → codesBarred → refused .codeMode true false)
    ∧ (¬ full → ¬ badSystems → ¬ rackOver → ¬ notSealed → ¬ outOfRange → ¬ codesBarred → cyclesFeeders →
        ∃ j, s.admission r = some j ∧ j.result = .cycleFeeder)
    ∧ (¬ full → ¬ badSystems → ¬ rackOver → ¬ notSealed → ¬ outOfRange → ¬ codesBarred → ¬ cyclesFeeders →
        (actionsFail → refused .feederState true true)
        ∧ (¬ actionsFail → offPath → refused .offPath true true)
        ∧ (¬ actionsFail → ¬ offPath → tooClose → refused .actionOrder true false)
        ∧ (¬ actionsFail → ¬ offPath → ¬ tooClose → s.railShared r → refused .railShared false true)
        ∧ (¬ actionsFail → ¬ offPath → ¬ tooClose → ¬ s.railShared r → s.railBlocked r → refused .railBlocked false true)
        ∧ (¬ actionsFail → ¬ offPath → ¬ tooClose → ¬ s.railShared r → ¬ s.railBlocked r → s.admission r = none))

/-- R68: STOP_CYCLING clears every cycle flag and answers how many were set. R67: CANCEL_QUEUED removes every QUEUED or ARMED
record with its references and leaves an ACTIVE or FINISHING head; the plan stays. What the projection becomes is said by
`HaltAbortsOrFlushes` (the rebuild) and `QueuePassAppendsOrRefuses` (the advance). -/
def Obligations.StopCyclingAndCancelQueued : Prop :=
  ((∀ s : State, s.listening → ∃ t : State,
      exec (.stopCycling []) s
        = .next (t.sendReply (kindByte 0x0C) (accept (bytesOf 1 (s.queue.records.countP fun r => r.cycle))))
      ∧ t = { s with queue := { s.queue with records := s.queue.records.map fun r => { r with cycle := false } } })
    ∧ ∀ s : State, s.link.rx.busy = false →
        exec (.broadcastRefused 0x0C) s = .next ((s.raise (.frameFault .broadcast (some 0x0C))).setRx .hunt))
  ∧ (∀ s : State, s.listening → s.room 1 →
      let kept := s.queue.records.filter fun r => decide (r.state = .active) || decide (r.state = .finishing)
      let gone := s.queue.records.filter fun r => !(decide (r.state = .active) || decide (r.state = .finishing))
      ∃ t : State, exec (.cancelQueued []) s = .next (t.sendReply (kindByte 0x0B) (accept (bytesOf 1 gone.length)))
        ∧ t = { s with store := t.store, queue := t.queue, monitor := t.monitor }
        ∧ t.queue.records = kept ∧ t.queue.plan = s.queue.plan
        ∧ t.queue.proj = kept.foldl Projection.advanceRecord s.feeders.project
        ∧ (∀ id, (t.line id).content = (s.line id).content ∧ (t.line id).refs
            = (s.line id).refs - ((gone.flatMap PassRecord.channels).countP fun c => decide (c.line = id)))
        ∧ t.monitor = { s.monitor with events := s.monitor.events ++ [s.entry (.queueFlushed gone.length .cancel)] })

/-- R61, R63: RESUME with its checks, and the arming of the head, whose state it answers with (4 with no record). R64: GO,
addressed and broadcast. -/
def Obligations.ResumeArmsAndGoReleases : Prop :=
  ((∀ s : State, s.listening →
      (s.queue.plan = .running →
        exec (.resume []) s = .next (s.sendReply (kindByte 0x0D) (accept (bytesOf 1 1 ++ bytesOf 1 s.headStateCode))))
      ∧ (s.queue.plan = .held → s.settings.locked = false →
          exec (.resume []) s = .next (s.sendReply (kindByte 0x0D) (refuse .notLocked)))
      ∧ (s.queue.plan = .held → s.settings.locked = true → s.tracker.position.valid = false →
          exec (.resume []) s = .next (s.sendReply (kindByte 0x0D) (refuse .notReady)))
      ∧ (s.queue.plan = .held → s.settings.locked = true → s.tracker.position.valid = true →
          (s.queue.records = [] → exec (.resume []) s = .next
            (State.sendReply { s with queue := { s.queue with plan := .running } } (kindByte 0x0D) (accept (bytesOf 1 1 ++ bytesOf 1 4))))
          ∧ ∀ h rest, s.queue.records = h :: rest → h.state = .queued →
            let armed : RecordState := if h.start = .onGo then .armed (some .waitGo) else .armed none
            exec (.resume []) s = .next
              (State.sendReply { s with queue := { s.queue with plan := .running, records := { h with state := armed } :: rest } }
                (kindByte 0x0D) (accept (bytesOf 1 1 ++ bytesOf 1 1)))))
  ∧ ((∀ (h : PassRecord) (rest : List PassRecord) (s : State), s.queue.records = h :: rest → h.state = .armed (some .waitGo) →
      let t : State := { s with queue := { s.queue with records := { h with state := .armed (some .goGiven) } :: rest } }
      (s.listening → exec (.go .addressed []) s = .next (t.sendReply (kindByte 0x0F) (accept [])))
      ∧ (s.link.rx.busy = false → exec (.go .broadcast []) s = .next (t.setRx .hunt)))
    ∧ ∀ s : State, (∀ h rest, s.queue.records = h :: rest → h.state ≠ .armed (some .waitGo)) →
      (s.listening → exec (.go .addressed []) s = .next (s.sendReply (kindByte 0x0F) (refuse .notWaiting)))
      ∧ (s.link.rx.busy = false → exec (.go .broadcast []) s = .next (s.setRx .hunt))))
  ∧ ∀ s : State, (s.queue.records = [] → s.headStateCode = 4)
    ∧ ∀ h rest, s.queue.records = h :: rest → (h.state = .queued → s.headStateCode = 0)
      ∧ (∀ go, h.state = .armed go → s.headStateCode = 1) ∧ (h.state = .active → s.headStateCode = 2)
      ∧ (h.state = .finishing → s.headStateCode = 3)

/-- R62, R66: HALT aborts a pass in progress with reason HALT and flushes the queue itself otherwise. A flush removes every
record with its references, rebuilds the projection, holds the plan and logs QUEUE_FLUSHED. R58, R66, R67: the rebuilt
projection takes a TAKING feeder as COUPLED and a RELEASING one as PARKED at its release point, and a latch's projected holder
follows. -/
def Obligations.HaltAbortsOrFlushes : Prop :=
  ((∀ s : State, s.engine.pass = none →
    (s.listening → exec (.halt .addressed []) s = .next ((s.flush .halt).sendReply (kindByte 0x0E) (accept [])))
    ∧ (s.link.rx.busy = false → exec (.halt .broadcast []) s = .next ((s.flush .halt).setRx .hunt)))
  ∧ (∀ s : State, s.engine.pass ≠ none →
    (s.listening → exec (.halt .addressed []) s = .next ((s.abortPass .halt).sendReply (kindByte 0x0E) (accept [])))
    ∧ (s.link.rx.busy = false → exec (.halt .broadcast []) s = .next ((s.abortPass .halt).setRx .hunt)))
  ∧ ∀ (cause : FlushCause) (s : State), ∃ t : State, s.flush cause = t
    ∧ t = { s with store := t.store, queue := PassQueue.mk [] .held s.feeders.project, monitor := t.monitor }
    ∧ (∀ id, (t.line id).content = (s.line id).content ∧ (t.line id).refs = (s.line id).refs - s.namesOf id)
    ∧ (s.room 1 → t.monitor
        = { s.monitor with events := s.monitor.events ++ [s.entry (.queueFlushed s.queue.records.length cause)] }))
  ∧ ∀ (u : FeederUnit) (f i : Nat),
    let v := u.table.getD f .undeclared
    let l := (u.latches.getD i (Latch.mk .opened 0)).state
    (v = .undeclared → u.project.feeder f = .undeclared) ∧ (∀ rail x, v = .parked rail x → u.project.feeder f = .parked rail x)
    ∧ (∀ rail j, v = .taking rail j ∨ v = .coupled rail j → u.project.feeder f = .coupled rail j)
    ∧ (∀ rail j x, v = .releasing rail j x → u.project.feeder f = .parked rail x)
    ∧ (∀ rail, v = .faulted rail → u.project.feeder f = .faulted rail)
    ∧ (∀ g pos, l = .closing g pos ∨ l = .closed g → u.project.holder i = some g)
    ∧ (∀ g, l = .opened ∨ l = .opening g → u.project.holder i = none)

/-! ### The pass -/

/-- R3, R19, R73, R74, R83, R84: a step sets the direction of last step and, in a pass, restarts the stall timer; it is then a
step without a pass, an entry crossing, a step against the pass, which raises REVERSAL beyond the tolerance, or a re-arrival,
which presents codes in an ACTIVE record alone, or an advancing step (`State.advance`, whose order `AdvancingStepOrder` states).
Section 3.6: the field, the entry points and the exits, from the smallest and the largest offset of the fitted systems. -/
def Obligations.StepIsClassified : Prop :=
  (∀ (d : Direction) (x : Int) (s : State),
    let u : State := { s with tracker := { s.tracker with
      lastDir := d
      stallTimer := if s.tracker.phase = .none then s.tracker.stallTimer else some s.stallTime
      stallLive := if s.tracker.phase = .none then s.tracker.stallLive else false } }
    (s.engine.pass = none → x ≠ s.entryPoint d ∨ s.queue.plan = .held → s.carriageStep d x = u)
    ∧ (s.engine.pass = none → x = s.entryPoint d → s.queue.plan = .running → s.carriageStep d x = u.entryCrossing d x)
    ∧ (∀ p, s.engine.pass = some p → d ≠ p.dir →
        let r := (p.furthestX - x) * p.dir.sign
        (r ≤ s.reversalTolerance → s.carriageStep d x = u)
        ∧ (s.reversalTolerance < r → s.carriageStep d x = u.raise (.reversal r x)))
    ∧ (∀ p, s.engine.pass = some p → d = p.dir → (x - p.furthestX) * p.dir.sign ≤ 0 →
        (s.headActive = false → s.carriageStep d x = u) ∧ (s.headActive = true → s.carriageStep d x = u.arrivals false x))
    ∧ (∀ p, s.engine.pass = some p → d = p.dir → 0 < (x - p.furthestX) * p.dir.sign → s.carriageStep d x = u.advance p x)
    ∧ (s.settings.values = defaultSettings → s.entryPoint .rightward = -109 ∧ s.entryPoint .leftward = 620
        ∧ (∀ y, s.beyondExit .rightward y = true ↔ 618 ≤ y) ∧ (∀ y, s.beyondExit .leftward y = true ↔ y ≤ -107)))
  ∧ ∀ s : State, 0 < s.systems → ∃ low high : Int, (∀ i < s.systems, low ≤ s.offset i ∧ s.offset i ≤ high)
    ∧ (∃ i < s.systems, s.offset i = low) ∧ (∃ i < s.systems, s.offset i = high)
    ∧ s.fieldLow = -s.maxRack - s.fieldMargin ∧ s.fieldHigh = s.needles - 1 + s.maxRack + s.fieldMargin
    ∧ s.entryPoint .rightward = s.fieldLow - high - s.lead ∧ s.entryPoint .leftward = s.fieldHigh - low + s.lead
    ∧ (∀ y, s.beyondExit .rightward y = true ↔ s.fieldHigh - low < y)
    ∧ (∀ y, s.beyondExit .leftward y = true ↔ y < s.fieldLow - high)

/-- R75 to R79, R80, R97: an entry crossing of a RUNNING plan: STARVED with no record, WRONG_WAY before NO_GO before the checksum
for an armed head, and else the start of the pass with the pair arrivals of the crossing (none where no selection point stands on a
pair). -/
def Obligations.EntryCrossingOutcomes : Prop :=
  ∀ (d : Direction) (x : Int) (s : State),
    (s.queue.records = [] → s.entryCrossing d x = s.raise (.starved d))
    ∧ ∀ r rest go, s.queue.records = r :: rest → r.state = .armed go →
      (r.direction ≠ d → s.entryCrossing d x = (s.raise (.wrongWay r.tag d)).abortHead .wrongWay)
      ∧ (r.direction = d → go = some .waitGo → s.entryCrossing d x = (s.raise (.noGo r.tag)).abortHead .noGo)
      ∧ (∀ k, r.direction = d → go ≠ some .waitGo → s.settings.checksum = some k → k ≠ s.computedChecksum →
          s.entryCrossing d x = (s.raise (.settingsCheck k s.computedChecksum)).abortHead .settingsCheck)
      ∧ (r.direction = d → go ≠ some .waitGo → s.settings.checksum = some s.computedChecksum → s.room 1 →
          let started : State := { s with
            queue := { s.queue with records := { r with
              state := .active
              entries := r.entries.map fun e => { e with
                actions := e.actions.map fun a => { a with mark := .notReached } } } :: rest }
            engine := { s.engine with pass := some (Pass.mk d r.racking x none) }
            tracker := { s.tracker with
              phase := .active
              lastAdvance := some s.tracker.clock
              stallTimer := some s.stallTime
              stallLive := false }
            monitor := { s.monitor with events := s.monitor.events ++ [s.entry (.passStarted r.tag d)] } }
          s.entryCrossing d x = started.arrivals true x
          ∧ ((∀ i < s.systems, s.pairExists r.racking (s.selectionPoint i x d) = false) → s.entryCrossing d x = started))

/-- R82, R90, R91, R17, R18, R136: an advancing step. In an ACTIVE record a needle period below the minimum raises OVERSPEED and
ends the pass; else the arrivals come first, which can end it, then the feeder unit, then the travel marks (which the model sets
even where the feeder unit has ended the pass, log 10), and the exit step ends in FINISHING or in the completion. In a FINISHING
record the feeder unit alone has the step. -/
def Obligations.AdvancingStepOrder : Prop :=
  ∀ (p : Pass) (x : Int) (s : State), s.engine.pass = some p →
    let t : State := { s with engine := { s.engine with pass := some { p with furthestX := x } } }
    let period : Nat := min 65535 (s.tracker.clock - s.tracker.lastAdvance.getD 0).toNat
    let m : State := { t with tracker := { t.tracker with lastPeriod := some period, lastAdvance := some s.tracker.clock } }
    let u := m.arrivals true x
    let v := (u.feederStep x).markTravel
    (s.headActive = false → s.advance p x = t.feederStep x)
    ∧ (s.headActive = true → s.tracker.lastAdvance ≠ none → (period : Int) < s.minNeedlePeriod →
        s.advance p x = m.raise (.overspeed period) ∧ (s.advance p x).engine.pass = none)
    ∧ (s.headActive = true → s.tracker.lastAdvance ≠ none → s.minNeedlePeriod ≤ (period : Int) →
        (u.engine.pass = none → s.advance p x = u)
        ∧ (u.engine.pass ≠ none → v.engine.pass = none ∨ s.beyondExit p.dir x = false → s.advance p x = v)
        ∧ (u.engine.pass ≠ none → v.engine.pass ≠ none → s.beyondExit p.dir x = true → v.latchOutstanding = false →
            s.advance p x = v.clearBanks.completePass)
        ∧ (u.engine.pass ≠ none → v.engine.pass ≠ none → s.beyondExit p.dir x = true → v.latchOutstanding = true →
            (s.advance p x).tracker.phase = .finishing ∧ (s.advance p x).engine.pass = v.engine.pass
            ∧ ∀ i, (s.advance p x).bank i = BankPair.mk .miss .miss))

/-- R85 to R88: the codes of a pair arrival by the cam mode of the system's entry; a missing needle has MISS; an XFER system never
presents SEND on both banks nor towards a needle that does not exist, and a demotion gives the detail of its raise. R40, R86: the
code a channel gives a needle that exists. R85, R83, R89, R71: an arrival puts its codes on the two banks of its system, moves the
furthest pair along the pass direction (but for a re-arrival) and then raises its demotion (log 15); the arrivals of a step are those
of the fitted systems in rising number whose selection points stand on a pair, and an abort ends them with every bank at MISS. -/
def Obligations.PairArrivalCodes : Prop :=
  (∀ (s : State) (i : Nat) (r p : Int),
      (s.headEntry i = none → s.arrivalCodes i r p = (BankPair.mk .miss .miss, none))
      ∧ (∀ e, s.headEntry i = some e → e.mode = .idle → s.arrivalCodes i r p = (BankPair.mk .miss .miss, none))
      ∧ (∀ e, s.headEntry i = some e → e.mode = .knit →
          s.arrivalCodes i r p = (BankPair.mk (s.foundCode e.front p) (s.foundCode e.back (p + r)), none))
      ∧ (∀ e, s.headEntry i = some e → e.mode = .xfer →
          let f := s.foundCode e.front p
          let b := s.foundCode e.back (p + r)
          (f = .send → b = .send → s.arrivalCodes i r p = (BankPair.mk .miss .miss, some (.xferClash i p)))
          ∧ (f = .send → b ≠ .send → p + r < 0 ∨ s.needles ≤ p + r →
              s.arrivalCodes i r p = (BankPair.mk .miss b, some (.xferEdge i p .front)))
          ∧ (f ≠ .send → b = .send → p < 0 ∨ s.needles ≤ p →
              s.arrivalCodes i r p = (BankPair.mk f .miss, some (.xferEdge i p .back)))
          ∧ (f = .send → b ≠ .send → 0 ≤ p + r → p + r < s.needles → s.arrivalCodes i r p = (BankPair.mk f b, none))
          ∧ (f ≠ .send → b = .send → 0 ≤ p → p < s.needles → s.arrivalCodes i r p = (BankPair.mk f b, none))
          ∧ (f ≠ .send → b ≠ .send → s.arrivalCodes i r p = (BankPair.mk f b, none))
          ∧ ¬ ((s.arrivalCodes i r p).1.front = .send ∧ (s.arrivalCodes i r p).1.back = .send))
      ∧ (∀ ch n, n < 0 ∨ s.needles ≤ n → s.foundCode ch n = .miss) ∧ (∀ n, s.foundCode none n = .miss))
  ∧ (∀ (s : State) (c : Channel) (n : Int) (d : LineData) (census : List Code) (refs : Nat),
      s.line c.line = .sealed d census refs → c.offset < d.codes.length → 0 ≤ n → n < s.needles →
      (n < c.start ∨ (c.start : Int) + c.width ≤ n → s.foundCode (some c) n = c.fill)
      ∧ ∀ i : Nat, n = (c.start : Int) + i → i < c.width →
        (c.mode = .tile → s.foundCode (some c) n = d.codes.getD ((c.offset + i) % d.codes.length) .miss)
        ∧ (c.mode = .span → c.offset + i < d.codes.length → s.foundCode (some c) n = d.codes.getD (c.offset + i) .miss)
        ∧ (c.mode = .span → d.codes.length ≤ c.offset + i → s.foundCode (some c) n = c.fill))
  ∧ (∀ (moves : Bool) (x : Int) (i : Nat) (s : State),
      (s.engine.pass = none → s.arrive moves x i = s)
      ∧ ∀ q, s.engine.pass = some q →
        let p : Int := x + s.offset i + q.dir.sign * s.lead
        let codes := s.arrivalCodes i q.racking p
        let further : Option Int := match q.furthestPair with
          | none => some p
          | some old => if 0 < (p - old) * q.dir.sign then some p else some old
        let w : State := { s with engine := { s.engine with
          banks := s.engine.banks.setIfInBounds i codes.1
          pass := some (if moves then { q with furthestPair := further } else q) } }
        (p < min 0 (-q.racking) ∨ max (s.needles - 1) (s.needles - 1 - q.racking) < p → s.arrive moves x i = s)
        ∧ (min 0 (-q.racking) ≤ p → p ≤ max (s.needles - 1) (s.needles - 1 - q.racking) →
            (codes.2 = none → s.arrive moves x i = w) ∧ ∀ d, codes.2 = some d → s.arrive moves x i = w.raise d))
  ∧ (∀ (moves : Bool) (x : Int) (s : State),
      s.arrivals moves x = (List.range s.systems).foldl (fun t i => t.arrive moves x i) s
      ∧ (s.engine.pass = none → s.arrivals moves x = s)
      ∧ ∀ q, s.engine.pass = some q →
        ((s.arrivals moves x).engine.pass = none → ∀ i, (s.arrivals moves x).bank i = BankPair.mk .miss .miss)
        ∧ ((s.arrivals moves x).engine.pass ≠ none → ∀ i < 4,
            let p : Int := x + s.offset i + q.dir.sign * s.lead
            (s.arrivals moves x).bank i = if i < s.systems ∧ s.pairExists q.racking p = true then (s.arrivalCodes i q.racking p).1
              else s.bank i))

/-- R16, R65, R92, R93: a completion counts the pass, ends it, logs PASS_ENDED and a due PASS_MARK, and removes the head with
its references or appends it again as QUEUED with its references raised again; an action settled OTHERWISE flushes what remains
with its references (R60). A head is off its plan exactly where some action of it is marked OTHERWISE (R59, R60). -/
def Obligations.CompletionCountsThePass : Prop :=
  (∀ (r : PassRecord) (rest : List PassRecord) (s : State), s.queue.records = r :: rest → s.room 3 →
    let t := s.completePass
    let n := s.engine.passCounter + 1
    let mark : List EventEntry :=
      if s.passMarkInterval ≠ 0 ∧ (n.toNat : Int) % s.passMarkInterval = 0 then [s.entry (.passMark n)] else []
    let queue := if r.cycle then rest ++ [{ r with state := .queued }] else rest
    t = { s with
      engine := { s.engine with passCounter := n, pass := none }
      tracker := { s.tracker with phase := .none, lastAdvance := none, stallTimer := none, stallLive := false }
      queue := t.queue
      store := t.store
      monitor := { s.monitor with events := t.monitor.events } }
    ∧ (∀ id, (t.line id).content = (s.line id).content
        ∧ (r.cycle = false → s.headOffPlan = false →
            (t.line id).refs = (s.line id).refs - (r.channels.countP fun c => decide (c.line = id)))
        ∧ (s.referenceLaw → s.headOffPlan = false → (t.line id).refs
            = (s.line id).refs - (if r.cycle then 0 else r.channels.countP fun c => decide (c.line = id)))
        ∧ (s.referenceLaw → s.headOffPlan = true → (t.line id).refs = 0))
    ∧ (s.headOffPlan = false →
        t.monitor.events = s.monitor.events ++ [s.entry (.passEnded r.tag n)] ++ mark
        ∧ t.queue.plan = s.queue.plan ∧ t.queue.proj = s.queue.proj
        ∧ (s.queue.plan = .held → t.queue.records = queue)
        ∧ (s.queue.plan = .running → queue = [] → t.queue.records = [])
        ∧ (s.queue.plan = .running → ∀ h tail, queue = h :: tail → h.state = .queued → t.queue.records = h.arm :: tail))
    ∧ (s.headOffPlan = true →
        t.monitor.events = s.monitor.events ++ [s.entry (.passEnded r.tag n)] ++ mark
          ++ [s.entry (.queueFlushed queue.length .unconfirmed)]
        ∧ t.queue = PassQueue.mk [] .held s.feeders.project))
  ∧ ∀ s : State, s.headOffPlan = true ↔ ∃ r rest, s.queue.records = r :: rest ∧ ∃ e ∈ r.entries, ∃ a ∈ e.actions, a.mark = .otherwise

/-- R96, R97, R99: an abort of the pass in progress; with none it does nothing. The abort of a head that never started logs and
flushes alone. -/
def Obligations.AbortEndsThePass : Prop :=
  ∀ (reason : AbortReason) (s : State),
    (s.engine.pass = none → s.abortPass reason = s)
    ∧ (∀ p h rest, s.engine.pass = some p → s.queue.records = h :: rest →
        let t := s.abortPass reason
        t = { s with
          engine := { s.engine with pass := none, banks := Vector.replicate 4 (BankPair.mk .miss .miss) }
          tracker := { s.tracker with phase := .none, lastAdvance := none, stallTimer := none, stallLive := false }
          queue := PassQueue.mk [] .held t.feeders.project
          feeders := t.feeders
          yarn := t.yarn
          store := t.store
          monitor := t.monitor }
        ∧ t.feeders = s.resolveAll.feeders ∧ t.latchOutstanding = false
        ∧ (∀ id, (t.line id).content = (s.line id).content ∧ (t.line id).refs = (s.line id).refs - s.namesOf id)
        ∧ (s.room 2 → t.monitor = { s.monitor with events := s.monitor.events
            ++ [s.entry (.passAborted h.tag reason p.furthestPair), s.entry (.queueFlushed (rest.length + 1) .abort)] }))
    ∧ ∀ h rest, s.queue.records = h :: rest → s.room 2 →
        s.abortHead reason = { s with
          store := (s.abortHead reason).store
          queue := PassQueue.mk [] .held s.feeders.project
          monitor := { s.monitor with events := s.monitor.events
            ++ [s.entry (.passAborted h.tag reason none), s.entry (.queueFlushed (rest.length + 1) .abort)] } }

/-! ### Feeders and latches -/

/-- R119: a resolution parks a TAKING feeder at its take position and leaves a RELEASING one FAULTED, opens both latches and
marks the pending action of each system OTHERWISE (R59); every other feeder, latch and action stays. R131, R132: a feeder that
leaves the carried states resets its head record, but for its last readings, and the outcome of a poll of its head in progress
will be discarded; any other change of a feeder leaves the yarn monitor as it is. -/
def Obligations.FeedersLeaveTheCarriedStates : Prop :=
  ((∀ s : State, s.LatchLaw →
      let t := s.resolveAll
      (∀ i < 4, ∀ f pos, (s.latch i).state = .closing f pos →
        t.latch i = Latch.mk .opened 0 ∧ t.feeder f = .parked (s.feeder f).rail pos)
      ∧ (∀ i < 4, ∀ f, (s.latch i).state = .opening f →
        t.latch i = Latch.mk .opened 0 ∧ t.feeder f = .faulted (s.feeder f).rail)
      ∧ (∀ i, (s.latch i).state.outstanding = false → t.latch i = s.latch i)
      ∧ (∀ f, (∀ rail i, s.feeder f ≠ .taking rail i) → (∀ rail i y, s.feeder f ≠ .releasing rail i y) → t.feeder f = s.feeder f)
      ∧ t.monitor = s.monitor ∧ t.LatchLaw)
  ∧ (∀ (f : Nat) (v : Feeder) (s : State), f < 16 →
      let t := s.putFeeder f v
      t.feeder f = v ∧ (∀ g, g ≠ f → t.feeder g = s.feeder g ∧ t.head g = s.head g)
      ∧ t = { s with feeders := { s.feeders with table := t.feeders.table }, yarn := t.yarn }
      ∧ ((s.feeder f).carried = true → v.carried = false →
          t.head f = HeadRecord.mk 0 0 .calm false (s.head f).lastMotion (s.head f).lastTension
          ∧ (∀ cut disc rest, s.yarn.sweep = some (Sweep.mk (some (.poll f cut disc)) rest) →
              t.yarn.sweep = some (Sweep.mk (some (.poll f cut true)) rest))
          ∧ ((∀ cut disc rest, s.yarn.sweep ≠ some (Sweep.mk (some (.poll f cut disc)) rest)) →
              t.yarn.sweep = s.yarn.sweep))
      ∧ ((s.feeder f).carried = false ∨ v.carried = true → t.yarn = s.yarn)))
  ∧ ∀ s : State, (s.queue.records = [] → s.resolveAll.queue = s.queue)
    ∧ ∀ h rest, s.queue.records = h :: rest → ∃ es,
      s.resolveAll.queue = { s.queue with records := { h with entries := es } :: rest }
      ∧ entriesRemarked (fun i => (s.latch i).state.outstanding = true) .pending .otherwise h.entries es

/-- R104, R105, R123: DECLARE_FEEDER and FORGET_FEEDER, their checks in order and their effect on the table and on the projection. -/
def Obligations.DeclareAndForgetFeeder : Prop :=
  (∀ (f r p0 p1 : Byte) (s : State), s.listening →
      let pos : Int := (p1 ++ p0).toInt
      let body := [f, r, p0, p1]
      let answer := fun a => exec (.declareFeeder body) s = .next (s.sendReply (kindByte 0x11) a)
      (15 < f.toNat ∨ 7 < r.toNat → answer (refuse .range))
      ∧ (f.toNat ≤ 15 → r.toNat ≤ 7 → s.queue.records ≠ [] → answer (refuse .busy))
      ∧ (f.toNat ≤ 15 → r.toNat ≤ 7 → s.queue.records = [] → (s.feeder f.toNat).carried = true → answer (refuse .feederState))
      ∧ (f.toNat ≤ 15 → r.toNat ≤ 7 → s.queue.records = [] → (s.feeder f.toNat).carried = false →
          (pos < s.fieldLow ∨ s.fieldHigh < pos → answer (refuse .range))
          ∧ (s.fieldLow ≤ pos → pos ≤ s.fieldHigh →
              ((∃ g < 16, g ≠ f.toNat ∧ s.feeder g = .parked r.toNat pos) → answer (refuse .railBlocked))
              ∧ ((∀ g < 16, g ≠ f.toNat → s.feeder g ≠ .parked r.toNat pos) →
                  let table := s.feeders.table.setIfInBounds f.toNat (.parked r.toNat pos)
                  let t : State := { s with
                    feeders := { s.feeders with table := table }
                    queue := { s.queue with proj := FeederUnit.project { s.feeders with table := table } } }
                  exec (.declareFeeder body) s = .next
                    (t.sendReply (kindByte 0x11) (accept ([f] ++ (Feeder.parked r.toNat pos).bytes)))))))
  ∧ ((∀ (f : Byte) (s : State), s.listening →
      let answer := fun a => exec (.forgetFeeder [f]) s = .next (s.sendReply (kindByte 0x12) a)
      (15 < f.toNat → answer (refuse .range))
      ∧ (f.toNat ≤ 15 → s.queue.records ≠ [] → answer (refuse .busy))
      ∧ (f.toNat ≤ 15 → s.queue.records = [] → (s.feeder f.toNat).carried = true → answer (refuse .feederState))
      ∧ (f.toNat ≤ 15 → s.queue.records = [] → (s.feeder f.toNat).carried = false →
          let table := s.feeders.table.setIfInBounds f.toNat .undeclared
          let t : State := { s with
            feeders := { s.feeders with table := table }
            queue := { s.queue with proj := FeederUnit.project { s.feeders with table := table } } }
          exec (.forgetFeeder [f]) s = .next (t.sendReply (kindByte 0x12) (accept ([f] ++ Feeder.undeclared.bytes)))
          ∧ t.feeder f.toNat = .undeclared ∧ (∀ g, g ≠ f.toNat → t.feeder g = s.feeder g)
          ∧ t.queue.proj.feeder f.toNat = .undeclared))
    ∧ ∀ s : State, s.link.rx.busy = false →
        exec (.broadcastRefused 0x12) s = .next ((s.raise (.frameFault .broadcast (some 0x12))).setRx .hunt))

/-- R110, R114, R117, R118, R102: an edge of a couple sense in each latch state. R91: where a settlement leaves no latch CLOSING
or OPENING, a FINISHING pass completes in the same event; any other state stands. An input that stands at the level already has
no edge, and the model lets the command change nothing (log 27), and the input of a system not fitted is not read but for its
level. -/
def Obligations.CoupleSenseEdges : Prop :=
  ((∀ (i : Fin 4) (level : Bool) (s : State), s.sense i ≠ level →
      let u : State := { s with feeders := { s.feeders with senses := s.feeders.senses.setIfInBounds i level } }
      let log := fun (w : State) (e : Event) => ({ w with monitor := { w.monitor with events := w.monitor.events ++ [s.entry e] } } : State)
      (s.systems ≤ i → exec (.coupleSenseEdge i level) s = .next u)
      ∧ ((s.latch i).state = .opened → exec (.coupleSenseEdge i level) s = .next u)
      ∧ (∀ f pos, (s.latch i).state = .closing f pos → level = false → exec (.coupleSenseEdge i level) s = .next u)
      ∧ (∀ f, (s.latch i).state = .closed f ∨ (s.latch i).state = .opening f → level = true →
          exec (.coupleSenseEdge i level) s = .next u)
      ∧ (∀ f pos, i < s.systems → (s.latch i).state = .closing f pos → level = true → s.room 1 →
          exec (.coupleSenseEdge i level) s = .next
            ((log ((u.putLatch i (Latch.mk (.closed f) 0)).putFeeder f (.coupled (s.feeder f).rail i))
              (.feederTaken f i pos)).settle i .asPlanned).completeIfSettled)
      ∧ (∀ f rail x, i < s.systems → (s.latch i).state = .opening f → s.feeder f = .releasing rail i x → level = false → s.room 1 →
          exec (.coupleSenseEdge i level) s = .next
            ((log ((u.putFeeder f (.parked rail x)).putLatch i (Latch.mk .opened 0))
              (.feederReleased f i x)).settle i .asPlanned).completeIfSettled)
      ∧ (∀ f, i < s.systems → (s.latch i).state = .closed f → level = false →
          let w := ((u.noteRaise (.feederMissed f i .dropped)).putFeeder f (.faulted (s.feeder f).rail)).putLatch i (Latch.mk .opened 0)
          (s.engine.pass ≠ none → exec (.coupleSenseEdge i level) s = .next (w.abortPass .feederMissed))
          ∧ (s.engine.pass = none → s.queue.records = [] →
              exec (.coupleSenseEdge i level) s = .next { w with queue := { s.queue with proj := w.feeders.project } })
          ∧ (∀ rail, s.engine.pass = none → s.queue.records ≠ [] → s.queue.proj.feeder f = .coupled rail i →
              let proj := Projection.mk (s.queue.proj.feeders.setIfInBounds f (.faulted rail))
                (s.queue.proj.holders.setIfInBounds i none)
              exec (.coupleSenseEdge i level) s = .next { w with queue := { s.queue with proj := proj } })
          ∧ (s.engine.pass = none → s.queue.records ≠ [] → (∀ rail, s.queue.proj.feeder f ≠ .coupled rail i) →
              exec (.coupleSenseEdge i level) s = .next w)))
  ∧ (∀ (i : Fin 4) (level : Bool) (s : State), s.sense i = level → exec (.coupleSenseEdge i level) s = .next s))
  ∧ ∀ s : State,
    (∀ h rest, s.engine.pass ≠ none → s.queue.records = h :: rest → h.state = .finishing →
      (∀ i < 4, (s.latch i).state.outstanding = false) → s.completeIfSettled = s.completePass)
    ∧ (s.engine.pass = none ∨ (∀ h rest, s.queue.records = h :: rest → h.state ≠ .finishing)
        ∨ (∃ i < 4, (s.latch i).state.outstanding = true) → s.completeIfSettled = s)

/-- R112, R115, R120: a countdown that runs out. The command always completes (its own row, log 17). On a CLOSING latch: FEEDER_MISSED
with its detail, the feeder back at its take position, the latch open, the action settled OTHERWISE, and then the abort; on an OPENING
latch FEEDER_STUCK and the feeder FAULTED. In a pass under the law of R102 the abort then resolves every other outstanding latch and
leaves every other feeder as it is. A latch in another state has no such countdown (log 27). -/
def Obligations.CountdownExpiryFaults : Prop :=
  (∀ (i : Fin 4) (s : State),
    (∀ f pos, (s.latch i).state = .closing f pos → exec (.takeCountdownExpiry i) s = .next
      (((((s.noteRaise (.feederMissed f i .take)).putFeeder f (.parked (s.feeder f).rail pos)).putLatch i
        (Latch.mk .opened 0)).settle i .otherwise).abortPass .feederMissed))
    ∧ (∀ f, (s.latch i).state = .opening f → exec (.releaseCountdownExpiry i) s = .next
      (((((s.noteRaise (.feederStuck f i (s.feeder f).releasePoint)).putFeeder f (.faulted (s.feeder f).rail)).putLatch i
        (Latch.mk .opened 0)).settle i .otherwise).abortPass .feederStuck))
    ∧ ((∀ f pos, (s.latch i).state ≠ .closing f pos) → exec (.takeCountdownExpiry i) s = .next s)
    ∧ ((∀ f, (s.latch i).state ≠ .opening f) → exec (.releaseCountdownExpiry i) s = .next s))
  ∧ (∀ (i : Fin 4) (c : Instr) (d : Detail) (reason : AbortReason) (f : Nat) (v : Feeder) (p : Pass) (h : PassRecord)
      (rest : List PassRecord) (s : State), s.LatchLaw → s.engine.pass = some p → s.queue.records = h :: rest →
      (∃ pos, (s.latch i).state = .closing f pos ∧ c = .takeCountdownExpiry i ∧ d = .feederMissed f i .take
          ∧ reason = .feederMissed ∧ v = .parked (s.feeder f).rail pos)
        ∨ (∃ rail x, (s.latch i).state = .opening f ∧ s.feeder f = .releasing rail i x ∧ c = .releaseCountdownExpiry i
          ∧ d = .feederStuck f i x ∧ reason = .feederStuck ∧ v = .faulted rail) →
      ∃ t, exec c s = .next t
        ∧ t.feeder f = v ∧ t.latch i = Latch.mk .opened 0 ∧ t.engine.pass = none ∧ t.queue.records = [] ∧ t.queue.plan = .held
        ∧ (∀ j, t.bank j = BankPair.mk .miss .miss) ∧ t.queue.proj = t.feeders.project
        ∧ (∀ j < 4, j ≠ i.val → (∀ g pos, (s.latch j).state = .closing g pos →
              t.latch j = Latch.mk .opened 0 ∧ t.feeder g = .parked (s.feeder g).rail pos)
            ∧ (∀ g, (s.latch j).state = .opening g → t.latch j = Latch.mk .opened 0 ∧ t.feeder g = .faulted (s.feeder g).rail)
            ∧ ((s.latch j).state.outstanding = false → t.latch j = s.latch j))
        ∧ (∀ g, (∀ rail j, s.feeder g ≠ .taking rail j) → (∀ rail j x, s.feeder g ≠ .releasing rail j x) → t.feeder g = s.feeder g)
        ∧ t.monitor.record d.cond = CondRecord.mk ((s.monitor.record d.cond).latched.or (some d)) true
        ∧ (s.room 3 → t.monitor.events = s.monitor.events
            ++ (if (s.monitor.record d.cond).latched = none then [s.entry (.condition d)] else [])
            ++ [s.entry (.passAborted h.tag reason p.furthestPair), s.entry (.queueFlushed (rest.length + 1) .abort)]))

/-- R107 to R109, R113: the next action of a system is carried out where the latch point stands on its path position: a take
with the sense low and a release of the held feeder drive the latch; a take with the sense high ends the pass; a release of a
feeder the latch does not hold is passed over. A take that finds its latch not OPEN, which no run reaches, waits (log 26). R107,
R112, R115, R116: within a step the countdown of every outstanding latch falls by one, in rising system number, and one that
reaches 0 is judged at once; the abort is taken after all of them, with the first reason, and ends the step for the feeder unit;
else the actions of the systems are reached. R59, R82: the next action of a system is the first NOT_REACHED one of its entry in
the head record; an action that is driven becomes PENDING, one that is settled takes its mark, and no other mark changes. R136:
the travel marks of the heads whose feeders are then carried. -/
def Obligations.FeederActionsAreReached : Prop :=
  ((∀ (x : Int) (i n : Nat) (s : State),
    (∀ f rail pos, s.nextAction i = some (.take f) → s.feeder f = .parked rail pos → s.latchPoint i x ≠ pos →
      State.reach x i (n + 1) s = s)
    ∧ (∀ f rail pos, s.nextAction i = some (.take f) → s.feeder f = .parked rail pos → s.latchPoint i x = pos →
        (s.latch i).state ≠ .opened → State.reach x i (n + 1) s = s)
    ∧ (∀ f rail pos, s.nextAction i = some (.take f) → s.feeder f = .parked rail pos → s.latchPoint i x = pos →
        (s.latch i).state = .opened → s.sense i = false →
        State.reach x i (n + 1) s
          = ((s.putLatch i (Latch.mk (.closing f pos) s.confirmNeedles)).putFeeder f (.taking rail i)).remark i .notReached .pending)
    ∧ (∀ f rail pos, s.nextAction i = some (.take f) → s.feeder f = .parked rail pos → s.latchPoint i x = pos →
        (s.latch i).state = .opened → s.sense i = true →
        State.reach x i (n + 1) s
          = ((s.noteRaise (.feederMissed f i .senseHigh)).remark i .notReached .otherwise).abortPass .feederMissed)
    ∧ (∀ f y, s.nextAction i = some (.release f y) → s.latchPoint i x ≠ y → State.reach x i (n + 1) s = s)
    ∧ (∀ f y, s.nextAction i = some (.release f y) → s.latchPoint i x = y → (s.latch i).state = .closed f →
        State.reach x i (n + 1) s
          = ((s.putLatch i (Latch.mk (.opening f) s.confirmNeedles)).putFeeder f (.releasing (s.feeder f).rail i y)).remark i
              .notReached .pending)
    ∧ (∀ f y, s.nextAction i = some (.release f y) → s.latchPoint i x = y → (s.latch i).state ≠ .closed f →
        State.reach x i (n + 1) s = State.reach x i n (s.remark i .notReached .otherwise))
    ∧ (s.nextAction i = none → State.reach x i (n + 1) s = s))
  ∧ (∀ (i : Nat) (reason : Option AbortReason) (s : State),
      ((s.latch i).state.outstanding = false → State.countdownStep (s, reason) i = (s, reason))
      ∧ ((s.latch i).state.outstanding = true → 1 < (s.latch i).countdown →
          State.countdownStep (s, reason) i = (s.putLatch i { s.latch i with countdown := (s.latch i).countdown - 1 }, reason))
      ∧ (∀ f pos, (s.latch i).state = .closing f pos → (s.latch i).countdown ≤ 1 → State.countdownStep (s, reason) i
          = ((((s.noteRaise (.feederMissed f i .take)).putFeeder f (.parked (s.feeder f).rail pos)).putLatch i
              (Latch.mk .opened 0)).settle i .otherwise, some (reason.getD .feederMissed)))
      ∧ (∀ f, (s.latch i).state = .opening f → (s.latch i).countdown ≤ 1 → State.countdownStep (s, reason) i
          = ((((s.noteRaise (.feederStuck f i (s.feeder f).releasePoint)).putFeeder f (.faulted (s.feeder f).rail)).putLatch i
              (Latch.mk .opened 0)).settle i .otherwise, some (reason.getD .feederStuck))))
  ∧ (∀ (x : Int) (s : State),
      let judged := (List.range s.systems).foldl State.countdownStep (s, none)
      (judged.2 = none → s.countdowns = judged.1) ∧ (∀ reason, judged.2 = some reason → s.countdowns = judged.1.abortPass reason)
      ∧ (s.countdowns.engine.pass = none → s.feederStep x = s.countdowns)
      ∧ (s.countdowns.engine.pass ≠ none → s.feederStep x = (List.range s.systems).foldl
          (fun t i => if t.engine.pass.isSome then State.reach x i 2 t else t) s.countdowns)
      ∧ (s.systems ≤ 4 → (∀ i < s.systems, (s.latch i).state.outstanding = true → 1 < (s.latch i).countdown) →
          s.countdowns = { s with feeders := { s.feeders with latches := s.countdowns.feeders.latches } }
          ∧ (∀ i < s.systems, (s.latch i).state.outstanding = true →
              s.countdowns.latch i = { s.latch i with countdown := (s.latch i).countdown - 1 })
          ∧ ∀ i, s.systems ≤ i ∨ (s.latch i).state.outstanding = false → s.countdowns.latch i = s.latch i))
  ∧ (∀ s : State, s.markTravel = { s with yarn := { s.yarn with heads := s.markTravel.yarn.heads } }
      ∧ ∀ f < 16, s.markTravel.head f = if (s.feeder f).carried then { s.head f with travel := true } else s.head f))
  ∧ (∀ (i : Nat) (x : Int) (s : State), s.latchPoint i x = x + s.offset i)
  ∧ (∀ (i : Nat) (old new : Mark) (s : State), s.settle i new = s.remark i .pending new
      ∧ (s.queue.records = [] → s.remark i old new = s)
      ∧ ∀ h rest, s.queue.records = h :: rest → ∃ es,
        s.remark i old new = { s with queue := { s.queue with records := { h with entries := es } :: rest } }
        ∧ entriesRemarked (fun j => j = i) old new h.entries es)
  ∧ ∀ (i : Nat) (s : State), (s.queue.records = [] → s.nextAction i = none)
    ∧ ∀ h rest, s.queue.records = h :: rest →
      ((∀ e ∈ h.entries, e.system ≠ i) → s.nextAction i = none)
      ∧ ∀ d e l, h.entries = d ++ e :: l → e.system = i → (∀ c ∈ d, c.system ≠ i) →
        ((∀ a ∈ e.actions, a.mark ≠ .notReached) → s.nextAction i = none)
        ∧ ∀ before a after, e.actions = before ++ a :: after → (∀ b ∈ before, b.mark ≠ .notReached) → a.mark = .notReached →
          s.nextAction i = some a.act

/-- R102: every command keeps the law of the latches (a COUNT_TRANSITION in a pass too, where no more than four systems are fitted,
R184), and so do the drives of a take on an OPEN latch with the sense low and of a release of the held feeder. R91, R106, R122: with
that law every step keeps it that a latch is CLOSING or OPENING in a pass alone. R103: with no pass every command keeps the law that
no two PARKED feeders of one rail share a position, and an admission keeps both halves of the law of the rails in the table as the
queue plans it (that two systems can carry two feeders of one rail at once within a pass is log 30). R58, R123: the projection equals
the feeder table whenever the queue is empty, through every command but one that completes a pass, whose record admission judged. -/
def Obligations.LatchLawIsKept : Prop :=
  (∀ (c : Instr) (s t : State), s.LatchLaw → (s.engine.pass = none ∨ s.systems ≤ 4 ∨ ∀ l, c ≠ .countTransition l) →
    exec c s = .next t → t.LatchLaw)
  ∧ (∀ (i f rail : Nat) (pos : Int) (s : State), s.LatchLaw → i < 4 → f < 16 → (s.latch i).state = .opened →
      s.feeder f = .parked rail pos → (s.driveTake i f rail pos).LatchLaw)
  ∧ (∀ (i f : Nat) (x : Int) (s : State), s.LatchLaw → i < 4 → (s.latch i).state = .closed f → (s.driveRelease i f x).LatchLaw)
  ∧ (∀ s t : State, s.FeederLaw → step s = .next t → t.FeederLaw)
  ∧ (∀ (c : Instr) (s t : State), s.FeederLaw → s.engine.pass = none → s.parkedLaw → exec c s = .next t → t.parkedLaw)
  ∧ (∀ (r : PassRecord) (s : State), s.systems ≤ 4 → (∀ i, s.systems ≤ i → s.queue.proj.holder i = none) →
      s.queue.proj.holderLaw → s.queue.proj.RailLaw → (∀ e ∈ r.entries, ∀ a ∈ e.actions, a.mark = .notReached) →
      s.admission r = none → (s.queue.proj.advanceRecord r).RailLaw ∧ (s.queue.proj.advanceRecord r).holderLaw)
  ∧ (∀ (c : Instr) (s t : State), s.FeederLaw → s.PlanLaw → (s.queue.records = [] → s.queue.proj = s.feeders.project) →
      exec c s = .next t → t.queue.records = [] → t.engine.passCounter = s.engine.passCounter →
      t.queue.proj = t.feeders.project)

/-! ### The yarn monitor -/

/-- R126, R129, R130, R131: the sweep timer restarts at its expiry and starts a sweep where none is in progress: the pending
write first, then the carried feeders; what is left of the bus gap goes on running before the first transaction, with no other
gap (log 23). POLL_START begins the first poll whose feeder is still carried and takes its travel mark, or ends the sweep; with
no sweep in progress there is no poll to begin, and the model lets the command change nothing (log 27). -/
def Obligations.SweepRunsOverCarriedFeeders : Prop :=
  ∀ s : State,
    let started := fun w : Option Sweep => s.setYarn { s.yarn with sweepTimer := s.sweepInterval, sweep := w }
    (∀ f, f ∈ s.carriedFeeders ↔ f < 16 ∧ (s.feeder f).carried = true)
    ∧ (s.yarn.sweep ≠ none → exec .sweepTimerExpiry s = .next (started s.yarn.sweep))
    ∧ (s.yarn.sweep = none → s.yarn.pendingWrite ≠ none →
        exec .sweepTimerExpiry s = .next (started (some (Sweep.mk (some .write) s.carriedFeeders))))
    ∧ (s.yarn.sweep = none → s.yarn.pendingWrite = none → s.carriedFeeders ≠ [] →
        exec .sweepTimerExpiry s = .next (started (some (Sweep.mk none s.carriedFeeders))))
    ∧ (s.yarn.sweep = none → s.yarn.pendingWrite = none → s.carriedFeeders = [] →
        exec .sweepTimerExpiry s = .next (started none))
    ∧ (∀ skipped f later, s.yarn.sweep = some (Sweep.mk none (skipped ++ f :: later)) →
        (∀ g ∈ skipped, (s.feeder g).carried = false) → (s.feeder f).carried = true →
        exec .pollStart s = .next { s with yarn := { s.yarn with
          heads := s.yarn.heads.setIfInBounds f { s.head f with travel := false }
          gap := 0
          sweep := some (Sweep.mk (some (.poll f (s.head f).travel false)) later) } })
    ∧ (∀ rest, s.yarn.sweep = some (Sweep.mk none rest) → (∀ g ∈ rest, (s.feeder g).carried = false) →
        exec .pollStart s = .next { s with yarn := { s.yarn with sweep := none } })
    ∧ (s.yarn.sweep = none → exec .pollStart s = .next s)

/-- R126, R131, R135, R136: the end of a poll begins the bus gap of 20 µs: a discarded outcome changes no head record; a silent
poll adds to the silent run up to SILENT_LIMIT, puts its travel cut back, and raises HEAD_SILENT when the run reaches the limit.
R134, R137: a GOOD poll clears the silent run, keeps the reading, moves the still run where it travelled, and raises YARN_STOP
when the run reaches STOP_SWEEPS; the tension is judged after it. With a pass in progress a routed YARN_STOP aborts it with
reason ROUTED: a feeder that is COUPLED stays carried and its tension is judged, and one whose latch the abort resolves leaves
the carried states with its head record reset, and no tension is judged (log 11). -/
def Obligations.PollsDriveSilentAndStillRuns : Prop :=
  ((∀ (f : Nat) (cut disc : Bool) (rest : List Nat) (s : State),
      s.yarn.sweep = some (Sweep.mk (some (.poll f cut disc)) rest) → f < 16 →
      let next := fun h : HeadRecord => ({ s with yarn := { s.yarn with
        heads := s.yarn.heads.setIfInBounds f h
        gap := 200
        sweep := if rest = [] then none else some (Sweep.mk none rest) } } : State)
      let h := s.head f
      (∀ o, disc = true → exec (.pollEnd o) s = .next (next h))
      ∧ (∀ how, disc = false → h.silentRun + 1 < s.silentLimit →
          exec (.pollEnd (.silent how)) s = .next (next { h with silentRun := h.silentRun + 1, travel := h.travel || cut }))
      ∧ (∀ how, disc = false → h.silentRun + 1 = s.silentLimit →
          exec (.pollEnd (.silent how)) s = .next
            ((next { h with silentRun := s.silentLimit, travel := h.travel || cut }).raise (.headSilent (f + 1) how)))
      ∧ (∀ how, disc = false → h.silentRun = s.silentLimit →
          exec (.pollEnd (.silent how)) s = .next (next { h with travel := h.travel || cut })))
  ∧ (∀ (f : Nat) (cut : Bool) (motion : BitVec 8) (tension : BitVec 10) (rest : List Nat) (s : State),
      s.yarn.sweep = some (Sweep.mk (some (.poll f cut false)) rest) → f < 16 → (s.feeder f).carried = true →
      let h := s.head f
      let next := fun k : Nat => ({ s with yarn := { s.yarn with
        heads := s.yarn.heads.setIfInBounds f
          { h with silentRun := 0, stillRun := k, lastMotion := some motion, lastTension := some tension }
        gap := 200
        sweep := if rest = [] then none else some (Sweep.mk none rest) } } : State)
      (motion ≠ 0 → s.stopSweeps ≠ 0 →
          exec (.pollEnd (.good motion tension)) s = .next ((next 0).applyTension f tension.toNat))
      ∧ (motion = 0 → cut = false → h.stillRun ≤ s.stopSweeps →
          exec (.pollEnd (.good motion tension)) s = .next ((next h.stillRun).applyTension f tension.toNat))
      ∧ (motion = 0 → cut = true → h.stillRun + 1 < s.stopSweeps →
          exec (.pollEnd (.good motion tension)) s = .next ((next (h.stillRun + 1)).applyTension f tension.toNat))
      ∧ (motion = 0 → cut = true → h.stillRun + 1 = s.stopSweeps → s.engine.pass = none →
          exec (.pollEnd (.good motion tension)) s
            = .next (((next s.stopSweeps).raise (.yarnStop (f + 1))).applyTension f tension.toNat))
      ∧ (motion = 0 → cut = true → h.stillRun = s.stopSweeps →
          exec (.pollEnd (.good motion tension)) s = .next ((next s.stopSweeps).applyTension f tension.toNat))))
  ∧ ∀ (f : Nat) (cut : Bool) (motion : BitVec 8) (tension : BitVec 10) (rest : List Nat) (s : State),
    s.yarn.sweep = some (Sweep.mk (some (.poll f cut false)) rest) → f < 16 → (s.feeder f).carried = true →
    motion = 0 → cut = true → (s.head f).stillRun + 1 = s.stopSweeps →
    let next : State := { s with yarn := { s.yarn with
      heads := s.yarn.heads.setIfInBounds f
        { s.head f with silentRun := 0, stillRun := s.stopSweeps, lastMotion := some motion, lastTension := some tension }
      gap := 200
      sweep := if rest = [] then none else some (Sweep.mk none rest) } }
    let u := next.raise (.yarnStop (f + 1))
    ((u.feeder f).carried = true → exec (.pollEnd (.good motion tension)) s = .next (u.applyTension f tension.toNat))
    ∧ ((u.feeder f).carried = false → exec (.pollEnd (.good motion tension)) s = .next u ∧ u.engine.pass = none
        ∧ u.head f = HeadRecord.mk 0 0 .calm false (some motion) (some tension))
    ∧ (s.engine.pass = none ∨ (s.inStopRoute .yarnStop = false ∧ s.room 1) → u.feeder f = s.feeder f)
    ∧ (s.LatchLaw → s.engine.pass ≠ none → s.inStopRoute .yarnStop = true →
        u = (next.noteRaise (.yarnStop (f + 1))).abortPass (.routed .yarnStop)
        ∧ (∀ rail i, s.feeder f = .coupled rail i → u.feeder f = s.feeder f)
        ∧ (∀ rail i, s.feeder f = .taking rail i → ∃ pos, u.feeder f = .parked rail pos)
        ∧ (∀ rail i x, s.feeder f = .releasing rail i x → u.feeder f = .faulted rail))

/-- R138 to R140: the spike state after a GOOD poll, and what it raises. -/
def Obligations.TensionDrivesTheSpike : Prop :=
  ∀ (f tension : Nat) (s : State), f < 16 →
    let put := fun p : Spike => ({ s with yarn := { s.yarn with heads := s.yarn.heads.setIfInBounds f { s.head f with spike := p } } } : State)
    let high := s.knotLevel < tension
    let calm := tension ≤ s.knotLevel
    (high → (s.head f).spike = .calm → s.applyTension f tension = put (.rising 1))
    ∧ (∀ k, high → (s.head f).spike = .rising k → k + 1 ≤ s.shockSweeps → s.applyTension f tension = put (.rising (k + 1)))
    ∧ (∀ k, high → (s.head f).spike = .rising k → s.shockSweeps < k + 1 →
        s.applyTension f tension = (put .snagged).raise (.yarnSnag (f + 1) tension))
    ∧ (∀ j, high → (s.head f).spike = .settling j → s.applyTension f tension = put (.rising 1))
    ∧ (high → (s.head f).spike = .snagged → s.applyTension f tension = put .snagged)
    ∧ (calm → (s.head f).spike = .calm → s.applyTension f tension = put .calm)
    ∧ (∀ k, calm → (s.head f).spike = .rising k → 1 < s.quietSweeps → s.applyTension f tension = put (.settling 1))
    ∧ (∀ k, calm → (s.head f).spike = .rising k → s.quietSweeps ≤ 1 →
        s.applyTension f tension = (put .calm).raise (.yarnKnot (f + 1)))
    ∧ (∀ j, calm → (s.head f).spike = .settling j → j + 1 < s.quietSweeps → s.applyTension f tension = put (.settling (j + 1)))
    ∧ (∀ j, calm → (s.head f).spike = .settling j → s.quietSweeps ≤ j + 1 →
        s.applyTension f tension = (put .calm).raise (.yarnKnot (f + 1)))
    ∧ (calm → (s.head f).spike = .snagged → s.applyTension f tension = put .calm)

/-- R141, R142: HEAD_WRITE holds one write, and its end logs HEAD_WRITE_DONE, frees the place and begins the bus gap (R126). -/
def Obligations.HeadWriteIsHeldUntilItsEnd : Prop :=
  (∀ (h i v0 v1 : Byte) (s : State), s.listening →
    let v : Nat := v0.toNat + 256 * v1.toNat
    let outside := h.toNat < 1 ∨ 16 < h.toNat ∨ 15 < i.toNat ∨ 1023 < v
    (outside → exec (.headWrite [h, i, v0, v1]) s = .next (s.sendReply (kindByte 0x14) (refuse .range)))
    ∧ (¬ outside → s.yarn.pendingWrite ≠ none →
        exec (.headWrite [h, i, v0, v1]) s = .next (s.sendReply (kindByte 0x14) (refuse .headBusy)))
    ∧ (¬ outside → s.yarn.pendingWrite = none →
        exec (.headWrite [h, i, v0, v1]) s = .next (State.sendReply
          { s with yarn := { s.yarn with pendingWrite := some (HeadWrite.mk h.toNat i.toNat v) } } (kindByte 0x14) (accept []))))
  ∧ ∀ (o : WriteOutcome) (w : HeadWrite) (rest : List Nat) (s : State),
    s.yarn.sweep = some (Sweep.mk (some .write) rest) → s.yarn.pendingWrite = some w → s.room 1 →
    exec (.headWriteEnd o) s = .next { s with
      yarn := { s.yarn with
        pendingWrite := none
        gap := 200
        sweep := if rest = [] then none else some (Sweep.mk none rest) }
      monitor := { s.monitor with events := s.monitor.events ++ [s.entry (.headWriteDone w.head o)] } }

/-! ### Frames and laws -/

/-- What the events of the carriage, the marks and the timers leave alone, in a pass or out of it: settings, link, clocks, forced
flags, couple senses, sweep timer, pending head write and the data of every line. -/
def Obligations.CarriageEventsLeaveTheRest : Prop :=
  ∀ (c : Instr) (s t : State), exec c s = .next t →
    ((∃ l, c = .countTransition l) ∨ c = .illegalTransition ∨ c = .homeMarkEdge ∨ c = .needleMarkEdge ∨ c = .seekTimerExpiry
      ∨ c = .stallTimerExpiry ∨ (∃ i, c = .takeCountdownExpiry i) ∨ (∃ i, c = .releaseCountdownExpiry i)
      ∨ (∃ o, c = .pollEnd o)) →
    t.pending = s.pending ∧ t.settings = s.settings ∧ t.link = s.link ∧ t.freeCount = s.freeCount
    ∧ t.tracker.clock = s.tracker.clock ∧ t.monitor.timestamp = s.monitor.timestamp ∧ t.monitor.subStamp = s.monitor.subStamp
    ∧ t.monitor.forcedAlert = s.monitor.forcedAlert ∧ t.monitor.forcedCaution = s.monitor.forcedCaution
    ∧ t.feeders.senses = s.feeders.senses ∧ t.yarn.sweepTimer = s.yarn.sweepTimer
    ∧ t.yarn.pendingWrite = s.yarn.pendingWrite ∧ ∀ id, (t.line id).content = (s.line id).content

/-- R26, R163: every step keeps the event queue at no more than 128 entries and the lines within the 24,576 code cells. -/
def Obligations.StepKeepsTheCapacities : Prop :=
  ∀ s t : State, step s = .next t → (s.eventLaw → t.eventLaw) ∧ (s.storeLaw → t.storeLaw)

/-- R16, R44, R45, R61, R63, R71, R79, R89: every step keeps the laws of the queue, of the pass and of the lock. -/
def Obligations.StepKeepsThePlanLaw : Prop :=
  ∀ s t : State, s.PlanLaw → step s = .next t → t.PlanLaw

/-- R37, R38: every step keeps each line's reference count equal to the number of queued channels that name it. -/
def Obligations.StepKeepsTheReferenceLaw : Prop :=
  ∀ s t : State, s.referenceLaw → step s = .next t → t.referenceLaw

/-- The laws hold right after reset. -/
def Obligations.LawsHoldAtReset : Prop :=
  State.reset.eventLaw ∧ State.reset.storeLaw ∧ State.reset.PlanLaw ∧ State.reset.referenceLaw ∧ State.reset.LatchLaw
  ∧ State.reset.FeederLaw ∧ State.reset.parkedLaw ∧ State.reset.queue.proj.holderLaw ∧ State.reset.queue.proj.RailLaw
  ∧ State.reset.queue.proj = State.reset.feeders.project

/-! ### Encodings -/

/-- Section 8.8.1: the WRITE_LINE body of a request, written by the layout and read back, is the request. -/
def Obligations.WriteLineBodyReadsBack : Prop :=
  ∀ w : WriteRequest, w.id < 256 → (∀ n, w.start = some n → n < 65535) → w.count < 65536 → w.codes.length = w.count →
    parseWriteLine (encodeWriteLine w) = some w

/-- Section 8.8.2: the QUEUE_PASS body of a record, written by the layout and read back, is the record as it stands before its
admission, with every field at every value the layout admits. -/
def Obligations.QueuePassBodyReadsBack : Prop :=
  ∀ r : PassRecord, r.state = .queued → r.entries.length ≤ 4 → -128 ≤ r.racking → r.racking ≤ 127 →
    (∀ c ∈ r.channels, c.line < 256 ∧ c.start < 65536 ∧ c.width < 65536 ∧ c.offset < 65536) →
    (∀ e ∈ r.entries, e.system < 256 ∧ e.actions.length ≤ 2 ∧ ∀ a ∈ e.actions, a.mark = .notReached ∧ match a.act with
      | .take f => f < 128
      | .release f x => f < 128 ∧ -32768 ≤ x ∧ x ≤ 32767) →
    parseQueuePass (encodeQueuePass r) = some r

end Sys2ProofObligations
end

