-- ==== Sys2Proof/Laws/State.lean ====
section
/-! SUPPORT. What each update of one block does to each block: itself it replaces, every other it leaves. One lemma for each
update and field, so that no proof unfolds a record update. -/

namespace Sys2Proof.Machine

@[simp] theorem State.setPending_pending (s : State) (v) : (s.setPending v).pending = v := rfl
@[simp] theorem State.setPending_tracker (s : State) (v) : (s.setPending v).tracker = s.tracker := rfl
@[simp] theorem State.setPending_store (s : State) (v) : (s.setPending v).store = s.store := rfl
@[simp] theorem State.setPending_queue (s : State) (v) : (s.setPending v).queue = s.queue := rfl
@[simp] theorem State.setPending_engine (s : State) (v) : (s.setPending v).engine = s.engine := rfl
@[simp] theorem State.setPending_feeders (s : State) (v) : (s.setPending v).feeders = s.feeders := rfl
@[simp] theorem State.setPending_yarn (s : State) (v) : (s.setPending v).yarn = s.yarn := rfl
@[simp] theorem State.setPending_monitor (s : State) (v) : (s.setPending v).monitor = s.monitor := rfl
@[simp] theorem State.setPending_link (s : State) (v) : (s.setPending v).link = s.link := rfl
@[simp] theorem State.setPending_settings (s : State) (v) : (s.setPending v).settings = s.settings := rfl
@[simp] theorem State.setPending_freeCount (s : State) (v) : (s.setPending v).freeCount = s.freeCount := rfl

@[simp] theorem State.setTracker_pending (s : State) (v) : (s.setTracker v).pending = s.pending := rfl
@[simp] theorem State.setTracker_tracker (s : State) (v) : (s.setTracker v).tracker = v := rfl
@[simp] theorem State.setTracker_store (s : State) (v) : (s.setTracker v).store = s.store := rfl
@[simp] theorem State.setTracker_queue (s : State) (v) : (s.setTracker v).queue = s.queue := rfl
@[simp] theorem State.setTracker_engine (s : State) (v) : (s.setTracker v).engine = s.engine := rfl
@[simp] theorem State.setTracker_feeders (s : State) (v) : (s.setTracker v).feeders = s.feeders := rfl
@[simp] theorem State.setTracker_yarn (s : State) (v) : (s.setTracker v).yarn = s.yarn := rfl
@[simp] theorem State.setTracker_monitor (s : State) (v) : (s.setTracker v).monitor = s.monitor := rfl
@[simp] theorem State.setTracker_link (s : State) (v) : (s.setTracker v).link = s.link := rfl
@[simp] theorem State.setTracker_settings (s : State) (v) : (s.setTracker v).settings = s.settings := rfl
@[simp] theorem State.setTracker_freeCount (s : State) (v) : (s.setTracker v).freeCount = s.freeCount := rfl

@[simp] theorem State.setStore_pending (s : State) (v) : (s.setStore v).pending = s.pending := rfl
@[simp] theorem State.setStore_tracker (s : State) (v) : (s.setStore v).tracker = s.tracker := rfl
@[simp] theorem State.setStore_store (s : State) (v) : (s.setStore v).store = v := rfl
@[simp] theorem State.setStore_queue (s : State) (v) : (s.setStore v).queue = s.queue := rfl
@[simp] theorem State.setStore_engine (s : State) (v) : (s.setStore v).engine = s.engine := rfl
@[simp] theorem State.setStore_feeders (s : State) (v) : (s.setStore v).feeders = s.feeders := rfl
@[simp] theorem State.setStore_yarn (s : State) (v) : (s.setStore v).yarn = s.yarn := rfl
@[simp] theorem State.setStore_monitor (s : State) (v) : (s.setStore v).monitor = s.monitor := rfl
@[simp] theorem State.setStore_link (s : State) (v) : (s.setStore v).link = s.link := rfl
@[simp] theorem State.setStore_settings (s : State) (v) : (s.setStore v).settings = s.settings := rfl
@[simp] theorem State.setStore_freeCount (s : State) (v) : (s.setStore v).freeCount = s.freeCount := rfl

@[simp] theorem State.setQueue_pending (s : State) (v) : (s.setQueue v).pending = s.pending := rfl
@[simp] theorem State.setQueue_tracker (s : State) (v) : (s.setQueue v).tracker = s.tracker := rfl
@[simp] theorem State.setQueue_store (s : State) (v) : (s.setQueue v).store = s.store := rfl
@[simp] theorem State.setQueue_queue (s : State) (v) : (s.setQueue v).queue = v := rfl
@[simp] theorem State.setQueue_engine (s : State) (v) : (s.setQueue v).engine = s.engine := rfl
@[simp] theorem State.setQueue_feeders (s : State) (v) : (s.setQueue v).feeders = s.feeders := rfl
@[simp] theorem State.setQueue_yarn (s : State) (v) : (s.setQueue v).yarn = s.yarn := rfl
@[simp] theorem State.setQueue_monitor (s : State) (v) : (s.setQueue v).monitor = s.monitor := rfl
@[simp] theorem State.setQueue_link (s : State) (v) : (s.setQueue v).link = s.link := rfl
@[simp] theorem State.setQueue_settings (s : State) (v) : (s.setQueue v).settings = s.settings := rfl
@[simp] theorem State.setQueue_freeCount (s : State) (v) : (s.setQueue v).freeCount = s.freeCount := rfl

@[simp] theorem State.setEngine_pending (s : State) (v) : (s.setEngine v).pending = s.pending := rfl
@[simp] theorem State.setEngine_tracker (s : State) (v) : (s.setEngine v).tracker = s.tracker := rfl
@[simp] theorem State.setEngine_store (s : State) (v) : (s.setEngine v).store = s.store := rfl
@[simp] theorem State.setEngine_queue (s : State) (v) : (s.setEngine v).queue = s.queue := rfl
@[simp] theorem State.setEngine_engine (s : State) (v) : (s.setEngine v).engine = v := rfl
@[simp] theorem State.setEngine_feeders (s : State) (v) : (s.setEngine v).feeders = s.feeders := rfl
@[simp] theorem State.setEngine_yarn (s : State) (v) : (s.setEngine v).yarn = s.yarn := rfl
@[simp] theorem State.setEngine_monitor (s : State) (v) : (s.setEngine v).monitor = s.monitor := rfl
@[simp] theorem State.setEngine_link (s : State) (v) : (s.setEngine v).link = s.link := rfl
@[simp] theorem State.setEngine_settings (s : State) (v) : (s.setEngine v).settings = s.settings := rfl
@[simp] theorem State.setEngine_freeCount (s : State) (v) : (s.setEngine v).freeCount = s.freeCount := rfl

@[simp] theorem State.setFeeders_pending (s : State) (v) : (s.setFeeders v).pending = s.pending := rfl
@[simp] theorem State.setFeeders_tracker (s : State) (v) : (s.setFeeders v).tracker = s.tracker := rfl
@[simp] theorem State.setFeeders_store (s : State) (v) : (s.setFeeders v).store = s.store := rfl
@[simp] theorem State.setFeeders_queue (s : State) (v) : (s.setFeeders v).queue = s.queue := rfl
@[simp] theorem State.setFeeders_engine (s : State) (v) : (s.setFeeders v).engine = s.engine := rfl
@[simp] theorem State.setFeeders_feeders (s : State) (v) : (s.setFeeders v).feeders = v := rfl
@[simp] theorem State.setFeeders_yarn (s : State) (v) : (s.setFeeders v).yarn = s.yarn := rfl
@[simp] theorem State.setFeeders_monitor (s : State) (v) : (s.setFeeders v).monitor = s.monitor := rfl
@[simp] theorem State.setFeeders_link (s : State) (v) : (s.setFeeders v).link = s.link := rfl
@[simp] theorem State.setFeeders_settings (s : State) (v) : (s.setFeeders v).settings = s.settings := rfl
@[simp] theorem State.setFeeders_freeCount (s : State) (v) : (s.setFeeders v).freeCount = s.freeCount := rfl

@[simp] theorem State.setYarn_pending (s : State) (v) : (s.setYarn v).pending = s.pending := rfl
@[simp] theorem State.setYarn_tracker (s : State) (v) : (s.setYarn v).tracker = s.tracker := rfl
@[simp] theorem State.setYarn_store (s : State) (v) : (s.setYarn v).store = s.store := rfl
@[simp] theorem State.setYarn_queue (s : State) (v) : (s.setYarn v).queue = s.queue := rfl
@[simp] theorem State.setYarn_engine (s : State) (v) : (s.setYarn v).engine = s.engine := rfl
@[simp] theorem State.setYarn_feeders (s : State) (v) : (s.setYarn v).feeders = s.feeders := rfl
@[simp] theorem State.setYarn_yarn (s : State) (v) : (s.setYarn v).yarn = v := rfl
@[simp] theorem State.setYarn_monitor (s : State) (v) : (s.setYarn v).monitor = s.monitor := rfl
@[simp] theorem State.setYarn_link (s : State) (v) : (s.setYarn v).link = s.link := rfl
@[simp] theorem State.setYarn_settings (s : State) (v) : (s.setYarn v).settings = s.settings := rfl
@[simp] theorem State.setYarn_freeCount (s : State) (v) : (s.setYarn v).freeCount = s.freeCount := rfl

@[simp] theorem State.setMonitor_pending (s : State) (v) : (s.setMonitor v).pending = s.pending := rfl
@[simp] theorem State.setMonitor_tracker (s : State) (v) : (s.setMonitor v).tracker = s.tracker := rfl
@[simp] theorem State.setMonitor_store (s : State) (v) : (s.setMonitor v).store = s.store := rfl
@[simp] theorem State.setMonitor_queue (s : State) (v) : (s.setMonitor v).queue = s.queue := rfl
@[simp] theorem State.setMonitor_engine (s : State) (v) : (s.setMonitor v).engine = s.engine := rfl
@[simp] theorem State.setMonitor_feeders (s : State) (v) : (s.setMonitor v).feeders = s.feeders := rfl
@[simp] theorem State.setMonitor_yarn (s : State) (v) : (s.setMonitor v).yarn = s.yarn := rfl
@[simp] theorem State.setMonitor_monitor (s : State) (v) : (s.setMonitor v).monitor = v := rfl
@[simp] theorem State.setMonitor_link (s : State) (v) : (s.setMonitor v).link = s.link := rfl
@[simp] theorem State.setMonitor_settings (s : State) (v) : (s.setMonitor v).settings = s.settings := rfl
@[simp] theorem State.setMonitor_freeCount (s : State) (v) : (s.setMonitor v).freeCount = s.freeCount := rfl

@[simp] theorem State.setLink_pending (s : State) (v) : (s.setLink v).pending = s.pending := rfl
@[simp] theorem State.setLink_tracker (s : State) (v) : (s.setLink v).tracker = s.tracker := rfl
@[simp] theorem State.setLink_store (s : State) (v) : (s.setLink v).store = s.store := rfl
@[simp] theorem State.setLink_queue (s : State) (v) : (s.setLink v).queue = s.queue := rfl
@[simp] theorem State.setLink_engine (s : State) (v) : (s.setLink v).engine = s.engine := rfl
@[simp] theorem State.setLink_feeders (s : State) (v) : (s.setLink v).feeders = s.feeders := rfl
@[simp] theorem State.setLink_yarn (s : State) (v) : (s.setLink v).yarn = s.yarn := rfl
@[simp] theorem State.setLink_monitor (s : State) (v) : (s.setLink v).monitor = s.monitor := rfl
@[simp] theorem State.setLink_link (s : State) (v) : (s.setLink v).link = v := rfl
@[simp] theorem State.setLink_settings (s : State) (v) : (s.setLink v).settings = s.settings := rfl
@[simp] theorem State.setLink_freeCount (s : State) (v) : (s.setLink v).freeCount = s.freeCount := rfl

@[simp] theorem State.setSettings_pending (s : State) (v) : (s.setSettings v).pending = s.pending := rfl
@[simp] theorem State.setSettings_tracker (s : State) (v) : (s.setSettings v).tracker = s.tracker := rfl
@[simp] theorem State.setSettings_store (s : State) (v) : (s.setSettings v).store = s.store := rfl
@[simp] theorem State.setSettings_queue (s : State) (v) : (s.setSettings v).queue = s.queue := rfl
@[simp] theorem State.setSettings_engine (s : State) (v) : (s.setSettings v).engine = s.engine := rfl
@[simp] theorem State.setSettings_feeders (s : State) (v) : (s.setSettings v).feeders = s.feeders := rfl
@[simp] theorem State.setSettings_yarn (s : State) (v) : (s.setSettings v).yarn = s.yarn := rfl
@[simp] theorem State.setSettings_monitor (s : State) (v) : (s.setSettings v).monitor = s.monitor := rfl
@[simp] theorem State.setSettings_link (s : State) (v) : (s.setSettings v).link = s.link := rfl
@[simp] theorem State.setSettings_settings (s : State) (v) : (s.setSettings v).settings = v := rfl
@[simp] theorem State.setSettings_freeCount (s : State) (v) : (s.setSettings v).freeCount = s.freeCount := rfl

@[simp] theorem State.setFreeCount_pending (s : State) (v) : (s.setFreeCount v).pending = s.pending := rfl
@[simp] theorem State.setFreeCount_tracker (s : State) (v) : (s.setFreeCount v).tracker = s.tracker := rfl
@[simp] theorem State.setFreeCount_store (s : State) (v) : (s.setFreeCount v).store = s.store := rfl
@[simp] theorem State.setFreeCount_queue (s : State) (v) : (s.setFreeCount v).queue = s.queue := rfl
@[simp] theorem State.setFreeCount_engine (s : State) (v) : (s.setFreeCount v).engine = s.engine := rfl
@[simp] theorem State.setFreeCount_feeders (s : State) (v) : (s.setFreeCount v).feeders = s.feeders := rfl
@[simp] theorem State.setFreeCount_yarn (s : State) (v) : (s.setFreeCount v).yarn = s.yarn := rfl
@[simp] theorem State.setFreeCount_monitor (s : State) (v) : (s.setFreeCount v).monitor = s.monitor := rfl
@[simp] theorem State.setFreeCount_link (s : State) (v) : (s.setFreeCount v).link = s.link := rfl
@[simp] theorem State.setFreeCount_settings (s : State) (v) : (s.setFreeCount v).settings = s.settings := rfl
@[simp] theorem State.setFreeCount_freeCount (s : State) (v) : (s.setFreeCount v).freeCount = v := rfl

@[simp] theorem State.setPending_setPending (s : State) (v w) : (s.setPending v).setPending w = s.setPending w := rfl
@[simp] theorem State.setTracker_setTracker (s : State) (v w) : (s.setTracker v).setTracker w = s.setTracker w := rfl
@[simp] theorem State.setStore_setStore (s : State) (v w) : (s.setStore v).setStore w = s.setStore w := rfl
@[simp] theorem State.setQueue_setQueue (s : State) (v w) : (s.setQueue v).setQueue w = s.setQueue w := rfl
@[simp] theorem State.setEngine_setEngine (s : State) (v w) : (s.setEngine v).setEngine w = s.setEngine w := rfl
@[simp] theorem State.setFeeders_setFeeders (s : State) (v w) : (s.setFeeders v).setFeeders w = s.setFeeders w := rfl
@[simp] theorem State.setYarn_setYarn (s : State) (v w) : (s.setYarn v).setYarn w = s.setYarn w := rfl
@[simp] theorem State.setMonitor_setMonitor (s : State) (v w) : (s.setMonitor v).setMonitor w = s.setMonitor w := rfl
@[simp] theorem State.setLink_setLink (s : State) (v w) : (s.setLink v).setLink w = s.setLink w := rfl
@[simp] theorem State.setSettings_setSettings (s : State) (v w) : (s.setSettings v).setSettings w = s.setSettings w := rfl
@[simp] theorem State.setFreeCount_setFreeCount (s : State) (v w) : (s.setFreeCount v).setFreeCount w = s.setFreeCount w := rfl

@[simp] theorem State.setPending_self (s : State) : s.setPending s.pending = s := rfl
@[simp] theorem State.setTracker_self (s : State) : s.setTracker s.tracker = s := rfl
@[simp] theorem State.setStore_self (s : State) : s.setStore s.store = s := rfl
@[simp] theorem State.setQueue_self (s : State) : s.setQueue s.queue = s := rfl
@[simp] theorem State.setEngine_self (s : State) : s.setEngine s.engine = s := rfl
@[simp] theorem State.setFeeders_self (s : State) : s.setFeeders s.feeders = s := rfl
@[simp] theorem State.setYarn_self (s : State) : s.setYarn s.yarn = s := rfl
@[simp] theorem State.setMonitor_self (s : State) : s.setMonitor s.monitor = s := rfl
@[simp] theorem State.setLink_self (s : State) : s.setLink s.link = s := rfl
@[simp] theorem State.setSettings_self (s : State) : s.setSettings s.settings = s := rfl
@[simp] theorem State.setFreeCount_self (s : State) : s.setFreeCount s.freeCount = s := rfl

/-- Two states agree when every block agrees. -/
theorem State.eq_of_blocks {s t : State} (h1 : s.pending = t.pending) (h2 : s.tracker = t.tracker) (h3 : s.store = t.store)
    (h4 : s.queue = t.queue) (h5 : s.engine = t.engine) (h6 : s.feeders = t.feeders) (h7 : s.yarn = t.yarn)
    (h8 : s.monitor = t.monitor) (h9 : s.link = t.link) (h10 : s.settings = t.settings) (h11 : s.freeCount = t.freeCount) :
    s = t := by
  cases s
  cases t
  simp_all

end Sys2Proof.Machine
end

