-- ==== Sys2Proof/Laws/Tables.lean ====
section
/-! SUPPORT. Reading a table after a write to it: the line store, the latches, the head records, the banks and the condition
records; and the check of R170 as one fold. -/

namespace Sys2Proof.Machine

/-- R170: the check takes its bytes one after another. -/
theorem crcOver_eq (bs : List Byte) (c : Word16) : crcOver bs c = bs.foldl crcByte c := by
  induction bs generalizing c with
  | nil => rfl
  | cons b bs ih =>
    unfold crcOver
    split
    · rename_i h
      rw [ih, List.foldl_cons, h]
    · rw [ih, List.foldl_cons]

theorem crc16_eq (bs : List Byte) : crc16 bs = bs.foldl crcByte 0xFFFF#16 := crcOver_eq _ _

/-- Reading entry j of a table after a write of entry i. -/
theorem getD_setIfInBounds {α : Type} {n : Nat} (v : Vector α n) (i j : Nat) (a d : α) :
    (v.setIfInBounds i a).getD j d = if i = j ∧ j < n then a else v.getD j d := by
  by_cases hj : j < n
  · by_cases hi : i = j
    · subst hi
      simp [Vector.getD, hj]
    · simp [Vector.getD, hj, hi]
  · simp [Vector.getD, hj]

/-- Past its end a table reads as the default. -/
theorem getD_past {α : Type} {n : Nat} (v : Vector α n) {j : Nat} (d : α) (h : ¬ j < n) : v.getD j d = d := by
  simp [Vector.getD, h]

theorem getD_replicate {α : Type} {n : Nat} (a : α) (j : Nat) : (Vector.replicate n a).getD j a = a := by
  by_cases hj : j < n <;> simp [Vector.getD, hj]

theorem mapTable_eq {α β : Type} {n : Nat} (g : α → β) (v : Vector α n) : mapTable g v = v.map g := by
  apply Vector.ext
  intro i hi
  simp [mapTable]

theorem getD_mapTable {α β : Type} {n : Nat} (g : α → β) (v : Vector α n) (j : Nat) (d : α) :
    (mapTable g v).getD j (g d) = g (v.getD j d) := by
  by_cases h : j < n <;> simp [mapTable_eq, Vector.getD, h]

/-- Two tables are equal when they read alike. -/
theorem ext_getD {α : Type} {n : Nat} {v w : Vector α n} (d : α) (h : ∀ j < n, v.getD j d = w.getD j d) : v = w := by
  ext j hj
  simpa [Vector.getD, hj] using h j hj

theorem State.line_putLine (s : State) (i j : Nat) (l : Line) :
    (s.putLine i l).line j = if i = j ∧ j < 64 then l else s.line j := getD_setIfInBounds _ _ _ _ _

theorem State.latch_putLatch (s : State) (i j : Nat) (l : Latch) :
    (s.putLatch i l).latch j = if i = j ∧ j < 4 then l else s.latch j := getD_setIfInBounds _ _ _ _ _

theorem State.head_putHead (s : State) (i j : Nat) (h : HeadRecord) :
    (s.putHead i h).head j = if i = j ∧ j < 16 then h else s.head j := getD_setIfInBounds _ _ _ _ _

theorem State.bank_putBank (s : State) (i j : Nat) (b : BankPair) :
    (s.putBank i b).bank j = if i = j ∧ j < 4 then b else s.bank j := getD_setIfInBounds _ _ _ _ _

@[simp] theorem State.bank_clearBanks (s : State) (j : Nat) : s.clearBanks.bank j = BankPair.mk .miss .miss :=
  getD_replicate _ _

theorem Cond.num_lt (c : Cond) : c.num < 23 := by cases c <;> decide

theorem Cond.num_inj {c d : Cond} (h : c.num = d.num) : c = d := by
  revert h
  cases c <;> cases d <;> decide

theorem ConditionMonitor.record_putRecord (m : ConditionMonitor) (c d : Cond) (r : CondRecord) :
    (m.putRecord c r).record d = if c = d then r else m.record d := by
  refine (getD_setIfInBounds m.records c.num d.num r (CondRecord.mk none false)).trans ?_
  by_cases hc : c = d
  · rw [if_pos ⟨by rw [hc], Cond.num_lt d⟩, if_pos hc]
  · rw [if_neg fun h => hc (Cond.num_inj h.1), if_neg hc]
    rfl

@[simp] theorem ConditionMonitor.record_putRecord_self (m : ConditionMonitor) (c : Cond) (r : CondRecord) :
    (m.putRecord c r).record c = r := by simp [ConditionMonitor.record_putRecord]

theorem ConditionMonitor.record_putRecord_ne (m : ConditionMonitor) {c d : Cond} (r : CondRecord) (h : d ≠ c) :
    (m.putRecord c r).record d = m.record d := by simp [ConditionMonitor.record_putRecord, Ne.symm h]

end Sys2Proof.Machine
end

