-- ==== Sys2Proof/Laws/Frames.lean ====
section
/-! SUPPORT. What the operations of a pass never touch. `ConditionMonitor.Grows` says how the monitor can change by appends and
raises; `RunFrame` says what holds between the states before and after any operation of Machine/Records.lean and
Machine/Pass.lean. One lemma for each operation, and the lemmas that read the relation. -/

namespace Sys2Proof.Machine

/-! ### The monitor under appends and raises -/

/-- The second monitor follows from the first by appends and raises (R150, R163). -/
inductive ConditionMonitor.Grows : ConditionMonitor → ConditionMonitor → Prop
  | refl (m : ConditionMonitor) : Grows m m
  | append {m n : ConditionMonitor} (h : Grows m n) (e : Event) : Grows m (n.append e)
  | raise {m n : ConditionMonitor} (h : Grows m n) (d : Detail) : Grows m (n.noteRaise d)

theorem ConditionMonitor.Grows.trans {m n o : ConditionMonitor} (h : m.Grows n) (k : n.Grows o) : m.Grows o := by
  induction k with
  | refl => exact h
  | append _ e ih => exact .append ih e
  | raise _ d ih => exact .raise ih d

@[simp] theorem ConditionMonitor.putRecord_events (m : ConditionMonitor) (c r) : (m.putRecord c r).events = m.events := rfl
@[simp] theorem ConditionMonitor.putRecord_timestamp (m : ConditionMonitor) (c r) :
    (m.putRecord c r).timestamp = m.timestamp := rfl
@[simp] theorem ConditionMonitor.putRecord_subStamp (m : ConditionMonitor) (c r) :
    (m.putRecord c r).subStamp = m.subStamp := rfl
@[simp] theorem ConditionMonitor.putRecord_forcedAlert (m : ConditionMonitor) (c r) :
    (m.putRecord c r).forcedAlert = m.forcedAlert := rfl
@[simp] theorem ConditionMonitor.putRecord_forcedCaution (m : ConditionMonitor) (c r) :
    (m.putRecord c r).forcedCaution = m.forcedCaution := rfl

/-- An append adds one entry at the tail where there is room, and otherwise leaves the entries. -/
theorem ConditionMonitor.append_events (m : ConditionMonitor) (e : Event) :
    (m.append e).events = if m.full then m.events else m.events ++ [EventEntry.mk m.timestamp e] := by
  unfold ConditionMonitor.append
  split <;> rfl

theorem ConditionMonitor.noteRaise_events (m : ConditionMonitor) (d : Detail) :
    (m.noteRaise d).events =
      if (m.record d.cond).latched.isSome || m.full then m.events else m.events ++ [EventEntry.mk m.timestamp (.condition d)] := by
  simp only [ConditionMonitor.noteRaise]
  cases (m.record d.cond).latched.isSome
  · rw [if_neg (by simp), ConditionMonitor.append_events]
    rfl
  · rfl

theorem ConditionMonitor.append_events_le {m : ConditionMonitor} (h : m.events.length ≤ 128) (e : Event) :
    (m.append e).events.length ≤ 128 := by
  rw [ConditionMonitor.append_events]
  split
  · exact h
  · rename_i hf
    have hl : m.events.length < 128 := Nat.lt_of_not_le fun hc => hf (decide_eq_true hc)
    rw [List.length_append]
    exact hl

theorem ConditionMonitor.noteRaise_events_le {m : ConditionMonitor} (h : m.events.length ≤ 128) (d : Detail) :
    (m.noteRaise d).events.length ≤ 128 := by
  simp only [ConditionMonitor.noteRaise]
  split
  · exact h
  · exact ConditionMonitor.append_events_le (m := m.putRecord _ _) h _

/-- R163: appends and raises keep the bound of the event queue. -/
theorem ConditionMonitor.Grows.events_le {m n : ConditionMonitor} (h : m.Grows n) (b : m.events.length ≤ 128) :
    n.events.length ≤ 128 := by
  induction h with
  | refl => exact b
  | append _ e ih => exact ConditionMonitor.append_events_le ih e
  | raise _ d ih => exact ConditionMonitor.noteRaise_events_le ih d

/-- The entries that stand in the queue stay, in order, at its head. -/
theorem ConditionMonitor.Grows.events_prefix {m n : ConditionMonitor} (h : m.Grows n) : m.events <+: n.events := by
  induction h with
  | refl => exact List.prefix_rfl
  | append _ e ih =>
    rw [ConditionMonitor.append_events]
    split
    · exact ih
    · exact ih.trans (List.prefix_append _ _)
  | raise _ d ih =>
    rw [ConditionMonitor.noteRaise_events]
    split
    · exact ih
    · exact ih.trans (List.prefix_append _ _)

theorem ConditionMonitor.append_clock (m : ConditionMonitor) (e : Event) :
    (m.append e).timestamp = m.timestamp ∧ (m.append e).subStamp = m.subStamp ∧
      (m.append e).forcedAlert = m.forcedAlert ∧ (m.append e).forcedCaution = m.forcedCaution := by
  unfold ConditionMonitor.append
  split <;> exact ⟨rfl, rfl, rfl, rfl⟩

theorem ConditionMonitor.noteRaise_clock (m : ConditionMonitor) (d : Detail) :
    (m.noteRaise d).timestamp = m.timestamp ∧ (m.noteRaise d).subStamp = m.subStamp ∧
      (m.noteRaise d).forcedAlert = m.forcedAlert ∧ (m.noteRaise d).forcedCaution = m.forcedCaution := by
  simp only [ConditionMonitor.noteRaise]
  split
  · exact ⟨rfl, rfl, rfl, rfl⟩
  · exact ConditionMonitor.append_clock _ _

/-- Appends and raises leave the timestamp and the forced flags. -/
theorem ConditionMonitor.Grows.clock {m n : ConditionMonitor} (h : m.Grows n) :
    n.timestamp = m.timestamp ∧ n.subStamp = m.subStamp ∧ n.forcedAlert = m.forcedAlert ∧
      n.forcedCaution = m.forcedCaution := by
  induction h with
  | refl => exact ⟨rfl, rfl, rfl, rfl⟩
  | append _ e ih =>
    obtain ⟨a, b, c, d⟩ := ConditionMonitor.append_clock (by assumption) e
    exact ⟨a.trans ih.1, b.trans ih.2.1, c.trans ih.2.2.1, d.trans ih.2.2.2⟩
  | raise _ e ih =>
    obtain ⟨a, b, c, d⟩ := ConditionMonitor.noteRaise_clock (by assumption) e
    exact ⟨a.trans ih.1, b.trans ih.2.1, c.trans ih.2.2.1, d.trans ih.2.2.2⟩

theorem ConditionMonitor.noteOverrun_latched {m : ConditionMonitor} (t : EventTag) {c : Cond} {d : Detail}
    (h : (m.record c).latched = some d) : ((m.noteOverrun t).record c).latched = some d := by
  unfold ConditionMonitor.noteOverrun
  by_cases hc : c = .eventOverrun
  · subst hc
    simp [h]
  · rw [ConditionMonitor.record_putRecord_ne _ _ hc, h]

theorem ConditionMonitor.append_latched {m : ConditionMonitor} (e : Event) {c : Cond} {d : Detail}
    (h : (m.record c).latched = some d) : ((m.append e).record c).latched = some d := by
  unfold ConditionMonitor.append
  split
  · exact ConditionMonitor.noteOverrun_latched _ h
  · exact h

theorem ConditionMonitor.noteRaise_latched {m : ConditionMonitor} (e : Detail) {c : Cond} {d : Detail}
    (h : (m.record c).latched = some d) : ((m.noteRaise e).record c).latched = some d := by
  have key : ((m.putRecord e.cond (CondRecord.mk ((m.record e.cond).latched.or (some e)) true)).record c).latched = some d := by
    by_cases hc : c = e.cond
    · subst hc
      simp [h]
    · rw [ConditionMonitor.record_putRecord_ne _ _ hc, h]
  simp only [ConditionMonitor.noteRaise]
  split
  · exact key
  · exact ConditionMonitor.append_latched _ key

/-- A latched flag and its detail stay under appends and raises (R150). -/
theorem ConditionMonitor.Grows.latched {m n : ConditionMonitor} (h : m.Grows n) {c : Cond} {d : Detail}
    (l : (m.record c).latched = some d) : (n.record c).latched = some d := by
  induction h with
  | refl => exact l
  | append _ e ih => exact ConditionMonitor.append_latched e ih
  | raise _ e ih => exact ConditionMonitor.noteRaise_latched e ih

/-- R150: a raise latches its condition, with its own detail where the flag was clear. -/
theorem ConditionMonitor.noteRaise_record (m : ConditionMonitor) (d : Detail) :
    ((m.noteRaise d).record d.cond).latched = (m.record d.cond).latched.or (some d) := by
  cases h : (m.record d.cond).latched with
  | some e => simpa using ConditionMonitor.noteRaise_latched d h
  | none =>
    simp only [ConditionMonitor.noteRaise, h]
    exact ConditionMonitor.append_latched _ (by simp)

/-! ### References and line contents -/

theorem Line.addRef_content (l : Line) : l.addRef.content = l.content := by cases l <;> rfl
theorem Line.dropRef_content (l : Line) : l.dropRef.content = l.content := by cases l <;> rfl

/-- Replacing an entry by one with the same content changes no content. -/
theorem content_setIfInBounds (st : Vector Line 64) (i : Nat) (l : Line)
    (h : l.content = (st.getD i .free).content) (id : Nat) :
    ((st.setIfInBounds i l).getD id .free).content = (st.getD id .free).content := by
  rw [getD_setIfInBounds]
  split
  · rename_i hi
    rw [h, hi.1]
  · rfl

theorem foldRefs_content (g : Line → Line) (hg : ∀ l, (g l).content = l.content) (cs : List Channel) (st : Vector Line 64)
    (id : Nat) :
    ((cs.foldl (fun st c => st.setIfInBounds c.line (g (st.getD c.line .free))) st).getD id .free).content
      = (st.getD id .free).content := by
  induction cs generalizing st with
  | nil => rfl
  | cons c cs ih =>
    rw [List.foldl_cons, ih]
    exact content_setIfInBounds _ _ _ (hg _) _

theorem addRefs_content (st : Vector Line 64) (r : PassRecord) (id : Nat) :
    ((addRefs st r).getD id .free).content = (st.getD id .free).content :=
  foldRefs_content Line.addRef Line.addRef_content r.channels st id

theorem dropRefs_content (st : Vector Line 64) (r : PassRecord) (id : Nat) :
    ((dropRefs st r).getD id .free).content = (st.getD id .free).content :=
  foldRefs_content Line.dropRef Line.dropRef_content r.channels st id

theorem dropAll_content (rs : List PassRecord) (st : Vector Line 64) (id : Nat) :
    ((rs.foldl dropRefs st).getD id .free).content = (st.getD id .free).content := by
  induction rs generalizing st with
  | nil => rfl
  | cons r rs ih => rw [List.foldl_cons, ih, dropRefs_content]

/-! ### The frame of a pass -/

/-- What no operation of a pass touches, and how it changes the monitor. -/
structure RunFrame (s t : State) : Prop where
  pending : t.pending = s.pending
  link : t.link = s.link
  settings : t.settings = s.settings
  freeCount : t.freeCount = s.freeCount
  senses : t.feeders.senses = s.feeders.senses
  sweepTimer : t.yarn.sweepTimer = s.yarn.sweepTimer
  pendingWrite : t.yarn.pendingWrite = s.yarn.pendingWrite
  count : t.tracker.count = s.tracker.count
  position : t.tracker.position = s.tracker.position
  encA : t.tracker.encA = s.tracker.encA
  encB : t.tracker.encB = s.tracker.encB
  seekTimer : t.tracker.seekTimer = s.tracker.seekTimer
  markWindow : t.tracker.markWindow = s.tracker.markWindow
  clock : t.tracker.clock = s.tracker.clock
  monitor : s.monitor.Grows t.monitor
  lines : ∀ id, (t.line id).content = (s.line id).content

namespace RunFrame

theorem refl (s : State) : RunFrame s s :=
  ⟨rfl, rfl, rfl, rfl, rfl, rfl, rfl, rfl, rfl, rfl, rfl, rfl, rfl, rfl, .refl _, fun _ => rfl⟩

theorem trans {s t u : State} (h : RunFrame s t) (k : RunFrame t u) : RunFrame s u where
  pending := k.pending.trans h.pending
  link := k.link.trans h.link
  settings := k.settings.trans h.settings
  freeCount := k.freeCount.trans h.freeCount
  senses := k.senses.trans h.senses
  sweepTimer := k.sweepTimer.trans h.sweepTimer
  pendingWrite := k.pendingWrite.trans h.pendingWrite
  count := k.count.trans h.count
  position := k.position.trans h.position
  encA := k.encA.trans h.encA
  encB := k.encB.trans h.encB
  seekTimer := k.seekTimer.trans h.seekTimer
  markWindow := k.markWindow.trans h.markWindow
  clock := k.clock.trans h.clock
  monitor := h.monitor.trans k.monitor
  lines := fun id => (k.lines id).trans (h.lines id)

/-- A fold of operations that each have the frame has it. -/
theorem foldl {α : Type} (g : State → α → State) (hg : ∀ s a, RunFrame s (g s a)) (l : List α) (s : State) :
    RunFrame s (l.foldl g s) := by
  induction l generalizing s with
  | nil => exact refl s
  | cons a l ih => exact (hg s a).trans (ih (g s a))

theorem setQueue (s : State) (v) : RunFrame s (s.setQueue v) :=
  ⟨rfl, rfl, rfl, rfl, rfl, rfl, rfl, rfl, rfl, rfl, rfl, rfl, rfl, rfl, .refl _, fun _ => rfl⟩

theorem setEngine (s : State) (v) : RunFrame s (s.setEngine v) :=
  ⟨rfl, rfl, rfl, rfl, rfl, rfl, rfl, rfl, rfl, rfl, rfl, rfl, rfl, rfl, .refl _, fun _ => rfl⟩

theorem setStore (s : State) (v) (h : ∀ id, (v.getD id .free).content = (s.line id).content) : RunFrame s (s.setStore v) :=
  ⟨rfl, rfl, rfl, rfl, rfl, rfl, rfl, rfl, rfl, rfl, rfl, rfl, rfl, rfl, .refl _, h⟩

theorem setFeeders (s : State) (v) (h : v.senses = s.feeders.senses) : RunFrame s (s.setFeeders v) :=
  ⟨rfl, rfl, rfl, rfl, h, rfl, rfl, rfl, rfl, rfl, rfl, rfl, rfl, rfl, .refl _, fun _ => rfl⟩

theorem setYarn (s : State) (v) (h : v.sweepTimer = s.yarn.sweepTimer) (k : v.pendingWrite = s.yarn.pendingWrite) :
    RunFrame s (s.setYarn v) :=
  ⟨rfl, rfl, rfl, rfl, rfl, h, k, rfl, rfl, rfl, rfl, rfl, rfl, rfl, .refl _, fun _ => rfl⟩

theorem setMonitor (s : State) (v) (h : s.monitor.Grows v) : RunFrame s (s.setMonitor v) :=
  ⟨rfl, rfl, rfl, rfl, rfl, rfl, rfl, rfl, rfl, rfl, rfl, rfl, rfl, rfl, h, fun _ => rfl⟩

/-- An update of the tracker's motion fields: direction, phase, periods and the stall timer. -/
theorem setTracker (s : State) (v : Tracker) (h1 : v.count = s.tracker.count) (h2 : v.position = s.tracker.position)
    (h3 : v.encA = s.tracker.encA) (h4 : v.encB = s.tracker.encB) (h5 : v.seekTimer = s.tracker.seekTimer)
    (h6 : v.markWindow = s.tracker.markWindow) (h7 : v.clock = s.tracker.clock) : RunFrame s (s.setTracker v) :=
  ⟨rfl, rfl, rfl, rfl, rfl, rfl, rfl, h1, h2, h3, h4, h5, h6, h7, .refl _, fun _ => rfl⟩

/-! #### Records.lean -/

theorem noteRaise (s : State) (d) : RunFrame s (s.noteRaise d) := setMonitor _ _ (.raise (.refl _) d)

theorem append (s : State) (e) : RunFrame s (s.append e) := setMonitor _ _ (.append (.refl _) e)

theorem putLatch (s : State) (i l) : RunFrame s (s.putLatch i l) := setFeeders _ _ rfl

theorem putHead (s : State) (f h) : RunFrame s (s.putHead f h) := setYarn _ _ rfl rfl

theorem putBank (s : State) (i b) : RunFrame s (s.putBank i b) := setEngine _ _

theorem clearBanks (s : State) : RunFrame s s.clearBanks := setEngine _ _

theorem mapHead (s : State) (g) : RunFrame s (s.mapHead g) := setQueue _ _

theorem remark (s : State) (i o n) : RunFrame s (s.remark i o n) := mapHead _ _

theorem settle (s : State) (i m) : RunFrame s (s.settle i m) := remark _ _ _ _

theorem leaveCarried (s : State) (f) : RunFrame s (s.leaveCarried f) := setYarn _ _ rfl rfl

theorem putFeeder (s : State) (f v) : RunFrame s (s.putFeeder f v) := by
  unfold State.putFeeder
  dsimp only
  split
  · refine RunFrame.trans ?_ (leaveCarried _ _)
    exact setFeeders _ _ rfl
  · exact setFeeders _ _ rfl

theorem openLatch (s : State) (i) : RunFrame s (s.openLatch i) := putLatch _ _ _

theorem returnFeeder (s : State) (i f p) : RunFrame s (s.returnFeeder i f p) := (putFeeder _ _ _).trans (openLatch _ _)

theorem faultFeeder (s : State) (i f) : RunFrame s (s.faultFeeder i f) := (putFeeder _ _ _).trans (openLatch _ _)

theorem resolveLatch (s : State) (i) : RunFrame s (s.resolveLatch i) := by
  unfold State.resolveLatch
  split
  · exact (returnFeeder _ _ _ _).trans (settle _ _ _)
  · exact (faultFeeder _ _ _).trans (settle _ _ _)
  · exact refl s
  · exact refl s

theorem resolveAll (s : State) : RunFrame s s.resolveAll := foldl _ resolveLatch _ _

theorem flush (s : State) (c) : RunFrame s (s.flush c) :=
  ((setStore s _ (dropAll_content _ _)).trans (setQueue _ _)).trans (append _ _)

theorem armHead (s : State) : RunFrame s s.armHead := by
  unfold State.armHead
  split
  · exact mapHead _ _
  · exact refl s

theorem followProjection (s : State) : RunFrame s s.followProjection := by
  unfold State.followProjection
  split
  · exact setQueue _ _
  · exact refl s

/-! #### Pass.lean -/

theorem endPass (s : State) : RunFrame s (s.setTracker s.tracker.endPass) := setTracker _ _ rfl rfl rfl rfl rfl rfl rfl

theorem abortPass (s : State) (r) : RunFrame s (s.abortPass r) := by
  unfold State.abortPass
  split
  · exact refl s
  · exact (((((clearBanks _).trans (resolveAll _)).trans (endPass _)).trans (append _ _)).trans (setEngine _ _)).trans (flush _ _)

theorem abortHead (s : State) (r) : RunFrame s (s.abortHead r) := (append _ _).trans (flush _ _)

theorem abortFor (s : State) (r) : RunFrame s (s.abortFor r) := by
  cases r with
  | none => exact refl s
  | some r => exact abortPass s r

theorem raise (s : State) (d) : RunFrame s (s.raise d) := (noteRaise _ _).trans (abortFor _ _)

theorem log (s : State) (e) : RunFrame s (s.log e) := (append _ _).trans (abortFor _ _)

theorem completeRecord (s : State) : RunFrame s s.completeRecord := by
  unfold State.completeRecord
  split
  · exact refl s
  · dsimp only
    split
    · refine RunFrame.trans ?_ (armHead _)
      refine ((setStore s _ (dropRefs_content _ _)).trans (setStore _ _ ?_)).trans (setQueue _ _)
      exact addRefs_content _ _
    · exact ((setStore s _ (dropRefs_content _ _)).trans (setQueue _ _)).trans (armHead _)

theorem completePass (s : State) : RunFrame s s.completePass := by
  unfold State.completePass
  dsimp only
  have h : RunFrame s ((s.setTracker s.tracker.endPass).setEngine
      { s.engine with passCounter := s.engine.passCounter + 1, pass := none }) := (endPass _).trans (setEngine _ _)
  have h2 := h.trans (append _ (.passEnded s.headTag (s.engine.passCounter + 1)))
  split
  · refine RunFrame.trans ?_ (flush _ _)
    split
    · exact (h2.trans (append _ _)).trans (completeRecord _)
    · exact h2.trans (completeRecord _)
  · split
    · exact (h2.trans (append _ _)).trans (completeRecord _)
    · exact h2.trans (completeRecord _)

theorem completeIfSettled (s : State) : RunFrame s s.completeIfSettled := by
  unfold State.completeIfSettled
  split
  · exact completePass s
  · exact refl s

theorem arriveAt (s : State) (m p i q) : RunFrame s (s.arriveAt m p i q) := by
  unfold State.arriveAt
  dsimp only
  have h : RunFrame s (if m = true then
      (s.putBank i (s.arrivalCodes i p.racking q).1).setEngine
        { (s.putBank i (s.arrivalCodes i p.racking q).1).engine with
          pass := some { p with furthestPair := furtherPair p.dir p.furthestPair q } }
      else s.putBank i (s.arrivalCodes i p.racking q).1) := by
    split
    · exact (putBank _ _ _).trans (setEngine _ _)
    · exact putBank _ _ _
  split
  · exact h.trans (raise _ _)
  · exact h

theorem arrive (m x) (s : State) (i) : RunFrame s (State.arrive m x s i) := by
  unfold State.arrive
  split
  · exact refl s
  · dsimp only
    split
    · exact arriveAt _ _ _ _ _
    · exact refl s

theorem arrivals (s : State) (m x) : RunFrame s (s.arrivals m x) := foldl _ (arrive m x) _ _

theorem expireTake (s : State) (i f p) : RunFrame s (s.expireTake i f p) :=
  ((noteRaise _ _).trans (returnFeeder _ _ _ _)).trans (settle _ _ _)

theorem expireRelease (s : State) (i f) : RunFrame s (s.expireRelease i f) :=
  ((noteRaise _ _).trans (faultFeeder _ _ _)).trans (settle _ _ _)

theorem countdownStep (acc) (i) : RunFrame acc.1 (State.countdownStep acc i).1 := by
  unfold State.countdownStep
  dsimp only
  split
  · exact refl _
  · exact refl _
  · split
    · exact expireTake _ _ _ _
    · exact putLatch _ _ _
  · split
    · exact expireRelease _ _ _
    · exact putLatch _ _ _

theorem countdowns_fold (l : List Nat) (acc) : RunFrame acc.1 (l.foldl State.countdownStep acc).1 := by
  induction l generalizing acc with
  | nil => exact refl _
  | cons i l ih => exact (countdownStep acc i).trans (ih _)

theorem countdowns (s : State) : RunFrame s s.countdowns := (countdowns_fold _ (s, none)).trans (abortFor _ _)

theorem driveTake (s : State) (i f r p) : RunFrame s (s.driveTake i f r p) := by
  unfold State.driveTake
  split
  · exact ((noteRaise _ _).trans (remark _ _ _ _)).trans (abortPass _ _)
  · exact ((putLatch _ _ _).trans (putFeeder _ _ _)).trans (remark _ _ _ _)

theorem driveRelease (s : State) (i f x) : RunFrame s (s.driveRelease i f x) :=
  ((putLatch _ _ _).trans (putFeeder _ _ _)).trans (remark _ _ _ _)

theorem reach (x : Int) (i n : Nat) (s : State) : RunFrame s (State.reach x i n s) := by
  induction n generalizing s with
  | zero => exact refl s
  | succ n ih =>
    unfold State.reach
    split
    · exact refl s
    · split
      · split
        · exact driveTake _ _ _ _ _
        · exact refl s
      all_goals exact refl s
    · split
      · split
        · exact driveRelease _ _ _ _
        · exact (remark _ _ _ _).trans (ih _)
      · exact refl s

theorem reachIfPass (x : Int) (s : State) (i : Nat) : RunFrame s (State.reachIfPass x s i) := by
  unfold State.reachIfPass
  split
  · exact reach _ _ _ _
  · exact refl s

theorem feederStep (s : State) (x) : RunFrame s (s.feederStep x) := by
  unfold State.feederStep
  dsimp only
  split
  · exact (countdowns s).trans (foldl _ (reachIfPass x) _ _)
  · exact countdowns s

theorem markTravel (s : State) : RunFrame s s.markTravel := foldl _ (fun _ _ => putHead _ _ _) _ _

theorem measurePeriod (s : State) : RunFrame s s.measurePeriod := by
  unfold State.measurePeriod
  split
  · exact refl s
  · dsimp only
    split
    · refine RunFrame.trans ?_ (raise _ _)
      exact setTracker _ _ rfl rfl rfl rfl rfl rfl rfl
    · exact setTracker _ _ rfl rfl rfl rfl rfl rfl rfl

theorem setHeadState (s : State) (v) : RunFrame s (s.setHeadState v) := mapHead _ _

theorem exitPass (s : State) : RunFrame s s.exitPass := by
  unfold State.exitPass
  dsimp only
  split
  · exact ((clearBanks s).trans (setHeadState _ _)).trans (setTracker _ _ rfl rfl rfl rfl rfl rfl rfl)
  · exact (clearBanks s).trans (completePass _)

theorem activeAdvance (s : State) (d x) : RunFrame s (s.activeAdvance d x) := by
  unfold State.activeAdvance
  dsimp only
  have h1 := (measurePeriod s).trans (arrivals s.measurePeriod true x)
  have h2 := (h1.trans (feederStep _ x)).trans (markTravel _)
  split
  · split
    · split
      · exact h2.trans (exitPass _)
      · exact h2
    · exact h1
  · exact measurePeriod s

theorem advance (s : State) (p x) : RunFrame s (s.advance p x) := by
  unfold State.advance
  dsimp only
  split
  · exact (setEngine _ _).trans (activeAdvance _ _ _)
  · exact (setEngine _ _).trans (feederStep _ _)

theorem reArrival (s : State) (x) : RunFrame s (s.reArrival x) := by
  unfold State.reArrival
  split
  · exact arrivals _ _ _
  · exact refl s

theorem retreat (s : State) (p x) : RunFrame s (s.retreat p x) := by
  unfold State.retreat
  dsimp only
  split
  · exact raise _ _
  · exact refl s

theorem startPass (s : State) (r x) : RunFrame s (s.startPass r x) := by
  unfold State.startPass
  dsimp only
  refine RunFrame.trans ?_ (arrivals _ _ _)
  refine RunFrame.trans ?_ (log _ _)
  exact ((mapHead _ _).trans (setEngine _ _)).trans (setTracker _ _ rfl rfl rfl rfl rfl rfl rfl)

theorem entryCrossing (s : State) (d x) : RunFrame s (s.entryCrossing d x) := by
  unfold State.entryCrossing
  split
  · exact raise _ _
  · split
    · exact refl s
    · exact refl s
    · exact refl s
    · split
      · exact (raise _ _).trans (abortHead _ _)
      · split
        · exact (raise _ _).trans (abortHead _ _)
        · split
          · exact startPass _ _ _
          · exact (raise _ _).trans (abortHead _ _)

theorem noPassStep (s : State) (d x) : RunFrame s (s.noPassStep d x) := by
  unfold State.noPassStep
  split
  · exact entryCrossing _ _ _
  · exact refl s

theorem restartStall (s : State) : RunFrame s s.restartStall := by
  unfold State.restartStall
  split
  · exact refl s
  · exact setTracker _ _ rfl rfl rfl rfl rfl rfl rfl

/-- A step event (R3, R73, R74) leaves everything the frame names. -/
theorem carriageStep (s : State) (d x) : RunFrame s (s.carriageStep d x) := by
  unfold State.carriageStep
  dsimp only
  have h : RunFrame s (s.setTracker { s.tracker with lastDir := d }).restartStall := by
    refine RunFrame.trans ?_ (restartStall _)
    exact setTracker _ _ rfl rfl rfl rfl rfl rfl rfl
  split
  · exact h.trans (noPassStep _ _ _)
  · split
    · split
      · exact h.trans (advance _ _ _)
      · exact h.trans (reArrival _ _)
    · exact h.trans (retreat _ _ _)

/-! #### Couple-sense edges, expiries and the stall -/

theorem confirmTake (s : State) (i f p) : RunFrame s (s.confirmTake i f p) :=
  ((((putLatch _ _ _).trans (putFeeder _ _ _)).trans (log _ _)).trans (settle _ _ _)).trans (completeIfSettled _)

theorem confirmRelease (s : State) (i f) : RunFrame s (s.confirmRelease i f) :=
  ((((putFeeder _ _ _).trans (openLatch _ _)).trans (log _ _)).trans (settle _ _ _)).trans (completeIfSettled _)

theorem correctProjection (s : State) (i f) : RunFrame s (s.correctProjection i f) := by
  unfold State.correctProjection
  split
  · exact followProjection s
  · split
    · split
      · exact setQueue _ _
      · exact refl s
    all_goals exact refl s

theorem dropFeeder (s : State) (i f) : RunFrame s (s.dropFeeder i f) := by
  unfold State.dropFeeder
  dsimp only
  split
  · exact ((noteRaise _ _).trans (faultFeeder _ _ _)).trans (abortPass _ _)
  · exact ((noteRaise _ _).trans (faultFeeder _ _ _)).trans (correctProjection _ _ _)

theorem takeEdge (s : State) (i l) : RunFrame s (s.takeEdge i l) := by
  unfold State.takeEdge
  split
  · split
    · exact confirmTake _ _ _ _
    · exact confirmRelease _ _ _
    · exact dropFeeder _ _ _
    all_goals exact refl s
  · exact refl s

/-- What follows the raise of a stall. -/
theorem settleStall {s u : State} (h : RunFrame s u) (c : Prop) [Decidable c] :
    RunFrame s (if c then u.resolveAll.completeIfSettled else u) := by
  split
  · exact (h.trans (resolveAll u)).trans (completeIfSettled _)
  · exact h

theorem stallExpires (s : State) : RunFrame s s.stallExpires := by
  unfold State.stallExpires
  refine settleStall ?_ _
  split
  · exact setTracker _ _ rfl rfl rfl rfl rfl rfl rfl
  · refine RunFrame.trans ?_ (raise _ _)
    exact setTracker _ _ rfl rfl rfl rfl rfl rfl rfl

end RunFrame

end Sys2Proof.Machine
end

