-- ==== Sys2Proof/Laws/Plan.lean ====
section
/-! SUPPORT. The plan's laws (`State.PlanLaw`) through the operations of a pass. The laws read only `State.planView`; most
operations leave it, and one lemma for each of the others says what it becomes. -/

namespace Sys2Proof.Machine

/-- What the plan's laws read of a state. -/
structure PlanView where
  states : List RecordState
  plan : PlanState
  locked : Bool
  pass : Bool
  banks : Vector BankPair 4
  phase : PassPhase
  position : PosState
  stallTimer : Option Nat
  stallLive : Bool

/-- The view of a state. -/
def State.planView (s : State) : PlanView where
  states := s.queue.records.map PassRecord.state
  plan := s.queue.plan
  locked := s.settings.locked
  pass := s.passInProgress
  banks := s.engine.banks
  phase := s.tracker.phase
  position := s.tracker.position
  stallTimer := s.tracker.stallTimer
  stallLive := s.tracker.stallLive

/-- Every bank at MISS. -/
def missBanks : Vector BankPair 4 := Vector.replicate 4 (BankPair.mk .miss .miss)

/-- The head is in a given state. -/
def PlanView.headIs (v : PlanView) (x : RecordState) : Bool := decide (v.states.head? = some x)

/-- The laws over the view. -/
structure PlanView.Law (v : PlanView) : Prop where
  bounded : v.states.length ≤ 8
  behind : ∀ x ∈ v.states.tail, x = .queued
  held : v.plan = .held → ∀ x ∈ v.states, x = .queued
  armed : v.plan = .running → v.states.head? ≠ some .queued
  underLock : v.states ≠ [] → v.locked = true
  current : v.pass = (v.headIs .active || v.headIs .finishing)
  phase : v.phase = if v.headIs .active then .active else if v.headIs .finishing then .finishing else .none
  position : v.pass = true → v.position.valid = true
  banks : v.headIs .active = false → v.banks = missBanks
  stall : v.pass = false → v.stallTimer = none ∧ v.stallLive = false
  lock : v.plan = .running → v.locked = true

theorem State.headActive_eq (s : State) : s.headActive = s.planView.headIs .active := by
  unfold State.headActive PlanView.headIs State.planView
  cases s.queue.records <;> simp

theorem State.headFinishing_eq (s : State) : s.headFinishing = s.planView.headIs .finishing := by
  unfold State.headFinishing PlanView.headIs State.planView
  cases s.queue.records <;> simp

/-- The laws of a state are the laws of its view. -/
theorem planLaw_iff (s : State) : s.PlanLaw ↔ s.planView.Law := by
  constructor
  · intro h
    refine ⟨by simpa [State.planView] using h.queue.bounded, ?_, ?_, ?_, ?_, ?_, ?_, h.pass.position, ?_, h.pass.stall, h.lock⟩
    · intro x hx
      simp only [State.planView, ← List.map_tail, List.mem_map] at hx
      obtain ⟨r, hr, rfl⟩ := hx
      exact h.queue.behind r hr
    · intro hp x hx
      simp only [State.planView, List.mem_map] at hx
      obtain ⟨r, hr, rfl⟩ := hx
      exact h.queue.held hp r hr
    · intro hp hx
      simp only [State.planView, List.head?_map, Option.map_eq_some_iff] at hx
      obtain ⟨r, hr, hq⟩ := hx
      exact h.queue.armed hp r hr hq
    · intro hne
      exact h.queue.underLock fun e => hne (by simp [State.planView, e])
    · rw [← State.headActive_eq, ← State.headFinishing_eq]
      exact h.pass.current
    · rw [← State.headActive_eq, ← State.headFinishing_eq]
      exact h.pass.phase
    · rw [← State.headActive_eq]
      exact h.pass.banks
  · intro h
    refine ⟨⟨by simpa [State.planView] using h.bounded, ?_, ?_, ?_, ?_⟩, ⟨?_, ?_, h.position, ?_, h.stall⟩, h.lock⟩
    · intro r hr
      exact h.behind _ (by simpa [State.planView, ← List.map_tail] using ⟨r, hr, rfl⟩)
    · intro hp r hr
      exact h.held hp _ (by simpa [State.planView] using ⟨r, hr, rfl⟩)
    · intro hp r hr hq
      exact h.armed hp (by simpa [State.planView] using ⟨r, hr, hq⟩)
    · intro hne
      exact h.underLock (by simpa [State.planView] using hne)
    · rw [State.headActive_eq, State.headFinishing_eq]
      exact h.current
    · rw [State.headActive_eq, State.headFinishing_eq]
      exact h.phase
    · rw [State.headActive_eq]
      exact h.banks

theorem State.PlanLaw.congr {s t : State} (h : s.PlanLaw) (e : t.planView = s.planView) : t.PlanLaw := by
  rw [planLaw_iff, e, ← planLaw_iff]
  exact h

/-! ### Operations that leave the view -/

@[simp] theorem planView_setFeeders (s : State) (v) : (s.setFeeders v).planView = s.planView := rfl
@[simp] theorem planView_setYarn (s : State) (v) : (s.setYarn v).planView = s.planView := rfl
@[simp] theorem planView_setMonitor (s : State) (v) : (s.setMonitor v).planView = s.planView := rfl
@[simp] theorem planView_setStore (s : State) (v) : (s.setStore v).planView = s.planView := rfl
@[simp] theorem planView_setLink (s : State) (v) : (s.setLink v).planView = s.planView := rfl
@[simp] theorem planView_setRx (s : State) (v) : (s.setRx v).planView = s.planView := rfl
@[simp] theorem planView_setFreeCount (s : State) (v) : (s.setFreeCount v).planView = s.planView := rfl
@[simp] theorem planView_setPending (s : State) (v) : (s.setPending v).planView = s.planView := rfl
@[simp] theorem planView_noteRaise (s : State) (d) : (s.noteRaise d).planView = s.planView := rfl
@[simp] theorem planView_append (s : State) (e) : (s.append e).planView = s.planView := rfl
@[simp] theorem planView_putLatch (s : State) (i l) : (s.putLatch i l).planView = s.planView := rfl
@[simp] theorem planView_openLatch (s : State) (i) : (s.openLatch i).planView = s.planView := rfl
@[simp] theorem planView_putHead (s : State) (f h) : (s.putHead f h).planView = s.planView := rfl
@[simp] theorem planView_putLine (s : State) (i l) : (s.putLine i l).planView = s.planView := rfl
@[simp] theorem planView_sendReply (s : State) (k a) : (s.sendReply k a).planView = s.planView := rfl

@[simp] theorem planView_putFeeder (s : State) (f v) : (s.putFeeder f v).planView = s.planView := by
  unfold State.putFeeder
  dsimp only
  split <;> rfl

/-- Changing the head record's other fields leaves the view. -/
theorem planView_mapHead (s : State) (g : PassRecord → PassRecord) (h : ∀ r, (g r).state = r.state) :
    (s.mapHead g).planView = s.planView := by
  have e : (s.mapHead g).queue.records.map PassRecord.state = s.queue.records.map PassRecord.state := by
    unfold State.mapHead
    cases hr : s.queue.records <;> simp [h]
  unfold State.planView
  rw [e]
  rfl

@[simp] theorem planView_remark (s : State) (i o n) : (s.remark i o n).planView = s.planView := planView_mapHead _ _ fun _ => rfl

@[simp] theorem planView_settle (s : State) (i m) : (s.settle i m).planView = s.planView := planView_remark _ _ _ _

@[simp] theorem planView_returnFeeder (s : State) (i f p) : (s.returnFeeder i f p).planView = s.planView := by
  simp [State.returnFeeder]

@[simp] theorem planView_faultFeeder (s : State) (i f) : (s.faultFeeder i f).planView = s.planView := by
  simp [State.faultFeeder]

@[simp] theorem planView_expireTake (s : State) (i f p) : (s.expireTake i f p).planView = s.planView := by
  simp [State.expireTake]

@[simp] theorem planView_expireRelease (s : State) (i f) : (s.expireRelease i f).planView = s.planView := by
  simp [State.expireRelease]

@[simp] theorem planView_resolveLatch (s : State) (i) : (s.resolveLatch i).planView = s.planView := by
  unfold State.resolveLatch
  split <;> simp

/-- A fold of operations that leave the view leaves it. -/
theorem planView_foldl {α : Type} (g : State → α → State) (hg : ∀ s a, (g s a).planView = s.planView) (l : List α)
    (s : State) : (l.foldl g s).planView = s.planView := by
  induction l generalizing s with
  | nil => rfl
  | cons a l ih => rw [List.foldl_cons, ih, hg]

@[simp] theorem planView_resolveAll (s : State) : s.resolveAll.planView = s.planView :=
  planView_foldl _ planView_resolveLatch _ _

@[simp] theorem planView_markTravel (s : State) : s.markTravel.planView = s.planView :=
  planView_foldl _ (fun _ _ => planView_putHead _ _ _) _ _

@[simp] theorem planView_driveRelease (s : State) (i f x) : (s.driveRelease i f x).planView = s.planView := by
  simp [State.driveRelease]

@[simp] theorem planView_followProjection (s : State) : s.followProjection.planView = s.planView := by
  unfold State.followProjection
  split
  · unfold State.planView
    simp_all
    rfl
  · rfl

@[simp] theorem planView_correctProjection (s : State) (i f) : (s.correctProjection i f).planView = s.planView := by
  unfold State.correctProjection
  split
  · simp
  · split
    · split <;> rfl
    all_goals rfl

theorem planView_countdownStep (acc) (i) : (State.countdownStep acc i).1.planView = acc.1.planView := by
  unfold State.countdownStep
  dsimp only
  split
  · rfl
  · rfl
  · split <;> simp
  · split <;> simp

theorem planView_countdownFold (l : List Nat) (acc) : (l.foldl State.countdownStep acc).1.planView = acc.1.planView := by
  induction l generalizing acc with
  | nil => rfl
  | cons i l ih => rw [List.foldl_cons, ih, planView_countdownStep]

/-! ### The flush and the abort -/

/-- R66: a flush empties the queue and holds the plan. -/
@[simp] theorem planView_flush (s : State) (c) :
    (s.flush c).planView = { s.planView with states := [], plan := .held } := rfl

/-- R96: what an abort leaves. -/
theorem planView_abortPass_some (s : State) (r) (h : s.passInProgress = true) :
    (s.abortPass r).planView =
      { s.planView with states := [], plan := .held, pass := false, banks := missBanks, phase := .none, stallTimer := none, stallLive := false } := by
  have e := planView_resolveAll s.clearBanks
  unfold State.abortPass
  cases hp : s.engine.pass with
  | none => simp [State.passInProgress, hp] at h
  | some p =>
    dsimp only
    rw [planView_flush]
    generalize s.clearBanks.resolveAll = t at e ⊢
    have hb : t.engine.banks = missBanks := congrArg PlanView.banks e
    have hl : t.settings.locked = s.settings.locked := congrArg PlanView.locked e
    have hq : t.tracker.position = s.tracker.position := congrArg PlanView.position e
    have w : ((t.setTracker t.tracker.endPass).append (.passAborted s.headTag r p.furthestPair)).planView =
        { t.planView with phase := .none, stallTimer := none, stallLive := false } := rfl
    generalize (t.setTracker t.tracker.endPass).append (.passAborted s.headTag r p.furthestPair) = u at w ⊢
    have w2 : (u.setEngine { u.engine with pass := none }).planView = { u.planView with pass := false } := rfl
    rw [w2, w, e]
    rfl

theorem planView_abortPass_none (s : State) (r) (h : s.passInProgress = false) : (s.abortPass r).planView = s.planView := by
  unfold State.passInProgress at h
  unfold State.abortPass
  split
  · rfl
  · simp_all

/-- An aborted pass leaves the laws whole, whatever stood before. -/
theorem PlanLaw.abortPass_some (s : State) (r) (h : s.passInProgress = true) : (s.abortPass r).PlanLaw := by
  rw [planLaw_iff, planView_abortPass_some s r h]
  constructor <;> simp [PlanView.headIs]

theorem State.PlanLaw.abortPass {s : State} (h : s.PlanLaw) (r) : (s.abortPass r).PlanLaw := by
  cases hp : s.passInProgress with
  | true => exact PlanLaw.abortPass_some s r hp
  | false => exact h.congr (planView_abortPass_none s r hp)

theorem State.PlanLaw.abortFor {s : State} (h : s.PlanLaw) (r) : (s.abortFor r).PlanLaw := by
  cases r with
  | none => exact h
  | some r => exact h.abortPass r

theorem State.PlanLaw.raise {s : State} (h : s.PlanLaw) (d) : (s.raise d).PlanLaw :=
  State.PlanLaw.abortFor (s := s.noteRaise d) (h.congr rfl) _

theorem State.PlanLaw.log {s : State} (h : s.PlanLaw) (e) : (s.log e).PlanLaw :=
  State.PlanLaw.abortFor (s := s.append e) (h.congr rfl) _

/-- A flush with no pass in progress keeps the laws. -/
theorem State.PlanLaw.flush {s : State} (h : s.PlanLaw) (hp : s.passInProgress = false) (c) : (s.flush c).PlanLaw := by
  rw [planLaw_iff] at h ⊢
  rw [planView_flush]
  have hpv : s.planView.pass = false := hp
  have hc := h.current
  rw [hpv] at hc
  have ha : s.planView.headIs .active = false := (Bool.or_eq_false_iff.1 hc.symm).1
  have hf : s.planView.headIs .finishing = false := (Bool.or_eq_false_iff.1 hc.symm).2
  refine ⟨by simp, by simp, by simp, by simp, by simp, ?_, ?_, ?_, fun _ => h.banks ha, h.stall, by simp⟩
  · simpa [PlanView.headIs] using hpv
  · have := h.phase
    simp [ha, hf] at this
    simpa [PlanView.headIs] using this
  · intro hh
    simp [hpv] at hh

theorem State.PlanLaw.abortHead {s : State} (h : s.PlanLaw) (hp : s.passInProgress = false) (r) : (s.abortHead r).PlanLaw :=
  State.PlanLaw.flush (s := s.append _) (h.congr rfl) hp _

/-- A raise with no pass in progress starts none. -/
theorem passInProgress_raise_of_none {s : State} (h : s.passInProgress = false) (d) : (s.raise d).passInProgress = false := by
  unfold State.raise
  cases s.abortReason d (s.monitor.overruns d) with
  | none => exact h
  | some r =>
    have e := planView_abortPass_none (s.noteRaise d) r h
    exact (congrArg PlanView.pass e).trans h

/-- With no pass the laws do not read the position, so any update of the tracker that leaves its pass fields keeps them. -/
theorem State.PlanLaw.setTracker {s : State} (h : s.PlanLaw) (v : Tracker) (h1 : v.phase = s.tracker.phase)
    (h2 : v.stallTimer = s.tracker.stallTimer) (h3 : v.stallLive = s.tracker.stallLive)
    (h4 : s.passInProgress = true → v.position.valid = true) : (s.setTracker v).PlanLaw := by
  rw [planLaw_iff] at h ⊢
  have hp : (s.setTracker v).planView.phase = s.planView.phase := h1
  refine ⟨h.bounded, h.behind, h.held, h.armed, h.underLock, h.current, ?_, h4, h.banks, ?_, h.lock⟩
  · rw [hp]
    exact h.phase
  · intro hn
    have := h.stall hn
    exact ⟨h2.trans this.1, h3.trans this.2⟩

/-- R14, R16: a raise of POS_LOST leaves the laws whole even though the position is no longer valid: the pass has ended. -/
theorem State.PlanLaw.enterLost {s : State} (h : s.PlanLaw) (c) : (s.enterLost c).PlanLaw := by
  unfold State.enterLost
  generalize ht : s.setTracker { s.tracker with position := .lost, markWindow := none } = t
  cases hp : s.passInProgress with
  | false =>
    refine State.PlanLaw.raise ?_ _
    rw [← ht]
    exact h.setTracker _ rfl rfl rfl (by simp [hp])
  | true =>
    have : t.raise (.posLost c) = (t.noteRaise (.posLost c)).abortPass .posLost := rfl
    rw [this]
    refine PlanLaw.abortPass_some _ _ ?_
    rw [← ht]
    exact hp

/-! ### Arming, completion and start -/

/-- R63: the states after the head has armed. -/
def armStates (starts : List StartKind) (plan : PlanState) (states : List RecordState) : List RecordState :=
  match plan, states, starts with
  | .running, .queued :: xs, .onEntry :: _ => .armed none :: xs
  | .running, .queued :: xs, .onGo :: _ => .armed (some .waitGo) :: xs
  | _, xs, _ => xs

theorem planView_armHead (s : State) :
    s.armHead.planView =
      { s.planView with states := armStates (s.queue.records.map PassRecord.start) s.queue.plan s.planView.states } := by
  unfold State.armHead
  cases hp : s.queue.plan with
  | held =>
    simp [armStates]
  | running =>
    simp only [if_true]
    unfold State.mapHead State.planView
    cases hr : s.queue.records with
    | nil => simp [armStates, State.passInProgress, hp]
    | cons r rs =>
      cases hs : r.state <;> cases hk : r.start <;>
        simp [armStates, hs, hk, PassRecord.arm, State.passInProgress, hp]

/-- A list whose records are all QUEUED, armed at its head, keeps the queue's laws under a RUNNING, locked plan with no pass. -/
theorem PlanView.Law.armed_of_queued {v : PlanView} (starts : List StartKind) (hl : v.states.length ≤ 8)
    (hq : ∀ x ∈ v.states, x = .queued) (hs : starts.length = v.states.length) (hk : v.locked = true) (hp : v.pass = false)
    (hb : v.banks = missBanks) (hph : v.phase = .none) (hst : v.stallTimer = none ∧ v.stallLive = false) :
    PlanView.Law { v with states := armStates starts v.plan v.states } := by
  cases hpl : v.plan with
  | held =>
    have e : armStates starts .held v.states = v.states := by simp [armStates]
    rw [e]
    have ha : ∀ x, x ≠ RecordState.queued → ¬ v.states.head? = some x := by
      intro x hx hh
      exact hx (hq x (List.mem_of_head? hh))
    constructor
    · exact hl
    · exact fun x hx => hq x (List.mem_of_mem_tail hx)
    · exact fun _ => hq
    · intro h
      simp at h
    · exact fun _ => hk
    · simp [PlanView.headIs, hp, ha .active (by simp), ha .finishing (by simp)]
    · simp [PlanView.headIs, hph, ha .active (by simp), ha .finishing (by simp)]
    · intro h
      simp [hp] at h
    · exact fun _ => hb
    · exact fun _ => hst
    · exact fun _ => hk
  | running =>
    cases hv : v.states with
    | nil =>
      constructor <;> simp_all [armStates, PlanView.headIs]
    | cons x xs =>
      cases hss : starts with
      | nil => simp [hss, hv] at hs
      | cons k ks =>
        have hx : x = .queued := hq x (by simp [hv])
        have hxs : ∀ y ∈ xs, y = .queued := fun y hy => hq y (by simp [hv, hy])
        have hlen : xs.length ≤ 7 := by
          rw [hv, List.length_cons] at hl
          omega
        subst hx
        cases k <;> constructor <;> first | exact hxs | simp_all [armStates, PlanView.headIs]

/-- R65: the states of the queue after its head has completed, before the new head arms. -/
theorem planView_completeRecord (s : State) (r : PassRecord) (rs : List PassRecord) (h : s.queue.records = r :: rs) :
    s.completeRecord.planView =
      { s.planView with
        states := armStates ((rs ++ if r.cycle then [r] else []).map PassRecord.start) s.queue.plan
          (rs.map PassRecord.state ++ if r.cycle then [RecordState.queued] else []) } := by
  unfold State.completeRecord
  rw [h]
  dsimp only
  rw [planView_armHead]
  cases hc : r.cycle <;> simp [State.planView, State.passInProgress]

/-- R92: the completion of a pass keeps the laws, whatever the head's marks. -/
theorem State.PlanLaw.completePass {s : State} (h : s.PlanLaw) (hp : s.passInProgress = true)
    (hb : s.engine.banks = missBanks) : s.completePass.PlanLaw := by
  have hv := (planLaw_iff s).1 h
  have hrun : s.queue.plan = .running := by
    cases hpl : s.queue.plan with
    | running => rfl
    | held =>
      have hall := hv.held hpl
      have hcur := hv.current
      have : s.planView.pass = true := hp
      rw [this] at hcur
      simp only [PlanView.headIs] at hcur
      cases hh : s.planView.states.head? with
      | none => simp [hh] at hcur
      | some x =>
        have := hall x (List.mem_of_head? hh)
        subst this
        simp [hh] at hcur
  obtain ⟨r, rs, hr⟩ : ∃ r rs, s.queue.records = r :: rs := by
    cases hr : s.queue.records with
    | cons r rs => exact ⟨r, rs, rfl⟩
    | nil =>
      have hcur := hv.current
      have : s.planView.pass = true := hp
      rw [this] at hcur
      simp [PlanView.headIs, State.planView, hr] at hcur
  unfold State.completePass
  dsimp only
  -- the state before the record is completed, with its entries logged
  generalize hu : (if s.markDue (s.engine.passCounter + 1) = true then
      (((s.setTracker s.tracker.endPass).setEngine
        { s.engine with passCounter := s.engine.passCounter + 1, pass := none }).append
          (Event.passEnded s.headTag (s.engine.passCounter + 1))).append (Event.passMark (s.engine.passCounter + 1))
    else ((s.setTracker s.tracker.endPass).setEngine
        { s.engine with passCounter := s.engine.passCounter + 1, pass := none }).append
          (Event.passEnded s.headTag (s.engine.passCounter + 1))) = u
  have huq : u.queue = s.queue := by
    rw [← hu]
    split <;> rfl
  have huv : u.planView =
      { s.planView with pass := false, phase := .none, stallTimer := none, stallLive := false } := by
    rw [← hu]
    split <;> rfl
  have hur : u.queue.records = r :: rs := by rw [huq, hr]
  have hcv := planView_completeRecord u r rs hur
  rw [huv, huq] at hcv
  have hqueued : ∀ x ∈ rs.map PassRecord.state ++ (if r.cycle then [RecordState.queued] else []), x = .queued := by
    intro x hx
    rw [List.mem_append] at hx
    cases hx with
    | inl hx => exact hv.behind x (by simpa [State.planView, hr] using hx)
    | inr hx =>
      cases hc : r.cycle <;> simp [hc] at hx
      exact hx
  have hlen : (rs.map PassRecord.state ++ (if r.cycle then [RecordState.queued] else [])).length ≤ 8 := by
    have := hv.bounded
    simp only [State.planView, hr, List.map_cons, List.length_cons, List.length_map] at this
    cases hc : r.cycle <;> simp <;> omega
  have hlaw := PlanView.Law.armed_of_queued
    (v := { s.planView with
      states := rs.map PassRecord.state ++ (if r.cycle then [RecordState.queued] else []), pass := false, phase := .none, stallTimer := none, stallLive := false })
    ((rs ++ if r.cycle then [r] else []).map PassRecord.start) hlen hqueued
    (by cases hc : r.cycle <;> simp) (hv.lock hrun) rfl hb rfl ⟨rfl, rfl⟩
  have hw : u.completeRecord.PlanLaw := by
    rw [planLaw_iff, hcv]
    exact hlaw
  split
  · refine hw.flush ?_ _
    exact congrArg PlanView.pass hcv
  · exact hw

theorem State.PlanLaw.completeIfSettled {s : State} (h : s.PlanLaw) : s.completeIfSettled.PlanLaw := by
  unfold State.completeIfSettled
  split
  · rename_i hc
    simp only [Bool.and_eq_true] at hc
    refine h.completePass hc.1.1 (h.pass.banks ?_)
    have hf := hc.1.2
    unfold State.headFinishing at hf
    unfold State.headActive
    cases hr : s.queue.records with
    | nil => rfl
    | cons r rs =>
      simp only [hr, decide_eq_true_eq] at hf
      simp [hf]
  · exact h

/-! ### Steps -/

/-- What is carried along the operations of a step of an ACTIVE pass: the laws, and that a pass still in progress is ACTIVE. -/
def State.activeLaw (s : State) : Prop := s.PlanLaw ∧ (s.passInProgress = true → s.headActive = true)

theorem State.activeLaw.congr {s t : State} (h : s.activeLaw) (e : t.planView = s.planView) : t.activeLaw := by
  refine ⟨h.1.congr e, fun hp => ?_⟩
  have h1 : t.passInProgress = s.passInProgress := congrArg PlanView.pass e
  rw [State.headActive_eq, e, ← State.headActive_eq]
  exact h.2 (h1 ▸ hp)

theorem State.activeLaw.abortPass {s : State} (h : s.activeLaw) (r) : (s.abortPass r).activeLaw := by
  cases hp : s.passInProgress with
  | true =>
    refine ⟨h.1.abortPass r, fun hq => ?_⟩
    have e := congrArg PlanView.pass (planView_abortPass_some s r hp)
    rw [show (s.abortPass r).passInProgress = false from e] at hq
    cases hq
  | false => exact h.congr (planView_abortPass_none s r hp)

theorem State.activeLaw.abortFor {s : State} (h : s.activeLaw) (r) : (s.abortFor r).activeLaw := by
  cases r with
  | none => exact h
  | some r => exact h.abortPass r

theorem State.activeLaw.raise {s : State} (h : s.activeLaw) (d) : (s.raise d).activeLaw :=
  State.activeLaw.abortFor (s := s.noteRaise d) (h.congr rfl) _

theorem State.activeLaw.log {s : State} (h : s.activeLaw) (e) : (s.log e).activeLaw :=
  State.activeLaw.abortFor (s := s.append e) (h.congr rfl) _

/-- With a pass in progress the laws do not read the banks of an ACTIVE record. -/
theorem State.activeLaw.putBank {s : State} (h : s.activeLaw) (hp : s.passInProgress = true) (i b) : (s.putBank i b).activeLaw := by
  have ha := h.2 hp
  have hv := (planLaw_iff s).1 h.1
  refine ⟨(planLaw_iff _).2 ?_, fun _ => ha⟩
  refine ⟨hv.bounded, hv.behind, hv.held, hv.armed, hv.underLock, hv.current, hv.phase, hv.position, ?_, hv.stall, hv.lock⟩
  intro hn
  rw [State.headActive_eq] at ha
  have : (s.putBank i b).planView.headIs .active = s.planView.headIs .active := rfl
  rw [this, ha] at hn
  cases hn

theorem State.activeLaw.arrive {s : State} (h : s.activeLaw) (m x i) : (State.arrive m x s i).activeLaw := by
  unfold State.arrive
  split
  · exact h
  · rename_i p hp
    have hpp : s.passInProgress = true := by simp [State.passInProgress, hp]
    dsimp only
    split
    · unfold State.arriveAt
      dsimp only
      generalize hu : (if m = true then _ else _ : State) = u
      have hul : u.activeLaw := by
        rw [← hu]
        have hb := h.putBank hpp i (s.arrivalCodes i p.racking (s.selectionPoint i x p.dir)).1
        split
        · refine hb.congr ?_
          unfold State.planView
          simp [State.passInProgress, State.putBank, hp]
        · exact hb
      split
      · exact hul.raise _
      · exact hul
    · exact h

theorem State.activeLaw.foldl {α : Type} (g : State → α → State) (hg : ∀ s a, s.activeLaw → (g s a).activeLaw) (l : List α)
    {s : State} (h : s.activeLaw) : (l.foldl g s).activeLaw := by
  induction l generalizing s with
  | nil => exact h
  | cons a l ih => exact ih (hg s a h)

theorem State.activeLaw.arrivals {s : State} (h : s.activeLaw) (m x) : (s.arrivals m x).activeLaw :=
  State.activeLaw.foldl _ (fun _ i k => k.arrive m x i) _ h

theorem State.activeLaw.measurePeriod {s : State} (h : s.activeLaw) : s.measurePeriod.activeLaw := by
  unfold State.measurePeriod
  split
  · exact h
  · dsimp only
    split
    · refine State.activeLaw.raise ?_ _
      exact h.congr rfl
    · exact h.congr rfl

/-- The laws through the feeder unit's handling of a step, ACTIVE or FINISHING. -/
theorem State.PlanLaw.driveTake {s : State} (h : s.PlanLaw) (i f r p) : (s.driveTake i f r p).PlanLaw := by
  unfold State.driveTake
  split
  · refine State.PlanLaw.abortPass (h.congr ?_) _
    simp
  · exact h.congr (by simp)

theorem State.PlanLaw.reach {s : State} (h : s.PlanLaw) (x i n) : (State.reach x i n s).PlanLaw := by
  induction n generalizing s with
  | zero => exact h
  | succ n ih =>
    unfold State.reach
    split
    · exact h
    · split
      · split
        · exact h.driveTake _ _ _ _
        · exact h
      all_goals exact h
    · split
      · split
        · exact h.congr (by simp)
        · exact ih (h.congr (by simp))
      · exact h

theorem State.PlanLaw.feederStep {s : State} (h : s.PlanLaw) (x) : (s.feederStep x).PlanLaw := by
  have hc : s.countdowns.PlanLaw := by
    unfold State.countdowns
    exact State.PlanLaw.abortFor (h.congr (planView_countdownFold _ (s, none))) _
  unfold State.feederStep
  dsimp only
  split
  · have : ∀ (l : List Nat) (t : State), t.PlanLaw → (l.foldl (State.reachIfPass x) t).PlanLaw := by
      intro l
      induction l with
      | nil => exact fun _ k => k
      | cons i l ih =>
        intro t k
        refine ih _ ?_
        unfold State.reachIfPass
        split
        · exact k.reach x i 2
        · exact k
    exact this _ _ hc
  · exact hc

theorem State.activeLaw.driveTake {s : State} (h : s.activeLaw) (i f r p) : (s.driveTake i f r p).activeLaw := by
  unfold State.driveTake
  split
  · refine State.activeLaw.abortPass (h.congr ?_) _
    simp
  · exact h.congr (by simp)

theorem State.activeLaw.reach {s : State} (h : s.activeLaw) (x i n) : (State.reach x i n s).activeLaw := by
  induction n generalizing s with
  | zero => exact h
  | succ n ih =>
    unfold State.reach
    split
    · exact h
    · split
      · split
        · exact h.driveTake _ _ _ _
        · exact h
      all_goals exact h
    · split
      · split
        · exact h.congr (by simp)
        · exact ih (h.congr (by simp))
      · exact h

theorem State.activeLaw.feederStep {s : State} (h : s.activeLaw) (x) : (s.feederStep x).activeLaw := by
  have hc : s.countdowns.activeLaw := by
    unfold State.countdowns
    exact State.activeLaw.abortFor (h.congr (planView_countdownFold _ (s, none))) _
  unfold State.feederStep
  dsimp only
  split
  · refine State.activeLaw.foldl _ (fun t i k => ?_) _ hc
    unfold State.reachIfPass
    split
    · exact k.reach x i 2
    · exact k
  · exact hc

theorem State.PlanLaw.exitPass {s : State} (h : s.activeLaw) (hp : s.passInProgress = true) : s.exitPass.PlanLaw := by
  have ha := h.2 hp
  have hv := (planLaw_iff s).1 h.1
  have hst : ∃ xs, s.planView.states = .active :: xs := by
    rw [State.headActive_eq] at ha
    unfold PlanView.headIs at ha
    cases hs : s.planView.states with
    | nil => simp [hs] at ha
    | cons x xs =>
      simp only [hs, List.head?_cons, Option.some.injEq, decide_eq_true_eq] at ha
      exact ⟨xs, by rw [ha]⟩
  obtain ⟨xs, hxs⟩ := hst
  have hq : ∀ y ∈ xs, y = .queued := fun y hy => hv.behind y (by rw [hxs]; exact hy)
  have hrun : s.queue.plan = .running := by
    cases hpl : s.queue.plan with
    | running => rfl
    | held =>
      have := hv.held hpl .active (by simp [hxs])
      cases this
  have hlock := hv.lock hrun
  unfold State.exitPass
  dsimp only
  split
  · rw [planLaw_iff]
    have hview : ((s.clearBanks.setHeadState .finishing).setTracker
        { s.clearBanks.tracker with phase := .finishing }).planView =
        { s.planView with states := .finishing :: xs, banks := missBanks, phase := .finishing } := by
      unfold State.setHeadState State.mapHead
      cases hr : s.queue.records with
      | nil => simp [State.planView, hr] at hxs
      | cons r rs =>
        have hrs : rs.map PassRecord.state = xs := by
          simp only [State.planView, hr, List.map_cons, List.cons.injEq] at hxs
          exact hxs.2
        unfold State.planView
        simp [State.clearBanks, hr, hrs, State.passInProgress, missBanks]
    rw [hview]
    have hlen : xs.length ≤ 7 := by
      have := hv.bounded
      rw [hxs, List.length_cons] at this
      omega
    have hpv : s.planView.pass = true := hp
    have hlock' : s.planView.locked = true := hlock
    have hplan : s.planView.plan = .running := hrun
    refine ⟨Nat.succ_le_succ hlen, hq, ?_, by simp, fun _ => hlock', ?_, ?_, hv.position, by simp, hv.stall, fun _ => hlock'⟩
    · simp [hplan]
    · simpa [PlanView.headIs] using hpv
    · simp [PlanView.headIs]
  · refine State.PlanLaw.completePass (s := s.clearBanks) ?_ hp rfl
    rw [planLaw_iff]
    exact ⟨hv.bounded, hv.behind, hv.held, hv.armed, hv.underLock, hv.current, hv.phase, hv.position, fun _ => rfl,
      hv.stall, hv.lock⟩

theorem State.PlanLaw.activeAdvance {s : State} (h : s.activeLaw) (d x) : (s.activeAdvance d x).PlanLaw := by
  unfold State.activeAdvance
  dsimp only
  have h1 := h.measurePeriod
  have h2 := h1.arrivals true x
  have h3 : ((s.measurePeriod.arrivals true x).feederStep x).markTravel.activeLaw :=
    (h2.feederStep x).congr (planView_markTravel _)
  split
  · split
    · split
      · rename_i hc
        simp only [Bool.and_eq_true] at hc
        exact State.PlanLaw.exitPass h3 hc.1
      · exact h3.1
    · exact h2.1
  · exact h1.1

theorem State.PlanLaw.advance {s : State} (h : s.PlanLaw) (p x) (hp : s.engine.pass = some p) : (s.advance p x).PlanLaw := by
  unfold State.advance
  dsimp only
  have e : (s.setEngine { s.engine with pass := some { p with furthestX := x } }).planView = s.planView := by
    unfold State.planView
    simp [State.passInProgress, hp]
  split
  · rename_i ha
    refine State.PlanLaw.activeAdvance ?_ _ _
    refine State.activeLaw.congr ⟨h, fun _ => ha⟩ e
  · exact State.PlanLaw.feederStep (h.congr e) x

theorem State.PlanLaw.reArrival {s : State} (h : s.PlanLaw) (x) : (s.reArrival x).PlanLaw := by
  unfold State.reArrival
  split
  · rename_i ha
    exact (State.activeLaw.arrivals (s := s) ⟨h, fun _ => ha⟩ false x).1
  · exact h

theorem State.PlanLaw.retreat {s : State} (h : s.PlanLaw) (p x) : (s.retreat p x).PlanLaw := by
  unfold State.retreat
  dsimp only
  split
  · exact h.raise _
  · exact h

/-- R79: a start from an ARMED head in a valid position keeps the laws. -/
theorem State.PlanLaw.startPass {s : State} (h : s.PlanLaw) (r : PassRecord) (rs : List PassRecord) (x : Int)
    (hr : s.queue.records = r :: rs) (hrun : s.queue.plan = .running)
    (hpos : s.tracker.position.valid = true) : (s.startPass r x).PlanLaw := by
  have hv := (planLaw_iff s).1 h
  unfold State.startPass
  dsimp only
  generalize hu : ((s.mapHead fun h : PassRecord => { h with
      state := RecordState.active
      entries := h.entries.map fun e => { e with actions := e.actions.map fun a => { a with mark := Mark.notReached } } }).setEngine
        _ : State) = u
  have huv : (u.setTracker { u.tracker with
      phase := .active, lastAdvance := some u.tracker.clock, stallTimer := some u.stallTime, stallLive := false }).planView =
      { s.planView with states := .active :: rs.map PassRecord.state, pass := true, phase := .active, stallTimer := some u.stallTime, stallLive := false } := by
    rw [← hu]
    unfold State.planView State.mapHead
    simp [hr, State.passInProgress]
  have hlaw : (u.setTracker { u.tracker with
      phase := .active, lastAdvance := some u.tracker.clock, stallTimer := some u.stallTime, stallLive := false }).activeLaw := by
    have hact : ({ s.planView with states := .active :: rs.map PassRecord.state, pass := true, phase := .active, stallTimer := some u.stallTime, stallLive := false } : PlanView).headIs .active = true := by
      simp [PlanView.headIs]
    refine ⟨?_, fun _ => by rw [State.headActive_eq, huv]; exact hact⟩
    rw [planLaw_iff, huv]
    have hb := hv.bounded
    simp only [State.planView, hr, List.map_cons, List.length_cons] at hb
    have hplan : s.planView.plan = .running := hrun
    have hlk : s.planView.locked = true := hv.lock hrun
    refine ⟨by simpa using hb, ?_, ?_, by simp, fun _ => hlk, ?_, ?_, fun _ => hpos, ?_, by simp, fun _ => hlk⟩
    · intro y hy
      exact hv.behind y (by simpa [State.planView, hr] using hy)
    · simp [hplan]
    · simp [PlanView.headIs]
    · simp [PlanView.headIs]
    · intro hn
      rw [hact] at hn
      cases hn
  exact ((hlaw.log _).arrivals true x).1

theorem State.PlanLaw.entryCrossing {s : State} (h : s.PlanLaw) (d x) (hp : s.engine.pass = none)
    (hrun : s.queue.plan = .running) (hpos : s.tracker.position.valid = true) : (s.entryCrossing d x).PlanLaw := by
  have hn : s.passInProgress = false := by simp [State.passInProgress, hp]
  have fatal : ∀ e r, ((s.raise e).abortHead r).PlanLaw := fun e r =>
    (h.raise e).abortHead (passInProgress_raise_of_none hn e) r
  unfold State.entryCrossing
  split
  · exact h.raise _
  · rename_i r rs hr
    split
    · exact h
    · exact h
    · exact h
    · split
      · exact fatal _ _
      · split
        · exact fatal _ _
        · split
          · exact h.startPass r rs x hr hrun hpos
          · exact fatal _ _

theorem State.PlanLaw.restartStall {s : State} (h : s.PlanLaw) : s.restartStall.PlanLaw := by
  unfold State.restartStall
  split
  · exact h
  · rename_i hph
    rw [planLaw_iff] at h ⊢
    have hpass : s.planView.pass = true := by
      cases hb : s.planView.pass with
      | true => rfl
      | false =>
        have hc := h.current
        have hp := h.phase
        rw [hb] at hc
        rw [(Bool.or_eq_false_iff.1 hc.symm).1, (Bool.or_eq_false_iff.1 hc.symm).2] at hp
        exact absurd hp hph
    refine ⟨h.bounded, h.behind, h.held, h.armed, h.underLock, h.current, h.phase, h.position, h.banks, ?_, h.lock⟩
    intro hn
    have : s.planView.pass = false := hn
    rw [hpass] at this
    cases this

/-- A step event in a valid position keeps the plan's laws. -/
theorem State.PlanLaw.carriageStep {s : State} (h : s.PlanLaw) (d x) (hpos : s.tracker.position.valid = true) :
    (s.carriageStep d x).PlanLaw := by
  unfold State.carriageStep
  dsimp only
  have h0 : (s.setTracker { s.tracker with lastDir := d }).restartStall.PlanLaw := by
    refine State.PlanLaw.restartStall ?_
    exact h.congr rfl
  have hf : RunFrame s (s.setTracker { s.tracker with lastDir := d }).restartStall := by
    refine RunFrame.trans ?_ (RunFrame.restartStall _)
    exact RunFrame.setTracker _ _ rfl rfl rfl rfl rfl rfl rfl
  generalize (s.setTracker { s.tracker with lastDir := d }).restartStall = t at h0 hf ⊢
  have hpt : t.tracker.position.valid = true := by rw [hf.position]; exact hpos
  split
  · rename_i hp
    unfold State.noPassStep
    split
    · rename_i hc
      exact h0.entryCrossing d x hp hc.2 hpt
    · exact h0
  · rename_i p hp
    split
    · split
      · exact h0.advance p x hp
      · exact h0.reArrival x
    · exact h0.retreat p x

end Sys2Proof.Machine
end

