-- ==== Sys2Proof/Laws/Link.lean ====
section
/-! SUPPORT. How a request is taken, in lemmas: what its frame does in each state of the receiver, and the rule by which a
property of states passes through a request. -/

namespace Sys2Proof.Machine

/-- R171: in REPLY a request's characters are discarded. -/
theorem State.addressed_busy {α : Type} {s : State} (h : s.link.rx.busy = true) (k) (p : Option α) (o) :
    s.addressed k p o = s := by
  unfold State.addressed
  rw [if_pos h]

/-- R172: with no address an addressed frame is foreign. -/
theorem State.addressed_noAddress {α : Type} {s : State} (h : s.link.rx.busy = false) (k : s.addressParityLive = true) (b)
    (p : Option α) (o) : s.addressed b p o = s.setRx .hunt := by
  unfold State.addressed
  rw [if_neg (by rw [h]; decide), if_pos k]

/-- R175: a well-formed request goes to its owner and is answered. -/
theorem State.addressed_some {α : Type} {s : State} (h : s.listening) (k) (a : α) (o) :
    s.addressed k (some a) o = (o a s).1.sendReply k (o a s).2 := by
  unfold State.addressed
  rw [if_neg (by rw [h.1]; decide), if_neg (by rw [h.2]; decide)]
  rfl

/-- R175: a malformed body is answered BAD_REQUEST. -/
theorem State.addressed_none {α : Type} {s : State} (h : s.listening) (k) (o : α → State → State × Answer) :
    s.addressed k none o = (s.raise (.frameFault .body (some k))).sendReply k (refuse .badRequest) := by
  unfold State.addressed
  rw [if_neg (by rw [h.1]; decide), if_neg (by rw [h.2]; decide)]
  rfl

theorem State.broadcast_busy {α : Type} {s : State} (h : s.link.rx.busy = true) (k) (p : Option α) (o) :
    s.broadcast k p o = s := by
  unfold State.broadcast
  rw [if_pos h]

/-- R177: a well-formed broadcast acts and is not answered. -/
theorem State.broadcast_some {α : Type} {s : State} (h : s.link.rx.busy = false) (k) (a : α) (o) :
    s.broadcast k (some a) o = (o a s).1.setRx .hunt := by
  unfold State.broadcast
  rw [if_neg (by rw [h]; decide)]

theorem State.broadcast_none {α : Type} {s : State} (h : s.link.rx.busy = false) (k) (o : α → State → State × Answer) :
    s.broadcast k none o = (s.raise (.frameFault .body (some k))).setRx .hunt := by
  unfold State.broadcast
  rw [if_neg (by rw [h]; decide)]

/-- A property passes through an addressed request when it passes through the receiver's updates, the reply, a raise and the
owner. -/
theorem State.addressed_keeps {α : Type} (P : State → Prop) (hrx : ∀ t r, P t → P (t.setRx r))
    (hreply : ∀ t k a, P t → P (t.sendReply k a)) (hraise : ∀ t d, P t → P (t.raise d)) {s : State} (h : P s) (k)
    (p : Option α) (o : α → State → State × Answer) (ho : ∀ a, p = some a → P (o a s).1) : P (s.addressed k p o) := by
  unfold State.addressed
  split
  · exact h
  · split
    · exact hrx _ _ h
    · unfold State.judgeRequest
      split
      · exact hreply _ _ _ (hraise _ _ h)
      · exact hreply _ _ _ (ho _ rfl)

/-- The same of a broadcast. -/
theorem State.broadcast_keeps {α : Type} (P : State → Prop) (hrx : ∀ t r, P t → P (t.setRx r))
    (hraise : ∀ t d, P t → P (t.raise d)) {s : State} (h : P s) (k)
    (p : Option α) (o : α → State → State × Answer) (ho : ∀ a, p = some a → P (o a s).1) : P (s.broadcast k p o) := by
  unfold State.broadcast
  split
  · exact h
  · split
    · exact hrx _ _ (hraise _ _ h)
    · exact hrx _ _ (ho _ rfl)

/-- The same of a request that may come either way. -/
theorem State.request_keeps {α : Type} (P : State → Prop) (hrx : ∀ t r, P t → P (t.setRx r))
    (hreply : ∀ t k a, P t → P (t.sendReply k a)) (hraise : ∀ t d, P t → P (t.raise d)) {s : State} (h : P s) (d) (k)
    (p : Option α) (o : α → State → State × Answer) (ho : ∀ a, p = some a → P (o a s).1) : P (s.request d k p o) := by
  cases d with
  | addressed => exact State.addressed_keeps P hrx hreply hraise h k p o ho
  | broadcast => exact State.broadcast_keeps P hrx hraise h k p o ho

/-! ### The reply (R154, R175) -/

theorem ConditionMonitor.clearCaptured_record (m : ConditionMonitor) (c : Cond) :
    m.clearCaptured.record c = { m.record c with captured := false } := by
  exact getD_mapTable (fun r : CondRecord => { r with captured := false }) m.records c.num (CondRecord.mk none false)

@[simp] theorem State.sendReply_rx (s : State) (k a) :
    (s.sendReply k a).link.rx = .reply (Reply.mk s.link.address k a.result s.summary a.data) := rfl
@[simp] theorem State.sendReply_monitor (s : State) (k a) : (s.sendReply k a).monitor = s.monitor.clearCaptured := rfl
@[simp] theorem State.sendReply_tracker (s : State) (k a) : (s.sendReply k a).tracker = s.tracker := rfl
@[simp] theorem State.sendReply_store (s : State) (k a) : (s.sendReply k a).store = s.store := rfl
@[simp] theorem State.sendReply_queue (s : State) (k a) : (s.sendReply k a).queue = s.queue := rfl
@[simp] theorem State.sendReply_engine (s : State) (k a) : (s.sendReply k a).engine = s.engine := rfl
@[simp] theorem State.sendReply_feeders (s : State) (k a) : (s.sendReply k a).feeders = s.feeders := rfl
@[simp] theorem State.sendReply_yarn (s : State) (k a) : (s.sendReply k a).yarn = s.yarn := rfl
@[simp] theorem State.sendReply_settings (s : State) (k a) : (s.sendReply k a).settings = s.settings := rfl
@[simp] theorem State.sendReply_pending (s : State) (k a) : (s.sendReply k a).pending = s.pending := rfl
@[simp] theorem State.sendReply_freeCount (s : State) (k a) : (s.sendReply k a).freeCount = s.freeCount := rfl

end Sys2Proof.Machine
end

