-- ==== Sys2Proof/Laws/Operations.lean ====
section
/-! SUPPORT. The shared operations of the condition monitor and of the pass, each said once: an append and a raise with room and
without, the raise that hands nothing over, the resolution, the flush and the abort as one update. -/

namespace Sys2Proof.Machine

/-! ### Conditions -/

theorem Cond.mem_all (c : Cond) : c ∈ Cond.all := by cases c <;> decide

/-- A test over the 23 conditions. -/
theorem Cond.any_all (p : Cond → Bool) : Cond.all.any p = true ↔ ∃ c, p c = true := by
  rw [List.any_eq_true]
  exact ⟨fun ⟨c, _, h⟩ => ⟨c, h⟩, fun ⟨c, h⟩ => ⟨c, c.mem_all, h⟩⟩

/-! ### Appends -/

theorem State.full_of_room {s : State} (h : s.room 1) : s.monitor.full = false := by
  unfold State.room at h
  unfold ConditionMonitor.full Config.eventCapacity
  simp
  omega

/-- R163: an append with room. -/
theorem State.append_room {s : State} (h : s.room 1) (e : Event) :
    s.append e = { s with monitor := { s.monitor with events := s.monitor.events ++ [s.entry e] } } := by
  unfold State.append ConditionMonitor.append
  rw [full_of_room h]
  rfl

/-- An append with room hands nothing over. -/
theorem State.log_room {s : State} (h : s.room 1) (e : Event) :
    s.log e = { s with monitor := { s.monitor with events := s.monitor.events ++ [s.entry e] } } := by
  unfold State.log
  rw [append_room h, full_of_room h]
  rfl

/-- An append changes no condition but EVENT_OVERRUN (R165). -/
theorem ConditionMonitor.append_record_ne (m : ConditionMonitor) (e : Event) {c : Cond} (h : c ≠ .eventOverrun) :
    (m.append e).record c = m.record c := by
  unfold ConditionMonitor.append
  split
  · exact ConditionMonitor.record_putRecord_ne _ _ h
  · rfl

/-- A raise changes no condition but its own and EVENT_OVERRUN (R150, R165). -/
theorem ConditionMonitor.noteRaise_record_ne (m : ConditionMonitor) (d : Detail) {c : Cond} (h : c ≠ d.cond)
    (k : c ≠ .eventOverrun) : (m.noteRaise d).record c = m.record c := by
  unfold ConditionMonitor.noteRaise
  dsimp only
  split
  · exact ConditionMonitor.record_putRecord_ne _ _ h
  · rw [append_record_ne _ _ k, ConditionMonitor.record_putRecord_ne _ _ h]

/-- A captured flag stays set under appends and raises (R150). -/
theorem ConditionMonitor.Grows.captured {m n : ConditionMonitor} (h : m.Grows n) {c : Cond}
    (l : (m.record c).captured = true) : (n.record c).captured = true := by
  have put : ∀ (m : ConditionMonitor) (b : Cond) (x), (m.record c).captured = true →
      ((m.putRecord b (CondRecord.mk x true)).record c).captured = true := by
    intro m b x h
    rw [ConditionMonitor.record_putRecord]
    split
    · rfl
    · exact h
  have app : ∀ (m : ConditionMonitor) (e), (m.record c).captured = true → ((m.append e).record c).captured = true := by
    intro m e h
    unfold ConditionMonitor.append
    split
    · exact put _ _ _ h
    · exact h
  induction h with
  | refl => exact l
  | append _ e ih => exact app _ _ ih
  | raise _ d ih =>
    unfold ConditionMonitor.noteRaise
    dsimp only
    split
    · exact put _ _ _ ih
    · exact app _ _ (put _ _ _ ih)

/-- R150: a raise sets its captured flag. -/
theorem ConditionMonitor.noteRaise_captured (m : ConditionMonitor) (d : Detail) :
    ((m.noteRaise d).record d.cond).captured = true := by
  unfold ConditionMonitor.noteRaise
  dsimp only
  split
  · simp
  · exact ConditionMonitor.Grows.captured (.append (.refl _) _) (by simp)

/-! ### Raises and aborts that find no pass -/

theorem State.abortPass_noPass {s : State} (h : s.engine.pass = none) (r) : s.abortPass r = s := by
  simp [State.abortPass, h]

theorem State.abortFor_noPass {s : State} (h : s.engine.pass = none) (r) : s.abortFor r = s := by
  cases r with
  | none => rfl
  | some r => exact abortPass_noPass h r

/-- R99: with no pass a raise hands nothing over. -/
theorem State.raise_noPass {s : State} (h : s.engine.pass = none) (d) : s.raise d = s.noteRaise d :=
  abortFor_noPass (s := s.noteRaise d) h _

theorem State.log_noPass {s : State} (h : s.engine.pass = none) (e) : s.log e = s.append e :=
  abortFor_noPass (s := s.append e) h _

/-- R151: a raise with room whose condition is neither pass-fatal nor routed hands nothing over. -/
theorem State.raise_quiet {s : State} (h : s.room 1) (d) (f : d.cond.fatalReason = none) (k : s.inStopRoute d.cond = false) :
    s.raise d = s.noteRaise d := by
  unfold State.raise State.abortReason
  have o : s.monitor.overruns d = false := by
    unfold ConditionMonitor.overruns
    rw [full_of_room h]
    simp
  rw [f, k, o]
  rfl

/-- R151: a raise of a condition that is pass-fatal or routed hands an abort over. -/
theorem State.raise_handed (s : State) (d) (h : d.cond.fatalReason ≠ none ∨ s.inStopRoute d.cond = true) :
    ∃ r, s.raise d = (s.noteRaise d).abortPass r := by
  unfold State.raise State.abortReason
  cases hf : d.cond.fatalReason with
  | some r => exact ⟨r, rfl⟩
  | none =>
    have k := h.resolve_left (by simp [hf])
    simp only [k, if_true]
    exact ⟨_, rfl⟩

/-! ### The resolution, the flush and the abort -/

/-- What a resolution can change: the feeder unit, the yarn monitor and the records' marks (R119, R59, R132). -/
structure Resolves (s t : State) : Prop where
  same : t = { s with feeders := t.feeders, yarn := t.yarn, queue := { s.queue with records := t.queue.records } }
  tags : t.queue.records.map (fun r => (r.tag, r.state)) = s.queue.records.map fun r => (r.tag, r.state)
  channels : t.queue.records.map PassRecord.channels = s.queue.records.map PassRecord.channels

namespace Resolves

theorem refl (s : State) : Resolves s s := ⟨rfl, rfl, rfl⟩

theorem trans {s t u : State} (h : Resolves s t) (k : Resolves t u) : Resolves s u where
  same := by
    have e := k.same
    have d := h.same
    rw [e, d]
  tags := k.tags.trans h.tags
  channels := k.channels.trans h.channels

theorem store {s t : State} (h : Resolves s t) : t.store = s.store := (congrArg State.store h.same :)

theorem pending {s t : State} (h : Resolves s t) : t.pending = s.pending := (congrArg State.pending h.same :)

theorem tracker {s t : State} (h : Resolves s t) : t.tracker = s.tracker := (congrArg State.tracker h.same :)

theorem engine {s t : State} (h : Resolves s t) : t.engine = s.engine := (congrArg State.engine h.same :)

theorem monitor {s t : State} (h : Resolves s t) : t.monitor = s.monitor := (congrArg State.monitor h.same :)

theorem link {s t : State} (h : Resolves s t) : t.link = s.link := (congrArg State.link h.same :)

theorem settings {s t : State} (h : Resolves s t) : t.settings = s.settings := (congrArg State.settings h.same :)

theorem freeCount {s t : State} (h : Resolves s t) : t.freeCount = s.freeCount := (congrArg State.freeCount h.same :)

theorem putLatch (s : State) (i l) : Resolves s (s.putLatch i l) := ⟨rfl, rfl, rfl⟩

theorem putFeeder (s : State) (f v) : Resolves s (s.putFeeder f v) := by
  unfold State.putFeeder
  dsimp only
  split <;> exact ⟨rfl, rfl, rfl⟩

theorem mapHead (s : State) (g : PassRecord → PassRecord) (h : ∀ r, (g r).tag = r.tag ∧ (g r).state = r.state)
    (k : ∀ r, (g r).channels = r.channels) : Resolves s (s.mapHead g) := by
  refine ⟨rfl, ?_, ?_⟩
  all_goals
    unfold State.mapHead
    cases s.queue.records with
    | nil => rfl
    | cons r rs => simp [h r, k r]

theorem channels_remark (r : PassRecord) (i : Nat) (o n : Mark) :
    PassRecord.channels { r with entries := r.entries.map fun e =>
      if e.system = i then { e with actions := markFirst o n e.actions } else e } = r.channels := by
  unfold PassRecord.channels
  dsimp only
  rw [List.flatMap_map]
  congr 1
  funext e
  split <;> rfl

theorem settle (s : State) (i m) : Resolves s (s.settle i m) :=
  mapHead _ _ (fun _ => ⟨rfl, rfl⟩) fun r => channels_remark r i _ _

theorem resolveLatch (s : State) (i) : Resolves s (s.resolveLatch i) := by
  unfold State.resolveLatch
  split
  · exact ((putFeeder _ _ _).trans (putLatch _ _ _)).trans (settle _ _ _)
  · exact ((putFeeder _ _ _).trans (putLatch _ _ _)).trans (settle _ _ _)
  all_goals exact refl _

theorem resolveAll (s : State) : Resolves s s.resolveAll := by
  unfold State.resolveAll
  generalize List.range 4 = l
  induction l generalizing s with
  | nil => exact refl s
  | cons i l ih => exact (resolveLatch s i).trans (ih _)

end Resolves

/-- The store after the references of a list of records are returned depends on their channels alone. -/
theorem dropAll_channels (rs qs : List PassRecord) (h : rs.map PassRecord.channels = qs.map PassRecord.channels)
    (st : Vector Line 64) : rs.foldl dropRefs st = qs.foldl dropRefs st := by
  induction rs generalizing qs st with
  | nil =>
    cases qs with
    | nil => rfl
    | cons q qs => simp at h
  | cons r rs ih =>
    cases qs with
    | nil => simp at h
    | cons q qs =>
      simp only [List.map_cons, List.cons.injEq] at h
      simp only [List.foldl_cons]
      have e : dropRefs st r = dropRefs st q := by
        unfold dropRefs
        rw [h.1]
      rw [e, ih qs h.2]

theorem State.headTag_map (s t : State) (h : t.queue.records.map (fun r => (r.tag, r.state)) = s.queue.records.map fun r => (r.tag, r.state)) :
    t.headTag = s.headTag := by
  unfold State.headTag
  cases hs : s.queue.records <;> cases ht : t.queue.records <;> simp_all

/-- R66: a flush as one update. -/
theorem State.flush_eq (s : State) (c : FlushCause) :
    s.flush c = { s with
      store := s.queue.records.foldl dropRefs s.store
      queue := PassQueue.mk [] .held s.feeders.project
      monitor := s.monitor.append (.queueFlushed s.queue.records.length c) } := rfl

theorem State.resolveLatch_setEngine (s : State) (v) (i) : (s.setEngine v).resolveLatch i = (s.resolveLatch i).setEngine v := by
  have e : (s.setEngine v).latch i = s.latch i := rfl
  have put : ∀ f w, (s.setEngine v).putFeeder f w = (s.putFeeder f w).setEngine v := by
    intro f w
    unfold State.putFeeder
    have e : (s.setEngine v).feeder f = s.feeder f := rfl
    dsimp only
    rw [e]
    split <;> rfl
  unfold State.resolveLatch
  rw [e]
  cases h : (s.latch i).state with
  | opened => rfl
  | closed f => rfl
  | closing f p =>
    dsimp only [State.returnFeeder]
    rw [put]
    rfl
  | opening f =>
    dsimp only [State.faultFeeder]
    rw [put]
    rfl

theorem State.resolveAll_setEngine (s : State) (v) : (s.setEngine v).resolveAll = s.resolveAll.setEngine v := by
  unfold State.resolveAll
  generalize List.range 4 = l
  induction l generalizing s with
  | nil => rfl
  | cons i l ih => rw [List.foldl_cons, List.foldl_cons, resolveLatch_setEngine, ih]

/-- R96: an abort as one update; the feeder unit and the yarn monitor stand as the resolution leaves them. -/
theorem State.abortPass_eq (s : State) (r : AbortReason) (p : Pass) (h : s.engine.pass = some p) :
    s.abortPass r = { s with
      store := s.queue.records.foldl dropRefs s.store
      queue := PassQueue.mk [] .held s.resolveAll.feeders.project
      engine := { s.engine with pass := none, banks := Vector.replicate 4 (BankPair.mk .miss .miss) }
      feeders := s.resolveAll.feeders
      yarn := s.resolveAll.yarn
      tracker := s.tracker.endPass
      monitor := (s.monitor.append (.passAborted s.headTag r p.furthestPair)).append
        (.queueFlushed s.queue.records.length .abort) } := by
  have R := Resolves.resolveAll s
  have e : s.clearBanks.resolveAll = s.resolveAll.clearBanks := by
    unfold State.clearBanks
    rw [resolveAll_setEngine, R.engine]
  have hl : s.resolveAll.queue.records.length = s.queue.records.length := by
    have := congrArg List.length R.tags
    simpa using this
  have hd := dropAll_channels _ _ R.channels s.store
  have u : s.abortPass r = State.flush (State.setEngine (State.append (s.resolveAll.clearBanks.setTracker
      s.resolveAll.clearBanks.tracker.endPass) (.passAborted s.headTag r p.furthestPair))
      { s.resolveAll.clearBanks.engine with pass := none }) .abort := by
    unfold State.abortPass
    rw [h]
    dsimp only
    rw [e]
    rfl
  rw [u, flush_eq]
  have st := R.store
  have pe := R.pending
  have tr := R.tracker
  have en := R.engine
  have mo := R.monitor
  have li := R.link
  have se := R.settings
  have fr := R.freeCount
  generalize s.resolveAll = t at *
  apply State.eq_of_blocks
  · exact pe
  · exact congrArg Tracker.endPass tr
  · change t.queue.records.foldl dropRefs t.store = _
    rw [st, hd]
  · rfl
  · change ({ t.engine with pass := none, banks := Vector.replicate 4 (BankPair.mk .miss .miss) } : Engine) = _
    rw [en]
  · rfl
  · rfl
  · change (t.monitor.append _).append (.queueFlushed t.queue.records.length .abort) = _
    rw [mo, hl]
  · exact li
  · exact se
  · exact fr

/-- R150, R96: a raise touches the condition monitor alone, or the pass has ended by its abort and every bank presents MISS. -/
theorem State.raise_cases (s : State) (d : Detail) :
    (∃ m, s.raise d = s.setMonitor m)
      ∨ ((s.raise d).engine.pass = none ∧ ∀ i, (s.raise d).bank i = BankPair.mk .miss .miss) := by
  unfold State.raise
  cases s.abortReason d (s.monitor.overruns d) with
  | none => exact .inl ⟨_, rfl⟩
  | some r =>
    show (∃ m, (s.noteRaise d).abortPass r = _) ∨ _
    cases hp : (s.noteRaise d).engine.pass with
    | none => rw [State.abortPass_noPass hp]; exact .inl ⟨_, rfl⟩
    | some p =>
      right
      show ((s.noteRaise d).abortPass r).engine.pass = none ∧ ∀ i, ((s.noteRaise d).abortPass r).bank i = _
      rw [State.abortPass_eq _ r p hp]
      exact ⟨rfl, fun i => getD_replicate _ _⟩

end Sys2Proof.Machine
end

