-- ==== Sys2Proof/Laws/Admission.lean ====
section
/-! SUPPORT. The checks of admission as facts about the record, and what a walk that passes makes of the projection (R47 to R58). -/

namespace Sys2Proof.Machine

/-- Check 2 passes exactly where no entry is at fault; it names a system. -/
theorem badSystem_iff (n : Nat) (seen : List Nat) (es : List SystemEntry) :
    (badSystem n seen es = none ↔ ¬ ((∃ e ∈ es, n ≤ e.system) ∨ ¬ (es.map SystemEntry.system).Nodup
      ∨ (∃ e ∈ es, e.mode = .idle ∧ (e.front ≠ none ∨ e.back ≠ none)) ∨ ∃ e ∈ es, e.system ∈ seen))
    ∧ ∀ j, badSystem n seen es = some j → ∃ i, j = rejectSystem .badSystem i := by
  induction es generalizing seen with
  | nil => simp [badSystem]
  | cons e es ih =>
    unfold badSystem
    split
    · rename_i hc
      refine ⟨⟨by simp, fun h => ?_⟩, fun j h => ⟨_, (Option.some.inj h).symm⟩⟩
      exfalso; apply h
      rcases hc with hc | hc | hc
      · exact .inl ⟨e, by simp, hc⟩
      · exact .inr (.inr (.inr ⟨e, by simp, hc⟩))
      · exact .inr (.inr (.inl ⟨e, by simp, hc.1, by simpa [Option.isSome_iff_ne_none] using hc.2⟩))
    · rename_i hc
      simp only [not_or, not_and, Nat.not_le] at hc
      obtain ⟨i1, i2⟩ := ih (e.system :: seen)
      refine ⟨i1.trans (not_congr ?_), i2⟩
      constructor
      · rintro (⟨d, hd, h⟩ | h | ⟨d, hd, h⟩ | ⟨d, hd, h⟩)
        · exact .inl ⟨d, by simp [hd], h⟩
        · exact .inr (.inl (fun hn => h (List.nodup_cons.1 hn).2))
        · exact .inr (.inr (.inl ⟨d, by simp [hd], h⟩))
        · rcases List.mem_cons.1 h with h | h
          · exact .inr (.inl (fun hn => (List.nodup_cons.1 hn).1 (List.mem_map.2 ⟨d, hd, h⟩)))
          · exact .inr (.inr (.inr ⟨d, by simp [hd], h⟩))
      · rintro (⟨d, hd, h⟩ | h | ⟨d, hd, h⟩ | ⟨d, hd, h⟩)
        · rcases List.mem_cons.1 hd with rfl | hd
          · omega
          · exact .inl ⟨d, hd, h⟩
        · by_cases hm : e.system ∈ es.map SystemEntry.system
          · obtain ⟨d, hd, h2⟩ := List.mem_map.1 hm
            exact .inr (.inr (.inr ⟨d, hd, by simp [h2]⟩))
          · exact .inr (.inl (fun hn => h (List.nodup_cons.2 ⟨hm, hn⟩)))
        · rcases List.mem_cons.1 hd with rfl | hd
          · have := hc.2.2 h.1; simp only [Bool.not_eq_true, Option.isSome_eq_false_iff, Option.isNone_iff_eq_none] at this
            rcases h.2 with h2 | h2
            · exact absurd this.1 h2
            · exact absurd this.2 h2
          · exact .inr (.inr (.inl ⟨d, hd, h⟩))
        · rcases List.mem_cons.1 hd with rfl | hd
          · exact absurd h hc.2.1
          · exact .inr (.inr (.inr ⟨d, hd, by simp [h]⟩))

/-- A check over the channels passes exactly where none fails; it names a system. -/
theorem firstChannel_iff (r : PassRecord) (code bad) : (firstChannel r code bad = none ↔ ¬ ∃ p ∈ r.placedChannels, bad p = true)
    ∧ ∀ j, firstChannel r code bad = some j → ∃ i, j = rejectSystem code i := by
  unfold firstChannel
  refine ⟨by simp, fun j h => ?_⟩
  obtain ⟨p, _, h⟩ := Option.map_eq_some_iff.1 h
  exact ⟨_, h.symm⟩

/-- The placed channels are those of the entries. -/
theorem PassRecord.exists_placedChannels (r : PassRecord) (P : PlacedChannel → Prop) : (∃ p ∈ r.placedChannels, P p)
    ↔ ∃ e ∈ r.entries, ∃ c ∈ e.front.toList ++ e.back.toList, P (PlacedChannel.mk e.system e.mode c) := by
  unfold PassRecord.placedChannels
  constructor
  · rintro ⟨p, hp, h⟩
    obtain ⟨e, he, hp⟩ := List.mem_flatMap.1 hp
    obtain ⟨c, hc, rfl⟩ := List.mem_map.1 hp
    exact ⟨e, he, c, hc, h⟩
  · rintro ⟨e, he, c, hc, h⟩
    exact ⟨_, List.mem_flatMap.2 ⟨e, he, List.mem_map.2 ⟨c, hc, rfl⟩⟩, h⟩

/-- A fact about the channels alone. -/
theorem PassRecord.exists_channels (r : PassRecord) (P : Channel → Prop) : (∃ p ∈ r.placedChannels, P p.channel)
    ↔ ∃ c ∈ r.channels, P c := by
  rw [PassRecord.exists_placedChannels r (fun p => P p.channel)]
  unfold PassRecord.channels
  constructor
  · rintro ⟨e, he, c, hc, h⟩; exact ⟨c, List.mem_flatMap.2 ⟨e, he, hc⟩, h⟩
  · rintro ⟨c, hc, h⟩; obtain ⟨e, he, hc⟩ := List.mem_flatMap.1 hc; exact ⟨e, he, c, hc, h⟩

/-- R54: the walk fails exactly where an action is rejected after the ones before it. -/
theorem Projection.walk_iff (p : Projection) (hs) (bef) (as : List PlacedAction) :
    (p.walk hs bef as ≠ none ↔ ∃ l a m, as = l ++ a :: m ∧ p.rejects (l.foldl walkHolders hs) (l.reverse ++ bef) a = true)
    ∧ ∀ j, p.walk hs bef as = some j → ∃ i f, j = Rejection.mk .feederState (Locator.mk (some i) (some f)) := by
  induction as generalizing hs bef with
  | nil => simp [Projection.walk]
  | cons a as ih =>
    unfold Projection.walk
    split
    · rename_i h
      exact ⟨⟨fun _ => ⟨[], a, as, rfl, h⟩, fun _ => by simp⟩, fun j h => ⟨_, _, (Option.some.inj h).symm⟩⟩
    · rename_i h
      obtain ⟨i1, i2⟩ := ih (walkHolders hs a) (a :: bef)
      refine ⟨i1.trans ?_, i2⟩
      constructor
      · rintro ⟨l, b, m, rfl, h2⟩
        exact ⟨a :: l, b, m, rfl, by simpa using h2⟩
      · rintro ⟨l, b, m, e, h2⟩
        match l, e with
        | [], e => simp at e; obtain ⟨rfl, rfl⟩ := e; exact absurd h2 h
        | c :: l, e =>
          simp at e; obtain ⟨rfl, rfl⟩ := e
          exact ⟨l, b, m, rfl, by simpa using h2⟩

/-- A split of the placed actions falls within one entry. -/
theorem placedActions_split (es : List SystemEntry) (l : List PlacedAction) (a : PlacedAction) (m : List PlacedAction)
    (h : es.flatMap (fun e => e.actions.map fun a => PlacedAction.mk e.system a.act) = l ++ a :: m) :
    ∃ s1 e s2 before x after, es = s1 ++ e :: s2 ∧ e.actions = before ++ x :: after ∧ a = PlacedAction.mk e.system x.act
      ∧ l = s1.flatMap (fun e => e.actions.map fun a => PlacedAction.mk e.system a.act) ++ before.map fun a => PlacedAction.mk e.system
          a.act := by
  induction es generalizing l with
  | nil => simp at h
  | cons e es ih =>
    rw [List.flatMap_cons, List.append_eq_append_iff] at h
    rcases h with ⟨as, h1, h2⟩ | ⟨bs, h1, h2⟩
    · obtain ⟨s1, e', s2, before, x, after, g1, g2, g3, g4⟩ := ih as h2
      exact ⟨e :: s1, e', s2, before, x, after, by rw [g1]; rfl, g2, g3, by rw [h1, g4, List.flatMap_cons, List.append_assoc]⟩
    · match bs, h2 with
      | [], h2 =>
        obtain ⟨s1, e', s2, before, x, after, g1, g2, g3, g4⟩ := ih [] (by simpa using h2.symm)
        refine ⟨e :: s1, e', s2, before, x, after, by rw [g1]; rfl, g2, g3, ?_⟩
        rw [List.flatMap_cons, List.append_assoc, ← g4]; simpa using h1.symm
      | b :: bs, h2 =>
        simp only [List.cons_append, List.cons.injEq] at h2
        obtain ⟨rfl, h2⟩ := h2
        obtain ⟨before, rest, e1, e2, e3⟩ := List.map_eq_append_iff.1 h1
        match rest, e3 with
        | x :: after, e3 =>
          simp at e3
          exact ⟨[], e, es, before, x, after, rfl, e1, e3.1.symm, by simpa using e2.symm⟩

/-- A split of one entry's actions splits the placed actions. -/
theorem placedActions_join (s1 : List SystemEntry) (e : SystemEntry) (s2) (before : List MarkedAction) (x) (after)
    (h : e.actions = before ++ x :: after) :
    ∃ m, (s1 ++ e :: s2).flatMap (fun e => e.actions.map fun a => PlacedAction.mk e.system a.act) =
     (s1.flatMap (fun e => e.actions.map fun a => PlacedAction.mk e.system a.act) ++ before.map fun a => PlacedAction.mk e.system a.act) ++
         PlacedAction.mk e.system x.act :: m := by
  rw [List.flatMap_append, List.flatMap_cons, h]
  exact ⟨_, by simp [List.append_assoc]; rfl⟩

/-- The walk of other systems' actions leaves a holder. -/
theorem walkHolders_other (l : List PlacedAction) (hs : Vector (Option Nat) 4) (i : Nat) (h : ∀ a ∈ l,
    a.system ≠ i) : (l.foldl walkHolders hs).getD i none = hs.getD i none := by
  induction l generalizing hs with
  | nil => rfl
  | cons a l ih =>
    rw [List.foldl_cons, ih _ (fun b hb => h b (by simp [hb]))]
    have := h a (by simp)
    unfold walkHolders
    cases a.act <;> (rw [getD_setIfInBounds, if_neg (by omega)])

/-- The walk of an entry's own actions leaves the holder of R54. -/
theorem walkHolders_own (p : Projection) (before : List MarkedAction) (hs : Vector (Option Nat) 4) (i : Nat) (hi : i < 4)
    (h0 : hs.getD i none = p.holder i) :
    ((before.map fun a => PlacedAction.mk i a.act).foldl walkHolders hs).getD i none = p.walkHolder i before := by
  rcases List.eq_nil_or_concat before with rfl | ⟨l, a, rfl⟩
  · simpa [Projection.walkHolder] using h0
  · rw [List.concat_eq_append, List.map_append, List.foldl_append]
    simp only [Projection.walkHolder, List.getLast?_concat, List.map_cons, List.map_nil, List.foldl_cons, List.foldl_nil, walkHolders]
    cases a.act <;> simp [Vector.getD, hi]

/-- R54: double naming. -/
theorem namedBefore_iff (l : List PlacedAction) (a) : namedBefore l a = true ↔ ∃ b ∈ l, b.act.feeder = a.act.feeder
    ∧ (b.system ≠ a.system ∨ b.act.isTake = a.act.isTake) := by
  simp [namedBefore]

/-- A PARKED projected feeder. -/
theorem ProjFeeder.isParked_iff (x : ProjFeeder) : x.isParked = true ↔ ∃ rail y, x = .parked rail y := by cases x <;> simp
    [ProjFeeder.isParked]

/-- One that is not PARKED. -/
theorem ProjFeeder.notParked_iff (x : ProjFeeder) : x.isParked = false ↔ ∀ rail y, x ≠ .parked rail y := by cases x <;> simp
    [ProjFeeder.isParked]

/-- R54: a rejection at the walk's holder. -/
theorem Projection.rejects_iff (p : Projection) (hs : Vector (Option Nat) 4) (l) (i) (x : FeederAction) (before)
    (h : hs.getD i none = p.walkHolder i before) :
    p.rejects hs l (PlacedAction.mk i x) = true ↔ namedBefore l (PlacedAction.mk i x) = true ∨ p.actionFails i before x := by
  unfold Projection.rejects Projection.actionFails
  simp only [h]
  cases x with
  | take f =>
    by_cases h15 : 15 < f <;> simp only [FeederAction.feeder, Bool.or_eq_true, h15, decide_true, decide_false, Bool.false_eq_true, Bool.not_eq_true', ProjFeeder.notParked_iff, Option.isSome_iff_ne_none] <;> tauto
  | release f x =>
    by_cases h15 : 15 < f <;> simp only [FeederAction.feeder, Bool.or_eq_true, h15, decide_true, decide_false, Bool.false_eq_true, decide_eq_true_eq] <;> tauto

/-- Of two different members of a list one stands before the other. -/
theorem split_of_mem_of_mem {α} (es : List α) (e f : α) (he : e ∈ es) (hf : f ∈ es) (hne : e ≠ f) :
    (∃ s1 s2, es = s1 ++ f :: s2 ∧ e ∈ s1) ∨ ∃ s1 s2, es = s1 ++ e :: s2 ∧ f ∈ s1 := by
  induction es with
  | nil => cases he
  | cons g es ih =>
    rcases List.mem_cons.1 he with rfl | he
    · rcases List.mem_cons.1 hf with rfl | hf
      · exact absurd rfl hne
      · obtain ⟨s1, s2, rfl⟩ := List.append_of_mem hf
        exact .inl ⟨e :: s1, s2, rfl, by simp⟩
    · rcases List.mem_cons.1 hf with rfl | hf
      · obtain ⟨s1, s2, rfl⟩ := List.append_of_mem (by assumption : e ∈ es)
        exact .inr ⟨f :: s1, s2, rfl, by simp⟩
      · rcases ih he hf with ⟨s1, s2, rfl, h⟩ | ⟨s1, s2, rfl, h⟩
        · exact .inl ⟨g :: s1, s2, rfl, by simp [h]⟩
        · exact .inr ⟨g :: s1, s2, rfl, by simp [h]⟩

/-- R54: the walk fails exactly where a feeder is named twice or an action fails. -/
theorem Projection.walk_fails_iff (r : PassRecord) (p : Projection) (hn : (r.entries.map SystemEntry.system).Nodup)
    (hs : ∀ e ∈ r.entries, e.system < 4) :
    p.walk p.holders [] r.placedActions ≠ none ↔ (r.namesTwice
      ∨ ∃ e ∈ r.entries, ∃ before a after, e.actions = before ++ a :: after ∧ p.actionFails e.system before a.act) := by
  rw [(Projection.walk_iff p _ _ _).1]
  -- the holder at a split
  have hold : ∀ s1 e s2 (before : List MarkedAction), r.entries = s1 ++ e :: s2 →
     ((s1.flatMap (fun e => e.actions.map fun a => PlacedAction.mk e.system a.act) ++ before.map fun a => PlacedAction.mk e.system a.act).foldl walkHolders p.holders).getD e.system none = p.walkHolder e.system before := by
    intro s1 e s2 before he
    rw [List.foldl_append]
    apply walkHolders_own _ _ _ _ (hs e (by rw [he]; simp))
    rw [walkHolders_other]; rfl
    intro a ha
    obtain ⟨d, hd, ha⟩ := List.mem_flatMap.1 ha
    obtain ⟨x, _, rfl⟩ := List.mem_map.1 ha
    rw [he, List.map_append, List.nodup_append] at hn
    exact fun h => hn.2.2 d.system (List.mem_map.2 ⟨d, hd, rfl⟩) e.system (by simp) h
  constructor
  · rintro ⟨l, a, m, h1, h2⟩
    obtain ⟨s1, e, s2, before, x, after, g1, g2, rfl, g4⟩ := placedActions_split _ _ _ _ h1
    have he : e ∈ r.entries := by rw [g1]; simp
    rw [Projection.rejects_iff p _ _ _ _ before (by rw [g4]; exact hold s1 e s2 before g1)] at h2
    rcases h2 with h2 | h2
    · left
      rw [namedBefore_iff] at h2
      obtain ⟨b, hb, h3, h4⟩ := h2
      simp only [List.append_nil, List.mem_reverse, g4, List.mem_append] at hb
      rcases hb with hb | hb
      · obtain ⟨d, hd, hb⟩ := List.mem_flatMap.1 hb
        obtain ⟨y, hy, rfl⟩ := List.mem_map.1 hb
        rw [g1, List.map_append, List.nodup_append] at hn
        have hne : d.system ≠ e.system := fun h => hn.2.2 d.system (List.mem_map.2 ⟨d, hd, rfl⟩) e.system (by simp) h
        exact .inl ⟨d, by rw [g1]; simp [hd], e, he, hne, y, hy, x, by rw [g2]; simp, h3⟩
      · obtain ⟨y, hy, rfl⟩ := List.mem_map.1 hb
        obtain ⟨u, v, rfl⟩ := List.append_of_mem hy
        refine .inr ⟨e, he, u, y, v, x, after, ?_, h3, ?_⟩
        · rw [g2]
        · rcases h4 with h4 | h4
          · exact absurd rfl h4
          · exact h4
    · exact .inr ⟨e, he, before, x, after, g2, h2⟩
  · have key : ∀ e ∈ r.entries, ∀ before x after, e.actions = before ++ x :: after →
        (p.actionFails e.system before x.act ∨ (∃ d s1 s2, r.entries = s1 ++ e :: s2 ∧ d ∈ s1 ∧ d.system ≠ e.system ∧ ∃ y ∈ d.actions, y.act.feeder = x.act.feeder)
          ∨ ∃ y ∈ before, y.act.feeder = x.act.feeder ∧ y.act.isTake = x.act.isTake) →
        ∃ l a m, r.placedActions = l ++ a :: m ∧ p.rejects (l.foldl walkHolders p.holders) (l.reverse ++ []) a = true := by
      intro e he before x after hx h
      have : ∃ s1 s2, r.entries = s1 ++ e :: s2 ∧ (p.actionFails e.system before x.act ∨ (∃ d, d ∈ s1 ∧ d.system ≠ e.system ∧ ∃ y ∈ d.actions, y.act.feeder = x.act.feeder)
          ∨ ∃ y ∈ before, y.act.feeder = x.act.feeder ∧ y.act.isTake = x.act.isTake) := by
        rcases h with h | ⟨d, s1, s2, g, h⟩ | h
        · obtain ⟨s1, s2, g⟩ := List.append_of_mem he; exact ⟨s1, s2, g, .inl h⟩
        · exact ⟨s1, s2, g, .inr (.inl ⟨d, h⟩)⟩
        · obtain ⟨s1, s2, g⟩ := List.append_of_mem he; exact ⟨s1, s2, g, .inr (.inr h)⟩
      obtain ⟨s1, s2, g, h⟩ := this
      obtain ⟨m, hm⟩ := placedActions_join s1 e s2 before x after hx
      refine ⟨_, _, m, by unfold PassRecord.placedActions; rw [g]; exact hm, ?_⟩
      rw [Projection.rejects_iff p _ _ _ _ before (hold s1 e s2 before g)]
      rcases h with h | ⟨d, hd, hne, y, hy, h⟩ | ⟨y, hy, h⟩
      · exact .inr h
      · left; rw [namedBefore_iff]
        exact ⟨PlacedAction.mk d.system y.act, by simp only [List.append_nil, List.mem_reverse, List.mem_append]; exact .inl (List.mem_flatMap.2 ⟨d, hd, List.mem_map.2 ⟨y, hy, rfl⟩⟩), h, .inl hne⟩
      · left; rw [namedBefore_iff]
        exact ⟨PlacedAction.mk e.system y.act, by simp only [List.append_nil, List.mem_reverse, List.mem_append]; exact .inr (List.mem_map.2 ⟨y, hy, rfl⟩), h.1, .inr h.2⟩
    rintro ((⟨e, he, f, hf, hne, a, ha, b, hb, h⟩ | ⟨e, he, before, a, between, b, after, h1, h2, h3⟩) | ⟨e, he, before, a, after, h1, h2⟩)
    · rcases split_of_mem_of_mem _ e f he hf (fun h => hne (by rw [h])) with ⟨s1, s2, g, h5⟩ | ⟨s1, s2, g, h5⟩
      · obtain ⟨u, v, hu⟩ := List.append_of_mem hb
        exact key f hf u b v hu (.inr (.inl ⟨e, s1, s2, g, h5, hne, a, ha, h⟩))
      · obtain ⟨u, v, hu⟩ := List.append_of_mem ha
        exact key e he u a v hu (.inr (.inl ⟨f, s1, s2, g, h5, fun h => hne h.symm, b, hb, h.symm⟩))
    · exact key e he (before ++ a :: between) b after (by rw [h1]) (.inr (.inr ⟨a, by simp, h2, h3⟩))
    · exact key e he before a after h1 (.inl h2)

/-- The release of a feeder in an entry. -/
theorem SystemEntry.releaseOf_spec (e : SystemEntry) (f : Nat) : (e.releaseOf f = none ↔ ∀ a ∈ e.actions, ∀ z, a.act ≠ .release f z)
    ∧ ∀ y, e.releaseOf f = some y → ∃ a ∈ e.actions, a.act = .release f y := by
  unfold SystemEntry.releaseOf
  constructor
  · rw [List.findSome?_eq_none_iff]
    constructor
    · intro h a ha z hz; have := h a ha; rw [hz] at this; simp at this
    · intro h a ha
      cases hx : a.act with
      | take g => rfl
      | release g x =>
        dsimp only
        split
        · rename_i hg; subst hg; exact absurd hx (h a ha x)
        · rfl
  · intro y h
    obtain ⟨l, a, m, h1, h2, h3⟩ := List.findSome?_eq_some_iff.1 h
    refine ⟨a, by rw [h1]; simp, ?_⟩
    cases hx : a.act with
    | take g => rw [hx] at h2; cases h2
    | release g x =>
      rw [hx] at h2; dsimp only at h2
      split at h2
      · rename_i hg; subst hg; cases h2; rfl
      · cases h2

/-- R53: where an entry that releases a feeder at most once ends its carrying. -/
theorem State.carriesUntil_iff (s : State) (d : Direction) (e : SystemEntry) (f : Nat) (y : Int)
    (hu : ∀ a ∈ e.actions, ∀ b ∈ e.actions, ∀ x z, a.act = .release f x → b.act = .release f z → x = z) :
    s.carriesUntil d e f y ↔ y = (e.releaseOf f).getD (s.farEdge d) := by
  obtain ⟨r1, r2⟩ := SystemEntry.releaseOf_spec e f
  unfold State.carriesUntil
  cases h : e.releaseOf f with
  | none =>
    have := r1.1 h
    constructor
    · rintro (⟨a, ha, hy⟩ | ⟨_, hy⟩)
      · exact absurd hy (this a ha y)
      · exact hy
    · intro hy; exact .inr ⟨this, hy⟩
  | some x =>
    obtain ⟨a, ha, hx⟩ := r2 x h
    constructor
    · rintro (⟨b, hb, hy⟩ | ⟨hn, _⟩)
      · exact hu b hb a ha y x hy hx
      · exact absurd hx (hn a ha x)
    · rintro rfl; exact .inl ⟨a, ha, hx⟩

/-- R53: the list of carried feeders holds exactly what the record carries. -/
theorem State.mem_carriedBy_iff (s : State) (r : PassRecord) (hs : ∀ e ∈ r.entries, e.system < s.systems)
    (hnt : ¬ r.namesTwice) (hpk : ∀ e ∈ r.entries, ∀ a ∈ e.actions, ∀ f, a.act = .take f → ∃ rail x,
        s.queue.proj.feeder f = .parked rail x) (c : Carried) :
    c ∈ s.carriedBy r ↔ ∃ x y, s.carries r c.feeder x y ∧ c = s.queue.proj.carriedBetween c.feeder x y := by
  have hu : ∀ e ∈ r.entries, ∀ f, ∀ a ∈ e.actions, ∀ b ∈ e.actions, ∀ x z, a.act = .release f x → b.act = .release f z → x = z := by
    intro e he f a ha b hb x z hx hz
    by_contra hne
    have hab : a ≠ b := by rintro rfl; rw [hx] at hz; cases hz; exact hne rfl
    have : ∀ (a b : MarkedAction) x z, a.act = .release f x → b.act = .release f z → ¬ ∃ s1 s2, e.actions = s1 ++ b :: s2 ∧ a ∈ s1 := by
      rintro a b x z hx hz ⟨s1, s2, h, hm⟩
      obtain ⟨u, v, rfl⟩ := List.append_of_mem hm
      exact hnt (.inr ⟨e, he, u, a, v, b, s2, by rw [h], by rw [hx, hz]; rfl, by rw [hx, hz]; rfl⟩)
    have two : (∃ s1 s2, e.actions = s1 ++ b :: s2 ∧ a ∈ s1) ∨ ∃ s1 s2, e.actions = s1 ++ a :: s2 ∧ b ∈ s1 := by
      have gen : ∀ (es : List MarkedAction) (e f : MarkedAction) (he : e ∈ es) (hf : f ∈ es) (hne : e ≠ f),
        (∃ s1 s2, es = s1 ++ f :: s2 ∧ e ∈ s1) ∨ ∃ s1 s2, es = s1 ++ e :: s2 ∧ f ∈ s1 := by
        intro es e f he hf hne
        induction es with
        | nil => cases he
        | cons g es ih =>
          rcases List.mem_cons.1 he with rfl | he
          · rcases List.mem_cons.1 hf with rfl | hf
            · exact absurd rfl hne
            · obtain ⟨s1, s2, rfl⟩ := List.append_of_mem hf
              exact .inl ⟨e :: s1, s2, rfl, by simp⟩
          · rcases List.mem_cons.1 hf with rfl | hf
            · obtain ⟨s1, s2, rfl⟩ := List.append_of_mem (by assumption : e ∈ es)
              exact .inr ⟨f :: s1, s2, rfl, by simp⟩
            · rcases ih he hf with ⟨s1, s2, rfl, h⟩ | ⟨s1, s2, rfl, h⟩
              · exact .inl ⟨g :: s1, s2, rfl, by simp [h]⟩
              · exact .inr ⟨g :: s1, s2, rfl, by simp [h]⟩
      exact gen _ a b ha hb hab
    rcases two with h | h
    · exact this a b x z hx hz h
    · exact this b a z x hz hx h
  constructor
  · intro h
    unfold State.carriedBy at h
    rcases List.mem_append.1 h with h | h
    · obtain ⟨e, he, h⟩ := List.mem_flatMap.1 h
      unfold State.carriedByEntry at h
      rcases List.mem_append.1 h with h | h
      · obtain ⟨g, hg, rfl⟩ := List.mem_map.1 h
        rw [Option.mem_toList] at hg
        exact ⟨_, _, .inl ⟨e.system, hs e he, hg, rfl, .inl ⟨e, he, rfl, (State.carriesUntil_iff s _ e g _ (hu e he g)).2 rfl⟩⟩, rfl⟩
      · obtain ⟨a, ha, h⟩ := List.mem_filterMap.1 h
        cases hx : a.act with
        | release f x => rw [hx] at h; cases h
        | take f =>
          rw [hx] at h; simp only [Option.some.injEq] at h; subst h
          obtain ⟨rail, x, hp⟩ := hpk e he a ha f hx
          exact ⟨_, _, .inr ⟨e, he, a, ha, hx, ⟨rail, by show s.queue.proj.feeder f = _; rw [hp]; rfl⟩, (State.carriesUntil_iff s _ e f _ (hu e he f)).2 rfl⟩, rfl⟩
    · obtain ⟨i, hi, h⟩ := List.mem_flatMap.1 h
      obtain ⟨g, hg, rfl⟩ := List.mem_map.1 h
      rw [Option.mem_toList] at hg
      obtain ⟨h1, h2⟩ := List.mem_filter.1 hi
      exact ⟨_, _, .inl ⟨i, by simpa [State.fitted] using h1, hg, rfl, .inr ⟨by simpa using h2, rfl⟩⟩, rfl⟩
  · rintro ⟨x, y, h, hc⟩
    rw [hc]
    unfold State.carriedBy
    rcases h with ⟨i, hi, hg, rfl, ⟨e, he, hei, hy⟩ | ⟨hno, rfl⟩⟩ | ⟨e, he, a, ha, hx, ⟨rail, hp⟩, hy⟩
    · rw [State.carriesUntil_iff s _ e _ _ (hu e he _)] at hy
      subst hy hei
      exact List.mem_append.2 (.inl (List.mem_flatMap.2 ⟨e, he, List.mem_append.2 (.inl (List.mem_map.2 ⟨_, Option.mem_toList.2 hg, rfl⟩))⟩))
    · exact List.mem_append.2 (.inr (List.mem_flatMap.2 ⟨i, List.mem_filter.2 ⟨by simpa [State.fitted] using hi, by simpa using hno⟩, List.mem_map.2 ⟨_, Option.mem_toList.2 hg, rfl⟩⟩))
    · rw [State.carriesUntil_iff s _ e _ _ (hu e he _)] at hy
      subst hy
      refine List.mem_append.2 (.inl (List.mem_flatMap.2 ⟨e, he, List.mem_append.2 (.inr (List.mem_filterMap.2 ⟨a, ha, ?_⟩))⟩))
      rw [hx]; simp only [hp, ProjFeeder.pos]

/-- A carried feeder has a rail. -/
theorem State.carries_rail (s : State) (r : PassRecord) (hl : s.queue.proj.holderLaw) {f x y} (h : s.carries r f x y) : ∃ rail,
    (s.queue.proj.feeder f).rail? = some rail := by
  rcases h with ⟨i, hi, hg, _⟩ | ⟨e, he, a, ha, hx, ⟨rail, hp⟩, hy⟩
  · obtain ⟨rail, h⟩ := (hl f i).2 hg; exact ⟨rail, by rw [h]; rfl⟩
  · exact ⟨rail, by rw [hp]; rfl⟩

/-- R56: check 9 against the relation of R53. -/
theorem State.checkShared_iff (s : State) (r : PassRecord) (hl : s.queue.proj.holderLaw)
    (hc : ∀ c, c ∈ s.carriedBy r ↔ ∃ x y, s.carries r c.feeder x y ∧ c = s.queue.proj.carriedBetween c.feeder x y) :
    checkShared (s.carriedBy r) ≠ none ↔ s.railShared r := by
  unfold checkShared
  simp only [ne_eq, Option.map_eq_none_iff, List.find?_eq_none, not_forall, not_not, List.any_eq_true, Carried.clashes, Bool.and_eq_true, decide_eq_true_eq]
  constructor
  · rintro ⟨a, ha, b, hb, ⟨h1, h2⟩, h3⟩
    obtain ⟨x, y, hx, ea⟩ := (hc a).1 ha
    obtain ⟨v, w, hv, eb⟩ := (hc b).1 hb
    obtain ⟨ra, hra⟩ := State.carries_rail s r hl hx
    obtain ⟨rb, hrb⟩ := State.carries_rail s r hl hv
    refine ⟨a.feeder, b.feeder, x, y, v, w, max a.low b.low, h1, hx, hv, ?_, ?_, ?_⟩
    · rw [ea, eb] at h2; simp only [Projection.carriedBetween, hra, hrb, Option.getD_some] at h2; rw [hra, hrb, h2]
    all_goals
      rw [ea, eb] at h3 ⊢; simp only [Projection.carriedBetween] at h3 ⊢; unfold liesBetween; omega
  · rintro ⟨f, g, x, y, v, w, z, hne, h1, h2, h3, h4, h5⟩
    refine ⟨s.queue.proj.carriedBetween f x y, (hc _).2 ⟨x, y, h1, rfl⟩, s.queue.proj.carriedBetween g v w, (hc _).2 ⟨v, w, h2, rfl⟩, ⟨hne, ?_⟩, ?_⟩
    · simp only [Projection.carriedBetween]; rw [h3]
    · simp only [Projection.carriedBetween]; unfold liesBetween at h4 h5; omega

/-- The feeders a record takes. -/
theorem PassRecord.mem_taken_iff (r : PassRecord) (g : Nat) : g ∈ r.taken ↔ ∃ e ∈ r.entries, ∃ a ∈ e.actions, a.act = .take g := by
  unfold PassRecord.taken PassRecord.placedActions
  constructor
  · intro h
    obtain ⟨a, ha, h⟩ := List.mem_filterMap.1 h
    obtain ⟨e, he, ha⟩ := List.mem_flatMap.1 ha
    obtain ⟨x, hx, rfl⟩ := List.mem_map.1 ha
    refine ⟨e, he, x, hx, ?_⟩
    dsimp only at h
    cases hh : x.act <;> rw [hh] at h <;> simp at h; rw [h]
  · rintro ⟨e, he, a, ha, h⟩
    exact List.mem_filterMap.2 ⟨PlacedAction.mk e.system a.act, List.mem_flatMap.2 ⟨e, he, List.mem_map.2 ⟨a, ha, rfl⟩⟩, by rw [h]⟩

/-- A PARKED projected feeder has a number of the table. -/
theorem Projection.parked_lt (p : Projection) (g : Nat) {rail x} (h : p.feeder g = .parked rail x) : g < 16 := by
  by_contra hg
  unfold Projection.feeder at h; rw [getD_past _ _ (by omega)] at h; cases h

/-- R56: check 10 against the relation of R53. -/
theorem State.checkBlocked_iff (s : State) (r : PassRecord) (hl : s.queue.proj.holderLaw)
    (hc : ∀ c, c ∈ s.carriedBy r ↔ ∃ x y, s.carries r c.feeder x y ∧ c = s.queue.proj.carriedBetween c.feeder x y) :
    checkBlocked s.queue.proj r.taken (s.carriedBy r) ≠ none ↔ s.railBlocked r := by
  unfold checkBlocked
  simp only [ne_eq, Option.map_eq_none_iff, List.find?_eq_none, not_forall, not_not, List.any_eq_true, List.mem_range]
  constructor
  · rintro ⟨c, hcm, g, hg, hb⟩
    obtain ⟨x, y, hx, ec⟩ := (hc c).1 hcm
    obtain ⟨rc, hrc⟩ := State.carries_rail s r hl hx
    unfold Projection.blocks at hb
    cases hp : s.queue.proj.feeder g with
    | parked rail pos =>
      rw [hp] at hb; simp only [Bool.and_eq_true, decide_eq_true_eq] at hb
      obtain ⟨⟨⟨h1, h2⟩, h3⟩, h4⟩ := hb
      rw [ec] at h2 h3 h4; simp only [Projection.carriedBetween, hrc, Option.getD_some] at h2 h3 h4
      refine ⟨c.feeder, x, y, g, rail, pos, hx, by rw [hrc, h2], hp, ?_, ?_⟩
      · intro e he a ha h; exact h1 ((PassRecord.mem_taken_iff r g).2 ⟨e, he, a, ha, h⟩)
      · unfold liesBetween; omega
    | undeclared => rw [hp] at hb; cases hb
    | coupled _ _ => rw [hp] at hb; cases hb
    | faulted _ => rw [hp] at hb; cases hb
  · rintro ⟨f, x, y, g, rail, z, h1, h2, h3, h4, h5⟩
    refine ⟨s.queue.proj.carriedBetween f x y, (hc _).2 ⟨x, y, h1, rfl⟩, g, Projection.parked_lt _ _ h3, ?_⟩
    unfold Projection.blocks; rw [h3]
    simp only [Projection.carriedBetween, h2, Bool.and_eq_true, decide_eq_true_eq, Option.getD_some]
    unfold liesBetween at h5
    refine ⟨⟨⟨?_, trivial⟩, by omega⟩, by omega⟩
    intro hm; obtain ⟨e, he, a, ha, h⟩ := (PassRecord.mem_taken_iff r g).1 hm; exact h4 e he a ha h

/-- R57: one placed action applied to the projection. -/
abbrev Projection.advancePlaced (q : Projection) (a : PlacedAction) : Projection := q.advance a.system a.act

/-- R57: a record whose actions are all NOT_REACHED advances the projection action by action. -/
theorem Projection.advanceRecord_eq (p : Projection) (r : PassRecord) (h : ∀ e ∈ r.entries, ∀ a ∈ e.actions, a.mark = .notReached) :
    p.advanceRecord r = r.placedActions.foldl Projection.advancePlaced p := by
  unfold Projection.advanceRecord PassRecord.placedActions
  revert h
  generalize r.entries = es
  intro h
  induction es generalizing p with
  | nil => rfl
  | cons e es ih =>
    rw [List.foldl_cons, List.flatMap_cons, List.foldl_append, ih _ (fun f hf => h f (by simp [hf]))]
    congr 1
    have he := h e (by simp)
    generalize e.actions = as at he
    induction as generalizing p with
    | nil => rfl
    | cons a as ih2 =>
      rw [List.foldl_cons, if_pos (he a (by simp)), ih2 _ (fun b hb => he b (by simp [hb]))]
      rfl

/-- What a walk that passes makes of the projection: the holders, the feeders not named, those taken, those released, and the law of R58. -/
structure Projection.Walked (p : Projection) (l : List PlacedAction) (q : Projection) : Prop where
  /-- The holders are the walk's. -/
  holders : q.holders = l.foldl walkHolders p.holders
  /-- A feeder that is not named stands as before. -/
  unnamed : ∀ f, (∀ b ∈ l, b.act.feeder ≠ f) → q.feeder f = p.feeder f
  /-- A feeder that is taken was PARKED; it is COUPLED unless it is released. -/
  taken : ∀ f i, PlacedAction.mk i (.take f) ∈ l → ∃ rail pos, p.feeder f = .parked rail pos ∧
    ((q.feeder f = .coupled rail i ∧ ∀ j z, PlacedAction.mk j (.release f z) ∉ l) ∨ ∃ j z, PlacedAction.mk j (.release f z) ∈ l)
  /-- A feeder that is released is PARKED at its release point, and was held or taken. -/
  released : ∀ f x i, PlacedAction.mk i (.release f x) ∈ l → ∃ rail, (p.feeder f).rail? = some rail ∧ q.feeder f = .parked rail x
    ∧ (p.holder i = some f ∨ PlacedAction.mk i (.take f) ∈ l)
  /-- R58. -/
  law : q.holderLaw

/-- A projected feeder after a write. -/
theorem Projection.feeder_set (q : Projection) (f v h) (hf : f ≤ 15) (g) : (Projection.mk (q.feeders.setIfInBounds f v) h).feeder g = if g
    = f then v else q.feeder g := by
  unfold Projection.feeder
  rw [getD_setIfInBounds]
  split
  · rename_i h; rw [if_pos h.1.symm]
  · rename_i h; rw [if_neg]; rintro rfl; exact h ⟨rfl, by omega⟩

/-- A projected holder after a write. -/
theorem Projection.holder_set (q : Projection) (i v h) (hi : i < 4) (g) : (Projection.mk h (q.holders.setIfInBounds i v)).holder g = if g =
    i then v else q.holder g := by
  unfold Projection.holder
  rw [getD_setIfInBounds]
  split
  · rename_i h; rw [if_pos h.1.symm]
  · rename_i h; rw [if_neg]; rintro rfl; exact h ⟨rfl, by omega⟩

/-- A TAKE that is not rejected. -/
theorem Projection.Walked.take {p l q i f} (j : Projection.Walked p l q) (hp : p.holderLaw) (hi : i < 4)
    (hr : p.rejects (l.foldl walkHolders p.holders) l.reverse (PlacedAction.mk i (.take f)) = false) :
    Projection.Walked p (l ++ [PlacedAction.mk i (.take f)]) (Projection.advancePlaced q (PlacedAction.mk i (.take f))) := by
  simp only [Projection.rejects, FeederAction.feeder, Bool.or_eq_false_iff, Bool.not_eq_false', ProjFeeder.isParked_iff] at hr
  obtain ⟨⟨h15, hn⟩, ⟨rail, pos, hpf⟩, hh⟩ := hr
  have h15 : ¬ 15 < f := of_decide_eq_false h15
  rw [← j.holders] at hh
  have hh : q.holder i = none := by
    unfold Projection.holder; simpa using hh
  have hn : ∀ b ∈ l, b.act.feeder = f → b.system = i ∧ b.act.isTake = false := by
    intro b hb e
    have := mt (namedBefore_iff _ _).2 (by rw [hn]; simp)
    simp only [List.mem_reverse, not_exists, not_and, not_or] at this
    have := this b hb e
    simpa [FeederAction.isTake] using this
  have hun : ∀ b ∈ l, b.act.feeder ≠ f := by
    intro b hb e
    obtain ⟨h1, h2⟩ := hn b hb e
    obtain ⟨bi, ba⟩ := b
    cases ba with
    | take g => cases h2
    | release g x =>
      have e : g = f := e
      have h1 : bi = i := h1
      subst e h1
      obtain ⟨rl, _, _, h | h⟩ := j.released _ _ _ hb
      · obtain ⟨r2, h⟩ := (hp _ _).2 h; rw [hpf] at h; cases h
      · cases (hn _ h rfl).2
  have hqf := (j.unnamed f hun).trans hpf
  have F : ∀ g, (Projection.advancePlaced q (PlacedAction.mk i (.take f))).feeder g = if g = f then .coupled rail i else q.feeder g := by
    intro g
    unfold Projection.advancePlaced Projection.advance
    dsimp only
    rw [hqf, Projection.feeder_set _ _ _ _ (by omega)]; rfl
  have G : ∀ g, (Projection.advancePlaced q (PlacedAction.mk i (.take f))).holder g = if g = i then some f else q.holder g := by
    intro g
    unfold Projection.advancePlaced Projection.advance
    dsimp only
    rw [Projection.holder_set _ _ _ _ hi]
  refine ⟨?_, ?_, ?_, ?_, ?_⟩
  · rw [List.foldl_append, ← j.holders]; rfl
  · intro g hg
    rw [F, if_neg, j.unnamed g (fun b hb => hg b (by simp [hb]))]
    rintro rfl; exact hg _ (List.mem_append_right _ (List.mem_singleton_self _)) rfl
  · intro g k hm
    rw [List.mem_append, List.mem_singleton] at hm
    rcases hm with hm | hm
    · have hne : g ≠ f := by rintro rfl; exact hun _ hm rfl
      obtain ⟨r2, p2, h1, h2 | ⟨j2, z, h2⟩⟩ := j.taken _ _ hm
      · refine ⟨r2, p2, h1, .inl ⟨by rw [F, if_neg hne]; exact h2.1, fun j z hz => ?_⟩⟩
        rw [List.mem_append, List.mem_singleton] at hz
        rcases hz with hz | hz
        · exact h2.2 _ _ hz
        · cases hz
      · exact ⟨r2, p2, h1, .inr ⟨j2, z, by simp [h2]⟩⟩
    · cases hm
      refine ⟨rail, pos, hpf, .inl ⟨by rw [F, if_pos rfl], fun j z hz => ?_⟩⟩
      rw [List.mem_append, List.mem_singleton] at hz
      rcases hz with hz | hz
      · exact hun _ hz rfl
      · cases hz
  · intro g x k hm
    rw [List.mem_append, List.mem_singleton] at hm
    rcases hm with hm | hm
    · have hne : g ≠ f := by rintro rfl; exact hun _ hm rfl
      obtain ⟨r2, h1, h2, h3⟩ := j.released _ _ _ hm
      exact ⟨r2, h1, by rw [F, if_neg hne]; exact h2, h3.imp id (fun h => by simp [h])⟩
    · cases hm
  · intro g k
    rw [F, G]
    by_cases hgf : g = f
    · subst hgf
      rw [if_pos rfl]
      by_cases hk : k = i
      · subst hk; simp
      · rw [if_neg hk]
        constructor
        · rintro ⟨_, h⟩; cases h; exact absurd rfl hk
        · intro h; obtain ⟨_, h⟩ := (j.law _ _).2 h; rw [hqf] at h; cases h
    · rw [if_neg hgf]
      by_cases hk : k = i
      · subst hk; rw [if_pos rfl]
        constructor
        · intro h; rw [(j.law _ _).1 h] at hh; cases hh
        · intro h; cases h; exact absurd rfl hgf
      · rw [if_neg hk]; exact j.law _ _

/-- A RELEASE that is not rejected. -/
theorem Projection.Walked.release {p l q i f x} (j : Projection.Walked p l q) (hp : p.holderLaw) (hi : i < 4)
    (hr : p.rejects (l.foldl walkHolders p.holders) l.reverse (PlacedAction.mk i (.release f x)) = false) :
    Projection.Walked p (l ++ [PlacedAction.mk i (.release f x)]) (Projection.advancePlaced q (PlacedAction.mk i (.release f x))) := by
  simp only [Projection.rejects, FeederAction.feeder, Bool.or_eq_false_iff, decide_eq_false_iff_not, ne_eq, not_not] at hr
  obtain ⟨⟨h15, hn⟩, hh⟩ := hr
  have h15 : ¬ 15 < f := of_decide_eq_false h15
  rw [← j.holders] at hh
  have hh : q.holder i = some f := hh
  obtain ⟨rail, hqf⟩ := (j.law _ _).2 hh
  have hn : ∀ b ∈ l, b.act.feeder = f → b.system = i ∧ b.act.isTake = true := by
    intro b hb e
    have := mt (namedBefore_iff _ _).2 (by rw [hn]; simp)
    simp only [List.mem_reverse, not_exists, not_and, not_or] at this
    have := this b hb e
    simpa [FeederAction.isTake] using this
  have hun : ∀ k z, PlacedAction.mk k (.release f z) ∉ l := by
    intro k z hb
    cases (hn _ hb rfl).2
  have base : (p.feeder f).rail? = some rail ∧ (p.holder i = some f ∨ PlacedAction.mk i (.take f) ∈ l) := by
    by_cases hu : ∀ b ∈ l, b.act.feeder ≠ f
    · have := (j.unnamed f hu).symm.trans hqf
      exact ⟨by rw [this]; rfl, .inl ((hp _ _).1 ⟨_, this⟩)⟩
    · simp only [not_forall, not_not] at hu
      obtain ⟨b, hb, e⟩ := hu
      obtain ⟨h1, h2⟩ := hn b hb e
      obtain ⟨bi, ba⟩ := b
      cases ba with
      | release g x => cases h2
      | take g =>
        have e : g = f := e
        have h1 : bi = i := h1
        subst e h1
        obtain ⟨r2, p2, h3, h4 | ⟨k, z, h4⟩⟩ := j.taken _ _ hb
        · rw [hqf] at h4; cases h4.1; exact ⟨by rw [h3]; rfl, .inr hb⟩
        · exact absurd h4 (hun _ _)
  have F : ∀ g, (Projection.advancePlaced q (PlacedAction.mk i (.release f x))).feeder g = if g = f then .parked rail x else q.feeder g := by
    intro g
    unfold Projection.advancePlaced Projection.advance
    dsimp only
    rw [hqf, Projection.feeder_set _ _ _ _ (by omega)]; rfl
  have G : ∀ g, (Projection.advancePlaced q (PlacedAction.mk i (.release f x))).holder g = if g = i then none else q.holder g := by
    intro g
    unfold Projection.advancePlaced Projection.advance
    dsimp only
    rw [Projection.holder_set _ _ _ _ hi]
  refine ⟨?_, ?_, ?_, ?_, ?_⟩
  · rw [List.foldl_append, ← j.holders]; rfl
  · intro g hg
    rw [F, if_neg, j.unnamed g (fun b hb => hg b (by simp [hb]))]
    rintro rfl; exact hg _ (List.mem_append_right _ (List.mem_singleton_self _)) rfl
  · intro g k hm
    rw [List.mem_append, List.mem_singleton] at hm
    rcases hm with hm | hm
    · obtain ⟨r2, p2, h1, h2 | ⟨j2, z, h2⟩⟩ := j.taken _ _ hm
      · refine ⟨r2, p2, h1, ?_⟩
        by_cases hgf : g = f
        · subst hgf; exact .inr ⟨i, x, by simp⟩
        · refine .inl ⟨by rw [F, if_neg hgf]; exact h2.1, fun j z hz => ?_⟩
          rw [List.mem_append, List.mem_singleton] at hz
          rcases hz with hz | hz
          · exact h2.2 _ _ hz
          · cases hz; exact hgf rfl
      · exact ⟨r2, p2, h1, .inr ⟨j2, z, by simp [h2]⟩⟩
    · cases hm
  · intro g z k hm
    rw [List.mem_append, List.mem_singleton] at hm
    rcases hm with hm | hm
    · have hne : g ≠ f := by rintro rfl; exact hun _ _ hm
      obtain ⟨r2, h1, h2, h3⟩ := j.released _ _ _ hm
      exact ⟨r2, h1, by rw [F, if_neg hne]; exact h2, h3.imp id (fun h => by simp [h])⟩
    · cases hm
      exact ⟨rail, base.1, by rw [F, if_pos rfl], base.2.imp id (fun h => by simp [h])⟩
  · intro g k
    rw [F, G]
    by_cases hgf : g = f
    · subst hgf
      rw [if_pos rfl]
      by_cases hk : k = i
      · subst hk; simp
      · rw [if_neg hk]
        constructor
        · rintro ⟨_, h⟩; cases h
        · intro h; obtain ⟨_, h⟩ := (j.law _ _).2 h; rw [hqf] at h; cases h; exact absurd rfl hk
    · rw [if_neg hgf]
      by_cases hk : k = i
      · subst hk; rw [if_pos rfl]
        constructor
        · intro h; have := (j.law _ _).1 h; rw [hh] at this; cases this; exact absurd rfl hgf
        · intro h; cases h
      · rw [if_neg hk]; exact j.law _ _

/-- The projection after a walk that passes. -/
theorem Projection.Walked.of_walk (p : Projection) (as : List PlacedAction) (hp : p.holderLaw) (hi : ∀ a ∈ as, a.system < 4)
    (hw : p.walk p.holders [] as = none) :
    Projection.Walked p as (as.foldl Projection.advancePlaced p) := by
  have key : ∀ l m, as = l ++ m → Projection.Walked p l (l.foldl Projection.advancePlaced p) := by
    intro l
    induction l using List.reverseRecOn with
    | nil => intro m _; exact ⟨rfl, fun _ _ => rfl, fun _ _ h => by simp at h, fun _ _ _ h => by simp at h, hp⟩
    | append_singleton l a ih =>
      intro m hm
      have j := ih (a :: m) (by simp [hm])
      have hr : p.rejects (l.foldl walkHolders p.holders) l.reverse a = false := by
        by_contra hc
        refine absurd hw ((Projection.walk_iff p p.holders [] as).1.2 ⟨l, a, m, by simp [hm], ?_⟩)
        simpa using hc
      have ha := hi a (by simp [hm])
      rw [List.foldl_append]
      obtain ⟨i, act⟩ := a
      cases act with
      | take f => exact j.take hp ha hr
      | release f x => exact j.release hp ha hr
  exact key as [] (by simp)

/-- The placed actions are those of the entries. -/
theorem PassRecord.mem_placedActions_iff (r : PassRecord) (i act) : PlacedAction.mk i act ∈ r.placedActions
    ↔ ∃ e ∈ r.entries, e.system = i ∧ ∃ a ∈ e.actions, a.act = act := by
  unfold PassRecord.placedActions
  rw [List.mem_flatMap]
  constructor
  · rintro ⟨e, he, h⟩
    obtain ⟨a, ha, h⟩ := List.mem_map.1 h
    cases h; exact ⟨e, he, rfl, a, ha, rfl⟩
  · rintro ⟨e, he, rfl, a, ha, rfl⟩
    exact ⟨e, he, List.mem_map.2 ⟨a, ha, rfl⟩⟩

/-! ### One lemma per check -/

/-- R46. -/
theorem State.checkRoom_iff (s : State) : s.checkRoom ≠ none ↔ 8 ≤ s.queue.records.length := by
  unfold State.checkRoom Config.queueCapacity; split <;> simp_all

/-- R47. -/
theorem badSystem_nil_iff (n : Nat) (es : List SystemEntry) : badSystem n [] es ≠ none ↔ (∃ e ∈ es, n ≤ e.system)
    ∨ ¬ (es.map SystemEntry.system).Nodup ∨ ∃ e ∈ es, e.mode = .idle ∧ (e.front ≠ none ∨ e.back ≠ none) := by
  rw [ne_eq, (badSystem_iff n [] es).1, not_not]
  simp only [List.not_mem_nil, and_false, exists_false, or_false]

/-- R48. -/
theorem State.checkRacking_iff (s : State) (r : PassRecord) : s.checkRacking r ≠ none ↔ r.racking < -s.maxRack ∨ s.maxRack < r.racking := by
  unfold State.checkRacking; split <;> simp <;> omega

/-- R49. -/
theorem State.checkSealed_iff (s : State) (r : PassRecord) :
    s.checkSealed r ≠ none ↔ ∃ c ∈ r.channels, ∀ d census n, s.line c.line ≠ .sealed d census n := by
  unfold State.checkSealed
  rw [ne_eq, (firstChannel_iff _ _ _).1, not_not, PassRecord.exists_channels r (fun c => (!(s.line c.line).isSealed) = true)]
  apply exists_congr; intro c; apply and_congr_right; intro _
  cases s.line c.line <;> simp [Line.isSealed]

/-- R50, where every line is SEALED. -/
theorem State.checkRange_iff (s : State) (r : PassRecord) (hns : ¬ ∃ c ∈ r.channels, ∀ d census n, s.line c.line ≠ .sealed d census n) :
    s.checkRange r ≠ none ↔ ∃ c ∈ r.channels, s.needles ≤ c.start ∨ (c.width ≠ 0 ∧ s.needles < ((c.start + c.width : Nat) : Int))
      ∨ ∀ d census n, s.line c.line = .sealed d census n → d.codes.length ≤ c.offset := by
  unfold State.checkRange
  rw [ne_eq, (firstChannel_iff _ _ _).1, not_not, PassRecord.exists_channels r (fun c => (decide (s.needles ≤ (c.start : Int))
    || (decide (c.width ≠ 0) && decide (s.needles < ((c.start + c.width : Nat) : Int)))
    || decide ((s.line c.line).length ≤ c.offset)) = true)]
  apply exists_congr; intro c; apply and_congr_right; intro hc
  simp only [Bool.or_eq_true, Bool.and_eq_true, decide_eq_true_eq, or_assoc]
  apply or_congr Iff.rfl; apply or_congr Iff.rfl
  by_cases hq : ∀ d census n, s.line c.line ≠ .sealed d census n
  · exact absurd ⟨c, hc, hq⟩ hns
  · cases hh : s.line c.line with
    | free => rw [hh] at hq; simp at hq
    | opened d => rw [hh] at hq; simp at hq
    | sealed d c n => simp [Line.length]

/-- R51, where no IDLE entry has a channel. -/
theorem State.checkCodes_iff (s : State) (r : PassRecord)
    (hb : ¬ ∃ e ∈ r.entries, e.mode = .idle ∧ (e.front ≠ none ∨ e.back ≠ none)) :
    s.checkCodes r ≠ none ↔ ∃ e ∈ r.entries, ∃ c ∈ e.front.toList ++ e.back.toList, ∃ x ∈ (s.line c.line).census ++ [c.fill],
      (e.mode = .knit ∧ x = .send) ∨ (e.mode = .xfer ∧ (x = .tuck ∨ x = .knit)) := by
  unfold State.checkCodes
  rw [ne_eq, (firstChannel_iff _ _ _).1, not_not, PassRecord.exists_placedChannels r
    (fun q => (((s.line q.channel.line).census ++ [q.channel.fill]).any fun c => !q.mode.permits c) = true)]
  apply exists_congr; intro e; apply and_congr_right; intro he
  apply exists_congr; intro c; apply and_congr_right; intro hc
  simp only [List.any_eq_true]
  apply exists_congr; intro x; apply and_congr_right; intro _
  cases hm : e.mode with
  | knit => cases x <;> simp [CamMode.permits]
  | xfer => cases x <;> simp [CamMode.permits]
  | idle =>
    refine absurd ⟨e, he, hm, ?_⟩ hb
    rcases List.mem_append.1 hc with h | h
    · left; intro h2; rw [h2] at h; cases h
    · right; intro h2; rw [h2] at h; cases h

/-- R52. -/
theorem checkCycle_iff (r : PassRecord) : checkCycle r ≠ none ↔ r.cycle = true ∧ ∃ e ∈ r.entries, e.actions ≠ [] := by
  have empty : r.placedActions = [] ↔ ¬ ∃ e ∈ r.entries, e.actions ≠ [] := by
    unfold PassRecord.placedActions
    simp [List.flatMap_eq_nil_iff]
  unfold checkCycle
  by_cases hcy : r.cycle = true
  · rw [if_pos hcy]
    split
    · rename_i h; simpa [hcy] using empty.1 h
    · rename_i a l h
      refine iff_of_true nofun ⟨hcy, by_contra fun hno => ?_⟩
      rw [empty.2 hno] at h; cases h
  · rw [if_neg hcy]; simp [hcy]

/-- R55, the field. -/
theorem State.checkOnPath_iff (s : State) (r : PassRecord) : s.checkOnPath r ≠ none
    ↔ ∃ e ∈ r.entries, ∃ a ∈ e.actions, ∃ f x, a.act = .release f x ∧ (x < s.fieldLow ∨ s.fieldHigh < x) := by
  unfold State.checkOnPath PassRecord.placedActions
  simp only [ne_eq, Option.map_eq_none_iff, List.find?_eq_none, not_forall, not_not, List.mem_flatMap, List.mem_map]
  constructor
  · rintro ⟨_, ⟨e, he, a, ha, rfl⟩, h⟩
    refine ⟨e, he, a, ha, ?_⟩
    dsimp only at h
    cases hx : a.act with
    | take f => rw [hx] at h; cases h
    | release f x =>
      rw [hx] at h; simp [State.inField] at h
      exact ⟨f, x, rfl, by omega⟩
  · rintro ⟨e, he, a, ha, f, x, hx, h⟩
    exact ⟨_, ⟨e, he, a, ha, rfl⟩, by dsimp only; rw [hx]; simp [State.inField]; omega⟩

/-- R55, the spacing. -/
theorem State.checkSpacing_iff (s : State) (r : PassRecord) : s.checkSpacing r ≠ none ↔ ∃ e ∈ r.entries, ∃ a b, e.actions = [a, b]
    ∧ (s.queue.proj.pathPosition b.act - s.queue.proj.pathPosition a.act) * r.direction.sign < s.confirmNeedles := by
  unfold State.checkSpacing
  simp only [ne_eq, Option.map_eq_none_iff, List.find?_eq_none, not_forall, not_not]
  constructor
  · rintro ⟨e, he, h⟩
    unfold State.badSpacing at h
    split at h
    · rename_i a b hab; exact ⟨e, he, a, b, hab, by simpa using h⟩
    · cases h
  · rintro ⟨e, he, a, b, hab, h⟩
    exact ⟨e, he, by unfold State.badSpacing; rw [hab]; simpa using h⟩

end Sys2Proof.Machine
end

