-- ==== Sys2Proof/Laws/Bodies.lean ====
section
/-! SUPPORT. The items of a request body (section 8.8), each written by its layout and read back. -/

namespace Sys2Proof.Machine

/-- The number of a byte. -/
theorem toNat_ofByte (n : Nat) : (BitVec.ofNat 8 n).toNat = n % 256 := BitVec.toNat_ofNat _ _

/-- Two bytes of a number, read back. -/
theorem word16_encodeWord (n : Nat) (h : n < 65536) : word16 (BitVec.ofNat 8 n) (BitVec.ofNat 8 (n / 256)) = n := by
  unfold word16; rw [toNat_ofByte, toNat_ofByte]; omega

/-- A code has two bits. -/
theorem codeBits_lt (c : Code) : codeBits c < 4 := by cases c <;> decide

/-- The two bits of a code, read back. -/
theorem codeOf_codeBits (c : Code) (k : Nat) : codeOf (codeBits c + 4 * k) = c := by
  unfold codeOf
  cases c
  all_goals
    unfold codeBits; dsimp only
    first
    | (rw [show (0 + 4 * k) % 4 = 0 by omega])
    | (rw [show (1 + 4 * k) % 4 = 1 by omega])
    | (rw [show (2 + 4 * k) % 4 = 2 by omega])
    | (rw [show (3 + 4 * k) % 4 = 3 by omega])
  all_goals rfl

/-- The same with nothing above them. -/
theorem codeOf_codeBits_zero (c : Code) : codeOf (codeBits c) = c := codeOf_codeBits c 0

/-- Four codes of a byte, read back (8.8.1). -/
theorem unpackByte_four (a b c d : Code) : unpackByte (BitVec.ofNat 8 (codeBits a + 4 * codeBits b + 16 * codeBits c + 64 * codeBits d)) = [a, b, c, d] := by
  have := codeBits_lt a; have := codeBits_lt b; have := codeBits_lt c; have := codeBits_lt d
  unfold unpackByte
  rw [toNat_ofByte]
  rw [show (codeBits a + 4 * codeBits b + 16 * codeBits c + 64 * codeBits d) % 256 = codeBits a + 4 * (codeBits b + 4 * codeBits c + 16 * codeBits d) by omega]
  rw [show (codeBits a + 4 * (codeBits b + 4 * codeBits c + 16 * codeBits d)) / 4 = codeBits b + 4 * (codeBits c + 4 * codeBits d) by omega]
  rw [show (codeBits a + 4 * (codeBits b + 4 * codeBits c + 16 * codeBits d)) / 16 = codeBits c + 4 * codeBits d by omega]
  rw [show (codeBits a + 4 * (codeBits b + 4 * codeBits c + 16 * codeBits d)) / 64 = codeBits d by omega]
  simp [codeOf_codeBits, codeOf_codeBits_zero]

/-- Packed codes, read back: the codes, and MISS in what is left of the last byte. -/
theorem unpack_packCodes (cs : List Code) :
    (packCodes cs).length = (cs.length + 3) / 4 ∧ ∃ pad, (packCodes cs).flatMap unpackByte = cs ++ pad ∧ ∀ c ∈ pad, c = Code.miss := by
  induction cs using packCodes.induct with
  | case1 => exact ⟨by simp [packCodes], [], rfl, by simp⟩
  | case2 a => 
    have e := unpackByte_four a .miss .miss .miss
    exact ⟨by simp [packCodes], [.miss, .miss, .miss], by simp only [packCodes, List.flatMap_cons, List.flatMap_nil, List.append_nil]; exact e, by simp⟩
  | case3 a b =>
    have e := unpackByte_four a b .miss .miss
    exact ⟨by simp [packCodes], [.miss, .miss], by simp only [packCodes, List.flatMap_cons, List.flatMap_nil, List.append_nil]; exact e, by simp⟩
  | case4 a b c =>
    have e := unpackByte_four a b c .miss
    exact ⟨by simp [packCodes], [.miss], by simp only [packCodes, List.flatMap_cons, List.flatMap_nil, List.append_nil]; exact e, by simp⟩
  | case5 a b c d rest ih =>
    obtain ⟨h1, pad, h2, h3⟩ := ih
    refine ⟨by simp only [packCodes, List.length_cons, h1]; omega, pad, ?_, h3⟩
    simp only [packCodes, List.flatMap_cons]
    rw [unpackByte_four, h2]; rfl

/-- A channel, read back (8.8.2). -/
theorem parseChannel_encode (c : Channel) (h : c.line < 256 ∧ c.start < 65536 ∧ c.width < 65536 ∧ c.offset < 65536) (rest : List Byte) :
    parseChannel (encodeChannel c ++ rest) = some (c, rest) := by
  obtain ⟨h1, h2, h3, h4⟩ := h
  show parseChannel (_ :: _ :: _ :: _ :: _ :: _ :: _ :: _ :: rest) = _
  unfold parseChannel
  dsimp only
  rw [word16_encodeWord _ h2, word16_encodeWord _ h3, word16_encodeWord _ h4, toNat_ofByte, toNat_ofByte]
  obtain ⟨l, st, w, o, m, f⟩ := c
  dsimp only at *
  rw [show l % 256 = l by omega]
  cases m <;> cases f <;> simp [codeBits, codeOf]

/-- A signed 16-bit number, read back. -/
theorem signedOf_sixteen (x : Int) (h : -32768 ≤ x ∧ x ≤ 32767) : signedOf 16 (x % 65536).toNat = x := by
  unfold signedOf
  split <;> omega

/-- A signed 8-bit number, read back. -/
theorem signedOf_eight (x : Int) (h : -128 ≤ x ∧ x ≤ 127) : signedOf 8 (BitVec.ofNat 8 (x % 256).toNat).toNat = x := by
  rw [toNat_ofByte]
  unfold signedOf
  split <;> omega

/-- A feeder action, read back. -/
theorem parseAction_encode (a : MarkedAction) (hm : a.mark = .notReached) (h : match a.act with
      | .take f => f < 128
      | .release f x => f < 128 ∧ -32768 ≤ x ∧ x ≤ 32767) (rest : List Byte) :
    parseAction (encodeAction a ++ rest) = some (a, rest) := by
  obtain ⟨act, mark⟩ := a
  dsimp only at *
  subst hm
  cases act with
  | take f =>
    dsimp only at h
    show parseAction (BitVec.ofNat 8 f :: BitVec.ofNat 8 0 :: BitVec.ofNat 8 (0 / 256) :: rest) = _
    unfold parseAction
    dsimp only
    rw [toNat_ofByte, if_neg (by omega), word16_encodeWord 0 (by decide), if_pos rfl, show f % 256 = f by omega]
  | release f x =>
    dsimp only at h
    show parseAction (BitVec.ofNat 8 (128 + f) :: BitVec.ofNat 8 (x % 65536).toNat :: BitVec.ofNat 8 ((x % 65536).toNat / 256) :: rest) = _
    unfold parseAction
    dsimp only
    rw [toNat_ofByte, if_pos (by omega), word16_encodeWord _ (by omega), signedOf_sixteen x h.2, show (128 + f) % 256 - 128 = f by omega]

/-- A list of items each of which reads back. -/
theorem parseMany_flatMap {α : Type} (enc : α → List Byte) (item : List Byte → Option (α × List Byte)) (as : List α)
    (h : ∀ a ∈ as, ∀ rest, item (enc a ++ rest) = some (a, rest)) (rest : List Byte) :
    parseMany item as.length (as.flatMap enc ++ rest) = some (as, rest) := by
  induction as with
  | nil => rfl
  | cons a as ih =>
    rw [List.flatMap_cons, List.append_assoc, List.length_cons]
    unfold parseMany
    rw [h a (by simp)]
    dsimp only
    rw [ih fun b hb => h b (List.mem_cons_of_mem _ hb)]

/-- A channel that may be absent, read back. -/
theorem parseOptional_encode (o : Option Channel) (h : ∀ c ∈ o.toList, c.line < 256 ∧ c.start < 65536 ∧ c.width < 65536 ∧ c.offset < 65536) (p : Bool) (hp : p = o.isSome) (rest : List Byte) :
    parseOptional p (o.toList.flatMap encodeChannel ++ rest) = some (o, rest) := by
  subst hp
  unfold parseOptional
  cases o with
  | none => rfl
  | some c =>
    simp only [Option.isSome_some, if_true, Option.toList_some, List.flatMap_cons, List.flatMap_nil, List.append_nil]
    rw [parseChannel_encode c (h c (by simp))]

/-- A system entry, read back. -/
theorem parseEntry_encode (e : SystemEntry) (hs : e.system < 256) (hl : e.actions.length ≤ 2)
    (hc : ∀ c ∈ e.front.toList ++ e.back.toList, c.line < 256 ∧ c.start < 65536 ∧ c.width < 65536 ∧ c.offset < 65536)
    (ha : ∀ a ∈ e.actions, a.mark = .notReached ∧ match a.act with
      | .take f => f < 128
      | .release f x => f < 128 ∧ -32768 ≤ x ∧ x ≤ 32767) (rest : List Byte) :
    parseEntry (encodeEntry e ++ rest) = some (e, rest) := by
  obtain ⟨sys, mode, front, back, actions⟩ := e
  dsimp only at *
  show parseEntry (BitVec.ofNat 8 sys :: BitVec.ofNat 8 (camModeBits mode) :: BitVec.ofNat 8 (front.isSome.toNat + 2 * back.isSome.toNat + 4 * actions.length) :: ((front.toList.flatMap encodeChannel ++ (back.toList.flatMap encodeChannel ++ actions.flatMap encodeAction)) ++ rest)) = _
  unfold parseEntry
  dsimp only
  rw [show camModeOf (BitVec.ofNat 8 (camModeBits mode)).toNat = some mode by cases mode <;> rfl]
  dsimp only
  have b1 : front.isSome.toNat < 2 := by cases front <;> simp
  have b2 : back.isSome.toNat < 2 := by cases back <;> simp
  rw [toNat_ofByte, toNat_ofByte]
  generalize hn : front.isSome.toNat + 2 * back.isSome.toNat + 4 * actions.length = n
  rw [if_pos (by omega), List.append_assoc, List.append_assoc,
    parseOptional_encode front (fun c h => hc c (List.mem_append_left _ h)) _ (by
      have : n % 256 % 2 = front.isSome.toNat := by omega
      rw [this]; cases front <;> rfl)]
  dsimp only
  rw [parseOptional_encode back (fun c h => hc c (List.mem_append_right _ h)) _ (by
      have : n % 256 / 2 % 2 = back.isSome.toNat := by omega
      rw [this]; cases back <;> rfl)]
  dsimp only
  rw [show n % 256 / 4 = actions.length by omega, parseMany_flatMap encodeAction parseAction actions (fun a h r => parseAction_encode a (ha a h).1 (ha a h).2 r)]
  dsimp only
  rw [show sys % 256 = sys by omega]

end Sys2Proof.Machine
end

