-- ==== Sys2Proof/Laws/Latches.lean ====
section
/-! SUPPORT. Feeders and latches read after the operations that change them, and the law of the latches (R102) kept by each of
those operations. -/

namespace Sys2Proof.Machine

/-! ### A feeder or a latch after an update -/

theorem State.feeder_putFeeder (s : State) (f g : Nat) (v : Feeder) :
    (s.putFeeder f v).feeder g = if f = g ∧ g < 16 then v else s.feeder g := by
  have e : (s.putFeeder f v).feeders = { s.feeders with table := s.feeders.table.setIfInBounds f v } := by
    unfold State.putFeeder
    dsimp only
    split <;> rfl
  unfold State.feeder
  rw [e]
  exact getD_setIfInBounds _ _ _ _ _

@[simp] theorem State.latch_putFeeder (s : State) (f : Nat) (v : Feeder) (j : Nat) : (s.putFeeder f v).latch j = s.latch j := by
  unfold State.putFeeder
  dsimp only
  split <;> rfl

@[simp] theorem State.feeder_putLatch (s : State) (i : Nat) (l : Latch) (g : Nat) : (s.putLatch i l).feeder g = s.feeder g := rfl

/-- Past the last feeder there is none. -/
theorem State.feeder_past (s : State) {f : Nat} (h : ¬ f < 16) : s.feeder f = .undeclared := getD_past _ _ h

/-- Past the last system there is no latch that holds a feeder. -/
theorem State.latch_past (s : State) {i : Nat} (h : ¬ i < 4) : s.latch i = Latch.mk .opened 0 := getD_past _ _ h

/-- R132: the head record of a feeder after a change of a feeder. -/
theorem State.head_putFeeder (s : State) (f g : Nat) (v : Feeder) :
    (s.putFeeder f v).head g =
      if f = g ∧ g < 16 ∧ (s.feeder f).carried = true ∧ v.carried = false then (s.head f).reset else s.head g := by
  unfold State.putFeeder
  dsimp only
  by_cases h : (s.feeder f).carried = true ∧ v.carried = false
  · rw [if_pos (by rw [h.1, h.2]; rfl)]
    refine (getD_setIfInBounds _ _ _ _ _).trans ?_
    by_cases k : f = g ∧ g < 16
    · rw [if_pos k, if_pos ⟨k.1, k.2, h⟩]
      rfl
    · rw [if_neg k, if_neg fun q => k ⟨q.1, q.2.1⟩]
      rfl
  · rw [if_neg, if_neg fun q => h q.2.2]
    · rfl
    · intro q
      simp only [Bool.and_eq_true, Bool.not_eq_true'] at q
      exact h q

/-! ### The resolution of a latch (R119) -/

theorem State.latch_resolveLatch (s : State) (i j : Nat) :
    (s.resolveLatch i).latch j = if i = j ∧ (s.latch i).state.outstanding = true then Latch.mk .opened 0 else s.latch j := by
  have put : ∀ t : State, t.latch j = s.latch j → (s.latch i).state.outstanding = true →
      (t.putLatch i (Latch.mk .opened 0)).latch j
        = if i = j ∧ (s.latch i).state.outstanding = true then Latch.mk .opened 0 else s.latch j := by
    intro t h k
    rw [State.latch_putLatch, h]
    by_cases e : i = j
    · subst e
      by_cases hi : i < 4
      · rw [if_pos ⟨rfl, hi⟩, if_pos ⟨rfl, k⟩]
      · rw [State.latch_past _ hi] at k
        cases k
    · rw [if_neg fun q => e q.1, if_neg fun q => e q.1]
  unfold State.resolveLatch
  cases h : (s.latch i).state with
  | opened => simp [LatchState.outstanding]
  | closed f => simp [LatchState.outstanding]
  | closing f p =>
    dsimp only [State.returnFeeder]
    rw [← h]
    exact put _ (State.latch_putFeeder _ _ _ _) (by rw [h]; rfl)
  | opening f =>
    dsimp only [State.faultFeeder]
    rw [← h]
    exact put _ (State.latch_putFeeder _ _ _ _) (by rw [h]; rfl)

theorem State.latch_resolveFold (l : List Nat) (s : State) (j : Nat) :
    (l.foldl State.resolveLatch s).latch j
      = if j ∈ l ∧ (s.latch j).state.outstanding = true then Latch.mk .opened 0 else s.latch j := by
  induction l generalizing s with
  | nil => simp
  | cons i l ih =>
    rw [List.foldl_cons, ih, State.latch_resolveLatch]
    by_cases e : i = j
    · subst e
      by_cases o : (s.latch i).state.outstanding = true
      · have z : (Latch.mk .opened 0).state.outstanding = false := rfl
        simp [o, z]
      · simp [o]
    · simp [e, Ne.symm e]

/-- R119: a resolution opens every latch that is CLOSING or OPENING and leaves the others. -/
theorem State.latch_resolveAll (s : State) (j : Nat) :
    s.resolveAll.latch j = if (s.latch j).state.outstanding = true then Latch.mk .opened 0 else s.latch j := by
  unfold State.resolveAll
  rw [State.latch_resolveFold]
  by_cases h : j < 4
  · simp [h]
  · rw [State.latch_past _ h]
    simp

/-- After a resolution no latch is CLOSING or OPENING. -/
theorem State.resolveAll_settled (s : State) : s.resolveAll.latchOutstanding = false := by
  unfold State.latchOutstanding
  rw [List.any_eq_false]
  intro i _
  rw [State.latch_resolveAll]
  split
  · simp [LatchState.outstanding]
  · assumption

/-! ### The law of the latches (R102) -/

/-- How a feeder and a latch stand to each other: the take, the hold or the release. -/
inductive Bond | take | hold | release
  deriving DecidableEq, Repr

/-- The latch that carries a feeder. -/
def Feeder.bond : Feeder → Option (Nat × Bond)
  | .taking _ i => some (i, .take)
  | .coupled _ i => some (i, .hold)
  | .releasing _ i _ => some (i, .release)
  | .undeclared | .parked _ _ | .faulted _ => none

/-- The feeder that a latch holds. -/
def LatchState.bond : LatchState → Option (Nat × Bond)
  | .closing f _ => some (f, .take)
  | .closed f => some (f, .hold)
  | .opening f => some (f, .release)
  | .opened => none

theorem Feeder.carried_eq (v : Feeder) : v.carried = v.bond.isSome := by cases v <;> rfl

/-- The law in one clause: feeder and latch name each other, in the same bond. -/
theorem latchLaw_iff (s : State) :
    s.LatchLaw ↔ (∀ i < 4, ∀ f b, (s.feeder f).bond = some (i, b) ↔ (s.latch i).state.bond = some (f, b)) ∧
      ∀ f i b, (s.feeder f).bond = some (i, b) → i < 4 := by
  have ft : ∀ v : Feeder, ∀ i, v.bond = some (i, .take) ↔ ∃ rail, v = .taking rail i := by
    intro v i
    cases v <;> simp [Feeder.bond]
  have fh : ∀ v : Feeder, ∀ i, v.bond = some (i, .hold) ↔ ∃ rail, v = .coupled rail i := by
    intro v i
    cases v <;> simp [Feeder.bond]
  have fr : ∀ v : Feeder, ∀ i, v.bond = some (i, .release) ↔ ∃ rail x, v = .releasing rail i x := by
    intro v i
    cases v <;> simp [Feeder.bond]
  have lt : ∀ l : LatchState, ∀ f, l.bond = some (f, .take) ↔ ∃ p, l = .closing f p := by
    intro l f
    cases l <;> simp [LatchState.bond]
  have lh : ∀ l : LatchState, ∀ f, l.bond = some (f, .hold) ↔ l = .closed f := by
    intro l f
    cases l <;> simp [LatchState.bond]
  have lr : ∀ l : LatchState, ∀ f, l.bond = some (f, .release) ↔ l = .opening f := by
    intro l f
    cases l <;> simp [LatchState.bond]
  constructor
  · intro h
    refine ⟨fun i hi f b => ?_, fun f i b e => ?_⟩
    · cases b with
      | take => rw [ft, lt]; exact h.taking i hi f
      | hold => rw [fh, lh]; exact h.coupled i hi f
      | release => rw [fr, lr]; exact h.releasing i hi f
    · cases b with
      | take =>
        obtain ⟨rail, e⟩ := (ft _ _).1 e
        exact h.system f i ⟨rail, 0, .inl e⟩
      | hold =>
        obtain ⟨rail, e⟩ := (fh _ _).1 e
        exact h.system f i ⟨rail, 0, .inr (.inl e)⟩
      | release =>
        obtain ⟨rail, x, e⟩ := (fr _ _).1 e
        exact h.system f i ⟨rail, x, .inr (.inr e)⟩
  · intro ⟨h, k⟩
    refine ⟨fun i hi f => ?_, fun i hi f => ?_, fun i hi f => ?_, fun f i e => ?_⟩
    · rw [← ft, ← lt]; exact h i hi f .take
    · rw [← fh, ← lh]; exact h i hi f .hold
    · rw [← fr, ← lr]; exact h i hi f .release
    · obtain ⟨rail, x, e | e | e⟩ := e
      · exact k f i .take ((ft _ _).2 ⟨rail, e⟩)
      · exact k f i .hold ((fh _ _).2 ⟨rail, e⟩)
      · exact k f i .release ((fr _ _).2 ⟨rail, x, e⟩)

/-- The law depends on the bonds alone. -/
theorem State.LatchLaw.congr {s t : State} (h : s.LatchLaw) (hf : ∀ f, (t.feeder f).bond = (s.feeder f).bond)
    (hl : ∀ i, (t.latch i).state.bond = (s.latch i).state.bond) : t.LatchLaw := by
  rw [latchLaw_iff] at h ⊢
  simp only [hf, hl]
  exact h

/-- An operation that leaves the feeder unit keeps the law. -/
theorem State.LatchLaw.same {s t : State} (h : s.LatchLaw) (e : t.feeders = s.feeders) : t.LatchLaw := by
  refine h.congr (fun f => ?_) fun i => ?_
  · unfold State.feeder
    rw [e]
  · unfold State.latch
    rw [e]

/-- One feeder and one latch change together, in agreement; before, neither stood with another. -/
theorem State.LatchLaw.swap {s t : State} (h : s.LatchLaw) {i f : Nat} (hi : i < 4)
    (hf : ∀ g, g ≠ f → (t.feeder g).bond = (s.feeder g).bond) (hl : ∀ j, j ≠ i → (t.latch j).state.bond = (s.latch j).state.bond)
    (of : ∀ j b, (s.feeder f).bond = some (j, b) → j = i) (ol : ∀ g b, (s.latch i).state.bond = some (g, b) → g = f)
    (agree : (∃ b, (t.feeder f).bond = some (i, b) ∧ (t.latch i).state.bond = some (f, b)) ∨
      ((t.feeder f).bond = none ∧ (t.latch i).state.bond = none)) : t.LatchLaw := by
  rw [latchLaw_iff] at h ⊢
  obtain ⟨h, k⟩ := h
  refine ⟨fun j hj g b => ?_, fun g j b e => ?_⟩
  · by_cases ej : j = i <;> by_cases eg : g = f
    · subst ej eg
      rcases agree with ⟨c, a1, a2⟩ | ⟨a1, a2⟩
      · rw [a1, a2]
        simp
      · rw [a1, a2]
        simp
    · subst ej
      rw [hf g eg, h j hj g b]
      constructor
      · intro e
        exact absurd (ol g b e) eg
      · intro e
        rcases agree with ⟨c, a1, a2⟩ | ⟨a1, a2⟩
        · rw [a2] at e
          simp only [Option.some.injEq, Prod.mk.injEq] at e
          exact absurd e.1.symm eg
        · rw [a2] at e
          cases e
    · subst eg
      rw [hl j ej, ← h j hj g b]
      constructor
      · intro e
        rcases agree with ⟨c, a1, a2⟩ | ⟨a1, a2⟩
        · rw [a1] at e
          simp only [Option.some.injEq, Prod.mk.injEq] at e
          exact absurd e.1.symm ej
        · rw [a1] at e
          cases e
      · intro e
        exact absurd (of j b e) ej
    · rw [hf g eg, hl j ej, h j hj g b]
  · by_cases eg : g = f
    · subst eg
      rcases agree with ⟨c, a1, a2⟩ | ⟨a1, a2⟩
      · rw [a1] at e
        simp only [Option.some.injEq, Prod.mk.injEq] at e
        rw [← e.1]
        exact hi
      · rw [a1] at e
        cases e
    · rw [hf g eg] at e
      exact k g j b e

/-- Under the law the feeder a latch holds is one of the 16 and stands with that latch alone. -/
theorem State.LatchLaw.held {s : State} (h : s.LatchLaw) {i f : Nat} {b : Bond} (e : (s.latch i).state.bond = some (f, b)) :
    i < 4 ∧ f < 16 ∧ (s.feeder f).bond = some (i, b) := by
  have hi : i < 4 := Decidable.byContradiction fun hc => by
    rw [State.latch_past _ hc] at e
    cases e
  have q := (((latchLaw_iff s).1 h).1 i hi f b).2 e
  refine ⟨hi, Decidable.byContradiction fun hc => ?_, q⟩
  rw [State.feeder_past _ hc] at q
  cases q

/-- A held feeder that is put down, parked or FAULTED, as its latch opens (R110 to R119). -/
theorem State.LatchLaw.putDown {s : State} (h : s.LatchLaw) {i f : Nat} {b : Bond}
    (e : (s.latch i).state.bond = some (f, b)) (v : Feeder) (hv : v.bond = none) : ((s.putFeeder f v).openLatch i).LatchLaw := by
  obtain ⟨hi, hf, q⟩ := h.held e
  have fe : ∀ g, ((s.putFeeder f v).openLatch i).feeder g = (s.putFeeder f v).feeder g := fun _ => rfl
  have le : ∀ j, ((s.putFeeder f v).openLatch i).latch j = if i = j ∧ j < 4 then Latch.mk .opened 0 else s.latch j := by
    intro j
    unfold State.openLatch
    rw [State.latch_putLatch, State.latch_putFeeder]
  refine h.swap (f := f) hi (fun g hg => ?_) (fun j hj => ?_) (fun j c k => ?_) (fun g c k => ?_) (.inr ⟨?_, ?_⟩)
  · rw [fe, State.feeder_putFeeder, if_neg fun k => hg k.1.symm]
  · rw [le, if_neg fun k => hj k.1.symm]
  · rw [q] at k
    simp only [Option.some.injEq, Prod.mk.injEq] at k
    exact k.1.symm
  · rw [e] at k
    simp only [Option.some.injEq, Prod.mk.injEq] at k
    exact k.1.symm
  · rw [fe, State.feeder_putFeeder, if_pos ⟨rfl, hf⟩, hv]
  · rw [le, if_pos ⟨rfl, hi⟩]
    rfl

theorem State.LatchLaw.resolveLatch {s : State} (h : s.LatchLaw) (i) : (s.resolveLatch i).LatchLaw := by
  unfold State.resolveLatch
  split
  · rename_i f p e
    exact (h.putDown (b := .take) (by rw [e]; rfl) _ rfl).same rfl
  · rename_i f e
    exact (h.putDown (b := .release) (by rw [e]; rfl) _ rfl).same rfl
  · exact h
  · exact h

/-- R119: a resolution keeps the law. -/
theorem State.LatchLaw.resolveAll {s : State} (h : s.LatchLaw) : s.resolveAll.LatchLaw := by
  unfold State.resolveAll
  generalize List.range 4 = l
  induction l generalizing s with
  | nil => exact h
  | cons i l ih => exact ih (h.resolveLatch i)

/-- R96: an abort keeps the law. -/
theorem State.LatchLaw.abortPass {s : State} (h : s.LatchLaw) (r) : (s.abortPass r).LatchLaw := by
  cases hp : s.engine.pass with
  | none =>
    rw [State.abortPass_noPass hp]
    exact h
  | some p =>
    rw [State.abortPass_eq s r p hp]
    exact h.resolveAll.same rfl

theorem State.LatchLaw.abortFor {s : State} (h : s.LatchLaw) (r) : (s.abortFor r).LatchLaw := by
  cases r with
  | none => exact h
  | some r => exact h.abortPass r

/-- R150: a raise keeps the law. -/
theorem State.LatchLaw.raise {s : State} (h : s.LatchLaw) (d) : (s.raise d).LatchLaw :=
  State.LatchLaw.abortFor (s := s.noteRaise d) (h.same rfl) _

theorem State.LatchLaw.log {s : State} (h : s.LatchLaw) (e) : (s.log e).LatchLaw :=
  State.LatchLaw.abortFor (s := s.append e) (h.same rfl) _

end Sys2Proof.Machine
end

