-- ==== Sys2Proof/Laws/Feeders.lean ====
section
/-! SUPPORT. The laws of the feeder unit through the operations: the law of R102 operation by operation, and the run of a
COUNT_TRANSITION in a pass (R58, R91, R102, R107). -/

namespace Sys2Proof.Machine

/-! ### The law of R102, operation by operation -/

/-- R102 through a fold of operations that keep it. -/
theorem State.LatchLaw.foldl {α : Type} (g : State → α → State) (hg : ∀ s a, s.LatchLaw → (g s a).LatchLaw) (l : List α) (s : State)
    (h : s.LatchLaw) : (l.foldl g s).LatchLaw := by
  induction l generalizing s with
  | nil => exact h
  | cons a l ih => exact ih _ (hg _ _ h)

/-- A flush touches no feeder. -/
theorem State.LatchLaw.flush {s : State} (h : s.LatchLaw) (c) : (s.flush c).LatchLaw := h.same rfl

/-- R97: nor does the abort of an ARMED head. -/
theorem State.LatchLaw.abortHead {s : State} (h : s.LatchLaw) (c) : (s.abortHead c).LatchLaw := h.same rfl

/-- R63: nor does arming. -/
theorem State.feeders_armHead (s : State) : s.armHead.feeders = s.feeders := by
  unfold State.armHead; split <;> rfl

/-- R65: the completion of a record. -/
theorem State.LatchLaw.completeRecord {s : State} (h : s.LatchLaw) : s.completeRecord.LatchLaw := by
  refine h.same ?_
  unfold State.completeRecord
  split
  · rfl
  · dsimp only; rw [State.feeders_armHead]; split <;> rfl

/-- R92. -/
theorem State.LatchLaw.completePass {s : State} (h : s.LatchLaw) : s.completePass.LatchLaw := by
  unfold State.completePass
  dsimp only
  split <;> split
  · (refine State.LatchLaw.flush (State.LatchLaw.completeRecord ?_) _; exact h.same rfl)
  · (refine State.LatchLaw.flush (State.LatchLaw.completeRecord ?_) _; exact h.same rfl)
  · (refine State.LatchLaw.completeRecord ?_; exact h.same rfl)
  · (refine State.LatchLaw.completeRecord ?_; exact h.same rfl)

/-- R91. -/
theorem State.LatchLaw.completeIfSettled {s : State} (h : s.LatchLaw) : s.completeIfSettled.LatchLaw := by
  unfold State.completeIfSettled; split
  · exact State.LatchLaw.completePass h
  · exact h

/-- R85. -/
theorem State.LatchLaw.arrive {s : State} (h : s.LatchLaw) (m x i) : (State.arrive m x s i).LatchLaw := by
  unfold State.arrive
  split
  · exact h
  · dsimp only
    split
    · unfold State.arriveAt
      dsimp only
      split <;> split
      · (refine State.LatchLaw.raise ?_ _; exact h.same rfl)
      · (refine State.LatchLaw.raise ?_ _; exact h.same rfl)
      · exact h.same rfl
      · exact h.same rfl
    · exact h

/-- R85. -/
theorem State.LatchLaw.arrivals {s : State} (h : s.LatchLaw) (m x) : (s.arrivals m x).LatchLaw := State.LatchLaw.foldl _ (fun _ _ h =>
    State.LatchLaw.arrive h _ _ _) _ _ h

/-- R79. -/
theorem State.LatchLaw.startPass {s : State} (h : s.LatchLaw) (r x) : (s.startPass r x).LatchLaw := by
  unfold State.startPass
  dsimp only
  refine State.LatchLaw.arrivals (State.LatchLaw.log ?_ _) _ _
  exact h.same rfl

/-- R75 to R79. -/
theorem State.LatchLaw.entryCrossing {s : State} (h : s.LatchLaw) (d x) : (s.entryCrossing d x).LatchLaw := by
  unfold State.entryCrossing
  split
  · exact h.raise _
  · split
    · exact h
    · exact h
    · exact h
    · split
      · exact State.LatchLaw.abortHead (h.raise _) _
      · split
        · exact State.LatchLaw.abortHead (h.raise _) _
        · split
          · exact State.LatchLaw.startPass h _ _
          · exact State.LatchLaw.abortHead (h.raise _) _

/-- R12. -/
theorem State.LatchLaw.slip {s : State} (h : s.LatchLaw) (src) : (s.slip src).LatchLaw := by
  unfold State.slip
  have hr := h.raise (.markSlip src)
  generalize s.raise (.markSlip src) = t at hr
  dsimp only
  split
  · exact hr.same rfl
  · unfold State.enterLost; (refine State.LatchLaw.raise ?_ _; exact hr.same rfl)
  all_goals exact hr

/-- R2. -/
theorem State.LatchLaw.positionJump {s : State} (h : s.LatchLaw) : s.positionJump.LatchLaw := by
  unfold State.positionJump
  split
  · unfold State.enterLost; refine State.LatchLaw.raise ?_ _; exact State.LatchLaw.same (h.raise (.posJump s.tracker.position)) rfl
  · exact h

/-- With no pass a raise leaves none. -/
theorem State.noPass_raise {s : State} (h : s.engine.pass = none) (d) : (s.raise d).engine.pass = none := by
  rw [State.raise_noPass h]; exact h

/-- R12, with no pass. -/
theorem State.noPass_slip {s : State} (h : s.engine.pass = none) (src) : (s.slip src).engine.pass = none := by
  unfold State.slip
  have hr := State.noPass_raise h (.markSlip src)
  generalize s.raise (.markSlip src) = t at hr
  dsimp only
  split
  · exact hr
  · unfold State.enterLost; exact State.noPass_raise (by exact hr) _
  all_goals exact hr

/-- R102 at reset. -/
theorem State.LatchLaw.blocksReset (s : State) (b p) : (s.blocksReset b p).LatchLaw := by
  have hf : ∀ f, (s.blocksReset b p).feeder f = .undeclared := fun f => getD_replicate _ _
  have hl : ∀ i, (s.blocksReset b p).latch i = Latch.mk .opened 0 := fun f => getD_replicate _ _
  rw [latchLaw_iff]
  simp [hf, hl, Feeder.bond, LatchState.bond]

/-- A feeder that no latch holds may be written, if it is not carried after. -/
theorem State.LatchLaw.putUnbound {s : State} (h : s.LatchLaw) (f v) (hv : v.bond = none) (hs : (s.feeder f).bond = none) : (s.putFeeder f
    v).LatchLaw := by
  refine h.congr (fun g => ?_) (fun i => by rw [State.latch_putFeeder])
  rw [State.feeder_putFeeder]; split
  · rename_i k; rw [hv, ← k.1, hs]
  · rfl

/-- R123. -/
theorem State.LatchLaw.followProjection {s : State} (h : s.LatchLaw) : s.followProjection.LatchLaw := by
  unfold State.followProjection; split <;> exact h.same rfl

/-- R106, R143: what a write of a setting brings about. -/
theorem State.LatchLaw.settingWritten {s : State} (h : s.LatchLaw) (n a b) : (s.settingWritten n a b).LatchLaw := by
  have htr : s.trackingWritten.LatchLaw := by
    unfold State.trackingWritten
    split
    · exact h.same rfl
    · exact h
  have hfw : s.fieldWritten.LatchLaw := by
    unfold State.fieldWritten
    refine State.LatchLaw.followProjection (State.LatchLaw.foldl _ ?_ _ _ h)
    intro t f k
    unfold State.faultOutside
    split
    · split
      · exact k
      · rename_i e _; exact State.LatchLaw.putUnbound k _ _ rfl (by rw [e]; rfl)
    all_goals exact k
  have hsw : s.systemsWritten.LatchLaw := by
    unfold State.systemsWritten
    refine State.LatchLaw.followProjection (State.LatchLaw.foldl _ ?_ _ _ h)
    intro t i k
    unfold State.removeLatch
    split
    · rename_i f p e; exact k.putDown (b := .take) (by rw [e]; rfl) _ rfl
    · rename_i f e; exact k.putDown (b := .hold) (by rw [e]; rfl) _ rfl
    · rename_i f e; exact k.putDown (b := .release) (by rw [e]; rfl) _ rfl
    · rename_i e
      refine k.congr (fun g => rfl) (fun j => ?_)
      unfold State.openLatch; rw [State.latch_putLatch]; split
      · rename_i q; rw [← q.1, e]
      · rfl
  have h9 : ((List.range 16).foldl (State.limitStill a) s).LatchLaw := by
    refine State.LatchLaw.foldl _ ?_ _ _ h
    intro t f k
    unfold State.limitStill
    dsimp only
    split
    · (refine State.LatchLaw.raise ?_ _; exact k.same rfl)
    · exact k.same rfl
  have h10 : ((List.range 16).foldl (State.limitSilent b) s).LatchLaw := by
    refine State.LatchLaw.foldl _ ?_ _ _ h
    intro t f k
    unfold State.limitSilent
    dsimp only
    split
    · (refine State.LatchLaw.raise ?_ _; exact k.same rfl)
    · exact k.same rfl
  unfold State.settingWritten
  split
  · exact htr
  · exact htr
  · exact htr
  · exact htr
  · exact hfw
  · exact hfw
  · exact hfw
  · exact hsw
  · exact h9
  · exact h10
  · exact h

/-- R134. -/
theorem State.LatchLaw.applyOutcome {s : State} (h : s.LatchLaw) (f c o) : (s.applyOutcome f c o).LatchLaw := by
  unfold State.applyOutcome
  split
  · unfold State.applySilent
    dsimp only
    generalize (if (s.head f).silentRun < s.silentLimit then (s.head f).silentRun + 1 else s.silentLimit) = run
    split
    · refine State.LatchLaw.raise ?_ _
      exact h.same rfl
    · exact h.same rfl
  · rename_i m t
    have h1 : (s.applyMotion f c m t).LatchLaw := by
      unfold State.applyMotion
      dsimp only
      split
      · (refine State.LatchLaw.raise ?_ _; exact h.same rfl)
      · exact h.same rfl
    dsimp only
    split
    · unfold State.applyTension
      dsimp only
      split
      · (refine State.LatchLaw.raise ?_ _; exact h1.same rfl)
      · exact h1.same rfl
    · exact h1

/-- An addressed request whose owner keeps the law. -/
theorem State.LatchLaw.addressed {α} {s : State} (h : s.LatchLaw) (k) (p : Option α) (o : α → State → State × Answer)
    (ho : ∀ a, (o a s).1.LatchLaw) : (s.addressed k p o).LatchLaw :=
  State.addressed_keeps State.LatchLaw (fun _ _ h => h.same rfl) (fun _ _ _ h => h.same rfl) (fun _ d h => h.raise d) h k p o fun a _ => ho a

/-- A request whose owner keeps the law. -/
theorem State.LatchLaw.request {α} {s : State} (h : s.LatchLaw) (d k) (p : Option α) (o : α → State → State × Answer)
    (ho : ∀ a, (o a s).1.LatchLaw) : (s.request d k p o).LatchLaw :=
  State.request_keeps State.LatchLaw (fun _ _ h => h.same rfl) (fun _ _ _ h => h.same rfl) (fun _ d h => h.raise d) h d k p o fun a _ => ho a

/-- R19, R121. -/
theorem State.LatchLaw.stallExpires {s : State} (h : s.LatchLaw) : s.stallExpires.LatchLaw := by
  unfold State.stallExpires
  have key : ∀ u : State, u.LatchLaw → ∀ c : Prop, [Decidable c] → (if c then u.resolveAll.completeIfSettled else u).LatchLaw := by
    intro u hu c _
    split
    · exact State.LatchLaw.completeIfSettled hu.resolveAll
    · exact hu
  refine key _ ?_ _
  have h0 : (s.setTracker { s.tracker with stallTimer := none, stallLive := true }).LatchLaw := h.same rfl
  split
  · exact h0
  · exact h0.raise _

/-- A held feeder and its latch change their states together. -/
theorem State.LatchLaw.rebond {s t : State} (h : s.LatchLaw) {i f b} (e : (s.latch i).state.bond = some (f,
    b)) (b') (v : Feeder) (l : Latch) (hv : v.bond = some (i, b')) (hl : l.state.bond = some (f, b'))
    (hf : ∀ g, t.feeder g = if f = g ∧ g < 16 then v else s.feeder g) (hll : ∀ j, t.latch j = if i = j
        ∧ j < 4 then l else s.latch j) : t.LatchLaw := by
  obtain ⟨hi, h16, q⟩ := h.held e
  refine h.swap (f := f) hi (fun g hg => ?_) (fun j hj => ?_) (fun j c k => ?_) (fun g c k => ?_) (.inl ⟨b', ?_, ?_⟩)
  · rw [hf, if_neg fun k => hg k.1.symm]
  · rw [hll, if_neg fun k => hj k.1.symm]
  · rw [q] at k; simp only [Option.some.injEq, Prod.mk.injEq] at k; exact k.1.symm
  · rw [e] at k; simp only [Option.some.injEq, Prod.mk.injEq] at k; exact k.1.symm
  · rw [hf, if_pos ⟨rfl, h16⟩, hv]
  · rw [hll, if_pos ⟨rfl, hi⟩, hl]

/-- R110, R114, R117, R118. -/
theorem State.LatchLaw.takeEdge {s : State} (h : s.LatchLaw) (i l) : (s.takeEdge i l).LatchLaw := by
  unfold State.takeEdge
  split
  · split
    · rename_i f pos e
      unfold State.confirmTake; dsimp only
      refine State.LatchLaw.completeIfSettled (State.LatchLaw.same (s := State.log _ _) (State.LatchLaw.log ?_ _) rfl)
      refine State.LatchLaw.rebond h (i := i) (f := f) (b := .take) (by rw [e]; rfl) .hold (.coupled (s.feeder f).rail i) (Latch.mk (.closed f) 0) rfl rfl (fun g => ?_) (fun j => ?_)
      · rw [State.feeder_putFeeder]; rfl
      · rw [State.latch_putFeeder, State.latch_putLatch]
    · rename_i f e
      unfold State.confirmRelease; dsimp only
      refine State.LatchLaw.completeIfSettled (State.LatchLaw.same (s := State.log _ _) (State.LatchLaw.log ?_ _) rfl)
      exact h.putDown (b := .release) (by rw [e]; rfl) _ rfl
    · rename_i f e
      unfold State.dropFeeder; dsimp only
      have k : ((s.noteRaise (.feederMissed f i .dropped)).faultFeeder i f).LatchLaw := by
        refine State.LatchLaw.putDown (s := s.noteRaise _) (h.same rfl) (b := .hold) ?_ _ rfl
        show (s.latch i).state.bond = _; rw [e]; rfl
      split
      · exact k.abortPass _
      · refine k.same ?_
        unfold State.correctProjection State.followProjection
        split
        · split <;> rfl
        · split
          · split <;> rfl
          all_goals rfl
    all_goals exact h
  · exact h

/-! ### A run of operations under the law

Within a command the laws of the feeder unit are kept together: the law of R102, that a latch is outstanding in a pass alone, and,
where P asks for it, that the projection follows the table while the queue is empty (R58, R123). -/

variable {P : Prop} {n : Word16} {s t : State}

/-- What stands while a command's operations run, until its pass completes. -/
structure State.FeederRun (P : Prop) (n : Word16) (s : State) : Prop where
  /-- R102. -/
  law : s.LatchLaw
  /-- R91, R106, R122. -/
  settled : s.engine.pass = none → s.latchOutstanding = false
  /-- R71: a pass has a current record. -/
  current : P → s.engine.pass ≠ none → s.queue.records ≠ []
  /-- No pass has completed. -/
  counter : s.engine.passCounter = n
  /-- R184. -/
  fitted : s.systems ≤ 4
  /-- R58, R123. -/
  projection : P → s.queue.records = [] → s.queue.proj = s.feeders.project

/-- What stands after it: the same, or a pass has completed with every latch settled. -/
def State.FeederEnd (P : Prop) (n : Word16) (t : State) : Prop :=
  State.FeederRun P n t
    ∨ (t.LatchLaw ∧ t.latchOutstanding = false ∧ t.engine.pass = none ∧ t.engine.passCounter = n + 1 ∧ t.systems ≤ 4)

/-- The outstanding latches are the feeder unit's. -/
theorem State.latchOutstanding_congr (h : t.feeders = s.feeders) : t.latchOutstanding = s.latchOutstanding := by
  unfold State.latchOutstanding State.latch; rw [h]

/-- The fitted systems are a setting. -/
theorem State.systems_congr (h : t.settings = s.settings) : t.systems = s.systems := by
  unfold State.systems State.setting; rw [h]

/-- An update that touches none of it. -/
theorem State.FeederRun.keep (h : State.FeederRun P n s) (hf : t.feeders = s.feeders) (hp : t.engine.pass.isSome = s.engine.pass.isSome)
    (hc : t.engine.passCounter = s.engine.passCounter) (hr : t.queue.records = [] ↔ s.queue.records = []) (hj : t.queue.proj = s.queue.proj)
    (hs : t.settings = s.settings) : State.FeederRun P n t where
  law := h.law.same hf
  settled e := by
    rw [State.latchOutstanding_congr hf]; apply h.settled
    rw [← Option.not_isSome_iff_eq_none, ← hp, e]; simp
  current p e := by
    rw [ne_eq, hr]; apply h.current p
    rw [← Option.isSome_iff_ne_none, ← hp, Option.isSome_iff_ne_none]; exact e
  counter := hc.trans h.counter
  fitted := by rw [State.systems_congr hs]; exact h.fitted
  projection p e := by rw [hj, hf]; exact h.projection p (hr.1 e)

/-- R96: what the abort of a pass leaves of them. -/
theorem State.abortPass_parts {p} (hp : s.engine.pass = some p) (r) : (s.abortPass r).feeders = s.resolveAll.feeders
    ∧ (s.abortPass r).engine.pass = none
    ∧ (s.abortPass r).engine.passCounter = s.engine.passCounter ∧ (s.abortPass r).settings = s.settings
    ∧ (s.abortPass r).queue.proj = s.resolveAll.feeders.project := by
  rw [State.abortPass_eq s r p hp]; exact ⟨rfl, rfl, rfl, rfl, rfl⟩

/-- R96. -/
theorem State.FeederRun.abortPass (h : State.FeederRun P n s) (r) : State.FeederRun P n (s.abortPass r) := by
  cases hp : s.engine.pass with
  | none => rw [State.abortPass_noPass hp]; exact h
  | some p =>
    have hl := h.law.abortPass r
    obtain ⟨a, b, c, d, e⟩ := State.abortPass_parts hp r
    generalize s.abortPass r = t at *
    exact ⟨hl, fun _ => (State.latchOutstanding_congr a).trans (State.resolveAll_settled s), fun _ k => absurd b k, c.trans h.counter, (State.systems_congr d).trans_le h.fitted,
      fun _ _ => by rw [e, a]⟩

/-- R151. -/
theorem State.FeederRun.abortFor (h : State.FeederRun P n s) (r) : State.FeederRun P n (s.abortFor r) := by
  cases r with
  | none => exact h
  | some r => exact h.abortPass r

/-- R150. -/
theorem State.FeederRun.raise (h : State.FeederRun P n s) (d) : State.FeederRun P n (s.raise d) := State.FeederRun.abortFor (s :=
    s.noteRaise d) (h.keep rfl rfl rfl Iff.rfl rfl rfl) _

/-- R165. -/
theorem State.FeederRun.log (h : State.FeederRun P n s) (d) : State.FeederRun P n (s.log d) := State.FeederRun.abortFor (s := s.append d)
    (h.keep rfl rfl rfl Iff.rfl rfl rfl) _

/-- R66. -/
theorem State.FeederRun.flush (h : State.FeederRun P n s) (hp : s.engine.pass = none) (c) : State.FeederRun P n (s.flush c) := by
  rw [State.flush_eq]
  exact ⟨h.law.same rfl, fun _ => h.settled hp, fun _ e => absurd hp e, h.counter, h.fitted, fun _ _ => rfl⟩

/-- Through a fold. -/
theorem State.FeederRun.foldl {α : Type} (g : State → α → State) (hg : ∀ s a, State.FeederRun P n s
    → State.FeederRun P n (g s a)) (l : List α) (h : State.FeederRun P n s) : State.FeederRun P n (l.foldl g s) := by
  induction l generalizing s with
  | nil => exact h
  | cons a l ih => exact ih (hg _ _ h)

/-- R65 touches the queue and the store alone. -/
theorem State.completeRecord_parts (s : State) : s.completeRecord.feeders = s.feeders ∧ s.completeRecord.engine = s.engine
    ∧ s.completeRecord.settings = s.settings := by
  have ha : ∀ s : State, s.armHead.feeders = s.feeders ∧ s.armHead.engine = s.engine ∧ s.armHead.settings = s.settings := by
    intro s; unfold State.armHead; split <;> exact ⟨rfl, rfl, rfl⟩
  unfold State.completeRecord
  split
  · exact ⟨rfl, rfl, rfl⟩
  · dsimp only
    split
    · exact ⟨(ha _).1, (ha _).2.1, (ha _).2.2⟩
    · exact ⟨(ha _).1, (ha _).2.1, (ha _).2.2⟩

/-- R92: what the completion of a pass leaves of the feeder unit and the engine. -/
theorem State.completePass_parts (s : State) : s.completePass.feeders = s.feeders ∧ s.completePass.engine.pass = none
    ∧ s.completePass.engine.passCounter = s.engine.passCounter + 1 ∧ s.completePass.settings = s.settings := by
  unfold State.completePass
  dsimp only
  generalize ht : State.append _ (Event.passEnded _ _) = t
  have t1 : t.feeders = s.feeders ∧ t.engine.pass = none ∧ t.engine.passCounter = s.engine.passCounter + 1 ∧ t.settings = s.settings := by
    rw [← ht]; exact ⟨rfl, rfl, rfl, rfl⟩
  clear ht
  have v1 : ∀ c : Bool, (if c = true then t.append (.passMark (s.engine.passCounter + 1)) else t).feeders = t.feeders
      ∧ (if c = true then t.append (.passMark (s.engine.passCounter + 1)) else t).engine = t.engine
      ∧ (if c = true then t.append (.passMark (s.engine.passCounter + 1)) else t).settings = t.settings := by
    intro c; cases c <;> exact ⟨rfl, rfl, rfl⟩
  have v1 := v1 (s.markDue (s.engine.passCounter + 1))
  generalize (if s.markDue (s.engine.passCounter + 1) = true then t.append (.passMark (s.engine.passCounter + 1)) else t) = v at v1 ⊢
  have w1 := State.completeRecord_parts v
  generalize v.completeRecord = w at w1 ⊢
  have e1 : ∀ c : Bool, (if c = true then w.flush .unconfirmed else w).feeders = w.feeders
      ∧ (if c = true then w.flush .unconfirmed else w).engine = w.engine ∧ (if c = true then w.flush .unconfirmed else w).settings = w.settings := by
    intro c; cases c
    · exact ⟨rfl, rfl, rfl⟩
    · rw [if_pos rfl, State.flush_eq]; exact ⟨rfl, rfl, rfl⟩
  obtain ⟨a, b, c⟩ := e1 s.headOffPlan
  exact ⟨(a.trans w1.1).trans (v1.1.trans t1.1), by rw [b, w1.2.1, v1.2.1]; exact t1.2.1, by rw [b, w1.2.1, v1.2.1]; exact t1.2.2.1,
    (c.trans w1.2.2).trans (v1.2.2.trans t1.2.2.2)⟩

/-- R92. -/
theorem State.FeederRun.completePass (h : State.FeederRun P n s) (ho : s.latchOutstanding = false) : State.FeederEnd P n s.completePass :=
    by
  obtain ⟨h1, h2, h3, h4⟩ := State.completePass_parts s
  exact .inr ⟨h.law.same h1, by rw [State.latchOutstanding_congr h1]; exact ho, h2, by rw [h3, h.counter], by rw [State.systems_congr h4]; exact h.fitted⟩

/-- R91. -/
theorem State.FeederRun.completeIfSettled (h : State.FeederRun P n s) : State.FeederEnd P n s.completeIfSettled := by
  unfold State.completeIfSettled
  split
  · rename_i hc
    simp only [Bool.and_eq_true, Bool.not_eq_true'] at hc
    exact h.completePass hc.2
  · exact .inl h

/-- R85. -/
theorem State.FeederRun.arrive (h : State.FeederRun P n s) (m x i) : State.FeederRun P n (State.arrive m x s i) := by
  unfold State.arrive
  split
  · exact h
  · rename_i q hq
    dsimp only
    split
    · unfold State.arriveAt
      dsimp only
      generalize hu : (if m = true then _ else _ : State) = u
      have hul : State.FeederRun P n u := by
        rw [← hu]
        split
        · exact h.keep rfl (by rw [hq]; rfl) rfl Iff.rfl rfl rfl
        · exact h.keep rfl rfl rfl Iff.rfl rfl rfl
      split
      · exact hul.raise _
      · exact hul
    · exact h

/-- R85. -/
theorem State.FeederRun.arrivals (h : State.FeederRun P n s) (m x) : State.FeederRun P n (s.arrivals m x) := State.FeederRun.foldl _ (fun _
    _ h => h.arrive _ _ _) _ h

/-- The queue stays empty or not. -/
theorem State.records_mapHead (s : State) (g) : (s.mapHead g).queue.records = [] ↔ s.queue.records = [] := by
  unfold State.mapHead; cases s.queue.records <;> simp

/-- A change of the head record. -/
theorem State.FeederRun.mapHead (h : State.FeederRun P n s) (g) : State.FeederRun P n (s.mapHead g) := h.keep rfl rfl rfl
    (State.records_mapHead _ _) rfl rfl

/-- R59. -/
theorem State.FeederRun.remark (h : State.FeederRun P n s) (i o m) : State.FeederRun P n (s.remark i o m) := h.mapHead _

/-- R59. -/
theorem State.FeederRun.settle (h : State.FeederRun P n s) (i m) : State.FeederRun P n (s.settle i m) := h.mapHead _

/-- R79. -/
theorem State.FeederRun.startPass (h : State.FeederRun P n s) (r rs x) (hr : s.queue.records = r :: rs) : State.FeederRun P n (s.startPass
    r x) := by
  unfold State.startPass
  dsimp only
  refine State.FeederRun.arrivals (State.FeederRun.log ?_ _) _ _
  have hrec : ∀ g, (s.mapHead g).queue.records ≠ [] := by intro g; rw [ne_eq, State.records_mapHead, hr]; simp
  refine ⟨h.law.same rfl, fun e => ?_, fun _ _ => ?_, h.counter, h.fitted, fun _ e => ?_⟩
  · cases e
  · exact hrec _
  · exact absurd e (hrec _)

/-- R75 to R79. -/
theorem State.FeederRun.entryCrossing (h : State.FeederRun P n s) (hp : s.engine.pass = none) (d x) : State.FeederRun P n (s.entryCrossing
    d x) := by
  have fatal : ∀ e r, State.FeederRun P n ((s.raise e).abortHead r) := by
    intro e r
    have hq : (s.raise e).engine.pass = none := State.noPass_raise hp _
    unfold State.abortHead
    exact State.FeederRun.flush (s := (s.raise e).append _) ((h.raise e).keep rfl rfl rfl Iff.rfl rfl rfl) hq _
  unfold State.entryCrossing
  split
  · exact h.raise _
  · rename_i r rs hr
    split
    · exact h
    · exact h
    · exact h
    · split
      · exact fatal _ _
      · split
        · exact fatal _ _
        · split
          · exact h.startPass r rs x hr
          · exact fatal _ _

/-- A change of the feeder unit in a pass. -/
theorem State.FeederRun.inPass (h : State.FeederRun P n s) (hp : s.engine.pass ≠ none) (hl : t.LatchLaw) (he : t.engine = s.engine)
    (hr : t.queue.records = [] ↔ s.queue.records = []) (hs : t.settings = s.settings) : State.FeederRun P n t where
  law := hl
  settled e := absurd (he ▸ e) hp
  current p _ := by rw [ne_eq, hr]; exact h.current p hp
  counter := by rw [he]; exact h.counter
  fitted := by rw [State.systems_congr hs]; exact h.fitted
  projection p e := absurd (hr.1 e) (h.current p hp)

/-- What a write of a feeder leaves alone. -/
theorem State.putFeeder_parts (s : State) (f v) : (s.putFeeder f v).engine = s.engine ∧ (s.putFeeder f v).queue = s.queue
    ∧ (s.putFeeder f v).settings = s.settings := by
  unfold State.putFeeder; dsimp only; split <;> exact ⟨rfl, rfl, rfl⟩

/-- An outstanding latch has a pass. -/
theorem State.FeederRun.outPass (h : State.FeederRun P n s) {i} (hi : (s.latch i).state.outstanding = true) : s.engine.pass ≠ none := by
  intro e
  have := h.settled e
  unfold State.latchOutstanding at this
  rw [List.any_eq_false] at this
  by_cases h4 : i < 4
  · exact this i (List.mem_range.2 h4) hi
  · rw [State.latch_past _ h4] at hi; cases hi

/-- R112. -/
theorem State.FeederRun.expireTake (h : State.FeederRun P n s) {i f pos} (e : (s.latch i).state = .closing f pos) : State.FeederRun P n
    (s.expireTake i f pos) := by
  have hp := h.outPass (i := i) (by rw [e]; rfl)
  refine State.FeederRun.settle ?_ _ _
  refine h.inPass hp ?_ ?_ ?_ ?_
  · refine State.LatchLaw.putDown (s := s.noteRaise _) (h.law.same rfl) (b := .take) ?_ _ rfl
    show (s.latch i).state.bond = _; rw [e]; rfl
  · exact (State.putFeeder_parts _ _ _).1
  · show (State.putFeeder _ _ _).queue.records = [] ↔ _; rw [(State.putFeeder_parts _ _ _).2.1]; exact Iff.rfl
  · exact (State.putFeeder_parts _ _ _).2.2

/-- R115. -/
theorem State.FeederRun.expireRelease (h : State.FeederRun P n s) {i f} (e : (s.latch i).state = .opening f) : State.FeederRun P n
    (s.expireRelease i f) := by
  have hp := h.outPass (i := i) (by rw [e]; rfl)
  refine State.FeederRun.settle ?_ _ _
  refine h.inPass hp ?_ ?_ ?_ ?_
  · refine State.LatchLaw.putDown (s := s.noteRaise _) (h.law.same rfl) (b := .release) ?_ _ rfl
    show (s.latch i).state.bond = _; rw [e]; rfl
  · exact (State.putFeeder_parts _ _ _).1
  · show (State.putFeeder _ _ _).queue.records = [] ↔ _; rw [(State.putFeeder_parts _ _ _).2.1]; exact Iff.rfl
  · exact (State.putFeeder_parts _ _ _).2.2

/-- R107. -/
theorem State.FeederRun.countdownStep {acc : State × Option AbortReason} (h : State.FeederRun P n acc.1) (i) : State.FeederRun P n
    (State.countdownStep acc i).1 := by
  obtain ⟨s, r⟩ := acc
  have put : (s.latch i).state.outstanding = true → State.FeederRun P n (s.putLatch i { s.latch i with countdown := (s.latch i).countdown - 1 }) := by
    intro ho
    refine h.inPass (h.outPass ho) ?_ rfl Iff.rfl rfl
    refine h.law.congr (fun g => rfl) (fun j => ?_)
    rw [State.latch_putLatch]; split
    · rename_i k; rw [← k.1]
    · rfl
  unfold State.countdownStep
  dsimp only
  split
  · exact h
  · exact h
  · rename_i f pos e
    split
    · exact h.expireTake e
    · exact put (by rw [e]; rfl)
  · rename_i f e
    split
    · exact h.expireRelease e
    · exact put (by rw [e]; rfl)

/-- R107, R116. -/
theorem State.FeederRun.countdowns (h : State.FeederRun P n s) : State.FeederRun P n s.countdowns := by
  have : ∀ (l : List Nat) (acc : State × Option AbortReason), State.FeederRun P n acc.1 → State.FeederRun P n (l.foldl State.countdownStep acc).1 := by
    intro l; induction l with
    | nil => exact fun _ h => h
    | cons i l ih => exact fun acc h => ih _ (h.countdownStep i)
  exact State.FeederRun.abortFor (this _ (s, none) h) _

/-- R109. -/
theorem State.FeederRun.driveTake (h : State.FeederRun P n s) (hp : s.engine.pass ≠ none) {i f rail pos} (hi : i < 4)
    (hf : s.feeder f = .parked rail pos) (ho : (s.latch i).state = .opened) : State.FeederRun P n (s.driveTake i f rail pos) := by
  have h16 : f < 16 := Decidable.byContradiction fun hc => by rw [State.feeder_past _ hc] at hf; cases hf
  unfold State.driveTake
  split
  · exact ((h.keep (t := s.noteRaise _) rfl rfl rfl Iff.rfl rfl rfl).remark _ _ _).abortPass _
  · refine State.FeederRun.remark (h.inPass hp ?_ ?_ ?_ ?_) _ _ _
    · refine h.law.swap (i := i) (f := f) hi (fun g hg => ?_) (fun j hj => ?_) (fun j c k => ?_) (fun g c k => ?_) (.inl ⟨.take, ?_, ?_⟩)
      · rw [State.feeder_putFeeder, if_neg fun k => hg k.1.symm]; rfl
      · rw [State.latch_putFeeder, State.latch_putLatch, if_neg fun k => hj k.1.symm]
      · rw [hf] at k; cases k
      · rw [ho] at k; cases k
      · rw [State.feeder_putFeeder, if_pos ⟨rfl, h16⟩]; rfl
      · rw [State.latch_putFeeder, State.latch_putLatch, if_pos ⟨rfl, hi⟩]; rfl
    · exact (State.putFeeder_parts _ _ _).1
    · rw [(State.putFeeder_parts _ _ _).2.1]; exact Iff.rfl
    · exact (State.putFeeder_parts _ _ _).2.2

/-- R113. -/
theorem State.FeederRun.driveRelease (h : State.FeederRun P n s) (hp : s.engine.pass ≠ none) {i f x}
    (hcl : (s.latch i).state = .closed f) : State.FeederRun P n (s.driveRelease i f x) := by
  unfold State.driveRelease
  refine State.FeederRun.remark (h.inPass hp ?_ ?_ ?_ ?_) _ _ _
  · refine State.LatchLaw.rebond h.law (i := i) (f := f) (b := .hold) (by rw [hcl]; rfl) .release (.releasing (s.feeder f).rail i x) (Latch.mk (.opening f) s.confirmNeedles) rfl rfl (fun g => ?_) (fun j => ?_)
    · rw [State.feeder_putFeeder]; rfl
    · rw [State.latch_putFeeder, State.latch_putLatch]
  · exact (State.putFeeder_parts _ _ _).1
  · rw [(State.putFeeder_parts _ _ _).2.1]; exact Iff.rfl
  · exact (State.putFeeder_parts _ _ _).2.2

/-- R107, R108. -/
theorem State.FeederRun.reach (h : State.FeederRun P n s) (hp : s.engine.pass ≠ none) {i} (hi : i < 4) (x m) : State.FeederRun P n
    (State.reach x i m s) := by
  induction m generalizing s with
  | zero => exact h
  | succ m ih =>
    unfold State.reach
    split
    · exact h
    · split
      · rename_i rail pos hf
        split
        · rename_i hc; exact h.driveTake hp hi hf hc.2
        · exact h
      all_goals exact h
    · split
      · split
        · rename_i hc; exact h.driveRelease hp hc
        · exact ih (h.remark _ _ _) hp
      · exact h

/-- R107. -/
theorem State.FeederRun.feederStep (h : State.FeederRun P n s) (x) : State.FeederRun P n (s.feederStep x) := by
  unfold State.feederStep
  dsimp only
  have hc := h.countdowns
  split
  · have : ∀ (l : List Nat) (t : State), (∀ i ∈ l, i < 4) → State.FeederRun P n t → State.FeederRun P n (l.foldl (State.reachIfPass x) t) := by
      intro l; induction l with
      | nil => exact fun _ _ h => h
      | cons i l ih =>
        intro t hl h
        refine ih _ (fun j hj => hl j (by simp [hj])) ?_
        unfold State.reachIfPass
        split
        · rename_i hp; exact h.reach (Option.isSome_iff_ne_none.1 hp) (hl i (by simp)) x 2
        · exact h
    exact this _ _ (fun i hi => by have := List.mem_range.1 hi; have := hc.fitted; omega) hc
  · exact hc

/-- R136 touches the yarn monitor alone. -/
theorem State.markTravel_eq (s : State) : s.markTravel = { s with yarn := s.markTravel.yarn } := by
  unfold State.markTravel
  generalize s.carriedFeeders = l
  induction l generalizing s with
  | nil => rfl
  | cons a l ih => rw [List.foldl_cons]; refine (ih _).trans ?_; rfl

/-- R17, R18. -/
theorem State.FeederRun.measurePeriod (h : State.FeederRun P n s) : State.FeederRun P n s.measurePeriod := by
  unfold State.measurePeriod
  split
  · exact h
  · dsimp only
    split
    · refine State.FeederRun.raise ?_ _; exact h.keep rfl rfl rfl Iff.rfl rfl rfl
    · exact h.keep rfl rfl rfl Iff.rfl rfl rfl

/-- R90. -/
theorem State.FeederRun.exitPass (h : State.FeederRun P n s) : State.FeederEnd P n s.exitPass := by
  unfold State.exitPass
  have h4 : State.FeederRun P n s.clearBanks := h.keep rfl rfl rfl Iff.rfl rfl rfl
  generalize s.clearBanks = w at h4
  dsimp only
  split
  · exact .inl ((h4.mapHead (fun r => { r with state := .finishing })).keep rfl rfl rfl Iff.rfl rfl rfl)
  · rename_i hc
    exact h4.completePass (by simpa using hc)

/-- Either arm. -/
theorem State.FeederEnd.ite (b : Bool) {u v : State} (h : State.FeederEnd P n u) (k : State.FeederEnd P n v) : State.FeederEnd P n (if b =
    true then u else v) := by
  cases b
  · exact k
  · exact h

/-- R82. -/
theorem State.FeederRun.activeAdvance (h : State.FeederRun P n s) (d x) : State.FeederEnd P n (s.activeAdvance d x) := by
  have h1 := h.measurePeriod
  have h3 : State.FeederRun P n ((s.measurePeriod.arrivals true x).feederStep x).markTravel := by
    rw [State.markTravel_eq]; exact ((h1.arrivals true x).feederStep x).keep rfl rfl rfl Iff.rfl rfl rfl
  unfold State.activeAdvance
  exact State.FeederEnd.ite _ (State.FeederEnd.ite _ (State.FeederEnd.ite _ h3.exitPass (.inl h3)) (.inl (h1.arrivals true x))) (.inl h1)

/-- R73, R74. -/
theorem State.FeederRun.carriageStep (h : State.FeederRun P n s) (d x) : State.FeederEnd P n (s.carriageStep d x) := by
  unfold State.carriageStep
  dsimp only
  have h0 : State.FeederRun P n (s.setTracker { s.tracker with lastDir := d }).restartStall := by
    unfold State.restartStall; split <;> exact h.keep rfl rfl rfl Iff.rfl rfl rfl
  generalize (s.setTracker { s.tracker with lastDir := d }).restartStall = t at h0 ⊢
  split
  · rename_i hp
    unfold State.noPassStep
    split
    · exact .inl (h0.entryCrossing hp d x)
    · exact .inl h0
  · rename_i p hp
    split
    · split
      · unfold State.advance
        dsimp only
        have h1 : State.FeederRun P n (t.setEngine { t.engine with pass := some { p with furthestX := x } }) := h0.keep rfl (by rw [hp]; rfl) rfl Iff.rfl rfl rfl
        split
        · exact h1.activeAdvance _ _
        · exact .inl (h1.feederStep x)
      · unfold State.reArrival; split
        · exact .inl (h0.arrivals _ _)
        · exact .inl h0
    · unfold State.retreat; dsimp only; split
      · exact .inl (h0.raise _)
      · exact .inl h0

/-- A change of the tracker. -/
theorem State.FeederRun.track (h : State.FeederRun P n s) (v : Tracker) : State.FeederRun P n (s.setTracker v) := h.keep rfl rfl rfl
    Iff.rfl rfl rfl

/-- R14. -/
theorem State.FeederRun.enterLost (h : State.FeederRun P n s) (c) : State.FeederRun P n (s.enterLost c) := (h.track _).raise _

/-- R12. -/
theorem State.FeederRun.slip (h : State.FeederRun P n s) (src) : State.FeederRun P n (s.slip src) := by
  unfold State.slip
  have hr := h.raise (.markSlip src)
  generalize s.raise (.markSlip src) = t at hr
  dsimp only
  split
  · exact hr.track _
  · exact hr.enterLost _
  all_goals exact hr

/-- R2. -/
theorem State.FeederRun.positionJump (h : State.FeederRun P n s) : State.FeederRun P n s.positionJump := by
  unfold State.positionJump
  split
  · exact (h.raise _).enterLost _
  · exact h

/-- R3, R10. -/
theorem State.FeederRun.trackTransition (h : State.FeederRun P n s) (d old) : State.FeederEnd P n (s.trackTransition d old) := by
  unfold State.trackTransition
  dsimp only
  have hvl : ∀ (w : State) (o : Option Int), State.FeederRun P n w → State.FeederRun P n (match o with | some k => w.slip (.absent (k * w.markSpacing)) | none => w) := by
    intro w o hw
    split
    · exact hw.slip _
    · exact hw
  have fin : ∀ (v : State) (d : Direction) (a b c : Int), State.FeederRun P n v → State.FeederEnd P n (if (v.tracker.position.valid && decide (a ≠ b)) = true then v.carriageStep d c else v) := by
    intro v d a b c hv
    split
    · exact hv.carriageStep _ _
    · exact .inl hv
  exact fin _ _ _ _ _ (hvl _ _ (h.track _))

/-- R1 to R3: what a COUNT_TRANSITION leaves. -/
theorem State.FeederRun.countTransition (h : State.FeederRun P n s) (l) (e : exec (.countTransition l) s = .next t) : State.FeederEnd P n t
    := by
  have key : ∀ (w : State) (d : Direction), State.FeederRun P n w → State.FeederEnd P n (if countInRange (s.tracker.count + d.sign) then
      let u := w.setTracker { w.tracker with count := s.tracker.count + d.sign }
      if s.tracker.position.valid then u.trackTransition d s.tracker.count else u
    else w.positionJump) := by
    intro w d hw
    dsimp only
    split
    · split
      · exact (hw.track _).trackTransition _ _
      · exact .inl (hw.track _)
    · exact .inl hw.positionJump
  simp only [exec, execCountTransition, Host.Outcome.next.injEq] at e
  subst e
  cases l
  · exact key _ _ (h.track _)
  · exact key _ _ (h.track _)

end Sys2Proof.Machine
end

