-- ==== Sys2Proof/Laws/Layouts.lean ====
section
/-! SUPPORT. What the bytes of the records and bodies hold: fields, bits and records read back, and the parts of a body that do not parse (R179 to R181). -/

namespace Sys2Proof.Machine

/-- The length of a number in bytes. -/
theorem bytesOf_length (n : Nat) (v : Int) : (bytesOf n v).length = n := by simp [bytesOf]

/-- No bytes. -/
theorem bytesOf_zero (v : Int) : bytesOf 0 v = [] := rfl

/-- The low byte, and the bytes of the rest. -/
theorem bytesOf_succ (n : Nat) (v : Int) : bytesOf (n + 1) v = BitVec.ofInt 8 v :: bytesOf n (v / 256) := by
  unfold bytesOf
  rw [List.range_succ_eq_map, List.map_cons, List.map_map]
  simp only [Int.pow_zero, Int.ediv_one]
  congr 1
  apply List.map_congr_left
  intro i _
  simp only [Function.comp]
  rw [Int.pow_succ', Int.ediv_ediv_of_nonneg (by decide)]

/-- One byte. -/
theorem bytesOf_one (v : Int) : bytesOf 1 v = [BitVec.ofInt 8 v] := by rw [bytesOf_succ, bytesOf_zero]

/-- Two bytes. -/
theorem bytesOf_two (v : Int) : bytesOf 2 v = [BitVec.ofInt 8 v, BitVec.ofInt 8 (v/256)] := by rw [bytesOf_succ, bytesOf_one]

/-- Four bytes. -/
theorem bytesOf_four (v : Int) : bytesOf 4 v = [BitVec.ofInt 8 v, BitVec.ofInt 8 (v/256), BitVec.ofInt 8 (v/256/256),
    BitVec.ofInt 8 (v/256/256/256)] := by
  rw [bytesOf_succ, bytesOf_succ, bytesOf_two]

/-- The low byte of a number. -/
theorem toNat_ofInt_byte (v : Int) : ((BitVec.ofInt 8 v).toNat : Int) = v % 256 := by
  rw [BitVec.toNat_ofInt]; omega

/-- The number that bytes spell, low byte first. -/
def leNat (bs : List Byte) : Nat := bs.foldr (fun b acc => b.toNat + 256 * acc) 0

/-- A number read back, modulo its width. -/
theorem leNat_bytesOf (n : Nat) (v : Int) : ((leNat (bytesOf n v) : Nat) : Int) = v % 256 ^ n := by
  induction n generalizing v with
  | zero => simp [leNat, bytesOf_zero]
  | succ n ih =>
    rw [bytesOf_succ]
    have : leNat (BitVec.ofInt 8 v :: bytesOf n (v / 256)) = (BitVec.ofInt 8 v).toNat + 256 * leNat (bytesOf n (v / 256)) := rfl
    rw [this]; push_cast; rw [ih, toNat_ofInt_byte, Int.pow_succ']
    have h1 := Int.emod_add_mul_ediv v 256
    have h2 := Int.emod_add_mul_ediv (v/256) (256^n)
    have h3 : v % (256 * 256 ^ n) = v - 256 * 256 ^ n * (v / (256 * 256 ^ n)) := by
      have := Int.emod_add_mul_ediv v (256 * 256 ^ n); omega
    rw [h3, ← Int.ediv_ediv_of_nonneg (by decide)]
    have : (256:Int) * 256 ^ n * (v / 256 / 256 ^ n) = 256 * (256 ^ n * (v / 256 / 256 ^ n)) := by ring
    rw [this]; omega

/-- A field that was written at an offset, read back. -/
theorem fieldAt_bytesOf (pre post : List Byte) (n : Nat) (v : Int) (i : Nat) (hi : pre.length = i) :
    ((fieldAt (pre ++ (bytesOf n v ++ post)) i n : Nat) : Int) = v % 256 ^ n := by
  unfold fieldAt
  subst hi
  rw [List.drop_left, List.take_left' (bytesOf_length n v)]
  exact leNat_bytesOf n v

/-- The same, signed. -/
theorem signedAt_bytesOf (pre post : List Byte) (n : Nat) (v : Int) (i : Nat) (hi : pre.length = i) :
    signedAt (pre ++ (bytesOf n v ++ post)) i n = Int.bmod v (256 ^ n) := by
  unfold signedAt
  rw [fieldAt_bytesOf pre post n v i hi]
  have : ((256 : Int) ^ n) = ((256 ^ n : Nat) : Int) := by push_cast; rfl
  rw [this, Int.emod_bmod]

/-- A field behind the first byte. -/
theorem fieldAt_cons_succ (a : Byte) (bs : List Byte) (i n : Nat) : fieldAt (a :: bs) (i+1) n = fieldAt bs i n := rfl

/-- The same, signed. -/
theorem signedAt_cons_succ (a : Byte) (bs : List Byte) (i n : Nat) : signedAt (a :: bs) (i+1) n = signedAt bs i n := rfl

/-- The first byte. -/
theorem fieldAt_cons_byte (a : Byte) (bs : List Byte) : fieldAt (a :: bs) 0 1 = a.toNat := by simp [fieldAt]

/-- A signed byte. -/
theorem signedAt_one (v : Int) (bs : List Byte) : signedAt (BitVec.ofInt 8 v :: bs) 0 1 = Int.bmod v 256 := by
  have := signedAt_bytesOf [] bs 1 v 0 rfl; rw [bytesOf_one] at this; exact this

/-- A signed number of two bytes. -/
theorem signedAt_two (v : Int) (bs : List Byte) : signedAt (BitVec.ofInt 8 v :: BitVec.ofInt 8 (v/256) :: bs) 0 2 = Int.bmod v 65536 := by
  have := signedAt_bytesOf [] bs 2 v 0 rfl; rw [bytesOf_two] at this; exact this

/-- A signed number of four bytes. -/
theorem signedAt_four (v : Int) (bs : List Byte) : signedAt (BitVec.ofInt 8 v :: BitVec.ofInt 8 (v/256) :: BitVec.ofInt 8 (v/256/256) ::
    BitVec.ofInt 8 (v/256/256/256) :: bs) 0 4 = Int.bmod v 4294967296 := by
  have := signedAt_bytesOf [] bs 4 v 0 rfl; rw [bytesOf_four] at this; exact this

/-- The low byte as a number. -/
theorem toNat_ofInt_byte_eq (v : Int) : (BitVec.ofInt 8 v).toNat = (v % 256).toNat := by have := toNat_ofInt_byte v; omega

/-- A byte. -/
theorem fieldAt_one (v : Int) (bs : List Byte) : fieldAt (BitVec.ofInt 8 v :: bs) 0 1 = (v % 256).toNat := by rw [fieldAt_cons_byte,
    toNat_ofInt_byte_eq]

/-- A number of two bytes. -/
theorem fieldAt_two (v : Int) (bs : List Byte) : fieldAt (BitVec.ofInt 8 v :: BitVec.ofInt 8 (v/256) :: bs) 0 2 = (v % 65536).toNat := by
  have := fieldAt_bytesOf [] bs 2 v 0 rfl; rw [bytesOf_two] at this; simp at this ⊢; omega

/-- A number of four bytes. -/
theorem fieldAt_four (v : Int) (bs : List Byte) : fieldAt (BitVec.ofInt 8 v :: BitVec.ofInt 8 (v/256) :: BitVec.ofInt 8 (v/256/256) ::
    BitVec.ofInt 8 (v/256/256/256) :: bs) 0 4 = (v % 4294967296).toNat := by
  have := fieldAt_bytesOf [] bs 4 v 0 rfl; rw [bytesOf_four] at this; simp at this ⊢; omega

/-- A field behind dropped bytes. -/
theorem fieldAt_drop (b : List Byte) (m i n : Nat) : fieldAt (b.drop m) i n = fieldAt b (m + i) n := by
  unfold fieldAt; rw [List.drop_drop]

/-- A field behind a prefix. -/
theorem fieldAt_append (a b : List Byte) (n i k : Nat) (h : a.length = n) : fieldAt (a ++ b) (n + i) k = fieldAt b i k := by
  subst h; rw [← fieldAt_drop, List.drop_left]

/-- A bit behind dropped bytes. -/
theorem bitAt_drop (b : List Byte) (m i k : Nat) : bitAt (b.drop m) i k = bitAt b (m + i) k := by
  unfold bitAt; simp [List.getD_eq_getElem?_getD, List.getElem?_drop]

/-- Two bytes as a number. -/
theorem fieldAt_word16 (a b : Byte) (bs : List Byte) : fieldAt (a :: b :: bs) 0 2 = word16 a b := by simp [fieldAt, word16]

/-- A byte by its offset. -/
theorem fieldAt_byte (bs : List Byte) (i : Nat) : fieldAt bs i 1 = (bs.getD i 0).toNat := by
  unfold fieldAt
  rcases Nat.lt_or_ge i bs.length with h | h
  · rw [List.drop_eq_getElem_cons h, List.take_succ_cons]; simp [List.getD_eq_getElem?_getD, h]
  · rw [List.drop_eq_nil_of_le h, List.getD_eq_default _ _ h]; rfl

/-- The bits of a later byte. -/
theorem bitsAt_cons_succ (a : Byte) (bs : List Byte) (i : Nat) (ps : List Prop) : bitsAt (a :: bs) (i + 1) ps ↔ bitsAt bs i ps := Iff.rfl

/-- Bits behind a prefix. -/
theorem bitsAt_append (a b : List Byte) (n i : Nat) (h : a.length = n) (ps : List Prop) : bitsAt (a ++ b) (n + i) ps ↔ bitsAt b i ps := by
  subst h; unfold bitsAt bitAt; simp [List.getD_eq_getElem?_getD, List.getElem?_append_right]

/-- R181: a byte made of bits shows them. -/
theorem bitsAt_bitsByte (l : List Bool) (ps : List Prop) (bs : List Byte) (hl : l.length ≤ 8) (h : l.length = ps.length)
    (h2 : ∀ k (h1 : k < l.length) (h3 : k < ps.length), l[k] = true ↔ ps[k]) : bitsAt (bitsByte l :: bs) 0 ps := by
  intro k hk
  have : bitAt (bitsByte l :: bs) 0 k = l.getD k false := by
    show (bitsByte l).getLsbD k = _
    clear h h2
    match l, hl with
    | [], _ => simp [bitsByte]
    | [a], _ | [a,b], _ | [a,b,c], _ | [a,b,c,d], _ | [a,b,c,d,e], _ | [a,b,c,d,e,f], _ | [a,b,c,d,e,f,g], _ | [a,b,c,d,e,f,g,h], _ =>
      interval_cases k <;> revert a <;> (try revert b) <;> (try revert c) <;> (try revert d) <;> (try revert e) <;> (try revert f) <;> (try revert g) <;> (try revert h) <;> decide
    | a::b::c::d::e::f::g::h::i::r, h' => (simp at h'; omega)
  rw [this]
  rcases Nat.lt_or_ge k l.length with h1 | h1
  · have h3 : k < ps.length := h ▸ h1
    rw [List.getD_eq_getElem _ _ h1, List.getD_eq_getElem _ _ h3]; exact h2 k h1 h3
  · rw [List.getD_eq_default _ _ h1, List.getD_eq_default _ _ (h ▸ h1)]; simp

/-- The k-th of the records that follow one another. -/
theorem recordAt_flatMap {α} (pre post : List Byte) (l : List α) (f : α → List Byte) (n i : Nat) (hp : pre.length = i)
    (hf : ∀ a ∈ l, (f a).length = n) (k : Nat) (hk : k < l.length) :
    recordAt (pre ++ l.flatMap f ++ post) i n k = f l[k] := by
  subst hp
  unfold recordAt
  rw [List.append_assoc, ← List.drop_drop, List.drop_left]
  induction l generalizing k with
  | nil => simp at hk
  | cons a l ih =>
    rw [List.flatMap_cons]
    have ha := hf a (by simp)
    match k with
    | 0 => simp only [Nat.mul_zero, List.drop_zero, List.getElem_cons_zero, List.append_assoc]; rw [List.take_left' ha]
    | k+1 =>
      have : n * (k+1) = (f a).length + n * k := by rw [ha, Nat.mul_succ, Nat.add_comm]
      rw [this, ← List.drop_drop, List.append_assoc, List.drop_left]
      exact ih (fun b hb => hf b (by simp [hb])) k (by simpa using hk)

/-- Code MISS. -/
theorem codeOf_eq_miss_iff (n : Nat) : codeOf n = .miss ↔ n % 4 = 0 := by
  unfold codeOf
  have : n % 4 < 4 := Nat.mod_lt _ (by decide)
  generalize n % 4 = k at *
  match k, this with
  | 0, _ | 1, _ | 2, _ | 3, _ => simp

/-- Code j of packed codes (8.8.1). -/
theorem unpackByte_flatMap_getElem? (l : List Byte) (j : Nat) : (l.flatMap unpackByte)[j]? = (l[j/4]?).map fun b => codeOf (b.toNat / 4 ^
    (j % 4)) := by
  induction l generalizing j with
  | nil => simp
  | cons a l ih =>
    rw [List.flatMap_cons]
    match j with
    | 0 | 1 | 2 | 3 => simp [unpackByte]
    | j + 4 =>
      have : (unpackByte a ++ List.flatMap unpackByte l)[j+4]? = (List.flatMap unpackByte l)[j]? := by
        simp [unpackByte]
      rw [this, ih]
      have h1 : (j + 4) / 4 = j / 4 + 1 := by omega
      have h2 : (j + 4) % 4 = j % 4 := by omega
      rw [h1, h2]; simp

/-- A list of three and more. -/
theorem List.exists_three (b : List Byte) (h : ¬ b.length < 3) : ∃ a1 a2 a3 r, b = a1 :: a2 :: a3 :: r := by
  match b, h with
  | a1 :: a2 :: a3 :: r, _ => exact ⟨_, _, _, _, rfl⟩
  | [], h | [_], h | [_,_], h => simp at h

/-- An action that does not parse. -/
theorem parseAction_iff (b : List Byte) : (parseAction b = none ↔ b.length < 3 ∨ (bitAt b 0 7 = false ∧ fieldAt b 1 2 ≠ 0))
   ∧ ∀ a r, parseAction b = some (a, r) → 3 ≤ b.length ∧ r = b.drop 3 := by
  unfold parseAction
  split
  · rename_i a p0 p1 rest
    have h1 : fieldAt (a :: p0 :: p1 :: rest) 1 2 = word16 p0 p1 := fieldAt_word16 p0 p1 rest
    have h2 : bitAt (a :: p0 :: p1 :: rest) 0 7 = decide (128 ≤ a.toNat) := by
      show a.getLsbD 7 = _
      have h := BitVec.msb_eq_decide a
      simp only [BitVec.msb, BitVec.getMsbD] at h; simpa using h
    rw [h1, h2]
    by_cases h : 128 ≤ a.toNat
    · simp [h]
    · by_cases h3 : word16 p0 p1 = 0
      · simp [h, h3]
      · simp [h, h3]
  · rename_i hne
    have : b.length < 3 := by
      match b, hne with
      | [], _ | [_], _ | [_,_], _ => simp
      | a :: b :: c :: r, h => exact absurd rfl (h a b c r)
    simp [this]

/-- Actions that do not parse. -/
theorem parseMany_parseAction_iff (n : Nat) : ∀ b, (parseMany parseAction n b = none ↔ b.length < 3 * n ∨ ∃ k < n,
    bitAt b (3 * k) 7 = false ∧ fieldAt b (3 * k + 1) 2 ≠ 0)
    ∧ ∀ as r, parseMany parseAction n b = some (as, r) → 3 * n ≤ b.length ∧ r = b.drop (3 * n) := by
  induction n with
  | zero => intro b; simp [parseMany]
  | succ n ih =>
    intro b
    obtain ⟨h1, h2⟩ := parseAction_iff b
    simp only [parseMany]
    cases hp : parseAction b with
    | none =>
      have := h1.1 hp
      refine ⟨⟨fun _ => ?_, fun _ => by simp⟩, by simp⟩
      rcases this with h | h
      · exact .inl (by omega)
      · exact .inr ⟨0, by omega, by simpa using h⟩
    | some v =>
      obtain ⟨a, r⟩ := v
      obtain ⟨h3, rfl⟩ := h2 a r hp
      obtain ⟨g1, g2⟩ := ih (b.drop 3)
      have hno : ¬ (b.length < 3 ∨ (bitAt b 0 7 = false ∧ fieldAt b 1 2 ≠ 0)) := by rw [← h1, hp]; simp
      have hshift : (∃ k < n + 1, bitAt b (3 * k) 7 = false ∧ fieldAt b (3 * k + 1) 2 ≠ 0) ↔ ∃ k < n, bitAt (b.drop 3) (3 * k) 7 = false ∧ fieldAt (b.drop 3) (3 * k + 1) 2 ≠ 0 := by
        constructor
        · rintro ⟨k, hk, h4, h5⟩
          match k, hk with
          | 0, _ => exact absurd (.inr ⟨by simpa using h4, by simpa using h5⟩) hno
          | k+1, hk => exact ⟨k, by omega, by rw [bitAt_drop, ← h4]; congr 1; omega, by rw [fieldAt_drop]; rw [show 3 + (3*k+1) = 3 * (k+1) + 1 by omega]; exact h5⟩
        · rintro ⟨k, hk, h4, h5⟩
          refine ⟨k+1, by omega, ?_, ?_⟩
          · rw [bitAt_drop] at h4; rw [← h4]; congr 1
            omega
          · rw [fieldAt_drop] at h5; rw [show 3 * (k+1) + 1 = 3 + (3*k+1) by omega]; exact h5
      simp only []
      cases hq : parseMany parseAction n (b.drop 3) with
      | none =>
        refine ⟨⟨fun _ => ?_, fun _ => by simp⟩, by simp⟩
        have := g1.1 hq
        rw [hshift]; rcases this with h | h
        · exact .inl (by rw [List.length_drop] at h; omega)
        · exact .inr h
      | some v =>
        obtain ⟨as, r'⟩ := v
        obtain ⟨h5, rfl⟩ := g2 as r' hq
        have g3 := g1.not.1 (by rw [hq]; simp)
        refine ⟨⟨fun h => by simp at h, fun h => ?_⟩, ?_⟩
        · exfalso; rw [hshift] at h; apply g3
          rcases h with h | h
          · exact .inl (by rw [List.length_drop]; omega)
          · exact .inr h
        · simp only [Option.some.injEq, Prod.mk.injEq, and_imp, List.drop_drop, forall_apply_eq_imp_iff]
          intro as _
          rw [List.length_drop] at h5
          refine ⟨by omega, ?_⟩
          rw [show 3 + 3 * n = 3 * (n+1) by omega]

/-- A channel that does not parse. -/
theorem parseChannel_iff (b : List Byte) : (parseChannel b = none ↔ b.length < 8 ∨ bitAt b 7 1 = true ∨ 16 ≤ fieldAt b 7 1)
   ∧ ∀ c r, parseChannel b = some (c, r) → 8 ≤ b.length ∧ r = b.drop 8 := by
  unfold parseChannel
  split
  · rename_i l a0 a1 w0 w1 o0 o1 m rest
    have h1 : fieldAt (l :: a0 :: a1 :: w0 :: w1 :: o0 :: o1 :: m :: rest) 7 1 = m.toNat := fieldAt_byte _ _
    have h2 : bitAt (l :: a0 :: a1 :: w0 :: w1 :: o0 :: o1 :: m :: rest) 7 1 = decide (m.toNat / 2 % 2 = 1) := by
      show m.getLsbD 1 = _
      rw [BitVec.getLsbD, Nat.testBit_eq_decide_div_mod_eq]
    rw [h1, h2]
    have hm : m.toNat / 16 = 0 ↔ ¬ 16 ≤ m.toNat := by omega
    by_cases h : m.toNat / 2 % 2 = 0
    · by_cases h3 : m.toNat / 16 = 0
      · have : ¬ 16 ≤ m.toNat := hm.1 h3
        simp [h, h3, this]
      · have : 16 ≤ m.toNat := by omega
        simp [h, h3, this]
    · have : m.toNat / 2 % 2 = 1 := by omega
      simp [this]
  · rename_i hne
    have : b.length < 8 := by
      match b, hne with
      | [], _ | [_], _ | [_,_], _ | [_,_,_], _ | [_,_,_,_], _ | [_,_,_,_,_], _ | [_,_,_,_,_,_], _ | [_,_,_,_,_,_,_], _ => simp
      | a1::a2::a3::a4::a5::a6::a7::a8::r, h => exact absurd rfl (h a1 a2 a3 a4 a5 a6 a7 a8 r)
    simp [this]

/-- An announced channel that does not parse. -/
theorem parseOptional_iff (p : Bool) (b : List Byte) : (parseOptional p b = none ↔ p = true ∧ (b.length < 8 ∨ bitAt b 7 1 = true ∨ 16 ≤
    fieldAt b 7 1))
   ∧ ∀ c r, parseOptional p b = some (c, r) → 8 * p.toNat ≤ b.length ∧ r = b.drop (8 * p.toNat) := by
  obtain ⟨h1, h2⟩ := parseChannel_iff b
  cases p
  · simp [parseOptional]
  · simp only [parseOptional, if_true]
    cases hp : parseChannel b with
    | none => simp [h1.1 hp]
    | some v =>
      obtain ⟨c, r⟩ := v
      obtain ⟨h3, rfl⟩ := h2 c r hp
      have := h1.not.1 (by rw [hp]; simp)
      simp only [reduceCtorEq, true_and, this, Option.some.injEq, Prod.mk.injEq, Bool.toNat_true, Nat.mul_one, and_imp]
      exact fun c r _ h => ⟨h3, h.symm⟩

end Sys2Proof.Machine
end

