-- ==== Sys2Proof/Laws/Marks.lean ====
section
/-! SUPPORT. What the marks of the head record's actions become, what the resolution of the latches leaves of the pass queue and of
a head record, the two outcomes of a raise, and the check of a frame against the register of R170 bit by bit. -/

namespace Sys2Proof.Machine

open Sys2Proof

/-! ### Marks -/

theorem firstRemarked_markFirst (old new : Mark) (as : List MarkedAction) : firstRemarked old new as (markFirst old new as) := by
  induction as with
  | nil => exact ⟨fun before a after h => by simp at h, fun _ => rfl⟩
  | cons b as ih =>
    unfold markFirst
    refine ⟨fun before a after e hb ha => ?_, fun h => ?_⟩
    · cases before with
      | nil =>
        simp only [List.nil_append, List.cons.injEq] at e
        obtain ⟨rfl, rfl⟩ := e
        rw [if_pos ha]
        rfl
      | cons c before =>
        simp only [List.cons_append, List.cons.injEq] at e
        obtain ⟨rfl, e⟩ := e
        rw [if_neg (hb b (by simp)), ih.1 before a after e (fun x hx => hb x (by simp [hx])) ha]
        rfl
    · rw [if_neg (h b (by simp)), ih.2 fun a ha => h a (by simp [ha])]

/-- Entries that a function remarks where a system is hit and leaves elsewhere. -/
theorem entriesRemarked_map (hit : Nat → Prop) (old new : Mark) (es : List SystemEntry) (g : SystemEntry → SystemEntry)
    (h : ∀ e ∈ es, (hit e.system → g e = { e with actions := markFirst old new e.actions }) ∧ (¬ hit e.system → g e = e)) :
    entriesRemarked hit old new es (es.map g) := by
  refine ⟨by simp, fun k e he => ?_⟩
  have hm : e ∈ es := List.mem_of_getElem? he
  rw [List.getElem?_map, he]
  by_cases hh : hit e.system
  · exact ⟨_, by rw [Option.map_some, (h e hm).1 hh], fun _ => firstRemarked_markFirst old new _, fun n => absurd hh n⟩
  · exact ⟨_, by rw [Option.map_some, (h e hm).2 hh], fun n => absurd n hh, fun _ => rfl⟩

theorem State.remark_empty (i : Nat) (old new : Mark) (s : State) (h : s.queue.records = []) : s.remark i old new = s := by
  unfold State.remark State.mapHead State.setQueue
  rw [h]
  dsimp only
  rw [← h]

theorem State.remark_head (i : Nat) (old new : Mark) (s : State) (h : PassRecord) (rest : List PassRecord)
    (e : s.queue.records = h :: rest) : ∃ es,
    s.remark i old new = { s with queue := { s.queue with records := { h with entries := es } :: rest } }
    ∧ entriesRemarked (fun j => j = i) old new h.entries es := by
  refine ⟨h.entries.map fun e => if e.system = i then { e with actions := markFirst old new e.actions } else e, ?_, ?_⟩
  · unfold State.remark State.mapHead State.setQueue
    rw [e]
  · exact entriesRemarked_map _ _ _ _ _ fun e he => ⟨fun h => if_pos h, fun h => if_neg h⟩

/-! ### The resolution of the latches -/

theorem State.queue_putFeeder (s : State) (f : Nat) (v : Feeder) : (s.putFeeder f v).queue = s.queue := by
  unfold State.putFeeder
  dsimp only
  split <;> rfl

theorem State.queue_resolveLatch (s : State) (i : Nat) :
    (s.resolveLatch i).queue = if (s.latch i).state.outstanding then (s.settle i .otherwise).queue else s.queue := by
  have q : ∀ t : State, t.queue = s.queue → (t.settle i .otherwise).queue = (s.settle i .otherwise).queue := by
    intro t h
    unfold State.settle State.remark State.mapHead
    rw [h]
    rfl
  unfold State.resolveLatch
  split <;> rename_i h <;> rw [h]
  · exact q _ (State.queue_putFeeder _ _ _)
  · exact q _ (State.queue_putFeeder _ _ _)
  · rfl
  · rfl

/-- The pass queue once the latches of the systems below n are resolved. -/
theorem State.queue_resolveBelow (s : State) (n : Nat) (h : PassRecord) (rest : List PassRecord) (e : s.queue.records = h :: rest) :
    ((List.range n).foldl State.resolveLatch s).queue
      = { s.queue with records := { h with entries := h.entries.map fun e =>
          if e.system < n ∧ (s.latch e.system).state.outstanding = true then { e with actions := markFirst .pending .otherwise e.actions }
          else e } :: rest }
    ∧ ∀ j, n ≤ j → ((List.range n).foldl State.resolveLatch s).latch j = s.latch j := by
  induction n with
  | zero => simp [← e]
  | succ n ih =>
    obtain ⟨i1, i2⟩ := ih
    rw [List.range_succ, List.foldl_append, List.foldl_cons, List.foldl_nil]
    refine ⟨?_, fun j hj => ?_⟩
    · rw [State.queue_resolveLatch, i2 n (Nat.le_refl _)]
      split
      · rename_i ho
        unfold State.settle State.remark State.mapHead State.setQueue
        rw [i1]
        dsimp only
        rw [List.map_map]
        congr 3
        apply List.map_congr_left
        intro e _
        dsimp only [Function.comp]
        by_cases h1 : e.system = n
        · subst h1
          simp [ho]
        · by_cases h2 : e.system < n ∧ (s.latch e.system).state.outstanding = true
          · have h3 : e.system < n + 1 ∧ (s.latch e.system).state.outstanding = true := ⟨by omega, h2.2⟩
            simp only [h2, h3, h1, and_self, if_true, if_false]
          · have h3 : ¬ (e.system < n + 1 ∧ (s.latch e.system).state.outstanding = true) := fun h3 => h2 ⟨by omega, h3.2⟩
            simp only [h2, h3, h1, if_false]
      · rename_i ho
        rw [i1]
        dsimp only
        congr 3
        apply List.map_congr_left
        intro e _
        by_cases h2 : e.system < n ∧ (s.latch e.system).state.outstanding = true
        · rw [if_pos h2, if_pos ⟨by omega, h2.2⟩]
        · rw [if_neg h2, if_neg]
          rintro ⟨h3, h4⟩
          by_cases h5 : e.system = n
          · rw [h5] at h4
            exact ho h4
          · exact h2 ⟨by omega, h4⟩
    · rw [State.latch_resolveLatch, if_neg (by omega)]
      exact i2 j (by omega)

/-- R59: a resolution marks the pending action of each system whose latch it resolves, and nothing else of the queue. -/
theorem State.queue_resolveAll (s : State) (h : PassRecord) (rest : List PassRecord) (e : s.queue.records = h :: rest) : ∃ es,
    s.resolveAll.queue = { s.queue with records := { h with entries := es } :: rest }
    ∧ entriesRemarked (fun i => (s.latch i).state.outstanding = true) .pending .otherwise h.entries es := by
  refine ⟨_, (State.queue_resolveBelow s 4 h rest e).1, entriesRemarked_map _ _ _ _ _ fun e he =>
    ⟨fun hh => if_pos ⟨?_, hh⟩, fun hh => if_neg fun h3 => hh h3.2⟩⟩
  by_contra hn
  rw [State.latch_past _ hn] at hh
  cases hh

/-! ### A head record under a resolution -/

/-- Against an earlier state: a feeder still carried with its head record as it was, or one that has left with its record reset. -/
def State.headFollows (f : Nat) (s t : State) : Prop :=
  (t.feeder f).carried = true ∧ t.head f = s.head f ∨ (t.feeder f).carried = false ∧ t.head f = (s.head f).reset

theorem State.headFollows.putFeeder {f : Nat} {s t : State} (hf : f < 16) (h : State.headFollows f s t) (g : Nat) {v : Feeder}
    (hv : v.carried = false) : State.headFollows f s (t.putFeeder g v) := by
  unfold State.headFollows at *
  rw [State.feeder_putFeeder, State.head_putFeeder]
  by_cases hg : g = f
  · subst hg
    rw [if_pos ⟨rfl, hf⟩]
    rcases h with ⟨a, b⟩ | ⟨a, b⟩
    · right
      rw [if_pos ⟨rfl, hf, a, hv⟩, b]
      exact ⟨hv, rfl⟩
    · right
      rw [if_neg (by rw [a]; simp)]
      exact ⟨hv, b⟩
  · rw [if_neg (fun x => hg x.1), if_neg (fun x => hg x.1)]
    exact h

theorem State.headFollows.resolveLatch {f : Nat} {s t : State} (hf : f < 16) (h : State.headFollows f s t) (i : Nat) :
    State.headFollows f s (t.resolveLatch i) := by
  unfold State.resolveLatch
  split
  · exact h.putFeeder hf _ rfl
  · exact h.putFeeder hf _ rfl
  · exact h
  · exact h

theorem State.headFollows.resolveAll {f : Nat} {s t : State} (hf : f < 16) (h : State.headFollows f s t) :
    State.headFollows f s t.resolveAll := by
  unfold State.resolveAll
  generalize List.range 4 = l
  induction l generalizing t with
  | nil => exact h
  | cons i l ih => exact ih (h.resolveLatch hf i)

/-! ### Raises -/

/-- R150, R151: a raise notes the condition and then leaves the pass, or aborts it. -/
theorem State.raise_notes_or_aborts (s : State) (d : Detail) :
    s.raise d = s.noteRaise d ∨ ∃ reason, s.raise d = (s.noteRaise d).abortPass reason := by
  unfold State.raise
  cases s.abortReason d (s.monitor.overruns d) with
  | none => exact .inl rfl
  | some reason => exact .inr ⟨reason, rfl⟩

/-- R132: a feeder that a raise takes out of the carried states has no pass left and its head record reset. -/
theorem State.raise_leaves (s : State) (d : Detail) (f : Nat) (hf : f < 16) (hc : (s.feeder f).carried = true)
    (hn : ((s.raise d).feeder f).carried = false) :
    (s.raise d).engine.pass = none ∧ (s.raise d).head f = (s.head f).reset := by
  have kept : ((s.noteRaise d).feeder f).carried = true := hc
  rcases s.raise_notes_or_aborts d with e | ⟨reason, e⟩
  · rw [e, kept] at hn
    cases hn
  · cases hp : s.engine.pass with
    | none =>
      rw [State.raise_noPass hp, kept] at hn
      cases hn
    | some p =>
      have q := State.abortPass_eq (s.noteRaise d) reason p hp
      have feeders : (s.raise d).feeders = (s.noteRaise d).resolveAll.feeders := by rw [e, q]
      have yarn : (s.raise d).yarn = (s.noteRaise d).resolveAll.yarn := by rw [e, q]
      have same : (s.raise d).feeder f = (s.noteRaise d).resolveAll.feeder f := by
        unfold State.feeder
        rw [feeders]
      refine ⟨by rw [e, q], ?_⟩
      rcases State.headFollows.resolveAll hf (s := s) (t := s.noteRaise d) (.inl ⟨hc, rfl⟩) with ⟨a, _⟩ | ⟨_, b⟩
      · rw [same, a] at hn
        cases hn
      · rw [← b]
        unfold State.head
        rw [yarn]

/-! ### The check of a frame -/

/-- A byte at the top of the register of the check. -/
def atTop (d : Byte) : Word16 := d.setWidth 16 <<< 8

theorem crcBit_xor_atTop (c : Word16) (d : Byte) : crcBit (c ^^^ atTop d) = checkBit c d.msb ^^^ atTop (d <<< 1) := by
  have msb : ∀ d : Byte, (atTop d).msb = d.msb := by decide
  have shl : ∀ d : Byte, atTop d <<< 1 = atTop (d <<< 1) := by decide
  unfold crcBit checkBit
  rw [BitVec.msb_xor, msb, BitVec.shiftLeft_xor_distrib, shl]
  split
  · rw [BitVec.xor_assoc, BitVec.xor_comm (atTop _), ← BitVec.xor_assoc]
  · rfl

theorem crcByte_eq_checkBits (c : Word16) (b : Byte) :
    crcByte c b = ([7, 6, 5, 4, 3, 2, 1, 0].map fun k => b.getLsbD k).foldl checkBit c := by
  have bits : ∀ b : Byte, [7, 6, 5, 4, 3, 2, 1, 0].map (fun k => b.getLsbD k)
      = [b.msb, (b <<< 1).msb, (b <<< 1 <<< 1).msb, (b <<< 1 <<< 1 <<< 1).msb, (b <<< 1 <<< 1 <<< 1 <<< 1).msb,
        (b <<< 1 <<< 1 <<< 1 <<< 1 <<< 1).msb, (b <<< 1 <<< 1 <<< 1 <<< 1 <<< 1 <<< 1).msb,
        (b <<< 1 <<< 1 <<< 1 <<< 1 <<< 1 <<< 1 <<< 1).msb] := by decide
  have out : ∀ d : Byte, atTop (d <<< 1 <<< 1 <<< 1 <<< 1 <<< 1 <<< 1 <<< 1 <<< 1) = 0#16 := by decide
  rw [bits]
  unfold crcByte
  show crcBit (crcBit (crcBit (crcBit (crcBit (crcBit (crcBit (crcBit (c ^^^ atTop b)))))))) = _
  simp only [crcBit_xor_atTop]
  rw [out, BitVec.xor_zero]
  rfl

/-- R170: the check, which the model folds byte by byte, is the register taken bit by bit. -/
theorem crc16_eq_checkRegister (bs : List Byte) : crc16 bs = checkRegister bs := by
  rw [crc16_eq]
  unfold checkRegister
  generalize (0xFFFF#16) = c
  induction bs generalizing c with
  | nil => rfl
  | cons b bs ih => rw [List.foldl_cons, List.flatMap_cons, List.foldl_append, ih, crcByte_eq_checkBits]

end Sys2Proof.Machine
end

