-- ==== Sys2Proof/Laws/Owners.lean ====
section
/-! SUPPORT. What each block does with a request or an event keeps the laws of the queue, of the pass and of the lock: one lemma
for each operation. -/

namespace Sys2Proof.Machine

/-- A request whose owner keeps the law, as the link takes it. -/
theorem State.PlanLaw.addressed {α} {s : State} (h : s.PlanLaw) (k) (p : Option α) (o) (ho : ∀ a, (o a s).1.PlanLaw) :
    (s.addressed k p o).PlanLaw :=
  State.addressed_keeps _ (fun _ _ h => h.congr rfl) (fun _ _ _ h => h.congr rfl) (fun _ d h => h.raise d) h k p o fun a _ => ho a
/-- The same of a request that may be broadcast. -/
theorem State.PlanLaw.request {α} {s : State} (h : s.PlanLaw) (d k) (p : Option α) (o) (ho : ∀ a, (o a s).1.PlanLaw) :
    (s.request d k p o).PlanLaw :=
  State.request_keeps _ (fun _ _ h => h.congr rfl) (fun _ _ _ h => h.congr rfl) (fun _ d h => h.raise d) h d k p o fun a _ => ho a

/-- R191, R182. -/
theorem State.PlanLaw.blocksReset (s : State) (b p) : (s.blocksReset b p).PlanLaw := by
  rw [planLaw_iff]; constructor <;> simp [State.blocksReset, State.planView, PassQueue.initial, Engine.initial, Tracker.initial, PlanView.headIs, State.passInProgress, missBanks]

/-- R71: with no record there is no pass. -/
theorem State.PlanLaw.noPass_of_empty {s : State} (h : s.PlanLaw) (he : s.queue.records = []) : s.passInProgress = false := by
  have := h.pass.current
  simpa [State.headActive, State.headFinishing, he] using this

/-- R45: with unlocked settings there is no pass. -/
theorem State.PlanLaw.noPass_of_unlocked {s : State} (h : s.PlanLaw) (he : s.settings.locked = false) : s.passInProgress = false := by
  refine State.PlanLaw.noPass_of_empty h ?_
  by_cases hc : s.queue.records = []
  · exact hc
  · rw [h.queue.underLock hc] at he; cases he

/-- R12. -/
theorem State.PlanLaw.slip {s : State} (h : s.PlanLaw) (src) : (s.slip src).PlanLaw := by
  unfold State.slip
  dsimp only
  have hr := h.raise (.markSlip src)
  generalize s.raise (.markSlip src) = t at hr ⊢
  split
  · exact hr.setTracker _ rfl rfl rfl (fun _ => rfl)
  · exact hr.enterLost _
  all_goals exact hr

/-- R2, R14. -/
theorem State.PlanLaw.positionJump {s : State} (h : s.PlanLaw) : s.positionJump.PlanLaw := by
  unfold State.positionJump
  split
  · exact (h.raise _).enterLost _
  · exact h

/-- R9, R11. -/
theorem State.PlanLaw.goodMark {s : State} (h : s.PlanLaw) : s.goodMark.PlanLaw := by
  refine h.setTracker _ rfl rfl rfl fun hp => ?_
  have := h.pass.position hp
  cases hq : s.tracker.position <;> simp_all [PosState.valid, PosState.good]

/-- R10, R13. -/
theorem State.PlanLaw.trackTransition {w : State} (h1 : w.PlanLaw) (d old) : (w.trackTransition d old).PlanLaw := by
  unfold State.trackTransition
  dsimp only
  have h3 : ∀ m, (w.setTracker { w.tracker with markWindow := m }).PlanLaw := fun m => h1.setTracker _ rfl rfl rfl h1.pass.position
  have hvl : ∀ (w : State) (o : Option Int), w.PlanLaw → (match o with | some k => w.slip (.absent (k * w.markSpacing)) | none => w).PlanLaw := by
    intro w o hw
    split
    · exact State.PlanLaw.slip hw _
    · exact hw
  have fin : ∀ (v : State) (d : Direction) (a b c : Int), v.PlanLaw → (if (v.tracker.position.valid && decide (a ≠ b)) = true then v.carriageStep d c else v).PlanLaw := by
    intro v d a b c hv
    split
    · rename_i hc
      simp only [Bool.and_eq_true] at hc
      exact hv.carriageStep _ _ hc.1
    · exact hv
  exact fin _ _ _ _ _ (hvl _ _ (h3 _))

/-- R5. -/
theorem State.PlanLaw.takeHome {s : State} (h : s.PlanLaw) (a) : (State.takeHome a s).1.PlanLaw := by
  unfold State.takeHome
  split
  · exact h
  · split
    · exact h
    · rename_i hn
      refine h.setTracker _ rfl rfl rfl ?_
      intro hp; exact absurd hp hn

/-- R45, R63. -/
theorem State.PlanLaw.enqueue {s : State} (h : s.PlanLaw) (r : PassRecord) (hr : r.state = .queued) (hk : s.settings.locked = true) (hl : s.queue.records.length ≤ 7) :
    (s.enqueue r).PlanLaw := by
  have hv := (planLaw_iff s).1 h
  unfold State.enqueue
  dsimp only
  rw [planLaw_iff, planView_armHead]
  have hrs : (r.resolve s.needles).state = .queued := hr
  generalize r.resolve s.needles = v at hrs
  by_cases he : s.queue.records = []
  · have hp := State.PlanLaw.noPass_of_empty h he
    have := PlanView.Law.armed_of_queued (v := { s.planView with states := [.queued] }) [v.start] (by simp) (by simp) rfl hk hp
      (h.pass.banks (by simp [State.headActive, he])) (by have := h.pass.phase; simp [State.headActive, State.headFinishing, he] at this; exact this) (h.pass.stall hp)
    refine cast (congrArg PlanView.Law ?_) this
    simp [State.planView, he, hrs, State.passInProgress]
  · obtain ⟨r0, rs, hr0⟩ := List.exists_cons_of_ne_nil he
    have ha : s.queue.plan = .running → r0.state ≠ .queued := by
      intro hp; simpa [hr0] using h.queue.armed hp
    have e : armStates ((s.queue.records ++ [v]).map PassRecord.start) s.queue.plan ((s.queue.records ++ [v]).map PassRecord.state) = s.planView.states ++ [.queued] := by
      cases hpl : s.queue.plan with
      | held => simp [armStates, State.planView, hrs]
      | running =>
        have := ha hpl
        cases hq : r0.state <;> simp_all [armStates, State.planView]
    have e2 : ((s.setStore (addRefs s.store v)).setQueue (PassQueue.mk (s.queue.records ++ [v]) s.queue.plan (s.queue.proj.advanceRecord v))).planView = { s.planView with states := (s.queue.records ++ [v]).map PassRecord.state } := rfl
    rw [e2]
    refine cast (congrArg PlanView.Law ?_) (?_ : ({ s.planView with states := s.planView.states ++ [.queued] } : PlanView).Law)
    · rw [← e]; rfl
    have hst : s.planView.states = r0.state :: rs.map PassRecord.state := by simp [State.planView, hr0]
    have hh : ∀ x, ({ s.planView with states := s.planView.states ++ [.queued] } : PlanView).headIs x = s.planView.headIs x := by
      intro x; simp [PlanView.headIs, hst]
    refine ⟨?_, ?_, ?_, ?_, fun _ => hk, ?_, ?_, hv.position, ?_, hv.stall, hv.lock⟩
    · simp [State.planView]; omega
    · intro x hx
      rw [hst] at hx
      simp only [List.cons_append, List.tail_cons, List.mem_append, List.mem_singleton] at hx
      rcases hx with hx | hx
      · exact hv.behind x (by rw [hst]; exact hx)
      · exact hx
    · intro hp x hx
      simp only [List.mem_append, List.mem_singleton] at hx
      rcases hx with hx | hx
      · exact hv.held hp x hx
      · exact hx
    · intro hp; have := hv.armed hp; rw [hst] at this ⊢; simpa using this
    · rw [hh, hh]; exact hv.current
    · rw [hh, hh]; exact hv.phase
    · rw [hh]; exact hv.banks

/-- A QUEUE_PASS body gives a record that stands QUEUED (R45). -/
theorem parseQueuePass_state {b r} (h : parseQueuePass b = some r) : r.state = .queued := by
  unfold parseQueuePass at h
  split at h
  · split at h
    · split at h
      · simp only [Option.some.injEq] at h; subst h; rfl
      all_goals cases h
    · cases h
  · cases h

/-- R45. -/
theorem State.PlanLaw.queuePass {s : State} (h : s.PlanLaw) (r) (hr : r.state = .queued) : (State.queuePass r s).1.PlanLaw := by
  unfold State.queuePass
  split
  · exact h
  · rename_i hk
    split
    · exact h
    · rename_i ha
      refine State.PlanLaw.enqueue h r hr (by simpa using hk) ?_
      unfold State.admission at ha
      have : s.checkRoom = none := by
        cases hc : s.checkRoom with
        | none => rfl
        | some x => simp [hc] at ha
      unfold State.checkRoom Config.queueCapacity at this
      split at this
      · cases this
      · omega

/-- R67. -/
theorem State.PlanLaw.cancelQueued {s : State} (h : s.PlanLaw) (a) : (State.cancelQueued a s).1.PlanLaw := by
  unfold State.cancelQueued
  dsimp only
  refine State.PlanLaw.log ?_ _
  have hv := (planLaw_iff s).1 h
  rw [planLaw_iff]
  cases hr : s.queue.records with
  | nil =>
    refine cast (congrArg PlanView.Law ?_) hv
    simp [State.planView, hr, State.passInProgress]
  | cons r rs =>
    have hq : ∀ x ∈ rs, x.state = .queued := by simpa [hr] using h.queue.behind
    have hf : rs.filter (fun r => r.state.inPass) = [] := by
      rw [List.filter_eq_nil_iff]; intro x hx; simp [hq x hx, RecordState.inPass]
    cases hs : r.state.inPass with
    | true =>
      have hst : s.planView.states = r.state :: rs.map PassRecord.state := by simp [State.planView, hr]
      have hkeep : (r :: rs).filter (fun r => r.state.inPass) = [r] := by simp [hs, hf]
      refine cast (congrArg PlanView.Law ?_) (?_ : ({ s.planView with states := [r.state] } : PlanView).Law)
      · simp [State.planView, hs, hf, State.passInProgress]
      have hh : ∀ x, ({ s.planView with states := [r.state] } : PlanView).headIs x = s.planView.headIs x := by
        intro x; simp [PlanView.headIs, hst]
      refine ⟨by simp, by simp, ?_, ?_, ?_, ?_, ?_, hv.position, ?_, hv.stall, hv.lock⟩
      · intro hp x hx; exact hv.held hp x (by simp at hx; simp [hst, hx])
      · intro hp; have := hv.armed hp; simpa [hst] using this
      · intro _; exact hv.underLock (by simp [hst])
      · rw [hh, hh]; exact hv.current
      · rw [hh, hh]; exact hv.phase
      · rw [hh]; exact hv.banks
    | false =>
      have hst : s.planView.states = r.state :: rs.map PassRecord.state := by simp [State.planView, hr]
      refine cast (congrArg PlanView.Law ?_) (?_ : ({ s.planView with states := [] } : PlanView).Law)
      · simp [State.planView, hs, hf, State.passInProgress]
      have hne : s.planView.headIs .active = false ∧ s.planView.headIs .finishing = false := by
        constructor <;> (simp only [PlanView.headIs, hst]; cases hq : r.state <;> simp_all [RecordState.inPass])
      have hcur := hv.current; rw [hne.1, hne.2] at hcur
      have hph := hv.phase; rw [hne.1, hne.2] at hph
      refine ⟨by simp, by simp, by simp, by simp, by simp, ?_, ?_, hv.position, fun _ => hv.banks hne.1, hv.stall, hv.lock⟩
      · simpa [PlanView.headIs] using hcur
      · simpa [PlanView.headIs] using hph

/-- R68. -/
theorem State.PlanLaw.stopCycling {s : State} (h : s.PlanLaw) (a) : (State.stopCycling a s).1.PlanLaw := by
  refine h.congr ?_
  unfold State.stopCycling State.planView
  simp [State.passInProgress, Function.comp_def]

/-- R61. -/
theorem State.PlanLaw.resume {s : State} (h : s.PlanLaw) (a) : (State.resume a s).1.PlanLaw := by
  unfold State.resume
  split
  · exact h
  · rename_i hheld
    split
    · exact h
    · rename_i hk
      split
      · exact h
      · have hv := (planLaw_iff s).1 h
        dsimp only
        rw [planLaw_iff, planView_armHead]
        have hq := hv.held hheld
        have ha : ∀ x, x ≠ RecordState.queued → s.planView.headIs x = false := by
          intro x hx
          unfold PlanView.headIs
          cases hh : s.planView.states.head? with
          | none => simp
          | some y => have := hq y (List.mem_of_head? hh); subst this; simpa using Ne.symm hx
        have hp : s.planView.pass = false := by rw [hv.current, ha _ (by simp), ha _ (by simp)]; rfl
        have hph : s.planView.phase = .none := by have := hv.phase; rw [ha _ (by simp), ha _ (by simp)] at this; simpa using this
        exact PlanView.Law.armed_of_queued (v := { s.planView with plan := .running }) (s.queue.records.map PassRecord.start) hv.bounded hq (by simp [State.planView]) (by simpa [State.planView] using hk) hp (hv.banks (ha _ (by simp))) hph (hv.stall hp)

/-- R62. -/
theorem State.PlanLaw.halt {s : State} (h : s.PlanLaw) (a) : (State.halt a s).1.PlanLaw := by
  unfold State.halt
  dsimp only
  split
  · exact h.abortPass _
  · rename_i hn; exact h.flush (by simpa using hn) _

/-- R64. -/
theorem State.PlanLaw.giveGo {s : State} (h : s.PlanLaw) (a) : (State.giveGo a s).1.PlanLaw := by
  unfold State.giveGo
  split
  · rename_i hw
    unfold State.headWaits at hw
    cases hr : s.queue.records with
    | nil => simp [hr] at hw
    | cons r rs =>
      simp only [hr, decide_eq_true_eq] at hw
      have hv := (planLaw_iff s).1 h
      rw [planLaw_iff]
      have hst : s.planView.states = .armed (some .waitGo) :: rs.map PassRecord.state := by simp [State.planView, hr, hw]
      refine cast (congrArg PlanView.Law ?_) (?_ : ({ s.planView with states := .armed (some .goGiven) :: rs.map PassRecord.state } : PlanView).Law)
      · unfold State.setHeadState State.mapHead State.planView; simp [hr, State.passInProgress]
      have hne : s.planView.headIs .active = false ∧ s.planView.headIs .finishing = false := by
        constructor <;> simp [PlanView.headIs, hst]
      have hcur := hv.current; rw [hne.1, hne.2] at hcur
      have hph := hv.phase; rw [hne.1, hne.2] at hph
      have hb := hv.bounded; rw [hst] at hb
      refine ⟨by simpa using hb, ?_, ?_, by simp, fun _ => hv.underLock (by simp [hst]), ?_, ?_, hv.position, fun _ => hv.banks hne.1, hv.stall, hv.lock⟩
      · intro x hx; exact hv.behind x (by rw [hst]; exact hx)
      · intro hp x hx
        have := hv.held hp (.armed (some .waitGo)) (by simp [hst]); cases this
      · simpa [PlanView.headIs] using hcur
      · simpa [PlanView.headIs] using hph
  · exact h

/-- R104. -/
theorem State.PlanLaw.declareFeeder {s : State} (h : s.PlanLaw) (a) : (State.declareFeeder a s).1.PlanLaw := by
  unfold State.declareFeeder
  repeat' split
  all_goals first | exact h | exact h.congr (by simp)
/-- R105. -/
theorem State.PlanLaw.forgetFeeder {s : State} (h : s.PlanLaw) (a) : (State.forgetFeeder a s).1.PlanLaw := by
  unfold State.forgetFeeder
  repeat' split
  all_goals first | exact h | exact h.congr (by simp)

/-- R186. -/
theorem State.PlanLaw.settingWritten {s : State} (h : s.PlanLaw) (hu : s.settings.locked = false) (n a b) :
    (State.settingWritten n a b s).PlanLaw := by
  unfold State.settingWritten
  have hraise : ∀ (l : List Nat) (g : State → Nat → State), (∀ t i, t.PlanLaw → (g t i).PlanLaw) → ∀ t : State, t.PlanLaw → (l.foldl g t).PlanLaw := by
    intro l g hg; induction l with
    | nil => exact fun _ k => k
    | cons i l ih => exact fun t k => ih _ (hg t i k)
  have htr : s.trackingWritten.PlanLaw := by
    unfold State.trackingWritten
    split
    · refine h.setTracker _ rfl rfl rfl fun hp => ?_
      rw [State.PlanLaw.noPass_of_unlocked h hu] at hp; cases hp
    · exact h
  have hfw : s.fieldWritten.PlanLaw := by
    refine h.congr ?_
    unfold State.fieldWritten
    rw [planView_followProjection]
    refine planView_foldl _ (fun t f => ?_) _ _
    unfold State.faultOutside
    split
    · split <;> simp
    all_goals rfl
  have hsw : s.systemsWritten.PlanLaw := by
    refine h.congr ?_
    unfold State.systemsWritten
    rw [planView_followProjection]
    refine planView_foldl _ (fun t f => ?_) _ _
    unfold State.removeLatch
    split <;> simp
  have h9 : ((List.range 16).foldl (State.limitStill a) s).PlanLaw := by
    refine hraise _ _ (fun t i k => ?_) _ h
    unfold State.limitStill
    dsimp only
    split
    · exact State.PlanLaw.raise (k.congr (by simp)) _
    · exact k.congr (by simp)
  have h10 : ((List.range 16).foldl (State.limitSilent b) s).PlanLaw := by
    refine hraise _ _ (fun t i k => ?_) _ h
    unfold State.limitSilent
    dsimp only
    split
    · exact State.PlanLaw.raise (k.congr (by simp)) _
    · exact k.congr (by simp)
  split
  · exact htr
  · exact htr
  · exact htr
  · exact htr
  · exact hfw
  · exact hfw
  · exact hfw
  · exact hsw
  · exact h9
  · exact h10
  · exact h

/-- R186. -/
theorem State.PlanLaw.putSetting {s : State} (h : s.PlanLaw) (n v) : (s.putSetting n v).PlanLaw := h.congr rfl

/-- R186. -/
theorem State.PlanLaw.writeSetting {s : State} (h : s.PlanLaw) (a) : (State.writeSetting a s).1.PlanLaw := by
  unfold State.writeSetting
  split
  · exact h
  · split
    · exact h
    · rename_i hu
      split
      · exact h
      · exact State.PlanLaw.settingWritten (State.PlanLaw.putSetting h _ _) (by show s.settings.locked = false; simpa using hu) _ _ _

/-- R187. -/
theorem State.PlanLaw.lockSettings {s : State} (h : s.PlanLaw) (a) : (State.lockSettings a s).1.PlanLaw := by
  unfold State.lockSettings
  split
  · exact h
  · split
    · have hv := (planLaw_iff s).1 h
      exact (planLaw_iff _).2 ⟨hv.bounded, hv.behind, hv.held, hv.armed, fun _ => rfl, hv.current, hv.phase, hv.position, hv.banks, hv.stall, fun _ => rfl⟩
    · exact h

/-- R189. -/
theorem State.PlanLaw.unlockSettings {s : State} (h : s.PlanLaw) (a) : (State.unlockSettings a s).1.PlanLaw := by
  unfold State.unlockSettings
  split
  · split
    · exact h
    · rename_i hc
      simp only [not_or, ne_eq, Decidable.not_not] at hc
      have hv := (planLaw_iff s).1 h
      refine (planLaw_iff _).2 ⟨hv.bounded, hv.behind, hv.held, hv.armed, fun hn => ?_, hv.current, hv.phase, hv.position, hv.banks, hv.stall, fun hp => absurd hp hc.2.1⟩
      exact absurd (by simp [State.planView, hc.1]) hn
  · exact h

/-- R94, R121. -/
theorem State.PlanLaw.settled {s : State} (h : s.PlanLaw) : s.resolveAll.completeIfSettled.PlanLaw :=
  State.PlanLaw.completeIfSettled (h.congr (by simp))

/-- R134. -/
theorem State.PlanLaw.applyOutcome {s : State} (h : s.PlanLaw) (f c o) : (s.applyOutcome f c o).PlanLaw := by
  unfold State.applyOutcome
  split
  · unfold State.applySilent
    dsimp only
    generalize (if (s.head f).silentRun < s.silentLimit then (s.head f).silentRun + 1 else s.silentLimit) = run
    split
    · refine State.PlanLaw.raise ?_ _
      exact h.congr rfl
    · exact h.congr rfl
  · rename_i m t
    have h1 : (s.applyMotion f c m t).PlanLaw := by
      unfold State.applyMotion
      dsimp only
      split
      · exact State.PlanLaw.raise (h.congr (by simp)) _
      · exact h.congr (by simp)
    dsimp only
    split
    · unfold State.applyTension
      dsimp only
      split
      · exact State.PlanLaw.raise (h1.congr (by simp)) _
      · exact h1.congr (by simp)
    · exact h1

end Sys2Proof.Machine
end

