-- ==== Sys2Proof/Laws/PerInstr.lean ====
section
/-! SUPPORT. Per command: what a well-formed command's operands are. A request carries at most 240 body bytes, has a kind of the
table of section 8.8 and is broadcast only where its kind may be (R169, R177); the kind byte of an UNKNOWN_KIND names no kind
(R175), and that of a BROADCAST_REFUSED is a request kind outside the four (R177). -/

namespace Sys2Proof.Laws.WellFormedness

open Sys2Proof Sys2Proof.Machine

/-- What well-formedness says of one command. -/
def Statement (c : Instr) : Prop :=
  c.wellFormed = true →
    (∀ k d b, requestOf c = some (k, d, b) →
      b.length ≤ 240 ∧ 1 ≤ k ∧ k ≤ 0x20 ∧ (d = .broadcast → k ∈ [0x0E, 0x0F, 0x17, 0x1A]))
    ∧ (∀ k, c = .unknownKind k → k.toNat = 0 ∨ 0x21 ≤ k.toNat ∧ k.toNat ≤ 0x7F)
    ∧ ∀ k, c = .broadcastRefused k → k.toNat ≤ 0x7F ∧ k.toNat ∉ [0x0E, 0x0F, 0x17, 0x1A]

/-- A command that is no request and has no kind byte. -/
theorem statement_of_event {c : Instr} (h : requestOf c = none) (u : ∀ k, c ≠ .unknownKind k)
    (r : ∀ k, c ≠ .broadcastRefused k) : Statement c :=
  fun _ => ⟨fun k d b e => (by rw [h] at e; cases e), fun k e => absurd e (u k), fun k e => absurd e (r k)⟩

/-- A request that is well formed where its body fits. -/
theorem statement_of_request {c : Instr} {k : Nat} {d : Dest} {b : List Byte} (h : requestOf c = some (k, d, b))
    (w : c.wellFormed = bodyFits b) (lo : 1 ≤ k) (hi : k ≤ 0x20) (bc : d = .broadcast → k ∈ [0x0E, 0x0F, 0x17, 0x1A]) :
    Statement c := by
  intro f
  rw [w] at f
  refine ⟨fun k' d' b' e => ?_, fun k' e => ?_, fun k' e => ?_⟩
  · rw [h] at e
    cases e
    exact ⟨of_decide_eq_true f, lo, hi, bc⟩
  · rw [e] at h
    cases h
  · rw [e] at h
    cases h

theorem unknownKind (k : Byte) : Statement (.unknownKind k) := by
  intro f
  refine ⟨nofun, fun j e => ?_, nofun⟩
  cases e
  simp only [Instr.wellFormed, unknownKindByte, kindIsReply, kindIsKnown, Bool.and_eq_true, Bool.not_eq_true',
    decide_eq_false_iff_not, Bool.and_eq_false_iff] at f
  omega

theorem broadcastRefused (k : Byte) : Statement (.broadcastRefused k) := by
  intro f
  refine ⟨nofun, nofun, fun j e => ?_⟩
  cases e
  simp only [Instr.wellFormed, refusedBroadcastByte, kindIsReply, kindMayBeBroadcast, Bool.and_eq_true, Bool.not_eq_true',
    decide_eq_false_iff_not, Bool.or_eq_false_iff, beq_eq_false_iff_ne] at f
  simp only [List.mem_cons, List.not_mem_nil, or_false]
  omega

theorem powerOn (p : PinLevels) : Statement (.powerOn p) := statement_of_event rfl nofun nofun

theorem restart (b : List Byte) : Statement (.restart b) := statement_of_request rfl rfl (by decide) (by decide) nofun

theorem restartEffect (p : PinLevels) : Statement (.restartEffect p) := statement_of_event rfl nofun nofun

theorem countTransition (l : EncLine) : Statement (.countTransition l) := statement_of_event rfl nofun nofun

theorem illegalTransition : Statement .illegalTransition := statement_of_event rfl nofun nofun

theorem homeMarkEdge : Statement .homeMarkEdge := statement_of_event rfl nofun nofun

theorem needleMarkEdge : Statement .needleMarkEdge := statement_of_event rfl nofun nofun

theorem seekTimerExpiry : Statement .seekTimerExpiry := statement_of_event rfl nofun nofun

theorem stallTimerExpiry : Statement .stallTimerExpiry := statement_of_event rfl nofun nofun

theorem takeCountdownExpiry (i : Fin 4) : Statement (.takeCountdownExpiry i) := statement_of_event rfl nofun nofun

theorem releaseCountdownExpiry (i : Fin 4) : Statement (.releaseCountdownExpiry i) := statement_of_event rfl nofun nofun

theorem coupleSenseEdge (i : Fin 4) (l : Bool) : Statement (.coupleSenseEdge i l) := statement_of_event rfl nofun nofun

theorem sweepTimerExpiry : Statement .sweepTimerExpiry := statement_of_event rfl nofun nofun

theorem pollStart : Statement .pollStart := statement_of_event rfl nofun nofun

theorem pollEnd (o : PollOutcome) : Statement (.pollEnd o) := statement_of_event rfl nofun nofun

theorem headWriteEnd (o : WriteOutcome) : Statement (.headWriteEnd o) := statement_of_event rfl nofun nofun

theorem strapRead (l : Levels4) : Statement (.strapRead l) := statement_of_event rfl nofun nofun

theorem settingsDisturbance (k : Word16) : Statement (.settingsDisturbance k) := statement_of_event rfl nofun nofun

theorem frameAbandon : Statement .frameAbandon := statement_of_event rfl nofun nofun

theorem badCheckFrame : Statement .badCheckFrame := statement_of_event rfl nofun nofun

theorem replyEnd : Statement .replyEnd := statement_of_event rfl nofun nofun

theorem status (b : List Byte) : Statement (.status b) := statement_of_request rfl rfl (by decide) (by decide) nofun

theorem home (b : List Byte) : Statement (.home b) := statement_of_request rfl rfl (by decide) (by decide) nofun

theorem queryPosition (b : List Byte) : Statement (.queryPosition b) := statement_of_request rfl rfl (by decide) (by decide) nofun

theorem defineLine (b : List Byte) : Statement (.defineLine b) := statement_of_request rfl rfl (by decide) (by decide) nofun

theorem writeLine (b : List Byte) : Statement (.writeLine b) := statement_of_request rfl rfl (by decide) (by decide) nofun

theorem sealLine (b : List Byte) : Statement (.sealLine b) := statement_of_request rfl rfl (by decide) (by decide) nofun

theorem reopenLine (b : List Byte) : Statement (.reopenLine b) := statement_of_request rfl rfl (by decide) (by decide) nofun

theorem dropLine (b : List Byte) : Statement (.dropLine b) := statement_of_request rfl rfl (by decide) (by decide) nofun

theorem queryLine (b : List Byte) : Statement (.queryLine b) := statement_of_request rfl rfl (by decide) (by decide) nofun

theorem queuePass (b : List Byte) : Statement (.queuePass b) := statement_of_request rfl rfl (by decide) (by decide) nofun

theorem cancelQueued (b : List Byte) : Statement (.cancelQueued b) := statement_of_request rfl rfl (by decide) (by decide) nofun

theorem stopCycling (b : List Byte) : Statement (.stopCycling b) := statement_of_request rfl rfl (by decide) (by decide) nofun

theorem resume (b : List Byte) : Statement (.resume b) := statement_of_request rfl rfl (by decide) (by decide) nofun

theorem halt (d : Dest) (b : List Byte) : Statement (.halt d b) :=
  statement_of_request rfl rfl (by decide) (by decide) fun _ => (by decide)

theorem go (d : Dest) (b : List Byte) : Statement (.go d b) :=
  statement_of_request rfl rfl (by decide) (by decide) fun _ => (by decide)

theorem queryQueue (b : List Byte) : Statement (.queryQueue b) := statement_of_request rfl rfl (by decide) (by decide) nofun

theorem declareFeeder (b : List Byte) : Statement (.declareFeeder b) := statement_of_request rfl rfl (by decide) (by decide) nofun

theorem forgetFeeder (b : List Byte) : Statement (.forgetFeeder b) := statement_of_request rfl rfl (by decide) (by decide) nofun

theorem queryFeeders (b : List Byte) : Statement (.queryFeeders b) := statement_of_request rfl rfl (by decide) (by decide) nofun

theorem headWrite (b : List Byte) : Statement (.headWrite b) := statement_of_request rfl rfl (by decide) (by decide) nofun

theorem queryHeads (b : List Byte) : Statement (.queryHeads b) := statement_of_request rfl rfl (by decide) (by decide) nofun

theorem queryConditions (b : List Byte) : Statement (.queryConditions b) := statement_of_request rfl rfl (by decide) (by decide) nofun

theorem clearConditions (d : Dest) (b : List Byte) : Statement (.clearConditions d b) :=
  statement_of_request rfl rfl (by decide) (by decide) fun _ => (by decide)

theorem force (b : List Byte) : Statement (.force b) := statement_of_request rfl rfl (by decide) (by decide) nofun

theorem readEvents (b : List Byte) : Statement (.readEvents b) := statement_of_request rfl rfl (by decide) (by decide) nofun

theorem syncTime (d : Dest) (b : List Byte) : Statement (.syncTime d b) :=
  statement_of_request rfl rfl (by decide) (by decide) fun _ => (by decide)

theorem readSetting (b : List Byte) : Statement (.readSetting b) := statement_of_request rfl rfl (by decide) (by decide) nofun

theorem writeSetting (b : List Byte) : Statement (.writeSetting b) := statement_of_request rfl rfl (by decide) (by decide) nofun

theorem lockSettings (b : List Byte) : Statement (.lockSettings b) := statement_of_request rfl rfl (by decide) (by decide) nofun

theorem unlockSettings (b : List Byte) : Statement (.unlockSettings b) := statement_of_request rfl rfl (by decide) (by decide) nofun

theorem identify (b : List Byte) : Statement (.identify b) := statement_of_request rfl rfl (by decide) (by decide) nofun

theorem frameStart : Statement .frameStart := statement_of_event rfl nofun nofun

theorem foreignFrame : Statement .foreignFrame := statement_of_event rfl nofun nofun

end Sys2Proof.Laws.WellFormedness
end

