-- ==== Sys2Proof/Laws/References.lean ====
section
/-! SUPPORT. The reference counts of the lines (R37, R38): what raising and returning the references of records does to each. -/

namespace Sys2Proof.Machine

theorem Line.dropRef_refs (l : Line) : l.dropRef.refs = l.refs - 1 := by cases l <;> rfl

/-- Only a SEALED line takes a reference. -/
theorem Line.addRef_refs {l : Line} (h : l.isSealed = true) : l.addRef.refs = l.refs + 1 := by
  cases l with
  | sealed d c n => rfl
  | free => cases h
  | opened d => cases h

theorem Line.addRef_isSealed (l : Line) : l.addRef.isSealed = l.isSealed := by cases l <;> rfl

theorem Line.dropRef_isSealed (l : Line) : l.dropRef.isSealed = l.isSealed := by cases l <;> rfl

/-- A SEALED line lies in the store. -/
theorem line_lt_of_isSealed {st : Vector Line 64} {id : Nat} (h : (st.getD id .free).isSealed = true) : id < 64 := by
  refine Decidable.byContradiction fun hc => ?_
  rw [getD_past _ _ hc] at h
  cases h

/-- R38: the count of each line falls by the channels that name it. -/
theorem dropChannels_refs (cs : List Channel) (st : Vector Line 64) (id : Nat) :
    ((cs.foldl (fun st c => st.setIfInBounds c.line (st.getD c.line .free).dropRef) st).getD id .free).refs
      = (st.getD id .free).refs - cs.countP fun c => decide (c.line = id) := by
  induction cs generalizing st with
  | nil => rfl
  | cons c cs ih =>
    rw [List.foldl_cons, ih, getD_setIfInBounds, List.countP_cons]
    by_cases h : c.line = id
    · subst h
      by_cases hc : c.line < 64
      · rw [if_pos ⟨rfl, hc⟩, Line.dropRef_refs]
        simp
        omega
      · rw [if_neg fun k => hc k.2, getD_past _ _ hc]
        simp [Line.refs]
    · rw [if_neg fun k => h k.1]
      simp [h]

theorem dropRefs_refs (st : Vector Line 64) (r : PassRecord) (id : Nat) :
    ((dropRefs st r).getD id .free).refs
      = (st.getD id .free).refs - r.channels.countP fun c => decide (c.line = id) := dropChannels_refs _ _ _

/-- R38: the same of a list of records. -/
theorem dropAll_refs (rs : List PassRecord) (st : Vector Line 64) (id : Nat) :
    ((rs.foldl dropRefs st).getD id .free).refs
      = (st.getD id .free).refs - (rs.flatMap PassRecord.channels).countP fun c => decide (c.line = id) := by
  induction rs generalizing st with
  | nil => rfl
  | cons r rs ih =>
    rw [List.foldl_cons, ih, dropRefs_refs, List.flatMap_cons, List.countP_append]
    omega

/-- R37: the count of each line rises by the channels that name it, where those name SEALED lines. -/
theorem addChannels_refs (cs : List Channel) (st : Vector Line 64) (id : Nat)
    (h : ∀ c ∈ cs, (st.getD c.line .free).isSealed = true) :
    ((cs.foldl (fun st c => st.setIfInBounds c.line (st.getD c.line .free).addRef) st).getD id .free).refs
      = (st.getD id .free).refs + cs.countP fun c => decide (c.line = id) := by
  induction cs generalizing st with
  | nil => rfl
  | cons c cs ih =>
    have hc := h c (by simp)
    rw [List.foldl_cons, ih, getD_setIfInBounds, List.countP_cons]
    · by_cases e : c.line = id
      · subst e
        rw [if_pos ⟨rfl, line_lt_of_isSealed hc⟩, Line.addRef_refs hc]
        simp
        omega
      · rw [if_neg fun k => e k.1]
        simp [e]
    · intro d hd
      rw [getD_setIfInBounds]
      split
      · rw [Line.addRef_isSealed]
        exact hc
      · exact h d (List.mem_cons_of_mem _ hd)

theorem addRefs_refs (st : Vector Line 64) (r : PassRecord) (id : Nat)
    (h : ∀ c ∈ r.channels, (st.getD c.line .free).isSealed = true) :
    ((addRefs st r).getD id .free).refs = (st.getD id .free).refs + r.channels.countP fun c => decide (c.line = id) :=
  addChannels_refs _ _ _ h

/-- A line whose content another has is SEALED where the other is. -/
theorem isSealed_of_content {l m : Line} (h : l.content = m.content) : l.isSealed = m.isSealed := by
  cases l <;> cases m <;> simp_all [Line.content, Line.isSealed]

end Sys2Proof.Machine
end

