-- ==== Sys2Proof/Laws/Yarn.lean ====
section
/-! SUPPORT. What the operations of a sweep do: the start of a poll, the end of a transaction, the bus gap (R126, R131). -/

namespace Sys2Proof.Machine

/-- R131: the polls whose feeders are no longer carried are skipped, and the first other one begins. -/
theorem State.startPoll_next (s : State) (skipped : List Nat) (f : Nat) (later : List Nat)
    (h : ∀ g ∈ skipped, (s.feeder g).carried = false) (hf : (s.feeder f).carried = true) :
    s.startPoll (skipped ++ f :: later) = { s with yarn := { s.yarn with
      heads := s.yarn.heads.setIfInBounds f { s.head f with travel := false }
      gap := 0
      sweep := some (Sweep.mk (some (.poll f (s.head f).travel false)) later) } } := by
  have e : (skipped ++ f :: later).dropWhile (fun f => !(s.feeder f).carried) = f :: later := by
    induction skipped with
    | nil => simp [hf]
    | cons g gs ih => simp [h g (by simp)]; exact ih fun x hx => h x (List.mem_cons_of_mem _ hx)
  unfold State.startPoll; rw [e]; rfl

/-- R131: where no poll is left the sweep ends. -/
theorem State.startPoll_none (s : State) (rest : List Nat) (h : ∀ g ∈ rest, (s.feeder g).carried = false) :
    s.startPoll rest = { s with yarn := { s.yarn with sweep := none } } := by
  have e : rest.dropWhile (fun f => !(s.feeder f).carried) = [] := by
    induction rest with
    | nil => rfl
    | cons g gs ih => rw [List.dropWhile_cons, h g (by simp)]; exact ih fun x hx => h x (List.mem_cons_of_mem _ hx)
  unfold State.startPoll; rw [e]; rfl

/-- R126: every transaction leaves the whole gap, the last of a sweep too. -/
@[simp] theorem State.endTransaction_gap (s : State) (rest) : (s.endTransaction rest).yarn.gap = 200 := rfl
@[simp] theorem State.endTransaction_heads (s : State) (rest) : (s.endTransaction rest).yarn.heads = s.yarn.heads := rfl
@[simp] theorem State.endTransaction_sweep (s : State) (rest) :
    (s.endTransaction rest).yarn.sweep = if rest = [] then none else some (Sweep.mk none rest) := rfl
@[simp] theorem State.setSweep_gap (s : State) (w) : (s.setSweep w).yarn.gap = s.yarn.gap := rfl
@[simp] theorem State.putHead_gap (s : State) (f h) : (s.putHead f h).yarn.gap = s.yarn.gap := rfl

end Sys2Proof.Machine
end

