-- ==== Sys2Proof/Tests/Slice0.lean ====
section
/-! SUPPORT. Tests: the checks of well-formedness refuse ill-formed terms, single steps against figures of the manual, and for each
obligation with hypotheses the states and operands that meet them, clause by clause, at the ends of the ranges. -/

namespace Sys2Proof.Tests

open Sys2Proof Sys2Proof.Machine

set_option linter.unusedVariables false
set_option maxRecDepth 100000

/-! ### Helpers -/

/-- The state a command leaves, where it leaves one. -/
def after : Host.Outcome State Fault Refusal → Option State
  | .next s => some s
  | .fault _ | .refused _ => none

/-- The bytes of the reply a command leaves on the pair. -/
def replyOf (o : Host.Outcome State Fault Refusal) : List Byte :=
  match after o with
  | some s => match s.link.rx with
    | .reply r => r.frame
    | .hunt | .frame => []
  | none => []

/-- The part after power-on. -/
abbrev base : State := State.reset

/-- With other straps. -/
def strapped (l : Levels4) : State := { base with link := { base.link with straps := l, reading := l } }

/-- With a reply on the pair. -/
def sending : State := { base with link := { base.link with rx := .reply (Reply.mk 1 0x01 .accepted base.summary []) } }

/-- With settings locked and their checksum stored. -/
def locked : State := { base with settings := { base.settings with locked := true, checksum := some base.computedChecksum } }

/-- The settings of a state locked, at a position state and a count. -/
def at_ (p : PosState) (c : Int) : State :=
  { locked with tracker := { locked.tracker with position := p, count := c } }

/-- A record without system entries. -/
def bare (st : RecordState) : PassRecord := PassRecord.mk 7 .rightward .onEntry false 0 [] st

/-- A record with the system entry given. -/
def withEntry (e : SystemEntry) (st : RecordState) : PassRecord := { bare st with entries := [e] }

/-- A referenced state at a count with a queue. -/
def queued (rs : List PassRecord) (plan : PlanState) (c : Int) : State :=
  { at_ .referenced c with queue := { base.queue with records := rs, plan := plan } }

/-- A pass in progress, its furthest X given, with a head record. -/
def passing (r : PassRecord) (x : Int) : State :=
  let s := queued [r] .running (16 * x)
  { s with
    engine := { s.engine with pass := some (Pass.mk .rightward 0 x none) }
    tracker := { s.tracker with phase := (if r.state = .finishing then .finishing else .active), stallTimer := some 5, lastAdvance := some 0 } }

/-- Events that fill the queue up to n entries. -/
def filled (s : State) (n : Nat) : State :=
  { s with monitor := { s.monitor with events := List.replicate n (EventEntry.mk 0 (.passMark 0)) } }

/-- With a feeder record. -/
def fed (s : State) (f : Nat) (v : Feeder) : State :=
  { s with feeders := { s.feeders with table := s.feeders.table.setIfInBounds f v } }

/-- With a latch record. -/
def latched (s : State) (i : Nat) (l : LatchState) : State :=
  { s with feeders := { s.feeders with latches := s.feeders.latches.setIfInBounds i (Latch.mk l 2) } }

/-- With a line. -/
def lined (s : State) (id : Nat) (l : Line) : State := { s with store := s.store.setIfInBounds id l }

/-- With a head record of feeder f's head. -/
def headed (s : State) (f : Nat) (h : HeadRecord) : State :=
  { s with yarn := { s.yarn with heads := s.yarn.heads.setIfInBounds f h } }

/-- With a sweep. -/
def swept (s : State) (w : Sweep) : State := { s with yarn := { s.yarn with sweep := some w } }

/-! ### Well-formedness -/

theorem test_illFormed_unknownKind :
    (Instr.unknownKind 0x01).wellFormed = false ∧ (Instr.unknownKind 0x20).wellFormed = false
    ∧ (Instr.unknownKind 0x80).wellFormed = false ∧ (Instr.unknownKind 0x21).wellFormed = true
    ∧ (Instr.unknownKind 0x00).wellFormed = true := by decide

theorem test_illFormed_broadcastRefused :
    (Instr.broadcastRefused 0x0E).wellFormed = false ∧ (Instr.broadcastRefused 0x1A).wellFormed = false
    ∧ (Instr.broadcastRefused 0x80).wellFormed = false ∧ (Instr.broadcastRefused 0x7F).wellFormed = true := by decide

theorem test_illFormed_body :
    (Instr.writeLine (List.replicate 241 0)).wellFormed = false ∧ (Instr.writeLine (List.replicate 240 0)).wellFormed = true
    ∧ (Instr.halt .broadcast (List.replicate 241 0)).wellFormed = false := by decide

theorem test_illFormed_refused :
    exec (.unknownKind 0x05) base = .refused (.illFormed "UNKNOWN_KIND")
    ∧ exec (.broadcastRefused 0x0F) base = .refused (.illFormed "BROADCAST_REFUSED") := ⟨rfl, rfl⟩

/-! ### Figures of the manual -/

/-- R170: the check of the nine digits. -/
theorem test_crc : crc16 [0x31, 0x32, 0x33, 0x34, 0x35, 0x36, 0x37, 0x38, 0x39] = 0x29B1#16 := by decide

/-- Section 3.6 with the defaults. -/
theorem test_geometry :
    base.fieldLow = -16 ∧ base.fieldHigh = 527 ∧ base.entryPoint .rightward = -109 ∧ base.entryPoint .leftward = 620 := by
  decide

/-- R171, R185: IDENTIFY as it stands on the pair: address 1, kind A0h, twelve body bytes. -/
theorem test_identify_frame :
    (replyOf (exec (.identify []) base)).take 16
      = [0xA7, 0x01, 0xA0, 0x0C, 0x00, 0x00, 0x00, 0x00, 0x00, 0x00, 0x00, 0x6B, 0x1E, 0x9C, 0x01, 0x03] := by
  decide

/-- Section 10.1: HOME before the lock is refused with NOT_LOCKED, and LOCK_SETTINGS then passes. -/
theorem test_home_notLocked :
    after (exec (.home []) base) = some (base.sendReply 0x02 (refuse .notLocked))
    ∧ after (exec (.lockSettings []) base)
      = some (locked.sendReply 0x1D (accept (bytesOf 2 base.computedChecksum.toNat))) := by
  decide

/-- Section 10.1: the home mark edge loads −256, at X = −16, and logs HOMED. -/
theorem test_home_mark :
    (after (exec .homeMarkEdge (at_ .seeking 0))).map (fun s => (s.tracker.count, s.carriageX, s.monitor.events, s.readyLine))
      = some (-256, -16, [EventEntry.mk 0 (.homed (-256) (-16))], true) := by decide

/-- R1: the four steps of the sequence that counts up. -/
theorem test_count_up :
    ((exec (.countTransition .a) base |> after).bind fun s => (exec (.countTransition .b) s |> after)).map
      (fun s => (s.tracker.count, s.tracker.encA, s.tracker.encB)) = some (2, true, true) := by decide

/-- R1: the same line against the sequence counts down. -/
theorem test_count_down :
    (after (exec (.countTransition .b) base)).map (fun s => s.tracker.count) = some (-1) := by decide

/-- Section 10.1: the step to X = −109 of a RUNNING plan with an armed head starts the pass. -/
theorem test_entry_crossing :
    (after (exec (.countTransition .a) (queued [bare (.armed none)] .running (-1745)))).map
      (fun s => (s.carriageX, s.queue.records.map PassRecord.state, s.engine.pass, s.monitor.events))
      = some (-109, [.active], some (Pass.mk .rightward 0 (-109) none), [EventEntry.mk 0 (.passStarted 7 .rightward)]) := by
  decide

/-- Section 10.1: the exit step to X = 618 completes the pass where no latch is outstanding. -/
theorem test_exit_step :
    (after (exec (.countTransition .a)
        (let s := passing (bare .active) 617
        { s with tracker := { s.tracker with count := 9887, clock := 100 } }))).map
      (fun s => (s.carriageX, s.queue.records, s.engine.pass, s.engine.passCounter, s.monitor.events))
      = some (618, [], none, 1, [EventEntry.mk 0 (.passEnded 7 1)]) := by decide

/-- Section 10.1: WRITE_LINE of eight codes leaves cursor and extent 8, and the census of SEAL_LINE is MISS, TUCK, KNIT. -/
theorem test_line_store :
    (after (exec (.writeLine [0, 0, 0, 8, 0, 0x9A, 0x1A])
        (lined base 0 (.opened (LineData.mk (List.replicate 8 .miss) 0 0))))).map (fun s => s.line 0)
      = some (.opened (LineData.mk [.knit, .knit, .tuck, .knit, .knit, .knit, .tuck, .miss] 8 8))
    ∧ (after (exec (.sealLine [0])
        (lined base 0 (.opened (LineData.mk [.knit, .knit, .tuck, .knit, .knit, .knit, .tuck, .miss] 8 8))))).map
        (fun s => s.line 0)
      = some (.sealed (LineData.mk [.knit, .knit, .tuck, .knit, .knit, .knit, .tuck, .miss] 8 8) [.miss, .tuck, .knit] 0) := by
  decide

/-- Section 10.1: QUEUE_PASS of a rightward record: system 1 in KNIT mode, a front channel on line 0, TAKE(0), RELEASE(0, 520). -/
theorem test_queuePass :
    (after (exec (.queuePass [1, 0, 0, 0, 1, 1, 0, 0x09, 0, 0, 0, 0, 0, 0, 0, 0, 0x00, 0, 0, 0x80, 0x08, 0x02])
        (let s := fed (lined (at_ .referenced (-1792)) 0 (.sealed (LineData.mk [.knit] 1 1) [.knit] 0)) 0 (.parked 0 (-10))
        { s with queue := { s.queue with proj := s.feeders.project } }))).map
      (fun s => (s.queue.records.map PassRecord.entries, s.queue.proj.feeder 0, (s.line 0).refs))
      = some ([[SystemEntry.mk 1 .knit (some (Channel.mk 0 0 512 0 .tile .miss)) none
          [MarkedAction.mk (.take 0) .notReached, MarkedAction.mk (.release 0 520) .notReached]]], .parked 0 520, 1) := by decide

/-- Section 10.1: the step to X = 20 brings latch point −10 onto the take. -/
theorem test_take_drive :
    (after (exec (.countTransition .a)
        (let e := SystemEntry.mk 1 .knit none none [MarkedAction.mk (.take 0) .notReached]
        let s := fed (passing (withEntry e .active) 19) 0 (.parked 0 (-10))
        { s with tracker := { s.tracker with count := 319, clock := 100 , encA := true, encB := false} }))).map
      (fun s => (s.tracker.count, s.latch 1, s.feeder 0)) = some (318, Latch.mk .opened 0, .parked 0 (-10))
    ∧ (after (exec (.countTransition .b)
        (let e := SystemEntry.mk 1 .knit none none [MarkedAction.mk (.take 0) .notReached]
        let s := fed (passing (withEntry e .active) 19) 0 (.parked 0 (-10))
        { s with tracker := { s.tracker with count := 319, clock := 100 , encA := true, encB := false} }))).map
      (fun s => (s.carriageX, s.latch 1, s.feeder 0)) = some (20, Latch.mk (.closing 0 (-10)) 4, .taking 0 1) := by
  decide

/-- Section 10.1: the sense rises, and the take is confirmed. -/
theorem test_take_confirmed :
    (after (exec (.coupleSenseEdge 1 true)
        (latched (fed (passing (bare .active) 21) 0 (.taking 0 1)) 1 (.closing 0 (-10))))).map
      (fun s => (s.latch 1, s.feeder 0, s.monitor.events))
      = some (Latch.mk (.closed 0) 0, .coupled 0 1, [EventEntry.mk 0 (.feederTaken 0 1 (-10))]) := by decide

/-- Section 10.4: the second step of a retreat raises REVERSAL and aborts the pass. -/
theorem test_reversal :
    (after (exec (.countTransition .b)
        (let s := passing (bare .active) 271
        { s with tracker := { s.tracker with count := 4320 } }))).map
      (fun s => (s.carriageX, s.engine.pass, s.queue.plan, s.stopLine, s.monitor.events.map EventEntry.event))
      = some (269, none, .held, true, [.condition (.reversal 2 269), .passAborted 7 .reversal none, .queueFlushed 1 .abort]) := by
  decide

/-- Section 10.5: the third high poll of a spike snags, and the third calm one after two high ones is a knot. -/
theorem test_spike :
    (after (exec (.pollEnd (.good 3 900))
        (swept (headed (fed base 3 (.coupled 0 3)) 3 { HeadRecord.initial with spike := .rising 2 })
          (Sweep.mk (some (.poll 3 false false)) [])))).map
      (fun s => ((s.head 3).spike, s.monitor.events.map EventEntry.event, s.stopLine))
      = some (.snagged, [.condition (.yarnSnag 4 900)], true)
    ∧ (after (exec (.pollEnd (.good 3 390))
        (swept (headed (fed base 3 (.coupled 0 3)) 3 { HeadRecord.initial with spike := .settling 2 })
          (Sweep.mk (some (.poll 3 false false)) [])))).map
      (fun s => ((s.head 3).spike, s.monitor.events.map EventEntry.event, s.stopLine))
      = some (.calm, [.condition (.yarnKnot 4)], false) := by decide

/-- R8: a seek that times out leaves no needle period of an earlier pass. -/
theorem test_seek_expiry :
    (after (exec .seekTimerExpiry (let s := at_ .seeking 40
        s.setTracker { s.tracker with lastPeriod := some 30, lastDir := .leftward }))).map
      (fun s => (s.tracker.position, s.tracker.count, s.tracker.lastDir, s.tracker.lastPeriod, s.latched .homeTimeout))
      = some (.unreferenced, 40, .leftward, none, true) := by decide

/-- R126: a sweep that begins right after the last transaction of another leaves the rest of the gap before its first poll. -/
theorem test_bus_gap :
    ((after (exec (.pollEnd (.good 0 0)) (swept (fed base 3 (.coupled 0 3)) (Sweep.mk (some (.poll 3 false false)) [])))).bind
      fun s => after (exec .sweepTimerExpiry s)).map (fun s => (s.yarn.sweep, s.yarn.gap, s.tick.yarn.gap, s.tick.pending))
      = some (some (Sweep.mk none [3]), 200, 199, []) := by decide

/-- R183: SEND on a fitted bank has both lines high, a bank that is not fitted has both low. -/
theorem test_pins :
    (let s := (base.putBank 1 (BankPair.mk .send .tuck)).putSetting 1 2;
      s.frontLines 1 = BankLines.mk true true ∧ s.backLines 1 = BankLines.mk true false
      ∧ (s.putBank 2 (BankPair.mk .send .knit)).frontLines 2 = BankLines.mk false false
      ∧ s.clockPin = .low ∧ s.dataPin = .released ∧ s.stopPin = .high ∧ s.attnPin = .released ∧ s.readyPin = .low
      ∧ s.linkPins = .released ∧ sending.linkPins = .signalling) := by decide

/-- R173: an even number of high straps is bad parity: ADDRESS_PARITY is raised and no address is held. -/
theorem test_powerOn_parity :
    (after (exec (.powerOn { defaultPins with straps := 3#4 }) base)).map
      (fun s => (s.live .addressParity, s.latched .addressParity, s.monitor.events.map EventEntry.event))
      = some (true, true, [.condition (.addressParity 3#4)]) := by decide

/-- A step takes the command at the front; on an empty queue it is one unit of the clock. -/
theorem test_step :
    (after (step { base with pending := [.homeMarkEdge, .frameStart] })).map State.pending = some [.frameStart]
    ∧ (after (step base)).map (fun s => s.tracker.clock) = some 1 := by decide

/-- No row of the table gives bits. -/
theorem test_decode : decodeTableWord 8 0x20 = none ∧ decodeTableWord 0 0 = none := by decide

/-! ### Premises that some state meets: the machine, power-on and the link -/

theorem test_premises_EmptyQueueStepPassesOneTick :
    base.pending = [] ∧ base.monitor.subStamp < 99
    ∧ (let s : State := { base with monitor := { base.monitor with subStamp := 99 } }
      s.pending = [] ∧ 99 ≤ s.monitor.subStamp) := by decide

theorem test_premises_EveryWellFormedCommandCompletes :
    (Instr.writeLine (List.replicate 240 0)).wellFormed = true ∧ (Instr.unknownKind 0x7F).wellFormed = true
    ∧ (Instr.broadcastRefused 0x00).wellFormed = true
    ∧ unknownKindByte 0x01 = false ∧ unknownKindByte 0x20 = false ∧ refusedBroadcastByte 0x1A = false := by decide

theorem test_premises_PowerOnAndRestartResetEveryBlock :
    parityGood 1#4 = true ∧ parityGood 14#4 = true ∧ parityGood 0#4 = false ∧ parityGood 15#4 = false ∧ base.listening
    ∧ (State.mk [] base.tracker base.store base.queue base.engine base.feeders base.yarn base.monitor
      { base.link with restartPending := true } base.settings 0).link.restartPending = true
    ∧ base.link.restartPending = false := by
  unfold State.listening
  and_intros <;> decide

theorem test_premises_FramesThatAreNotTaken :
    (comesFromPair (.status []) = true ∧ (Instr.status []).wellFormed = true ∧ sending.link.rx.busy = true)
    ∧ comesFromPair .frameStart = true ∧ comesFromPair (.broadcastRefused 0x01) = true
    ∧ ((strapped 0).link.rx.busy = false ∧ (strapped 0).addressParityLive = true)
    ∧ requestOf (.halt .addressed []) = some (0x0E, .addressed, []) ∧ unknownKindByte 0x21 = true := by decide

theorem test_premises_AddressedRequestIsAnsweredOnce :
    (requestOf (.identify []) = some (0x20, .addressed, []) ∧ base.listening)
    ∧ (requestOf (.syncTime .broadcast [1, 2, 3, 4]) = some (0x1A, .broadcast, [1, 2, 3, 4]) ∧ base.link.rx.busy = false) := by
  unfold State.listening
  and_intros <;> decide

theorem test_premises_MalformedBodyIsAnsweredBadRequest :
    (requestOf (.status [0]) = some (0x01, .addressed, [0]) ∧ bodyLengthOf 0x01 = some 0 ∧ [0].length ≠ 0)
    ∧ (requestOf (.writeSetting [0, 0, 0, 0]) = some (0x1C, .addressed, [0, 0, 0, 0]) ∧ bodyLengthOf 0x1C = some 5)
    ∧ (requestOf (.force [2, 0]) = some (0x18, .addressed, [2, 0]) ∧ 1 < (2 : Byte).toNat)
    ∧ (requestOf (.writeLine [0, 0, 0, 1, 0, 0x04]) = some (0x05, .addressed, [0, 0, 0, 1, 0, 0x04])
      ∧ writeLineMalformed [0, 0, 0, 1, 0, 0x04])
    ∧ (requestOf (.queuePass [1, 0, 8, 0, 0]) = some (0x0A, .addressed, [1, 0, 8, 0, 0]) ∧ queuePassMalformed [1, 0, 8, 0, 0])
    ∧ queuePassMalformed [1, 0, 0, 0, 1, 0, 3, 0]
    ∧ (requestOf (.go .broadcast [0]) = some (0x0F, .broadcast, [0]) ∧ bodyLengthOf 0x0F = some 0)
    ∧ base.listening ∧ base.link.rx.busy = false := by
  unfold State.listening
  and_intros
  case _ => exact rfl
  all_goals first
    | decide
    | exact .inr (.inr ⟨1, by decide, by decide, by decide⟩)
    | exact .inr (.inl (by decide))
    | exact .inr (.inr (.inr (.inl (.inr (.inr (.inl (by decide)))))))

theorem test_premises_FramesWithoutOwner :
    base.link.rx = .hunt ∧ (base.setRx .frame).link.rx = .frame ∧ (base.setRx .frame).link.rx.busy = false
    ∧ (0x21 ≤ (0x21 : Byte).toNat ∧ (0x7F : Byte).toNat ≤ 0x7F) ∧ base.listening
    ∧ ((0x7F : Byte).toNat ≤ 0x7F ∧ (0x7F : Byte) ≠ 0x0E ∧ (0x00 : Byte) ≠ 0x1A)
    ∧ (sending.link.rx = .reply (Reply.mk 1 0x01 .accepted base.summary []) ∧ sending.link.restartPending = false) := by
  unfold State.listening
  and_intros <;> decide

theorem test_premises_StatusSummary :
    (at_ .referenced 5).tracker.position = .referenced ∧ (at_ .doubtful 5).tracker.position = .doubtful
    ∧ base.tracker.position = .unreferenced ∧ (at_ .seeking 0).tracker.position = .seeking
    ∧ (at_ .lost 0).tracker.position = .lost ∧ base.listening ∧ base.link.rx.busy = false := by
  unfold State.listening
  and_intros <;> decide

theorem test_premises_QueriesOnlyReport :
    base.listening ∧ (0 : Byte).toNat ≤ 63 ∧ (63 : Byte).toNat ≤ 63 ∧ 63 < (64 : Byte).toNat
    ∧ base.tracker.position.valid = false ∧ base.tracker.seekTimer = none ∧ base.tracker.markWindow = none
    ∧ (let s := at_ .referenced (-1792); s.tracker.position.valid = true ∧ s.carriageX = clampX s.carriageX)
    ∧ (let s := (at_ .seeking 0).startSeek;
      s.tracker.position = .seeking ∧ s.tracker.seekTimer = some 200000000 ∧ 200000000 ≤ 600000000)
    ∧ (let s := base.setTracker { base.tracker with markWindow := some (MarkWindow.mk (-3) .low true) };
      s.tracker.markWindow = some (MarkWindow.mk (-3) .low true) ∧ (-3) * s.markSpacing = clampX ((-3) * s.markSpacing))
    ∧ (base.line 5 = .free ∧ (lined base 5 (.opened (LineData.mk [.knit] 1 1))).line 5 = .opened (LineData.mk [.knit] 1 1)
      ∧ (lined base 5 (.sealed (LineData.mk [.knit] 1 1) [.knit] 1)).line 5 = .sealed (LineData.mk [.knit] 1 1) [.knit] 1)
    ∧ (queued [bare .queued] .held 0).queue.records[0]? = some (bare .queued)
    ∧ (∀ v ∈ [ProjFeeder.undeclared, .parked 7 527, .coupled 7 3, .faulted 0],
      (let t : State := { base with queue := { base.queue with
          proj := Projection.mk (base.queue.proj.feeders.setIfInBounds 15 v) base.queue.proj.holders } };
        t.queue.proj.feeder 15 = v))
    ∧ (∀ v ∈ [Feeder.undeclared, .parked 7 527, .taking 7 3, .coupled 7 3, .releasing 7 3 527, .faulted 0],
      (fed base 15 v).feeder 15 = v)
    ∧ (∀ v ∈ [LatchState.opened, .closing 15 527, .closed 15, .opening 15], ((latched base 3 v).latch 3).state = v)
    ∧ 3 < base.systems ∧ base.yarn.pendingWrite = none ∧ (base.monitor.record .stall).latched = none
    ∧ ((base.noteRaise (.overspeed 9)).monitor.record .overspeed).latched = some (.overspeed 9) := by
  unfold State.listening
  and_intros <;> decide

theorem test_premises_StrapReading :
    (1#4 = base.link.straps)
    ∧ (let s : State := { base with link := { base.link with reading := 2#4 } };
      (4#4 ≠ s.link.straps) ∧ s.link.reading ≠ s.link.straps)
    ∧ ((0#4 ≠ base.link.straps) ∧ base.link.reading = base.link.straps) := by decide

/-! ### Conditions, events and settings -/

theorem test_premises_RaisesAndAppends :
    (let s := base.setMonitor (base.monitor.putRecord .overspeed (CondRecord.mk (some (.overspeed 3)) false));
      (s.monitor.record (Detail.overspeed 9).cond).latched = some (.overspeed 3) ∧ s.engine.pass = none)
    ∧ ((base.monitor.record (Detail.overspeed 9).cond).latched = none ∧ base.engine.pass = none ∧ (filled base 127).room 1)
    ∧ (Cond.overspeed ≠ (Detail.starved .rightward).cond ∧ Cond.overspeed ≠ .eventOverrun)
    ∧ ((passing (bare .active) 0).engine.pass ≠ none ∧ (Detail.xferClash 1 2).cond.fatalReason = none
      ∧ (passing (bare .active) 0).inStopRoute (Detail.xferClash 1 2).cond = false ∧ (passing (bare .active) 0).room 1)
    ∧ (Detail.overspeed 9).cond.fatalReason ≠ none ∧ (passing (bare .active) 0).inStopRoute (Detail.yarnStop 1).cond = true
    ∧ ¬ (filled base 128).room 1
    ∧ (filled base 128).monitor.record .eventOverrun = CondRecord.mk none false
    ∧ (let s := (filled base 128).append (.passMark 0)
      ¬ s.room 1 ∧ (s.monitor.record .eventOverrun).latched = some (.eventOverrun .passMark)) := by
  unfold State.room
  and_intros <;> decide

theorem test_premises_RaisesAndAppends_reasons :
    (let s := filled (passing (bare .active) 5) 125;
      (Detail.overspeed 9).cond.fatalReason = some .overspeed
      ∧ (Detail.yarnStop 1).cond.fatalReason = none ∧ s.inStopRoute (Detail.yarnStop 1).cond = true
      ∧ (Detail.xferClash 1 2).cond.fatalReason = none ∧ s.inStopRoute (Detail.xferClash 1 2).cond = false
      ∧ s.engine.pass = some (Pass.mk .rightward 0 5 none) ∧ s.queue.records = [bare .active] ∧ s.room 3
      ∧ (s.monitor.record (Detail.xferClash 1 2).cond).latched = none ∧ s.inStopRoute .eventOverrun = false)
    ∧ (let s := (filled (passing (bare .active) 5) 128).putSetting 28 0x400000;
      (s.monitor.record (Detail.xferClash 1 2).cond).latched = none ∧ ¬ s.room 1 ∧ s.inStopRoute .eventOverrun = true
      ∧ s.inStopRoute (Detail.xferClash 1 2).cond = false ∧ s.engine.pass ≠ none)
    ∧ (Cond.overspeed ≠ (Detail.yarnStop 1).cond ∧ Cond.overspeed ≠ .eventOverrun)
    ∧ ((base.noteRaise (.overspeed 9)).monitor.record (Detail.overspeed 3).cond).latched ≠ none := by
  unfold State.room
  and_intros <;> decide

theorem test_premises_SummaryFlagsAndLines :
    base.settings.values = defaultSettings ∧ Cond.posJump.isLiveKind = false ∧ Cond.eventOverrun.isLiveKind = false
    ∧ 3 < base.systems ∧ base.systems ≤ 4 ∧ base.stopLine = false ∧ base.attnLine = false ∧ base.readyLine = false
    ∧ (base.noteRaise (.yarnStop 1)).stopLine = true ∧ (base.noteRaise (.yarnStop 1)).attnLine = true
    ∧ (at_ .referenced 0).readyLine = true ∧ base.yarn.sweep = none ∧ base.link.rx.busy = false
    ∧ (swept base (Sweep.mk none [0])).yarn.sweep = some (Sweep.mk none [0])
    ∧ (let s := swept base (Sweep.mk (some .write) []); s.yarn.sweep = some (Sweep.mk (some .write) []) ∧ s.yarn.gap = 0
      ∧ 0 < ({ s with yarn := { s.yarn with gap := 200 } } : State).yarn.gap) := by
  decide

theorem test_premises_ClearConditionsKeepsLiveOnes :
    base.listening ∧ base.link.rx.busy = false ∧ base.live .posLost = false ∧ (at_ .lost 0).live .posLost = true := by
  unfold State.listening
  and_intros <;> decide

theorem test_premises_ForceAndSyncTime :
    (0 : Byte).toNat ≤ 1 ∧ (1 : Byte).toNat ≤ 1 ∧ 1 < (2 : Byte).toNat ∧ base.listening ∧ base.link.rx.busy = false := by
  unfold State.listening
  and_intros <;> decide

theorem test_premises_ReadEventsRemovesTheOldest :
    (1 ≤ (1 : Byte).toNat ∧ (1 : Byte).toNat ≤ 16) ∧ (16 : Byte).toNat ≤ 16 ∧ (0 : Byte).toNat = 0 ∧ 16 < (17 : Byte).toNat
    ∧ base.listening ∧ base.link.rx.busy = false := by
  unfold State.listening
  and_intros <;> decide

theorem test_premises_ReadSettingAndIdentify :
    (0 : Byte).toNat ≤ 29 ∧ (29 : Byte).toNat ≤ 29 ∧ 29 < (30 : Byte).toNat ∧ base.listening ∧ base.link.rx.busy = false := by
  unfold State.listening
  and_intros <;> decide

theorem test_premises_WriteSettingTakesTheValue :
    (parseWriteSetting [30, 0, 0, 0, 0] = some (30, 0) ∧ 29 < 30)
    ∧ (parseWriteSetting [29, 0, 0, 0, 0] = some (29, 0) ∧ locked.settings.locked = true ∧ locked.listening)
    ∧ (parseWriteSetting [0, 63, 0, 0, 0] = some (0, 63) ∧ settingInRange 0 63 = false)
    ∧ (parseWriteSetting [7, 0x80, 0xFF, 0xFF, 0xFF] = some (7, -128) ∧ settingInRange 7 (-128) = true
      ∧ settingInRange 29 0x7FFFFF = true)
    ∧ base.settings.locked = false ∧ base.listening := by
  unfold State.listening
  and_intros <;> decide

theorem test_premises_WriteSettingMovesItsReaders :
    (parseWriteSetting [5, 0, 0x80, 0xFF, 0xFF] = some (5, -32768) ∧ settingInRange 5 (-32768) = true)
    ∧ ({ at_ .referenced 0 with settings := base.settings } : State).tracker.position.valid = true
    ∧ (parseWriteSetting [0, 64, 0, 0, 0] = some (0, 64) ∧ settingInRange 0 64 = true
      ∧ (fed base 15 (.parked 7 527)).feeder 15 = .parked 7 527)
    ∧ (parseWriteSetting [1, 1, 0, 0, 0] = some (1, 1) ∧ settingInRange 1 1 = true
      ∧ ((latched (fed base 2 (.coupled 0 3)) 3 (.closed 2)).latch 3).state.held = some 2)
    ∧ (parseWriteSetting [19, 2, 0, 0, 0] = some (19, 2) ∧ settingInRange 19 2 = true
      ∧ (let s := headed base 3 { HeadRecord.initial with stillRun := 2 }
        2 ≤ (s.head 3).stillRun ∧ (s.head 3).stillRun ≠ s.stopSweeps))
    ∧ (parseWriteSetting [20, 1, 0, 0, 0] = some (20, 1) ∧ settingInRange 20 1 = true
      ∧ (let s := headed base 3 { HeadRecord.initial with silentRun := 2 }
        1 ≤ (s.head 3).silentRun ∧ (s.head 3).silentRun ≠ s.silentLimit))
    ∧ base.settings.locked = false ∧ base.engine.pass = none ∧ base.listening := by
  unfold State.listening
  and_intros <;> decide

theorem test_premises_LockAndUnlockSettings :
    (base.listening ∧ base.settings.locked = false
      ∧ (∀ i < base.systems, ∀ j < base.systems, i ≠ j → base.offset i ≠ base.offset j)
      ∧ 2 * base.markWindowWidth + 2 < base.countsPerNeedle)
    ∧ (let s := base.putSetting 8 (-90)
      0 < s.systems ∧ 1 < s.systems ∧ s.offset 0 = s.offset 1)
    ∧ (let s := base.putSetting 4 7
      s.countsPerNeedle ≤ 2 * s.markWindowWidth + 2)
    ∧ (locked.listening ∧ locked.settings.locked = true ∧ locked.settings.checksum = some base.computedChecksum)
    ∧ (queued [bare .queued] .held 0).queue.records ≠ [] ∧ (queued [] .running 0).queue.plan = .running
    ∧ (at_ .seeking 0).tracker.position = .seeking
    ∧ (locked.queue.records = [] ∧ locked.queue.plan = .held ∧ locked.tracker.position ≠ .seeking) := by
  unfold State.listening
  and_intros <;> decide

/-! ### Position -/

theorem test_premises_CountTransitionCountsInEveryState :
    (let s := at_ .lost 2147483646; ((s.tracker.encA, s.tracker.encB), (!s.tracker.encA, s.tracker.encB)) ∈
        [((false, false), (true, false)), ((true, false), (true, true)), ((true, true), (false, true)),
          ((false, true), (false, false))] ∧ s.tracker.count + 1 ≤ 2147483647 ∧ s.tracker.position = .lost)
    ∧ (let s := at_ .seeking (-2147483647); -2147483648 ≤ s.tracker.count + (-1) ∧ s.tracker.position = .seeking)
    ∧ base.tracker.position = .unreferenced := by
  and_intros <;> decide

theorem test_premises_MarkWindowFollowsTheCount :
    (0 ≤ base.markWindowWidth ∧ 2 * base.markWindowWidth + 2 < base.countsPerNeedle ∧ 1 ≤ base.markSpacing)
    ∧ (0 * base.markPitch - base.markWindowWidth ≤ 3 ∧ 3 ≤ 0 * base.markPitch + base.markWindowWidth)
    ∧ base.tracker.markWindow = none
    ∧ (base.setTracker { base.tracker with markWindow := some (MarkWindow.mk 0 .low true) }).tracker.markWindow
      = some (MarkWindow.mk 0 .low true)
    ∧ ∀ k : Int, 4 < k * base.markPitch - base.markWindowWidth ∨ k * base.markPitch + base.markWindowWidth < 4 := by
  have p : base.markPitch = 16 := by decide
  have w : base.markWindowWidth = 3 := by decide
  refine ⟨by and_intros <;> decide, by and_intros <;> decide +kernel, rfl, rfl, fun k => ?_⟩
  rw [p, w]
  omega

theorem test_premises_MarkWindowFollowsTheCount_bounds :
    ((-1) * base.markPitch - base.markWindowWidth ≤ -19 ∧ -19 ≤ (-1) * base.markPitch + base.markWindowWidth)
    ∧ ∀ k : Int, -20 < k * base.markPitch - base.markWindowWidth ∨ k * base.markPitch + base.markWindowWidth < -20 := by
  have p : base.markPitch = 16 := by decide
  have w : base.markWindowWidth = 3 := by decide
  refine ⟨by and_intros <;> decide +kernel, fun k => ?_⟩
  rw [p, w]
  omega

theorem test_premises_StepIsDelivered :
    (at_ .referenced 0).tracker.position.valid = true ∧ countInRange 2147483647 = true
    ∧ (let s := at_ .referenced 0;
      (s.nextWindow s.tracker.count 1).2 = none ∧ (1 : Int) / s.countsPerNeedle = s.carriageX)
    ∧ (let s := at_ .doubtful 15;
      (s.nextWindow s.tracker.count 16).2 = none ∧ (16 : Int) / s.countsPerNeedle ≠ s.carriageX)
    ∧ (let s := (at_ .doubtful 3).setTracker
        { (at_ .doubtful 3).tracker with markWindow := some (MarkWindow.mk 0 .low false) };
      s.tracker.position.valid = true ∧ (s.nextWindow s.tracker.count 4).2 = some 0) := by
  and_intros <;> decide

theorem test_premises_IllegalTransitionLosesPosition :
    (countInRange ((at_ .referenced 2147483647).tracker.count
      + ((at_ .referenced 2147483647).tracker.direction .a).sign) = false)
    ∧ countInRange ((at_ .doubtful (-2147483648)).tracker.count
      + ((at_ .doubtful (-2147483648)).tracker.direction .b).sign) = false
    ∧ base.tracker.position.valid = false ∧ (at_ .referenced 0).tracker.position.valid = true
    ∧ (at_ .referenced 0).latched .posJump = false ∧ (at_ .referenced 0).latched .posLost = false
    ∧ (at_ .referenced 0).engine.pass = none ∧ (filled (at_ .referenced 0) 126).room 2 := by
  unfold State.room
  and_intros <;> decide

theorem test_premises_HomingAndItsTimeout :
    ((filled (at_ .seeking 0) 127).tracker.position = .seeking ∧ (filled (at_ .seeking 0) 127).room 1)
    ∧ (let s := at_ .doubtful (-253); s.tracker.position.valid = true ∧ s.tracker.count - s.homeCount ≤ s.markWindowWidth
      ∧ -s.markWindowWidth ≤ s.tracker.count - s.homeCount)
    ∧ (let s := at_ .doubtful (-259); s.tracker.count - s.homeCount ≤ s.markWindowWidth
      ∧ -s.markWindowWidth ≤ s.tracker.count - s.homeCount)
    ∧ (let s := at_ .referenced (-252); s.markWindowWidth < s.tracker.count - s.homeCount)
    ∧ (let s := at_ .referenced (-260); s.tracker.count - s.homeCount < -s.markWindowWidth)
    ∧ base.tracker.position = .unreferenced ∧ base.listening ∧ base.settings.locked = false
    ∧ (locked.listening ∧ locked.settings.locked = true ∧ locked.engine.pass = none)
    ∧ ((passing (bare .active) 0).listening ∧ (passing (bare .active) 0).settings.locked = true
      ∧ (passing (bare .active) 0).engine.pass ≠ none) := by
  unfold State.room State.listening
  and_intros <;> decide

theorem test_premises_NeedleMarkEdgesAndSlips :
    0 < base.markPitch ∧ (at_ .referenced 4).tracker.position.valid = true
    ∧ ((3 : Int) ≤ base.markWindowWidth ∧ ((at_ .referenced 3).tracker.count - 3) % base.markPitch = 0)
    ∧ (base.markWindowWidth < (8 : Int) ∧ 2 * (8 : Int) ≤ base.markPitch)
    ∧ base.tracker.position.valid = false ∧ (at_ .referenced 4).tracker.position = .referenced
    ∧ (at_ .doubtful 4).tracker.position = .doubtful := by
  and_intros <;> decide

theorem test_premises_StallTimerExpiryRaisesStall :
    (let s := passing (bare .active) 0;
      s.tracker.phase = .active ∧ s.tracker.stallTimer ≠ none ∧ s.tracker.stallLive = false)
    ∧ (let s := passing (bare .finishing) 0;
      s.tracker.phase = .finishing ∧ s.tracker.stallTimer ≠ none ∧ s.tracker.stallLive = false ∧ s.engine.pass ≠ none
      ∧ s.inStopRoute .stall = false ∧ s.room 1)
    ∧ base.tracker.phase = .none ∧ base.tracker.stallTimer = none := by
  unfold State.room
  and_intros <;> decide

theorem test_premises_StallTimerExpiryRaisesStall_finishing :
    (let s := filled (passing (bare .finishing) 5) 127;
      s.tracker.phase = .finishing ∧ s.tracker.stallTimer ≠ none ∧ s.tracker.stallLive = false ∧ s.engine.pass ≠ none
      ∧ s.queue.records = [bare .finishing] ∧ (bare .finishing).state = .finishing ∧ s.inStopRoute .stall = false ∧ s.room 1)
    ∧ (let s := (filled (passing (bare .finishing) 5) 128).putSetting 28 0x10;
      s.tracker.phase = .finishing ∧ s.tracker.stallTimer ≠ none ∧ s.engine.pass ≠ none ∧ s.queue.records = [bare .finishing]
      ∧ s.inStopRoute .stall = true) := by
  unfold State.room
  and_intros <;> decide

/-! ### Lines -/

/-- A line of n codes, line 0 of an else empty store, takes n code cells. -/
theorem cellCount_lined (n : Nat) : (lined base 0 (.opened (LineData.mk (List.replicate n .miss) 0 0))).cellCount = n := by
  have h : ∀ c : List Code, (lined base 0 (.opened (LineData.mk c 0 0))).cellCount = c.length := fun _ => rfl
  rw [h, List.length_replicate]

theorem test_premises_DefineLineOpensALine :
    base.listening ∧ 63 < (64 : Byte).toNat ∧ 1024 < (1 : Byte).toNat + 256 * (4 : Byte).toNat
    ∧ ((63 : Byte).toNat ≤ 63 ∧ (0 : Byte).toNat + 256 * (4 : Byte).toNat ≤ 1024)
    ∧ (lined base 63 (.opened (LineData.mk [] 0 0))).line (63 : Byte).toNat ≠ .free
    ∧ (base.line (63 : Byte).toNat = .free ∧ 1024 ≤ base.cellsFree)
    ∧ (let s := lined base 0 (.opened (LineData.mk (List.replicate 24576 .miss) 0 0));
      s.listening ∧ s.line 1 = .free ∧ s.cellsFree < 1) := by
  have h : (lined base 0 (.opened (LineData.mk (List.replicate 24576 .miss) 0 0))).cellsFree < 1 := by
    unfold State.cellsFree
    rw [cellCount_lined]
    decide
  unfold State.listening
  refine ⟨by decide, by decide, by decide, by decide, by decide +kernel, by decide +kernel, ?_⟩
  exact ⟨⟨rfl, rfl⟩, rfl, h⟩

theorem test_premises_WriteLineWritesCodes :
    (parseWriteLine [64, 0, 0, 1, 0, 1] = some (WriteRequest.mk 64 (some 0) 1 [.tuck]) ∧ 63 < 64)
    ∧ (parseWriteLine [0, 0, 0, 0, 0] = some (WriteRequest.mk 0 (some 0) 0 []) ∧ 0 < 1)
    ∧ ((parseWriteLine ([0, 0, 0, 1, 2] ++ List.replicate 129 0)).map WriteRequest.count = some 513 ∧ 512 < 513)
    ∧ (parseWriteLine [63, 0xFF, 0xFF, 1, 0, 3] = some (WriteRequest.mk 63 none 1 [.send]) ∧ 63 ≤ 63 ∧ 1 ≤ 1)
    ∧ (let s := lined base 63 (.opened (LineData.mk [.miss, .miss] 1 1));
      s.line 63 = .opened (LineData.mk [.miss, .miss] 1 1) ∧ 1 + 1 ≤ [Code.miss, .miss].length ∧ s.listening)
    ∧ (let s := lined base 63 (.opened (LineData.mk [.miss] 1 1));
      s.line 63 = .opened (LineData.mk [.miss] 1 1) ∧ [Code.miss].length < 1 + 1)
    ∧ ∀ d, base.line 63 ≠ .opened d := by
  unfold State.listening
  refine ⟨by decide, by decide +kernel, by decide +kernel, by decide +kernel, by decide +kernel, by decide +kernel, ?_⟩
  intro d h
  have : base.line 63 = .free := by decide
  rw [this] at h
  cases h

theorem test_premises_SealReopenAndDropLine :
    base.listening ∧ 63 < (64 : Byte).toNat ∧ (63 : Byte).toNat ≤ 63 ∧ base.line (63 : Byte).toNat = .free
    ∧ (let s := lined base 5 (.opened (LineData.mk [.knit, .miss] 1 1));
      s.line (5 : Byte).toNat = .opened (LineData.mk [.knit, .miss] 1 1) ∧ 1 < [Code.knit, .miss].length ∧ s.listening)
    ∧ (let s := lined base 5 (.opened (LineData.mk [.knit] 1 1));
      s.line (5 : Byte).toNat = .opened (LineData.mk [.knit] 1 1) ∧ [Code.knit].length ≤ 1)
    ∧ (let s := lined base 5 (.sealed (LineData.mk [.knit] 1 1) [.knit] 1);
      s.line (5 : Byte).toNat = .sealed (LineData.mk [.knit] 1 1) [.knit] 1 ∧ s.listening)
    ∧ (let s := lined base 5 (.sealed (LineData.mk [.knit] 1 1) [.knit] 0);
      s.line (5 : Byte).toNat = .sealed (LineData.mk [.knit] 1 1) [.knit] 0) := by
  unfold State.listening
  and_intros <;> decide

/-! ### The pass queue -/

theorem test_premises_QueuePassAppendsOrRefuses :
    parseQueuePass [7, 0, 0, 0, 0] = some (bare .queued) ∧ base.listening ∧ base.settings.locked = false
    ∧ (let s := queued (List.replicate 8 (bare .queued)) .held 0;
      s.listening ∧ s.settings.locked = true ∧ s.admission (bare .queued) = some (Rejection.mk .queueFull (Locator.mk none none)))
    ∧ (let s := queued (List.replicate 7 (bare .queued)) .held 0;
      s.listening ∧ s.settings.locked = true ∧ s.admission (bare .queued) = none ∧ s.queue.records ≠ [] ∧ s.queue.plan = .held)
    ∧ (let s := queued [] .held 0; s.admission (bare .queued) = none ∧ s.queue.records = [] ∧ s.queue.plan = .held)
    ∧ (let s := queued [] .running 0; s.admission (bare .queued) = none ∧ s.queue.records = [] ∧ s.queue.plan = .running)
    ∧ (let s := queued [bare (.armed none)] .running 0;
      s.admission (bare .queued) = none ∧ s.queue.records = [bare (.armed none)] ∧ (bare (.armed none)).state ≠ .queued
      ∧ s.queue.plan = .running) := by
  unfold State.listening
  and_intros <;> decide

theorem test_premises_QueuePassAppendsOrRefuses_operands :
    ((3 : Nat) < 4 ∧ (15 : Nat) < 16) ∧ (Channel.mk 63 511 0 0 .tile .miss).width = 0 ∧ (Channel.mk 63 511 1 0 .tile .miss).width ≠ 0
    ∧ (bare .queued).start ≠ .onGo := by decide

/-- The law of R58 over the 16 feeders and 4 latches that there are. -/
theorem holderLaw_of_bounded (p : Projection)
    (h : ∀ f < 16, ∀ i < 4, (match p.feeder f with
      | .coupled _ j => decide (j = i)
      | .undeclared | .parked _ _ | .faulted _ => false) = decide (p.holder i = some f))
    (k : ∀ f < 16, (match p.feeder f with
      | .coupled _ j => decide (j < 4)
      | .undeclared | .parked _ _ | .faulted _ => true) = true)
    (l : ∀ i < 4, ∀ f ∈ (p.holder i).toList, f < 16) : p.holderLaw := by
  intro f i
  have past : ¬ i < 4 → p.holder i = none := fun hi => getD_past _ _ hi
  by_cases hf : f < 16
  · by_cases hi : i < 4
    · have := h f hf i hi
      cases hp : p.feeder f <;> simp_all
    · rw [past hi]
      have := k f hf
      cases hp : p.feeder f <;> simp_all
      omega
  · have e : p.feeder f = .undeclared := getD_past _ _ hf
    rw [e]
    refine ⟨nofun, fun hh => ?_⟩
    by_cases hi : i < 4
    · exact absurd (l i hi f (by rw [hh]; simp)) hf
    · rw [past hi] at hh; cases hh

/-- A projection with feeder 15 COUPLED to system 3. -/
def heldProjection : Projection :=
  Projection.mk (base.queue.proj.feeders.setIfInBounds 15 (.coupled 7 3)) (base.queue.proj.holders.setIfInBounds 3 (some 15))

/-- That projection behind a locked queue. -/
def holding : State := { queued [] .held 0 with queue := { base.queue with proj := heldProjection } }

theorem holderLaw_held : heldProjection.holderLaw := holderLaw_of_bounded _ (by decide) (by decide) (by decide)

/-- What each check of admission finds at fault, in order, as the obligation has it. -/
def faults (r : PassRecord) (s : State) : List Prop :=
  let p := s.queue.proj
  let pathPosition := fun (a : MarkedAction) (x : Int) => match a.act with
    | .take f => ∃ rail, p.feeder f = .parked rail x
    | .release _ y => x = y
  [8 ≤ s.queue.records.length,
    (∃ e ∈ r.entries, s.systems ≤ e.system) ∨ ¬ (r.entries.map SystemEntry.system).Nodup
      ∨ ∃ e ∈ r.entries, e.mode = .idle ∧ (e.front ≠ none ∨ e.back ≠ none),
    r.racking < -s.maxRack ∨ s.maxRack < r.racking,
    ∃ c ∈ r.channels, ∀ d census n, s.line c.line ≠ .sealed d census n,
    ∃ c ∈ r.channels, s.needles ≤ c.start ∨ (c.width ≠ 0 ∧ s.needles < ((c.start + c.width : Nat) : Int))
      ∨ ∀ d census n, s.line c.line = .sealed d census n → d.codes.length ≤ c.offset,
    ∃ e ∈ r.entries, ∃ c ∈ e.front.toList ++ e.back.toList, ∃ x ∈ (s.line c.line).census ++ [c.fill],
      (e.mode = .knit ∧ x = .send) ∨ (e.mode = .xfer ∧ (x = .tuck ∨ x = .knit)),
    r.cycle = true ∧ ∃ e ∈ r.entries, e.actions ≠ [],
    r.namesTwice ∨ ∃ e ∈ r.entries, ∃ before a after, e.actions = before ++ a :: after ∧ p.actionFails e.system before a.act,
    ∃ e ∈ r.entries, ∃ a ∈ e.actions, ∃ f x, a.act = .release f x ∧ (x < s.fieldLow ∨ s.fieldHigh < x),
    ∃ e ∈ r.entries, ∃ a b x y, e.actions = [a, b] ∧ pathPosition a x ∧ pathPosition b y
      ∧ (y - x) * r.direction.sign < s.confirmNeedles,
    s.railShared r, s.railBlocked r]

/-- Check k is the first that finds a fault; with k = 12 none does. -/
def firstFault (k : Nat) (r : PassRecord) (s : State) : Prop := (∀ j < k, ¬ (faults r s).getD j True) ∧ (faults r s).getD k True

/-- The checks of admission in order. -/
def checks (r : PassRecord) (s : State) : List (Option Rejection) :=
  [s.checkRoom, badSystem s.systems [] r.entries, s.checkRacking r, s.checkSealed r, s.checkRange r, s.checkCodes r, checkCycle r,
    s.queue.proj.walk s.queue.proj.holders [] r.placedActions, s.checkOnPath r, s.checkSpacing r, checkShared (s.carriedBy r),
    checkBlocked s.queue.proj r.taken (s.carriedBy r)]

/-- The first check that answers is the first that finds a fault. -/
theorem firstFault_of_checks (k : Nat) (r : PassRecord) (s : State) (hsys : s.systems ≤ 4) (hl : s.queue.proj.holderLaw) (hk : k ≤ 12)
    (before : ∀ j < k, (checks r s).getD j none = none) (at' : k < 12 → (checks r s).getD k none ≠ none) : firstFault k r s := by
  have nb : ¬ (faults r s).getD 1 True → (r.entries.map SystemEntry.system).Nodup ∧ (∀ e ∈ r.entries, e.system < s.systems)
      ∧ ¬ ∃ e ∈ r.entries, e.mode = .idle ∧ (e.front ≠ none ∨ e.back ≠ none) := fun h =>
    ⟨by_contra fun n => h (.inr (.inl n)), fun e he => by_contra fun n => h (.inl ⟨e, he, by omega⟩), fun n => h (.inr (.inr n))⟩
  have c8 : ¬ (faults r s).getD 1 True →
      (s.queue.proj.walk s.queue.proj.holders [] r.placedActions ≠ none ↔ (faults r s).getD 7 True) := fun h =>
    Projection.walk_fails_iff r s.queue.proj (nb h).1 (fun e he => by have := (nb h).2.1 e he; omega)
  have parked : ¬ (faults r s).getD 7 True → ∀ e ∈ r.entries, ∀ a ∈ e.actions, ∀ f, a.act = .take f →
      ∃ rail x, s.queue.proj.feeder f = .parked rail x := by
    intro h e he a ha f hx
    by_contra hno
    obtain ⟨u, v, hu⟩ := List.append_of_mem ha
    refine h (.inr ⟨e, he, u, a, v, hu, ?_⟩)
    rw [hx]; exact .inr (.inl (fun rail x h => hno ⟨rail, x, h⟩))
  have c10 : ¬ (faults r s).getD 7 True → (s.checkSpacing r ≠ none ↔ (faults r s).getD 9 True) := by
    intro hna
    have at' : ∀ e ∈ r.entries, ∀ a ∈ e.actions, ∀ x,
        (match a.act with | .take f => ∃ rail, s.queue.proj.feeder f = .parked rail x | .release f y => x = y)
        ↔ s.queue.proj.pathPosition a.act = x := by
      intro e he a ha x
      cases hx : a.act with
      | take f =>
        obtain ⟨rail, z, hz⟩ := parked hna e he a ha f hx
        simp only [Projection.pathPosition, hz, ProjFeeder.pos]
        exact ⟨fun ⟨_, h⟩ => by cases h; rfl, fun h => ⟨rail, by rw [h]⟩⟩
      | release f y => exact eq_comm
    rw [State.checkSpacing_iff]
    show _ ↔ ∃ e ∈ r.entries, _
    constructor
    · rintro ⟨e, he, a, b, hab, h⟩
      exact ⟨e, he, a, b, _, _, hab, (at' e he a (by rw [hab]; simp) _).2 rfl, (at' e he b (by rw [hab]; simp) _).2 rfl, h⟩
    · rintro ⟨e, he, a, b, x, y, hab, ha, hb, h⟩
      have ha := (at' e he a (by rw [hab]; simp) x).1 ha
      have hb := (at' e he b (by rw [hab]; simp) y).1 hb
      exact ⟨e, he, a, b, hab, by rw [ha, hb]; exact h⟩
  have carried : ¬ (faults r s).getD 1 True → ¬ (faults r s).getD 7 True →
      ∀ c, c ∈ s.carriedBy r ↔ ∃ x y, s.carries r c.feeder x y ∧ c = s.queue.proj.carriedBetween c.feeder x y :=
    fun h h2 => State.mem_carriedBy_iff s r (nb h).2.1 (fun h3 => h2 (.inl h3)) (parked h2)
  have F : ∀ j < 12, (∀ i < j, (checks r s).getD i none = none) → ((checks r s).getD j none ≠ none ↔ (faults r s).getD j True) := by
    intro j hj h
    have systems : 1 < j → ¬ (faults r s).getD 1 True := fun hj f => (badSystem_nil_iff _ _).2 f (h 1 hj)
    have actions : 7 < j → ¬ (faults r s).getD 7 True := fun hj f => (c8 (systems (by omega))).2 f (h 7 hj)
    match j with
    | 0 => exact State.checkRoom_iff s
    | 1 => exact badSystem_nil_iff s.systems r.entries
    | 2 => exact State.checkRacking_iff s r
    | 3 => exact State.checkSealed_iff s r
    | 4 => exact State.checkRange_iff s r fun f => (State.checkSealed_iff s r).2 f (h 3 (by omega))
    | 5 => exact State.checkCodes_iff s r (nb (systems (by omega))).2.2
    | 6 => exact checkCycle_iff r
    | 7 => exact c8 (systems (by omega))
    | 8 => exact State.checkOnPath_iff s r
    | 9 => exact c10 (actions (by omega))
    | 10 => exact State.checkShared_iff s r hl (carried (systems (by omega)) (actions (by omega)))
    | 11 => exact State.checkBlocked_iff s r hl (carried (systems (by omega)) (actions (by omega)))
  refine ⟨fun j hj f => ?_, ?_⟩
  · exact (F j (by omega) fun i hi => before i (by omega)).2 f (before j hj)
  · by_cases h12 : k < 12
    · exact (F k h12 before).1 (at' h12)
    · have : k = 12 := by omega
      subst this; trivial

/-- A record of one channel on line 0, of one code. -/
def oneChannel (fill : Code) (offset : Nat) : PassRecord :=
  withEntry (SystemEntry.mk 3 .knit (some (Channel.mk 0 511 1 offset .tile fill)) none []) .queued

/-- Line 0 sealed with one code. -/
def oneLine : State := lined (queued (List.replicate 7 (bare .queued)) .held 0) 0 (.sealed (LineData.mk [.knit] 1 1) [.knit] 0)

/-- A record whose one entry, of system 3, has these actions. -/
def acting (as : List FeederAction) : PassRecord :=
  withEntry (SystemEntry.mk 3 .knit none none (as.map fun a => MarkedAction.mk a .notReached)) .queued

/-- With a feeder more in the projection, and its holder where it is COUPLED. -/
def projected (f : Nat) (v : ProjFeeder) (s : State) : State :=
  let holders := match v with
    | .coupled _ i => s.queue.proj.holders.setIfInBounds i (some f)
    | .undeclared | .parked _ _ | .faulted _ => s.queue.proj.holders
  { s with queue := { s.queue with proj := Projection.mk (s.queue.proj.feeders.setIfInBounds f v) holders } }

/-- Every check that may fail first does so on some record, at the first value beyond its range; the bounds themselves pass. -/
theorem test_premises_AdmittedRecordPassesTheChecks :
    firstFault 0 (bare .queued) (queued (List.replicate 8 (bare .queued)) .held 0)
    ∧ firstFault 1 (withEntry (SystemEntry.mk 4 .knit none none []) .queued) (queued [] .held 0)
    ∧ firstFault 2 ({ bare .queued with racking := 9 } : PassRecord) (queued [] .held 0)
    ∧ firstFault 3 (oneChannel .tuck 0) (queued [] .held 0)
    ∧ firstFault 4 (oneChannel .tuck 1) oneLine
    ∧ firstFault 5 (oneChannel .send 0) oneLine
    ∧ firstFault 6 ({ acting [.take 15] with cycle := true } : PassRecord) (queued [] .held 0)
    ∧ firstFault 7 (acting [.take 15]) (queued [] .held 0)
    ∧ firstFault 8 (acting [.release 15 528]) holding
    ∧ firstFault 9 (acting [.take 14, .release 14 (-13)]) (projected 14 (.parked 7 (-16)) (queued [] .held 0))
    ∧ firstFault 10 (bare .queued) (projected 14 (.coupled 7 0) holding)
    ∧ firstFault 11 (bare .queued) (projected 14 (.parked 7 527) holding)
    ∧ firstFault 12 ({ bare .queued with racking := 8 } : PassRecord) (queued [] .held 0)
    ∧ oneLine.admission ({ oneChannel .tuck 0 with racking := -8 } : PassRecord) = none
    ∧ (let s := projected 14 (.parked 6 (-16)) (queued [] .held 0);
      s.admission (acting [.take 14, .release 14 (-12)]) = none ∧ s.admission (acting [.take 14, .release 14 527]) = none)
    ∧ holding.queue.proj.holderLaw ∧ (queued [] .held 0).queue.proj.holderLaw
    ∧ (projected 14 (.parked 7 (-16)) (queued [] .held 0)).queue.proj.holderLaw
    ∧ (projected 14 (.coupled 7 0) holding).queue.proj.holderLaw
    ∧ (projected 14 (.parked 7 527) holding).queue.proj.holderLaw := by
  have none' : (queued [] .held 0).queue.proj.holderLaw := holderLaw_of_bounded _ (by decide) (by decide) (by decide)
  have one : oneLine.queue.proj.holderLaw := holderLaw_of_bounded _ (by decide) (by decide) (by decide)
  have close : (projected 14 (.parked 7 (-16)) (queued [] .held 0)).queue.proj.holderLaw :=
    holderLaw_of_bounded _ (by decide) (by decide) (by decide)
  have shared : (projected 14 (.coupled 7 0) holding).queue.proj.holderLaw := holderLaw_of_bounded _ (by decide) (by decide) (by decide)
  have blocked : (projected 14 (.parked 7 527) holding).queue.proj.holderLaw :=
    holderLaw_of_bounded _ (by decide) (by decide) (by decide)
  exact ⟨firstFault_of_checks 0 _ _ (by decide) none' (by decide) (by decide) (by decide),
    firstFault_of_checks 1 _ _ (by decide) none' (by decide) (by decide) (by decide),
    firstFault_of_checks 2 _ _ (by decide) none' (by decide) (by decide) (by decide),
    firstFault_of_checks 3 _ _ (by decide) none' (by decide) (by decide) (by decide),
    firstFault_of_checks 4 _ _ (by decide) one (by decide) (by decide) (by decide),
    firstFault_of_checks 5 _ _ (by decide) one (by decide) (by decide) (by decide),
    firstFault_of_checks 6 _ _ (by decide) none' (by decide) (by decide) (by decide),
    firstFault_of_checks 7 _ _ (by decide) none' (by decide) (by decide) (by decide),
    firstFault_of_checks 8 _ _ (by decide) holderLaw_held (by decide) (by decide) (by decide),
    firstFault_of_checks 9 _ _ (by decide) close (by decide) (by decide) (by decide),
    firstFault_of_checks 10 _ _ (by decide) shared (by decide) (by decide) (by decide),
    firstFault_of_checks 11 _ _ (by decide) blocked (by decide) (by decide) (by decide),
    firstFault_of_checks 12 _ _ (by decide) none' (by decide) (by decide) (by decide),
    by decide, by decide, holderLaw_held, none', close, shared, blocked⟩

theorem test_premises_StopCyclingAndCancelQueued :
    base.listening ∧ base.link.rx.busy = false ∧ (filled base 127).listening ∧ (filled base 127).room 1 := by
  unfold State.listening State.room
  and_intros <;> decide

theorem test_premises_ResumeArmsAndGoReleases :
    ((queued [] .running 0).listening ∧ (queued [] .running 0).queue.plan = .running)
    ∧ (base.listening ∧ base.queue.plan = .held ∧ base.settings.locked = false)
    ∧ (locked.listening ∧ locked.settings.locked = true ∧ locked.tracker.position.valid = false)
    ∧ (let s := queued [] .held 0;
      s.listening ∧ s.queue.plan = .held ∧ s.settings.locked = true ∧ s.tracker.position.valid = true ∧ s.queue.records = [])
    ∧ ((queued [bare .queued] .held 0).queue.records = [bare .queued] ∧ (bare .queued).state = .queued)
    ∧ (let r : PassRecord := { bare (.armed (some .waitGo)) with start := .onGo };
      (queued [r] .running 0).queue.records = [r] ∧ r.state = .armed (some .waitGo) ∧ (queued [r] .running 0).listening)
    ∧ (∀ h rest, base.queue.records = h :: rest → h.state ≠ .armed (some .waitGo)) := by
  unfold State.listening
  refine ⟨by decide, by decide +kernel, by decide +kernel, by decide +kernel, by decide +kernel, by decide +kernel, ?_⟩
  intro h rest e
  cases e

theorem test_premises_ResumeArmsAndGoReleases_states :
    base.queue.records = []
    ∧ ∀ st ∈ [RecordState.queued, .armed none, .armed (some .waitGo), .armed (some .goGiven), .active, .finishing],
      (queued [bare st] .running 0).queue.records = [bare st] ∧ (bare st).state = st := by
  and_intros <;> decide

theorem test_premises_HaltAbortsOrFlushes :
    (base.engine.pass = none ∧ base.listening ∧ base.link.rx.busy = false) ∧ base.room 1
    ∧ ((passing (bare .active) 0).engine.pass ≠ none ∧ (passing (bare .active) 0).listening
      ∧ (passing (bare .active) 0).link.rx.busy = false) := by
  unfold State.listening State.room
  and_intros <;> decide

/-! ### The pass -/

/-- An entry of system 2 in XFER mode whose front channel sends everywhere. -/
def sender : SystemEntry := SystemEntry.mk 2 .xfer (some (Channel.mk 0 0 0 0 .tile .send)) none []

theorem test_premises_StepIsClassified :
    (base.engine.pass = none ∧ (0 : Int) ≠ base.entryPoint .rightward ∧ base.queue.plan = .held)
    ∧ (let s := queued [] .running 0;
      s.engine.pass = none ∧ (-109 : Int) = s.entryPoint .rightward ∧ s.queue.plan = .running)
    ∧ (let s := passing (bare .active) 5;
      s.engine.pass = some (Pass.mk .rightward 0 5 none) ∧ Direction.leftward ≠ .rightward
      ∧ ((5 : Int) - 4) * Direction.rightward.sign ≤ s.reversalTolerance
      ∧ s.reversalTolerance < ((5 : Int) - 3) * Direction.rightward.sign)
    ∧ ((5 : Int) - 5) * Direction.rightward.sign ≤ 0 ∧ 0 < ((6 : Int) - 5) * Direction.rightward.sign
    ∧ (passing (bare .active) 5).headActive = true ∧ (passing (bare .finishing) 5).headActive = false
    ∧ base.settings.values = defaultSettings := by
  and_intros <;> decide

theorem test_premises_StepIsClassified_systems : 0 < base.systems ∧ 0 < (base.putSetting 1 1).systems := by decide

theorem test_premises_EntryCrossingOutcomes :
    (queued [] .running 0).queue.records = []
    ∧ (let s := queued [bare (.armed none)] .running 0;
      s.queue.records = [bare (.armed none)] ∧ (bare (.armed none)).direction ≠ .leftward
      ∧ (bare (.armed none)).direction = .rightward ∧ s.settings.checksum = some s.computedChecksum ∧ s.room 1
      ∧ ∀ i < s.systems, s.pairExists 0 (s.selectionPoint i (-109) .rightward) = false)
    ∧ (bare (.armed (some .waitGo))).state = .armed (some .waitGo)
    ∧ (let s := queued [bare (.armed (some .goGiven))] .running 0;
      let t := s.setSettings { s.settings with checksum := some (s.computedChecksum + 1) };
      t.settings.checksum = some (s.computedChecksum + 1) ∧ s.computedChecksum + 1 ≠ t.computedChecksum) := by
  unfold State.room
  and_intros <;> decide

theorem test_premises_AdvancingStepOrder :
    (passing (bare .finishing) 5).headActive = false
    ∧ (let s := passing (bare .active) 5;
      let t := s.setTracker { s.tracker with clock := 9 };
      t.headActive = true ∧ t.tracker.lastAdvance ≠ none ∧ ((9 : Nat) : Int) < t.minNeedlePeriod)
    ∧ (let s := passing (bare .active) 5;
      let t := s.setTracker { s.tracker with clock := 10, lastPeriod := some 10, lastAdvance := some 10 };
      t.minNeedlePeriod ≤ ((10 : Nat) : Int) ∧ ((t.arrivals true 6).engine.pass ≠ none)
      ∧ (((t.arrivals true 6).feederStep 6).markTravel).engine.pass ≠ none ∧ t.beyondExit .rightward 6 = false
      ∧ t.beyondExit .rightward 617 = false ∧ t.beyondExit .rightward 618 = true
      ∧ ((t.arrivals true 618).engine.pass ≠ none)
      ∧ (((t.arrivals true 618).feederStep 618).markTravel).engine.pass ≠ none
      ∧ ((t.arrivals true 618).feederStep 618).markTravel.latchOutstanding = false)
    ∧ (let s := latched (fed (passing (bare .active) 617) 4 (.taking 0 2)) 2 (.closing 4 300);
      let v := ((s.arrivals true 618).feederStep 618).markTravel;
      v.engine.pass ≠ none ∧ v.latchOutstanding = true)
    ∧ (let s := (passing (withEntry sender .active) 477).putSetting 28 0x800;
      let t := s.setEngine { s.engine with pass := some (Pass.mk .rightward 1 478 none) };
      (t.arrivals true 478).engine.pass = none) := by
  and_intros <;> decide

theorem test_premises_PairArrivalCodes :
    (base.headEntry 0 = none)
    ∧ (let e := SystemEntry.mk 2 .idle none none [];
      (passing (withEntry e .active) 5).headEntry 2 = some e ∧ e.mode = .idle)
    ∧ (let e := SystemEntry.mk 2 .knit none none [];
      (passing (withEntry e .active) 5).headEntry 2 = some e ∧ e.mode = .knit)
    ∧ (let s := passing (withEntry sender .active) 5;
      s.headEntry 2 = some sender ∧ sender.mode = .xfer ∧ s.foundCode sender.front 511 = .send
      ∧ s.foundCode sender.back (511 + 1) ≠ .send ∧ s.needles ≤ 511 + 1
      ∧ (0 : Int) ≤ 0 + 0 ∧ s.foundCode sender.front 0 = .send ∧ s.foundCode sender.front 512 ≠ .send)
    ∧ (let e : SystemEntry := { sender with back := sender.front };
      let s := passing (withEntry e .active) 5;
      s.foundCode e.front 3 = .send ∧ s.foundCode e.back (3 + 0) = .send
      ∧ s.foundCode e.front (-1) ≠ .send ∧ s.foundCode e.back (-1 + 1) = .send)
    ∧ (let s := lined base 0 (.sealed (LineData.mk [.knit, .miss] 2 2) [.miss, .knit] 1);
      s.line 0 = .sealed (LineData.mk [.knit, .miss] 2 2) [.miss, .knit] 1 ∧ 1 < [Code.knit, .miss].length
      ∧ (0 : Int) ≤ 511 ∧ (511 : Int) < s.needles ∧ (511 : Int) = ((500 : Nat) : Int) + (11 : Nat) ∧ 11 < 12
      ∧ (499 : Int) < ((500 : Nat) : Int) ∧ 1 + 0 < [Code.knit, .miss].length ∧ [Code.knit, .miss].length ≤ 1 + 1)
    ∧ base.engine.pass = none
    ∧ (let s := passing (withEntry sender .active) 5;
      let p := fun x : Int => x + s.offset 2 + Direction.rightward.sign * s.lead;
      s.engine.pass = some (Pass.mk .rightward 0 5 none) ∧ p (-33) = 0 ∧ p 478 = 511 ∧ p 479 = 512 ∧ p (-34) = -1
      ∧ min (0 : Int) (-0) ≤ 0 ∧ 511 ≤ max (s.needles - 1) (s.needles - 1 - 0) ∧ max (s.needles - 1) (s.needles - 1 - 0) < 512
      ∧ (s.arrivalCodes 2 0 0).2 = none ∧ (s.arrivalCodes 2 1 511).2 = some (.xferEdge 2 511 .front)
      ∧ (s.arrivals true 5).engine.pass ≠ none ∧ s.pairExists 0 511 = true)
    ∧ (let s := (passing (withEntry sender .active) 477).putSetting 28 0x800;
      let t := s.setEngine { s.engine with pass := some (Pass.mk .rightward 1 478 none) };
      t.engine.pass = some (Pass.mk .rightward 1 478 none) ∧ (t.arrivals true 478).engine.pass = none) := by
  and_intros <;> decide

/-- The law of R37 where no line is sealed and no record names one. -/
theorem referenceLaw_of_free (s : State) (hs : s.store = base.store) (hr : s.queue.records.flatMap PassRecord.channels = []) :
    s.referenceLaw := by
  intro id
  have e : s.line id = .free := by unfold State.line; rw [hs]; exact getD_replicate _ _
  unfold State.namesOf
  rw [e, hr]
  rfl

theorem test_premises_CompletionCountsThePass :
    (let s := filled (passing (bare .active) 617) 125;
      s.queue.records = [bare .active] ∧ s.room 3 ∧ s.headOffPlan = false ∧ s.queue.plan = .running
      ∧ (bare .active).cycle = false)
    ∧ (let r : PassRecord := { bare .active with cycle := true };
      (passing r 617).queue.records = [r] ∧ ({ r with state := .queued } : PassRecord).state = .queued)
    ∧ (queued [bare .active] .held 0).queue.plan = .held
    ∧ (passing (withEntry (SystemEntry.mk 0 .knit none none [MarkedAction.mk (.take 0) .otherwise]) .active) 617).headOffPlan
      = true
    ∧ (passing (withEntry (SystemEntry.mk 0 .knit none none [MarkedAction.mk (.take 0) .otherwise]) .active) 617).referenceLaw
    ∧ (passing (bare .active) 617).referenceLaw := by
  unfold State.room
  and_intros
  all_goals first
    | exact referenceLaw_of_free _ rfl rfl
    | decide

theorem test_premises_CompletionCountsThePass_planned :
    (passing (withEntry (SystemEntry.mk 0 .knit none none [MarkedAction.mk (.take 0) .asPlanned]) .active) 617).headOffPlan = false
    ∧ base.headOffPlan = false := by decide

theorem test_premises_AbortEndsThePass :
    base.engine.pass = none
    ∧ (let s := filled (passing (bare .active) 5) 126;
      s.engine.pass = some (Pass.mk .rightward 0 5 none) ∧ s.queue.records = [bare .active] ∧ s.room 2)
    ∧ (queued [bare (.armed none)] .running 0).queue.records = [bare (.armed none)]
    ∧ (queued [bare (.armed none)] .running 0).room 2 := by
  unfold State.room
  and_intros <;> decide

/-! ### Feeders and latches -/

/-- The law of the latches over the 16 feeders and 4 latches that there are. -/
theorem latchLaw_of_bounded (s : State)
    (h : ∀ i < 4, ∀ f < 16, ∀ b ∈ [Bond.take, .hold, .release],
      ((s.feeder f).bond = some (i, b) ↔ (s.latch i).state.bond = some (f, b)))
    (l : ∀ i < 4, ∀ p ∈ (s.latch i).state.bond.toList, p.1 < 16)
    (k : ∀ f < 16, ∀ p ∈ (s.feeder f).bond.toList, p.1 < 4) : s.LatchLaw := by
  have mem : ∀ b, b ∈ [Bond.take, .hold, .release] := fun b => by cases b <;> decide
  rw [latchLaw_iff]
  refine ⟨fun i hi f b => ?_, fun f i b e => ?_⟩
  · by_cases hf : f < 16
    · exact h i hi f hf b (mem b)
    · rw [State.feeder_past s hf]
      refine ⟨nofun, fun e => absurd (l i hi (f, b) (by rw [e]; simp)) hf⟩
  · by_cases hf : f < 16
    · exact k f hf (i, b) (by rw [e]; simp)
    · rw [State.feeder_past s hf] at e
      cases e

/-- Feeder 0 on its way to system 1, feeder 15 on its way off system 3. -/
def moving (s : State) : State :=
  latched (latched (fed (fed s 0 (.taking 0 1)) 15 (.releasing 7 3 527)) 1 (.closing 0 (-10))) 3 (.opening 15)

theorem latchLaw_moving : (moving base).LatchLaw :=
  latchLaw_of_bounded _ (by decide) (by decide +kernel) (by decide +kernel)

/-- A record of systems 1 and 3 whose actions there are PENDING, and of system 0 whose actions are not. -/
def takingRecord (st : RecordState) : PassRecord :=
  { bare st with entries := [
      SystemEntry.mk 1 .knit none none [MarkedAction.mk (.take 0) .pending, MarkedAction.mk (.release 0 520) .notReached],
      SystemEntry.mk 3 .knit none none [MarkedAction.mk (.take 15) .asPlanned, MarkedAction.mk (.release 15 527) .pending],
      SystemEntry.mk 0 .knit none none [MarkedAction.mk (.take 1) .otherwise, MarkedAction.mk (.release 1 2) .notReached]] }

theorem test_premises_HaltAbortsOrFlushes_projection :
    (let u := (moving (latched (fed (fed (fed base 1 (.parked 7 527)) 2 (.coupled 0 0)) 3 (.faulted 0)) 0 (.closed 2))).feeders;
      u.table.getD 4 .undeclared = .undeclared ∧ u.table.getD 1 .undeclared = .parked 7 527
      ∧ u.table.getD 0 .undeclared = .taking 0 1 ∧ u.table.getD 2 .undeclared = .coupled 0 0
      ∧ u.table.getD 15 .undeclared = .releasing 7 3 527 ∧ u.table.getD 3 .undeclared = .faulted 0
      ∧ (u.latches.getD 1 (Latch.mk .opened 0)).state = .closing 0 (-10) ∧ (u.latches.getD 0 (Latch.mk .opened 0)).state = .closed 2
      ∧ (u.latches.getD 2 (Latch.mk .opened 0)).state = .opened ∧ (u.latches.getD 3 (Latch.mk .opened 0)).state = .opening 15) := by
  and_intros <;> decide

theorem test_premises_FeedersLeaveTheCarriedStates :
    ((moving base).LatchLaw ∧ ((moving base).latch 1).state = .closing 0 (-10) ∧ ((moving base).latch 3).state = .opening 15
      ∧ ((moving base).latch 0).state.outstanding = false)
    ∧ (∀ rail i, (moving base).feeder 5 ≠ .taking rail i) ∧ (∀ rail i y, (moving base).feeder 5 ≠ .releasing rail i y)
    ∧ (((moving base).feeder 15).carried = true ∧ (Feeder.faulted 7).carried = false)
    ∧ (swept (moving base) (Sweep.mk (some (.poll 15 true false)) [])).yarn.sweep
      = some (Sweep.mk (some (.poll 15 true false)) [])
    ∧ (∀ cut disc rest, (moving base).yarn.sweep ≠ some (Sweep.mk (some (.poll 15 cut disc)) rest))
    ∧ ((moving base).feeder 5).carried = false := by
  have e : (moving base).feeder 5 = .undeclared := by decide
  refine ⟨⟨latchLaw_moving, by decide, by decide +kernel, by decide +kernel⟩, ?_, ?_, by decide +kernel, rfl, ?_,
    by decide⟩
  · rw [e]; exact nofun
  · rw [e]; exact nofun
  · exact nofun

theorem test_premises_FeedersLeaveTheCarriedStates_marks :
    (moving base).queue.records = []
    ∧ (let s := moving (passing (takingRecord .active) 5);
      s.queue.records = [takingRecord .active] ∧ (s.latch 1).state.outstanding = true ∧ (s.latch 3).state.outstanding = true
      ∧ (s.latch 0).state.outstanding = false
      ∧ (s.resolveAll.queue.records.map fun r => r.entries.map fun e => e.actions.map MarkedAction.mark)
        = [[[.otherwise, .notReached], [.asPlanned, .otherwise], [.otherwise, .notReached]]]) := by
  and_intros <;> decide

theorem test_premises_DeclareAndForgetFeeder :
    base.listening ∧ base.link.rx.busy = false ∧ 15 < (16 : Byte).toNat ∧ 7 < (8 : Byte).toNat
    ∧ (15 : Byte).toNat ≤ 15 ∧ (7 : Byte).toNat ≤ 7 ∧ (queued [bare .queued] .held 0).queue.records ≠ []
    ∧ (base.queue.records = [] ∧ ((fed base 15 (.coupled 0 0)).feeder (15 : Byte).toNat).carried = true)
    ∧ ((base.feeder (15 : Byte).toNat).carried = false ∧ ((0xFF : Byte) ++ (0xEF : Byte)).toInt < base.fieldLow
      ∧ base.fieldHigh < ((2 : Byte) ++ (0x10 : Byte)).toInt)
    ∧ (base.fieldLow ≤ ((0xFF : Byte) ++ (0xF0 : Byte)).toInt ∧ ((2 : Byte) ++ (0x0F : Byte)).toInt ≤ base.fieldHigh)
    ∧ (∃ g < 16, g ≠ (15 : Byte).toNat ∧ (fed base 3 (.parked 7 527)).feeder g = .parked (7 : Byte).toNat 527)
    ∧ ∀ g < 16, g ≠ (15 : Byte).toNat → base.feeder g ≠ .parked (7 : Byte).toNat 527 := by
  unfold State.listening
  and_intros <;> decide

theorem test_premises_CoupleSenseEdges :
    base.sense (3 : Fin 4) ≠ true ∧ base.sense (0 : Fin 4) = false
    ∧ (base.putSetting 1 3).systems ≤ (3 : Fin 4) ∧ (base.latch (3 : Fin 4)).state = .opened
    ∧ (let s := filled (moving base) 127;
      (s.latch (1 : Fin 4)).state = .closing 0 (-10) ∧ (1 : Fin 4) < s.systems ∧ s.sense (1 : Fin 4) ≠ true ∧ s.room 1)
    ∧ (let s := moving { base with feeders := { base.feeders with senses := Vector.replicate 4 true } };
      (s.latch (3 : Fin 4)).state = .opening 15 ∧ s.feeder 15 = .releasing 7 (3 : Fin 4) 527 ∧ (3 : Fin 4) < s.systems
      ∧ s.sense (3 : Fin 4) ≠ false ∧ s.sense (1 : Fin 4) ≠ false ∧ (s.latch (1 : Fin 4)).state = .closing 0 (-10) ∧ s.room 1)
    ∧ (let c := fun s : State => latched (fed { s with feeders := { s.feeders with senses := Vector.replicate 4 true } } 2
        (.coupled 0 3)) 3 (.closed 2);
      ((c base).latch (3 : Fin 4)).state = .closed 2 ∧ (c base).sense (3 : Fin 4) ≠ false ∧ (c base).engine.pass = none
      ∧ (c base).queue.records = [] ∧ (c (passing (bare .active) 5)).engine.pass ≠ none
      ∧ (c (queued [bare .queued] .held 0)).queue.records ≠ []
      ∧ (let s := c (queued [bare .queued] .held 0);
        let t : State := { s with queue := { s.queue with proj := s.feeders.project } };
        t.queue.proj.feeder 2 = .coupled 0 (3 : Fin 4)))
    ∧ (∀ rail, (queued [bare .queued] .held 0).queue.proj.feeder 2 ≠ .coupled rail (3 : Fin 4)) := by
  unfold State.room
  have e : (queued [bare .queued] .held 0).queue.proj.feeder 2 = .undeclared := by decide
  and_intros
  all_goals first
    | decide
    | rw [e]
      exact nofun

theorem test_premises_CoupleSenseEdges_settled :
    (let s := passing (bare .finishing) 5;
      s.engine.pass ≠ none ∧ s.queue.records = [bare .finishing] ∧ (bare .finishing).state = .finishing
      ∧ ∀ i < 4, (s.latch i).state.outstanding = false)
    ∧ base.engine.pass = none
    ∧ ((passing (bare .active) 5).queue.records = [bare .active] ∧ (bare .active).state ≠ .finishing)
    ∧ ((moving (passing (bare .finishing) 5)).latch 3).state.outstanding = true := by
  and_intros <;> decide

theorem test_premises_CountdownExpiryFaults :
    ((moving base).latch (1 : Fin 4)).state = .closing 0 (-10) ∧ ((moving base).latch (3 : Fin 4)).state = .opening 15
    ∧ (moving base).engine.pass = none
    ∧ (∀ f pos, (base.latch (3 : Fin 4)).state ≠ .closing f pos) ∧ (∀ f, (base.latch (3 : Fin 4)).state ≠ .opening f)
    ∧ (let s := filled (moving (passing (bare .active) 5)) 125;
      s.LatchLaw ∧ s.engine.pass = some (Pass.mk .rightward 0 5 none) ∧ s.queue.records = [bare .active] ∧ s.room 3
      ∧ (s.latch (1 : Fin 4)).state = .closing 0 (-10) ∧ (s.latch (3 : Fin 4)).state = .opening 15
      ∧ s.feeder 15 = .releasing 7 (3 : Fin 4) 527 ∧ (s.latch 0).state.outstanding = false
      ∧ (∀ rail j, s.feeder 5 ≠ .taking rail j) ∧ (∀ rail j x, s.feeder 5 ≠ .releasing rail j x)
      ∧ (s.monitor.record .feederMissed).latched = none) := by
  have e : (base.latch (3 : Fin 4)).state = .opened := by decide
  have u : (filled (moving (passing (bare .active) 5)) 125).feeder 5 = .undeclared := by decide +kernel
  refine ⟨by decide, by decide +kernel, by decide +kernel, ?_, ?_,
    latchLaw_of_bounded _ (by decide) (by decide +kernel) (by decide +kernel), rfl, rfl, by unfold State.room; decide +kernel,
    by decide +kernel, by decide +kernel, by decide +kernel, by decide +kernel, ?_, ?_, by decide +kernel⟩
  · rw [e]; exact nofun
  · rw [e]; exact nofun
  · rw [u]; exact nofun
  · rw [u]; exact nofun

theorem test_premises_FeederActionsAreReached :
    (let s := fed (passing (withEntry (SystemEntry.mk 1 .knit none none [MarkedAction.mk (.take 0) .notReached]) .active) 19) 0
        (.parked 0 (-10));
      s.nextAction 1 = some (.take 0) ∧ s.feeder 0 = .parked 0 (-10) ∧ s.latchPoint 1 19 ≠ -10 ∧ s.latchPoint 1 20 = -10
      ∧ s.sense 1 = false ∧ (s.latch 1).state = .opened ∧ ((latched s 1 (.closed 3)).latch 1).state ≠ .opened)
    ∧ ({ base with feeders := { base.feeders with senses := Vector.replicate 4 true } } : State).sense 1 = true
    ∧ (let s := latched (fed (passing (withEntry (SystemEntry.mk 1 .knit none none [MarkedAction.mk (.release 0 520) .notReached])
          .active) 549) 0 (.coupled 0 1)) 1 (.closed 0);
      s.nextAction 1 = some (.release 0 520) ∧ s.latchPoint 1 549 ≠ 520 ∧ s.latchPoint 1 550 = 520
      ∧ (s.latch 1).state = .closed 0 ∧ (base.latch 1).state ≠ .closed 0)
    ∧ base.nextAction 1 = none
    ∧ (let s := moving (passing (bare .active) 5);
      (s.latch 0).state.outstanding = false ∧ (s.latch 1).state.outstanding = true ∧ 1 < (s.latch 1).countdown
      ∧ s.systems ≤ 4 ∧ (∀ i < s.systems, (s.latch i).state.outstanding = true → 1 < (s.latch i).countdown)
      ∧ ((List.range s.systems).foldl State.countdownStep (s, none)).2 = none ∧ s.countdowns.engine.pass ≠ none)
    ∧ (let s := (moving (passing (bare .active) 5)).putLatch 3 (Latch.mk (.opening 15) 1);
      (s.latch 3).state = .opening 15 ∧ (s.latch 3).countdown ≤ 1
      ∧ ((List.range s.systems).foldl State.countdownStep (s, none)).2 = some .feederStuck ∧ s.countdowns.engine.pass = none)
    ∧ (let s := (moving (passing (bare .active) 5)).putLatch 1 (Latch.mk (.closing 0 (-10)) 1);
      (s.latch 1).state = .closing 0 (-10) ∧ (s.latch 1).countdown ≤ 1) := by
  and_intros <;> decide

theorem test_premises_FeederActionsAreReached_marks :
    base.queue.records = []
    ∧ (passing (takingRecord .active) 5).queue.records = [takingRecord .active]
    ∧ (∀ e ∈ (takingRecord .active).entries, e.system ≠ 2)
    ∧ (let l := (takingRecord .active).entries;
      l = [l.getD 0 sender] ++ l.getD 1 sender :: [l.getD 2 sender] ∧ (l.getD 1 sender).system = 3
      ∧ (∀ c ∈ [l.getD 0 sender], c.system ≠ 3) ∧ (∀ a ∈ (l.getD 1 sender).actions, a.mark ≠ .notReached)
      ∧ (l.getD 0 sender).actions = [MarkedAction.mk (.take 0) .pending] ++ MarkedAction.mk (.release 0 520) .notReached :: []
      ∧ (∀ b ∈ [MarkedAction.mk (.take 0) .pending], b.mark ≠ .notReached))
    ∧ (passing (takingRecord .active) 5).nextAction 1 = some (.release 0 520)
    ∧ (passing (takingRecord .active) 5).nextAction 3 = none ∧ (passing (takingRecord .active) 5).nextAction 2 = none := by
  and_intros <;> decide

/-- No feeder is PARKED. -/
theorem parkedLaw_of_none (s : State) (h : ∀ f < 16, (match s.feeder f with
    | .parked _ _ => false
    | .undeclared | .taking _ _ | .coupled _ _ | .releasing _ _ _ | .faulted _ => true) = true) : s.parkedLaw := by
  intro f g rail x hf _
  by_cases h16 : f < 16
  · have := h f h16
    rw [hf] at this
    cases this
  · rw [State.feeder_past s h16] at hf
    cases hf

theorem test_premises_LatchLawIsKept :
    ((moving base).LatchLaw ∧ (moving base).engine.pass = none)
    ∧ ((moving (passing (bare .active) 5)).LatchLaw ∧ (moving (passing (bare .active) 5)).systems ≤ 4
      ∧ ∀ l, Instr.illegalTransition ≠ .countTransition l)
    ∧ (∃ t, exec .illegalTransition (moving base) = .next t)
    ∧ ((fed base 3 (.parked 2 5)).LatchLaw ∧ ((fed base 3 (.parked 2 5)).latch 3).state = .opened
      ∧ (fed base 3 (.parked 2 5)).feeder 3 = .parked 2 5)
    ∧ ((latched (fed base 3 (.coupled 2 0)) 0 (.closed 3)).LatchLaw
      ∧ ((latched (fed base 3 (.coupled 2 0)) 0 (.closed 3)).latch 0).state = .closed 3)
    ∧ ((moving (passing (bare .active) 5)).FeederLaw ∧ ∃ t, step (moving (passing (bare .active) 5)) = .next t)
    ∧ (base.FeederLaw ∧ base.engine.pass = none ∧ base.parkedLaw ∧ ∃ t, exec .homeMarkEdge base = .next t)
    ∧ (holding.systems ≤ 4 ∧ (∀ i, holding.systems ≤ i → holding.queue.proj.holder i = none) ∧ holding.queue.proj.holderLaw
      ∧ holding.queue.proj.RailLaw ∧ holding.admission (withEntry (SystemEntry.mk 3 .knit none none
        [MarkedAction.mk (.release 15 527) .notReached]) .queued) = none)
    ∧ (base.PlanLaw ∧ base.queue.records = [] ∧ base.queue.proj = base.feeders.project
      ∧ ∃ t, exec .homeMarkEdge base = .next t ∧ t.queue.records = [] ∧ t.engine.passCounter = base.engine.passCounter) := by
  have law : ∀ s : State, s.systems ≤ 4 → s.LatchLaw → (s.engine.pass = none → s.latchOutstanding = false) → s.FeederLaw :=
    fun s h1 h2 h3 => ⟨h2, h1, h3⟩
  have held : ∀ f, f ≠ 15 → heldProjection.feeder f = .undeclared := by
    intro f hf
    show (base.queue.proj.feeders.setIfInBounds 15 (ProjFeeder.coupled 7 3)).getD f .undeclared = _
    rw [getD_setIfInBounds, if_neg (by omega)]
    exact getD_replicate _ _
  refine ⟨⟨latchLaw_moving, rfl⟩,
    ⟨latchLaw_of_bounded _ (by decide) (by decide +kernel) (by decide +kernel), by decide, nofun⟩, ⟨_, rfl⟩,
    ⟨latchLaw_of_bounded _ (by decide) (by decide +kernel) (by decide +kernel), by decide +kernel, by decide +kernel⟩,
    ⟨latchLaw_of_bounded _ (by decide) (by decide +kernel) (by decide +kernel), by decide +kernel⟩,
    ⟨law _ (by decide) (latchLaw_of_bounded _ (by decide) (by decide +kernel) (by decide +kernel)) nofun, ⟨_, rfl⟩⟩,
    ⟨law _ (by decide) (latchLaw_of_bounded _ (by decide) (by decide) (by decide)) (fun _ => by decide), rfl,
      parkedLaw_of_none _ (by decide), ⟨_, rfl⟩⟩,
    ⟨by decide, fun i hi => ?_, holderLaw_held, ⟨fun f g rail i j hf hg => ?_, fun f g rail x hf _ => ?_⟩, by decide⟩,
    ⟨(planLaw_iff _).2 (by constructor <;> decide), rfl, by decide, _, rfl, by decide, by decide⟩⟩
  · have h4 : holding.systems = 4 := by decide
    exact getD_past _ _ (by omega)
  · by_cases h1 : f = 15
    · by_cases h2 : g = 15
      · rw [h1, h2]
      · exact absurd (hg.symm.trans (held g h2)) nofun
    · exact absurd (hf.symm.trans (held f h1)) nofun
  · by_cases h1 : f = 15
    · have e : heldProjection.feeder f = .coupled 7 3 := by rw [h1]; decide
      exact absurd (hf.symm.trans e) nofun
    · exact absurd (hf.symm.trans (held f h1)) nofun

/-! ### The yarn monitor -/

theorem test_premises_SweepRunsOverCarriedFeeders :
    (swept base (Sweep.mk none [0])).yarn.sweep ≠ none
    ∧ (base.yarn.sweep = none ∧ ({ base.yarn with pendingWrite := some (HeadWrite.mk 1 0 0) } : YarnMonitor).pendingWrite ≠ none)
    ∧ (base.yarn.pendingWrite = none ∧ base.carriedFeeders = []) ∧ (moving base).carriedFeeders ≠ []
    ∧ (let s := swept (moving base) (Sweep.mk none ([4] ++ 15 :: []));
      s.yarn.sweep = some (Sweep.mk none ([4] ++ 15 :: [])) ∧ (∀ g ∈ [4], (s.feeder g).carried = false)
      ∧ (s.feeder 15).carried = true)
    ∧ (let s := swept base (Sweep.mk none [4]); ∀ g ∈ [4], (s.feeder g).carried = false) := by
  and_intros <;> decide

theorem test_premises_PollsDriveSilentAndStillRuns :
    (let s := swept (moving base) (Sweep.mk (some (.poll 15 true false)) []);
      s.yarn.sweep = some (Sweep.mk (some (.poll 15 true false)) []) ∧ (s.head 15).silentRun + 1 < s.silentLimit
      ∧ (s.feeder 15).carried = true ∧ s.stopSweeps ≠ 0 ∧ (s.head 15).stillRun + 1 < s.stopSweeps ∧ s.engine.pass = none)
    ∧ (let s := headed base 15 { HeadRecord.initial with silentRun := 2, stillRun := 19 };
      (s.head 15).silentRun + 1 = s.silentLimit ∧ (s.head 15).stillRun + 1 = s.stopSweeps)
    ∧ (let s := headed base 15 { HeadRecord.initial with silentRun := 3, stillRun := 20 };
      (s.head 15).silentRun = s.silentLimit ∧ (s.head 15).stillRun = s.stopSweeps ∧ (s.head 15).stillRun ≤ s.stopSweeps)
    ∧ (1 : BitVec 8) ≠ 0 := by
  and_intros <;> decide

/-- Feeder f's poll on the bus, whose next still outcome makes the still run reach STOP_SWEEPS. -/
def stilled (f : Nat) (s : State) : State :=
  swept (headed s f { HeadRecord.initial with stillRun := 19 }) (Sweep.mk (some (.poll f true false)) [])

theorem latchLaw_stilled (f : Nat) (s : State) (h : s.LatchLaw) : (stilled f s).LatchLaw := h.same rfl

/-- A YARN_STOP in a pass: of a feeder that stays COUPLED, of one on its way on, whose latch the abort resolves, and of one on its
way off. -/
theorem test_premises_PollsDriveSilentAndStillRuns_stops :
    (let s := stilled 2 (latched (fed (passing (bare .active) 5) 2 (.coupled 0 0)) 0 (.closed 2));
      s.LatchLaw ∧ s.yarn.sweep = some (Sweep.mk (some (.poll 2 true false)) []) ∧ s.engine.pass ≠ none
      ∧ s.inStopRoute .yarnStop = true ∧ s.feeder 2 = .coupled 0 0 ∧ (s.feeder 2).carried = true
      ∧ (s.head 2).stillRun + 1 = s.stopSweeps ∧ ((s.raise (.yarnStop 3)).feeder 2).carried = true)
    ∧ (let s := stilled 0 (moving (passing (takingRecord .active) 5));
      s.LatchLaw ∧ s.feeder 0 = .taking 0 1 ∧ (s.feeder 0).carried = true ∧ (s.head 0).stillRun + 1 = s.stopSweeps
      ∧ s.inStopRoute .yarnStop = true ∧ ((s.raise (.yarnStop 1)).feeder 0).carried = false)
    ∧ (let s := stilled 15 (moving (passing (takingRecord .active) 5));
      s.LatchLaw ∧ s.feeder 15 = .releasing 7 3 527 ∧ (s.head 15).stillRun + 1 = s.stopSweeps
      ∧ s.inStopRoute .yarnStop = true ∧ ((s.raise (.yarnStop 16)).feeder 15).carried = false)
    ∧ (let s := (stilled 15 (filled (moving (passing (takingRecord .active) 5)) 127)).putSetting 28 0;
      s.engine.pass ≠ none ∧ s.inStopRoute .yarnStop = false ∧ s.room 1 ∧ (s.head 15).stillRun + 1 = s.stopSweeps)
    ∧ (stilled 15 (moving base)).engine.pass = none := by
  have coupled : (latched (fed (passing (bare .active) 5) 2 (.coupled 0 0)) 0 (.closed 2)).LatchLaw :=
    latchLaw_of_bounded _ (by decide) (by decide +kernel) (by decide +kernel)
  have moved : (moving (passing (takingRecord .active) 5)).LatchLaw :=
    latchLaw_of_bounded _ (by decide) (by decide +kernel) (by decide +kernel)
  unfold State.room
  and_intros
  all_goals first
    | exact latchLaw_stilled _ _ coupled
    | exact latchLaw_stilled _ _ moved
    | decide +kernel

theorem test_premises_TensionDrivesTheSpike :
    (base.knotLevel < 601 ∧ 600 ≤ base.knotLevel)
    ∧ (∀ p ∈ [Spike.calm, .rising 1, .rising 2, .settling 1, .settling 2, .snagged],
      ((headed base 15 { HeadRecord.initial with spike := p }).head 15).spike = p)
    ∧ (1 + 1 ≤ base.shockSweeps ∧ base.shockSweeps < 2 + 1)
    ∧ (1 < base.quietSweeps ∧ 1 + 1 < base.quietSweeps ∧ base.quietSweeps ≤ 2 + 1)
    ∧ (base.putSetting 23 1).quietSweeps ≤ 1 := by
  and_intros <;> decide

theorem test_premises_HeadWriteIsHeldUntilItsEnd :
    base.listening ∧ (0 : Byte).toNat < 1 ∧ 16 < (17 : Byte).toNat ∧ 15 < (16 : Byte).toNat
    ∧ 1023 < (0 : Byte).toNat + 256 * (4 : Byte).toNat
    ∧ (¬ ((16 : Byte).toNat < 1 ∨ 16 < (16 : Byte).toNat ∨ 15 < (15 : Byte).toNat
      ∨ 1023 < (0xFF : Byte).toNat + 256 * (3 : Byte).toNat)) ∧ base.yarn.pendingWrite = none
    ∧ (let s : State := swept { base with yarn := { base.yarn with pendingWrite := some (HeadWrite.mk 16 15 1023) } }
        (Sweep.mk (some .write) []);
      s.yarn.pendingWrite ≠ none ∧ s.yarn.sweep = some (Sweep.mk (some .write) [])
      ∧ s.yarn.pendingWrite = some (HeadWrite.mk 16 15 1023) ∧ s.room 1) := by
  unfold State.listening State.room
  and_intros <;> decide

/-! ### Laws and encodings -/

theorem test_premises_CarriageEventsLeaveTheRest :
    (∃ t, exec (.countTransition .a) (passing (bare .active) 5) = .next t) ∧ (∃ t, exec .illegalTransition base = .next t)
    ∧ (∃ t, exec .homeMarkEdge base = .next t) ∧ (∃ t, exec .stallTimerExpiry (passing (bare .finishing) 5) = .next t)
    ∧ (∃ t, exec (.takeCountdownExpiry 1) (moving base) = .next t)
    ∧ ∃ t, exec (.pollEnd (.good 0 0)) (swept (moving base) (Sweep.mk (some (.poll 15 true false)) [])) = .next t :=
  ⟨⟨_, rfl⟩, ⟨_, rfl⟩, ⟨_, rfl⟩, ⟨_, rfl⟩, ⟨_, rfl⟩, ⟨_, rfl⟩⟩

theorem test_premises_StepKeepsTheCapacities :
    (∃ t, step (filled base 128) = .next t) ∧ (filled base 128).eventLaw
    ∧ (lined base 0 (.opened (LineData.mk (List.replicate 24576 .miss) 0 0))).storeLaw := by
  refine ⟨⟨_, rfl⟩, ?_, ?_⟩
  · unfold State.eventLaw
    decide
  · unfold State.storeLaw
    rw [cellCount_lined]

/-- A pass in progress with a record waiting behind it, which obeys the laws of the plan. -/
theorem test_premises_StepKeepsThePlanLaw :
    (let s := passing (bare .active) 5;
      let t : State := { s with queue := { s.queue with records := [bare .active, bare .queued] } };
      t.PlanLaw ∧ ∃ u, step t = .next u) := by
  refine ⟨(planLaw_iff _).2 ?_, ⟨_, rfl⟩⟩
  constructor
  all_goals decide

/-- A queued record whose one channel names line 0, whose count is 1. -/
theorem test_premises_StepKeepsTheReferenceLaw :
    (let s := lined (queued [withEntry (SystemEntry.mk 0 .knit (some (Channel.mk 0 0 1 0 .tile .miss)) none []) .queued] .held 0)
        0 (.sealed (LineData.mk [.knit] 1 1) [.knit] 1);
      s.referenceLaw ∧ ∃ u, step s = .next u) := by
  refine ⟨fun id => ?_, ⟨_, rfl⟩⟩
  cases id with
  | zero => decide
  | succ n =>
    have e : ∀ l, (lined (queued [withEntry (SystemEntry.mk 0 .knit (some (Channel.mk 0 0 1 0 .tile .miss)) none []) .queued]
        .held 0) 0 l).line (n + 1) = .free := by
      intro l
      show (base.store.setIfInBounds 0 l).getD (n + 1) .free = .free
      rw [getD_setIfInBounds, if_neg (by omega)]
      exact getD_replicate _ _
    rw [e]
    simp [Line.refs, State.namesOf, lined, queued, withEntry, PassRecord.channels]

theorem test_premises_WriteLineBodyReadsBack :
    (let w := WriteRequest.mk 255 (some 65534) 5 [.send, .knit, .tuck, .miss, .send];
      w.id < 256 ∧ 65534 < 65535 ∧ w.count < 65536 ∧ w.codes.length = w.count
      ∧ encodeWriteLine w = [255, 0xFE, 0xFF, 5, 0, 0x1B, 3]) := by decide

theorem test_premises_QueuePassBodyReadsBack :
    (let r := PassRecord.mk 0x1234 .leftward .onGo true (-128) [SystemEntry.mk 3 .xfer none
          (some (Channel.mk 63 65535 65535 65535 .span .send))
          [MarkedAction.mk (.take 127) .notReached, MarkedAction.mk (.release 127 (-32768)) .notReached]] .queued;
      r.state = .queued ∧ r.entries.length ≤ 4 ∧ -128 ≤ r.racking ∧ r.racking ≤ 127
      ∧ (∀ c ∈ r.channels, c.line < 256 ∧ c.start < 65536 ∧ c.width < 65536 ∧ c.offset < 65536)
      ∧ (∀ e ∈ r.entries, e.system < 256 ∧ e.actions.length ≤ 2)
      ∧ encodeQueuePass r = [0x34, 0x12, 7, 0x80, 1, 3, 1, 0x0A, 63, 0xFF, 0xFF, 0xFF, 0xFF, 0xFF, 0xFF, 0x0D,
        0x7F, 0, 0, 0xFF, 0, 0x80]) := by
  and_intros <;> decide

end Sys2Proof.Tests
end

/-! SUPPORT. The position tracker's raises: what a raise, a slip, the entry into LOST and a position jump do to the tracker, the
conditions, the pass and the event queue, and the deviation of a count from the nearest mark (R2, R11, R12, R14). -/

namespace Sys2Proof.Machine

/-! ### Raises and aborts -/

theorem State.raise_count (s : State) (d : Detail) : (s.raise d).tracker.count = s.tracker.count := (RunFrame.raise s d).count

theorem State.raise_position (s : State) (d : Detail) : (s.raise d).tracker.position = s.tracker.position :=
  (RunFrame.raise s d).position

/-- A latched flag stays set through the operations of a pass. -/
theorem RunFrame.latched {s t : State} (h : RunFrame s t) {c : Cond} (l : s.latched c = true) : t.latched c = true := by
  obtain ⟨d, hd⟩ := Option.isSome_iff_exists.mp l
  exact Option.isSome_iff_exists.mpr ⟨d, h.monitor.latched hd⟩

/-- A captured flag stays set through the operations of a pass. -/
theorem RunFrame.captured {s t : State} (h : RunFrame s t) {c : Cond} (l : s.captured c = true) : t.captured c = true :=
  h.monitor.captured l

/-- R150: a raise latches its condition, whatever abort it hands over. -/
theorem State.raise_latched (s : State) (d : Detail) : (s.raise d).latched d.cond = true := by
  have noted : (s.noteRaise d).latched d.cond = true := by
    simp [State.latched, State.noteRaise, ConditionMonitor.noteRaise_record]
  exact (RunFrame.abortFor _ _).latched noted

/-- R150: a raise captures its condition, whatever abort it hands over. -/
theorem State.raise_captured (s : State) (d : Detail) : (s.raise d).captured d.cond = true :=
  (RunFrame.abortFor _ _).captured (s.monitor.noteRaise_captured d)

/-- R96, R99: after an abort there is no pass. -/
theorem State.abortPass_pass (s : State) (r : AbortReason) : (s.abortPass r).engine.pass = none := by
  cases h : s.engine.pass with
  | none => rw [State.abortPass_noPass h, h]
  | some p => rw [State.abortPass_eq s r p h]

/-- R150, R163: the entry of a raise whose flag is clear, with room. -/
theorem State.noteRaise_events_clear {s : State} {d : Detail} (h : s.latched d.cond = false) (r : s.room 1) :
    (s.noteRaise d).monitor.events = s.monitor.events ++ [s.entry (.condition d)] := by
  have clear : (s.monitor.record d.cond).latched.isSome = false := h
  rw [State.noteRaise, State.setMonitor_monitor, ConditionMonitor.noteRaise_events, clear, State.full_of_room r]
  rfl

/-- A raise takes no time, so the entries after it carry the timestamp of those before it. -/
theorem State.entry_noteRaise (s : State) (d : Detail) (e : Event) : (s.noteRaise d).entry e = s.entry e :=
  congrArg (EventEntry.mk · e) (s.monitor.noteRaise_clock d).1

/-! ### The entry into LOST (R14) -/

theorem State.enterLost_frame (s : State) (c : LostCause) :
    RunFrame (s.setTracker { s.tracker with position := .lost, markWindow := none }) (s.enterLost c) := RunFrame.raise _ _

theorem State.enterLost_position (s : State) (c : LostCause) : (s.enterLost c).tracker.position = .lost :=
  (s.enterLost_frame c).position

theorem State.enterLost_markWindow (s : State) (c : LostCause) : (s.enterLost c).tracker.markWindow = none :=
  (s.enterLost_frame c).markWindow

theorem State.enterLost_count (s : State) (c : LostCause) : (s.enterLost c).tracker.count = s.tracker.count :=
  (s.enterLost_frame c).count

/-- In LOST, POS_LOST is live. -/
theorem State.live_posLost {s : State} (h : s.tracker.position = .lost) : s.live .posLost = true := by
  simp [State.live, h]

/-- In LOST the READY line is low (R190). -/
theorem State.readyLine_lost {s : State} (h : s.tracker.position = .lost) : s.readyLine = false := by
  simp [State.readyLine, h, PosState.valid]

/-- R95: POS_LOST is pass-fatal, so the entry into LOST ends a pass. -/
theorem State.enterLost_pass (s : State) (c : LostCause) : (s.enterLost c).engine.pass = none := State.abortPass_pass _ .posLost

/-- With no pass, room for its entry and its flag clear, the entry into LOST appends POS_LOST and nothing else. -/
theorem State.enterLost_events {s : State} (c : LostCause) (hp : s.engine.pass = none) (h : s.latched .posLost = false)
    (r : s.room 1) : (s.enterLost c).monitor.events = s.monitor.events ++ [s.entry (.condition (.posLost c))] := by
  unfold State.enterLost
  rw [State.raise_noPass]
  · exact State.noteRaise_events_clear h r
  · exact hp

/-! ### Position jumps (R2) -/

/-- R2: outside REFERENCED and DOUBTFUL an illegal transition only takes the new levels. -/
theorem State.positionJump_invalid {s : State} (h : s.tracker.position.valid = false) : s.positionJump = s := by
  simp [State.positionJump, h]

/-- R2, R14: in REFERENCED and DOUBTFUL POS_JUMP is raised and then the tracker enters LOST. -/
theorem State.positionJump_valid {s : State} (h : s.tracker.position.valid = true) :
    s.positionJump = (s.raise (.posJump s.tracker.position)).enterLost .jump := by
  simp [State.positionJump, h]

/-- The tracker after a raise and the entry into LOST. -/
theorem State.raise_enterLost_tracker (s : State) (d : Detail) (c : LostCause) :
    ((s.raise d).enterLost c).tracker.count = s.tracker.count ∧ ((s.raise d).enterLost c).tracker.encA = s.tracker.encA
      ∧ ((s.raise d).enterLost c).tracker.encB = s.tracker.encB := by
  have raised := RunFrame.raise s d
  have lost := (s.raise d).enterLost_frame c
  exact ⟨lost.count.trans raised.count, lost.encA.trans raised.encA, lost.encB.trans raised.encB⟩

/-- The flags after a raise and the entry into LOST: those of the raise stand, and those of POS_LOST are set. -/
theorem State.raise_enterLost_flags (s : State) (d : Detail) (c : LostCause) :
    let t := (s.raise d).enterLost c
    t.latched d.cond = true ∧ t.captured d.cond = true ∧ t.latched .posLost = true ∧ t.captured .posLost = true :=
  have lost := (s.raise d).enterLost_frame c
  ⟨lost.latched (s.raise_latched d), lost.captured (s.raise_captured d), State.raise_latched _ (.posLost c),
    State.raise_captured _ (.posLost c)⟩

/-- With no pass and room for both, a position jump appends POS_JUMP and then POS_LOST, with one timestamp. -/
theorem State.raise_posJump_enterLost_events {s : State} (p : PosState) (c : LostCause) (hp : s.engine.pass = none)
    (hj : s.latched .posJump = false) (hl : s.latched .posLost = false) (r : s.room 2) :
    ((s.raise (.posJump p)).enterLost c).monitor.events
      = s.monitor.events ++ [s.entry (.condition (.posJump p)), s.entry (.condition (.posLost c))] := by
  have r1 : s.room 1 := by unfold State.room at r ⊢; omega
  have events : (s.noteRaise (.posJump p)).monitor.events = s.monitor.events ++ [s.entry (.condition (.posJump p))] :=
    State.noteRaise_events_clear hj r1
  have clear : (s.noteRaise (.posJump p)).latched .posLost = false := by
    have same : (s.noteRaise (.posJump p)).monitor.record .posLost = s.monitor.record .posLost :=
      ConditionMonitor.noteRaise_record_ne _ _ Cond.noConfusion Cond.noConfusion
    unfold State.latched
    rw [same]
    exact hl
  have room : (s.noteRaise (.posJump p)).room 1 := by
    unfold State.room at r ⊢
    rw [events, List.length_append, List.length_singleton]
    omega
  rw [State.raise_noPass hp, State.enterLost_events (s := s.noteRaise (.posJump p)) c hp clear room, events,
    State.entry_noteRaise, List.append_assoc, List.singleton_append]

/-! ### The transitions that jump (R2) -/

theorem exec_illegalTransition (s : State) :
    exec .illegalTransition s = .next (s.setLevels (!s.tracker.encA) (!s.tracker.encB)).positionJump := rfl

theorem exec_countTransition (line : EncLine) (s : State) : exec (.countTransition line) s = execCountTransition line s := rfl

/-- R2: a transition of line A beyond the range of the count is taken as an illegal one. -/
theorem exec_countTransition_a_beyond {s : State}
    (h : countInRange (s.tracker.count + (s.tracker.direction .a).sign) = false) :
    exec (.countTransition .a) s = .next (s.setLevels (!s.tracker.encA) s.tracker.encB).positionJump := by
  simp [exec_countTransition, execCountTransition, h]

/-- R2: a transition of line B beyond the range of the count is taken as an illegal one. -/
theorem exec_countTransition_b_beyond {s : State}
    (h : countInRange (s.tracker.count + (s.tracker.direction .b).sign) = false) :
    exec (.countTransition .b) s = .next (s.setLevels s.tracker.encA (!s.tracker.encB)).positionJump := by
  simp [exec_countTransition, execCountTransition, h]

/-! ### Needle marks (R11) -/

/-- R11: the deviation is the remainder of the count, taken down by a pitch beyond the halfway point. -/
theorem State.markDeviation_eq (s : State) (c : Int) : s.markDeviation c =
    if 2 * (c % s.markPitch) ≤ s.markPitch then c % s.markPitch else c % s.markPitch - s.markPitch := by
  unfold State.markDeviation State.nearestMark
  dsimp only
  rw [Int.emod_def]
  split <;> ring

/-- R11: a deviation lies within half a pitch, and at exactly half a pitch it is the upper bound. -/
theorem State.markDeviation_bounds {s : State} (h : 0 < s.markPitch) (c : Int) :
    -s.markPitch < 2 * s.markDeviation c ∧ 2 * s.markDeviation c ≤ s.markPitch := by
  have low := Int.emod_nonneg c h.ne'
  have high := Int.emod_lt_of_pos c h
  rw [State.markDeviation_eq]
  split <;> omega

/-- A count less its deviation is the count of a mark. -/
theorem State.sub_markDeviation_emod (s : State) (c : Int) : (c - s.markDeviation c) % s.markPitch = 0 := by
  unfold State.markDeviation
  rw [sub_sub_cancel, Int.mul_emod_left]

theorem State.withinWindow_iff (s : State) (d : Int) :
    s.withinWindow d = true ↔ -s.markWindowWidth ≤ d ∧ d ≤ s.markWindowWidth := by
  simp [State.withinWindow]

/-- A good mark leaves a valid tracker in REFERENCED. -/
theorem PosState.good_of_valid {p : PosState} (h : p.valid = true) : p.good = .referenced := by
  cases p with
  | referenced | doubtful => rfl
  | unreferenced | seeking | lost => cases h

theorem exec_needleMarkEdge (s : State) : exec .needleMarkEdge s = execNeedleMarkEdge s := rfl

/-- R11: an edge within the window is a good mark and satisfies the mark window. -/
theorem exec_needleMarkEdge_good {s : State} (h : s.tracker.position.valid = true)
    (w : s.withinWindow (s.markDeviation s.tracker.count) = true) :
    exec .needleMarkEdge s = .next (s.setTracker { s.tracker with
      position := .referenced
      markWindow := s.tracker.markWindow.map fun w => { w with satisfied := true } }) := by
  simp [exec_needleMarkEdge, execNeedleMarkEdge, State.goodMark, State.satisfyWindow, h, w, PosState.good_of_valid h]

/-- R11: an edge outside the window is a slip. -/
theorem exec_needleMarkEdge_slip {s : State} (h : s.tracker.position.valid = true)
    (w : s.withinWindow (s.markDeviation s.tracker.count) = false) :
    exec .needleMarkEdge s = .next (s.slip (.needle (s.markDeviation s.tracker.count))) := by
  simp [exec_needleMarkEdge, execNeedleMarkEdge, h, w]

/-- R11: with no valid position an edge is ignored. -/
theorem exec_needleMarkEdge_ignored {s : State} (h : s.tracker.position.valid = false) : exec .needleMarkEdge s = .next s := by
  simp [exec_needleMarkEdge, execNeedleMarkEdge, h]

/-! ### Slips (R12) -/

/-- R12: the first slip takes REFERENCED to DOUBTFUL. -/
theorem State.slip_referenced {s : State} (src : SlipSource) (h : s.tracker.position = .referenced) :
    s.slip src = (s.raise (.markSlip src)).setTracker { (s.raise (.markSlip src)).tracker with position := .doubtful } := by
  simp [State.slip, State.raise_position, h]

/-- R12, R14: a slip in DOUBTFUL loses the position. -/
theorem State.slip_doubtful {s : State} (src : SlipSource) (h : s.tracker.position = .doubtful) :
    s.slip src = (s.raise (.markSlip src)).enterLost .slip := by
  simp [State.slip, State.raise_position, h]

/-- A slip leaves the count, in every position state. -/
theorem State.slip_count (s : State) (src : SlipSource) : (s.slip src).tracker.count = s.tracker.count := by
  unfold State.slip
  dsimp only
  split
  · exact s.raise_count _
  · exact (State.enterLost_count _ _).trans (s.raise_count _)
  all_goals exact s.raise_count _

/-! ### The obligations -/

/-- Settles O26: each of the three transitions is a position jump at the new levels, and the lemmas of the raise and of the entry
into LOST say what that leaves. -/
theorem illegalTransitionLosesPosition : Obligations.IllegalTransitionLosesPosition := by
  intro cmd a b s hcmd
  have jump : exec cmd s = .next (s.setLevels a b).positionJump := by
    rcases hcmd with ⟨rfl, rfl, rfl⟩ | ⟨rfl, beyond, rfl, rfl⟩ | ⟨rfl, beyond, rfl, rfl⟩
    · exact exec_illegalTransition s
    · exact exec_countTransition_a_beyond beyond
    · exact exec_countTransition_b_beyond beyond
  refine ⟨fun invalid => ?_, fun valid => ?_⟩
  · rw [jump, State.positionJump_invalid (s := s.setLevels a b) invalid]
    rfl
  · rw [State.positionJump_valid (s := s.setLevels a b) valid] at jump
    obtain ⟨count, encA, encB⟩ := (s.setLevels a b).raise_enterLost_tracker (.posJump s.tracker.position) .jump
    obtain ⟨jumpLatched, jumpCaptured, lostLatched, lostCaptured⟩ :=
      (s.setLevels a b).raise_enterLost_flags (.posJump s.tracker.position) .jump
    have lost := State.enterLost_position ((s.setLevels a b).raise (.posJump s.tracker.position)) .jump
    exact ⟨_, jump, count, encA, encB, lost, State.enterLost_markWindow _ _, State.live_posLost lost, State.readyLine_lost lost,
      jumpLatched, jumpCaptured, lostLatched, lostCaptured, State.enterLost_pass _ _,
      fun noPass jumpClear lostClear room =>
        State.raise_posJump_enterLost_events (s := s.setLevels a b) _ _ noPass jumpClear lostClear room⟩

/-- Settles O28: the deviation is that of the nearest mark, and an edge and a slip act by their case. -/
theorem needleMarkEdgesAndSlips : Obligations.NeedleMarkEdgesAndSlips := by
  refine ⟨fun s pitch => ?_, fun src s =>
    ⟨State.slip_referenced src, State.slip_doubtful src, State.slip_count s src⟩⟩
  obtain ⟨low, high⟩ := State.markDeviation_bounds pitch s.tracker.count
  refine ⟨s.markDeviation s.tracker.count, low, high, s.sub_markDeviation_emod _, fun valid above below => ?_,
    fun valid outside => ?_, exec_needleMarkEdge_ignored⟩
  · exact exec_needleMarkEdge_good valid ((s.withinWindow_iff _).mpr ⟨above, below⟩)
  · refine exec_needleMarkEdge_slip valid (Bool.eq_false_iff.mpr fun within => ?_)
    obtain ⟨above, below⟩ := (s.withinWindow_iff _).mp within
    omega

end Sys2Proof.Machine

/-! SUPPORT. The line store's requests on one line: what WRITE_LINE, SEAL_LINE, REOPEN_LINE and DROP_LINE answer in each state of
the line, what a write does to the codes, and what a census says of them (R29 to R35). -/

namespace Sys2Proof.Machine

/-- R175: a listening unit sends what the owner of the parsed request answers, from the state the owner leaves. -/
theorem State.addressed_answer {α : Type} {s t : State} (h : s.listening) (k : Byte) {parsed : Option α} {a : α}
    (p : parsed = some a) {owner : α → State → State × Answer} {r : Answer} (o : owner a s = (t, r)) :
    s.addressed k parsed owner = t.sendReply k r := by
  rw [p, State.addressed_some h, o]

/-- A line that is not FREE lies in the store. -/
theorem State.line_id_le {s : State} {id : Nat} {l : Line} (e : s.line id = l) (h : l ≠ .free) : id ≤ 63 := by
  by_contra past
  exact h (e.symm.trans (getD_past _ _ (by omega)))

/-! ### WRITE_LINE (R29, R30) -/

theorem exec_writeLine_answer {body : List Byte} {w : WriteRequest} {s t : State} {r : Answer}
    (p : parseWriteLine body = some w) (h : s.listening) (o : State.writeLine w s = (t, r)) :
    exec (.writeLine body) s = .next (t.sendReply (kindByte 0x05) r) :=
  congrArg Host.Outcome.next (State.addressed_answer h _ p o)

/-- 8.8.1: a request that parses carries as many codes as its count says. -/
theorem parseWriteLine_codes_length {body : List Byte} {w : WriteRequest} (p : parseWriteLine body = some w) :
    w.codes.length = w.count := by
  unfold parseWriteLine at p
  split at p
  next _ _ _ c0 c1 rest =>
    dsimp only at p
    split at p
    next fits =>
      cases p
      have unpacked : (rest.flatMap unpackByte).length = 4 * rest.length := by
        simp [List.length_flatMap, unpackByte, Nat.mul_comm]
      exact List.length_take_of_le (by omega)
    next => cases p
  next => cases p

/-- R29: an id past the store or a count outside 1 to 512. -/
theorem State.writeLine_range {w : WriteRequest} (s : State) (h : 63 < w.id ∨ w.count < 1 ∨ 512 < w.count) :
    State.writeLine w s = (s, refuse .range) := by
  unfold State.writeLine
  rw [if_pos h]

/-- R29: only an OPEN line is written. -/
theorem State.writeLine_notOpened {w : WriteRequest} {s : State} (h : ¬(63 < w.id ∨ w.count < 1 ∨ 512 < w.count))
    (l : ∀ d, s.line w.id ≠ .opened d) : State.writeLine w s = (s, refuse .lineState) := by
  unfold State.writeLine
  rw [if_neg h]
  cases e : s.line w.id with
  | free | sealed _ _ _ => rfl
  | opened d => exact absurd e (l d)

/-- R29: the codes do not fit behind the start. -/
theorem State.writeLine_beyond {w : WriteRequest} {s : State} {d : LineData} (h : ¬(63 < w.id ∨ w.count < 1 ∨ 512 < w.count))
    (l : s.line w.id = .opened d) (b : d.codes.length < w.start.getD d.cursor + w.count) :
    State.writeLine w s = (s, refuse .range) := by
  unfold State.writeLine
  rw [if_neg h, l]
  exact if_pos b

/-- R30: the codes are written. -/
theorem State.writeLine_written {w : WriteRequest} {s : State} {d : LineData} (h : ¬(63 < w.id ∨ w.count < 1 ∨ 512 < w.count))
    (l : s.line w.id = .opened d) (b : w.start.getD d.cursor + w.count ≤ d.codes.length) :
    let v := d.write (w.start.getD d.cursor) w.codes
    State.writeLine w s = (s.putLine w.id (.opened v), accept (bytesOf 2 v.cursor ++ bytesOf 2 v.extent)) := by
  unfold State.writeLine
  rw [if_neg h, l]
  exact if_neg (Nat.not_lt.mpr b)

/-- R30: a write that fits leaves the length of the line. -/
theorem LineData.write_codes_length {d : LineData} {start : Nat} {cs : List Code} (h : start + cs.length ≤ d.codes.length) :
    (d.write start cs).codes.length = d.codes.length := by
  simp only [LineData.write, List.length_append, List.length_take, List.length_drop]
  omega

/-- R30: code k of the request stands at index start + k, and every other index keeps its code. -/
theorem LineData.write_codes_getD {d : LineData} {start : Nat} {cs : List Code} (h : start + cs.length ≤ d.codes.length)
    (j : Nat) : (d.write start cs).codes.getD j .miss
      = if start ≤ j ∧ j < start + cs.length then cs.getD (j - start) .miss else d.codes.getD j .miss := by
  have before : (d.codes.take start).length = start := List.length_take_of_le (by omega)
  simp only [LineData.write, List.getD_eq_getElem?_getD, List.append_assoc]
  rcases Nat.lt_or_ge j start with below | above
  · rw [List.getElem?_append_left (before.symm ▸ below), List.getElem?_take_of_lt below, if_neg (by omega)]
  · rw [List.getElem?_append_right (before.symm ▸ above), before]
    rcases Nat.lt_or_ge j (start + cs.length) with within | behind
    · rw [List.getElem?_append_left (by omega), if_pos ⟨above, within⟩]
    · rw [List.getElem?_append_right (by omega), List.getElem?_drop, if_neg (by omega)]
      congr 2
      omega

/-! ### The census (R33) -/

/-- R33: the census holds exactly the codes that occur. -/
theorem mem_censusOf (c : Code) (cs : List Code) : c ∈ censusOf cs ↔ c ∈ cs := by
  have known : c ∈ [Code.miss, .tuck, .knit, .send] := by cases c <;> decide
  simp [censusOf, List.mem_filter, known]

/-- R33: bit n of the census byte shows the code of value n. -/
theorem censusByte_getLsbD (cs : List Code) (c : Code) : (censusByte cs).getLsbD c.value = decide (c ∈ cs) := by
  have bits : bitsAt [censusByte cs] 0 ([Code.miss, .tuck, .knit, .send].map (· ∈ cs)) :=
    bitsAt_bitsByte ([Code.miss, .tuck, .knit, .send].map cs.contains) _ [] (by simp) rfl fun k _ _ => by
      simp only [List.getElem_map, List.contains_iff_mem]
  have bit : (censusByte cs).getLsbD c.value = true ↔ c ∈ cs := by
    cases c <;> exact bits _ (by decide)
  rw [Bool.eq_iff_iff, bit, decide_eq_true_iff]

/-! ### SEAL_LINE (R32) -/

theorem exec_sealLine_answer {i : Byte} {s t : State} {r : Answer} (h : s.listening) (o : State.sealLine i.toNat s = (t, r)) :
    exec (.sealLine [i]) s = .next (t.sendReply (kindByte 0x06) r) :=
  congrArg Host.Outcome.next (State.addressed_answer h _ rfl o)

theorem State.sealLine_range {id : Nat} (s : State) (h : 63 < id) : State.sealLine id s = (s, refuse .range) := if_pos h

/-- R32: only an OPEN line is sealed. -/
theorem State.sealLine_notOpened {id : Nat} {s : State} (h : id ≤ 63) (l : ∀ d, s.line id ≠ .opened d) :
    State.sealLine id s = (s, refuse .lineState) := by
  unfold State.sealLine
  rw [if_neg (Nat.not_lt.mpr h)]
  cases e : s.line id with
  | free | sealed _ _ _ => rfl
  | opened d => exact absurd e (l d)

/-- R32: a line not yet written to its end. -/
theorem State.sealLine_short {id : Nat} {s : State} {d : LineData} (l : s.line id = .opened d) (h : d.extent < d.codes.length) :
    State.sealLine id s = (s, refuse .shortLine) := by
  have low : id ≤ 63 := State.line_id_le l nofun
  unfold State.sealLine
  rw [if_neg (Nat.not_lt.mpr low), l]
  exact if_pos h

/-- R32, R33: the line is sealed with its census and no reference. -/
theorem State.sealLine_sealed {id : Nat} {s : State} {d : LineData} (l : s.line id = .opened d) (h : d.codes.length ≤ d.extent) :
    State.sealLine id s
      = (s.putLine id (.sealed d (censusOf d.codes) 0), accept [censusByte (censusOf d.codes)]) := by
  have low : id ≤ 63 := State.line_id_le l nofun
  unfold State.sealLine
  rw [if_neg (Nat.not_lt.mpr low), l]
  exact if_neg (Nat.not_lt.mpr h)

/-! ### REOPEN_LINE (R34) -/

theorem exec_reopenLine_answer {i : Byte} {s t : State} {r : Answer} (h : s.listening)
    (o : State.reopenLine i.toNat s = (t, r)) : exec (.reopenLine [i]) s = .next (t.sendReply (kindByte 0x07) r) :=
  congrArg Host.Outcome.next (State.addressed_answer h _ rfl o)

theorem State.reopenLine_range {id : Nat} (s : State) (h : 63 < id) : State.reopenLine id s = (s, refuse .range) := if_pos h

/-- R34: only a SEALED line is reopened. -/
theorem State.reopenLine_notSealed {id : Nat} {s : State} (h : id ≤ 63) (l : (s.line id).isSealed = false) :
    State.reopenLine id s = (s, refuse .lineState) := by
  unfold State.reopenLine
  rw [if_neg (Nat.not_lt.mpr h)]
  cases e : s.line id with
  | free | opened _ => rfl
  | sealed d c n => rw [e] at l; cases l

/-- R34: a line with references stays sealed; without them it opens with its codes kept, the cursor at 0 and the extent full. -/
theorem State.reopenLine_sealed {id n : Nat} {s : State} {d : LineData} {c : List Code} (l : s.line id = .sealed d c n) :
    State.reopenLine id s = if 0 < n then (s, refuse .inUse)
      else (s.putLine id (.opened (LineData.mk d.codes 0 d.codes.length)), accept (bytesOf 2 d.codes.length)) := by
  have low : id ≤ 63 := State.line_id_le l nofun
  unfold State.reopenLine
  rw [if_neg (Nat.not_lt.mpr low), l]

/-! ### DROP_LINE (R35) -/

theorem exec_dropLine_answer {i : Byte} {s t : State} {r : Answer} (h : s.listening) (o : State.dropLine i.toNat s = (t, r)) :
    exec (.dropLine [i]) s = .next (t.sendReply (kindByte 0x08) r) :=
  congrArg Host.Outcome.next (State.addressed_answer h _ rfl o)

theorem State.dropLine_range {id : Nat} (s : State) (h : 63 < id) : State.dropLine id s = (s, refuse .range) := if_pos h

/-- R35: a FREE line cannot be dropped. -/
theorem State.dropLine_free {id : Nat} {s : State} (h : id ≤ 63) (l : s.line id = .free) :
    State.dropLine id s = (s, refuse .lineState) := by
  unfold State.dropLine
  rw [if_neg (Nat.not_lt.mpr h), l]

/-- R35: an OPEN line becomes FREE. -/
theorem State.dropLine_opened {id : Nat} {s : State} {d : LineData} (l : s.line id = .opened d) :
    State.dropLine id s = (s.putLine id .free, accept (bytesOf 2 (s.putLine id .free).cellsFree)) := by
  have low : id ≤ 63 := State.line_id_le l nofun
  unfold State.dropLine
  rw [if_neg (Nat.not_lt.mpr low), l]

/-- R35: a line with references stays; without them it becomes FREE. -/
theorem State.dropLine_sealed {id n : Nat} {s : State} {d : LineData} {c : List Code} (l : s.line id = .sealed d c n) :
    State.dropLine id s = if 0 < n then (s, refuse .inUse)
      else (s.putLine id .free, accept (bytesOf 2 (s.putLine id .free).cellsFree)) := by
  have low : id ≤ 63 := State.line_id_le l nofun
  unfold State.dropLine
  rw [if_neg (Nat.not_lt.mpr low), l]

/-! ### The obligations -/

/-- Settles O31: each refusal by its check, and a write by its effect on every index of the line. -/
theorem writeLineWritesCodes : Obligations.WriteLineWritesCodes := by
  intro body w s parsed listening
  have count := parseWriteLine_codes_length parsed
  refine ⟨count, fun bad => exec_writeLine_answer parsed listening (s.writeLine_range bad), fun id low high notOpened => ?_,
    fun d id low high opened => ⟨fun beyond => ?_, fun fits => ?_⟩⟩
  · exact exec_writeLine_answer parsed listening (State.writeLine_notOpened (by omega) notOpened)
  · exact exec_writeLine_answer parsed listening (State.writeLine_beyond (by omega) opened beyond)
  · have written := State.writeLine_written (by omega) opened fits
    rw [← count] at fits ⊢
    exact ⟨d.write (w.start.getD d.cursor) w.codes, exec_writeLine_answer parsed listening written, rfl, rfl,
      LineData.write_codes_length fits,
      fun j first last => (LineData.write_codes_getD fits j).trans (if_pos ⟨first, last⟩),
      fun j outside => (LineData.write_codes_getD fits j).trans (if_neg (by omega))⟩

/-- Settles O32: the three requests in each state of the line; the census of SEAL_LINE by `mem_censusOf`. -/
theorem sealReopenAndDropLine : Obligations.SealReopenAndDropLine := by
  intro i s listening
  refine ⟨fun past => ?_, fun low free => ?_, fun d opened => ?_, fun d c n closed => ?_⟩
  · exact ⟨exec_sealLine_answer listening (s.sealLine_range past), exec_reopenLine_answer listening (s.reopenLine_range past),
      exec_dropLine_answer listening (s.dropLine_range past)⟩
  · exact ⟨exec_sealLine_answer listening (State.sealLine_notOpened low (by rw [free]; nofun)),
      exec_reopenLine_answer listening (State.reopenLine_notSealed low (by rw [free]; rfl)),
      exec_dropLine_answer listening (State.dropLine_free low free)⟩
  · have low : i.toNat ≤ 63 := State.line_id_le opened nofun
    refine ⟨fun short => exec_sealLine_answer listening (State.sealLine_short opened short), fun full => ?_,
      exec_reopenLine_answer listening (State.reopenLine_notSealed low (by rw [opened]; rfl)),
      exec_dropLine_answer listening (State.dropLine_opened opened)⟩
    refine ⟨censusOf d.codes, censusByte (censusOf d.codes),
      exec_sealLine_answer listening (State.sealLine_sealed opened full), fun code => mem_censusOf code d.codes, fun code => ?_⟩
    simp only [censusByte_getLsbD, mem_censusOf]
  · have low : i.toNat ≤ 63 := State.line_id_le closed nofun
    have reopen := State.reopenLine_sealed closed
    have drop := State.dropLine_sealed closed
    refine ⟨exec_sealLine_answer listening (State.sealLine_notOpened low (by rw [closed]; nofun)),
      fun used => ?_, fun unused => ?_⟩
    · exact ⟨exec_reopenLine_answer listening (reopen.trans (if_pos used)),
        exec_dropLine_answer listening (drop.trans (if_pos used))⟩
    · exact ⟨exec_reopenLine_answer listening (reopen.trans (if_neg (by omega))),
        exec_dropLine_answer listening (drop.trans (if_neg (by omega)))⟩

end Sys2Proof.Machine

/-! SUPPORT. DECLARE_FEEDER and FORGET_FEEDER: what each check of the two requests answers, and the feeder's record in the table
and in the projection once they are taken (R104, R105, R123). -/

namespace Sys2Proof.Machine

/-! ### The bytes of the two bodies -/

/-- Two bytes, low byte first, read as two's complement. -/
theorem signedOf_word16 (lo hi : Byte) : signedOf 16 (word16 lo hi) = (hi ++ lo).toInt := by
  have joined : (hi ++ lo).toNat = word16 lo hi := by
    rw [BitVec.toNat_append, ← Nat.shiftLeft_add_eq_or_of_lt lo.isLt, Nat.shiftLeft_eq, word16]
    omega
  rw [BitVec.toInt_eq_toNat_cond, joined, signedOf]
  split <;> split <;> omega

theorem parseDeclare_body (f r p0 p1 : Byte) :
    parseDeclare [f, r, p0, p1] = some (DeclareRequest.mk f.toNat r.toNat (p1 ++ p0).toInt) := by
  rw [← signedOf_word16]
  rfl

/-- A feeder's number is sent as the byte that named it. -/
theorem bytesOf_byte (b : Byte) : bytesOf 1 b.toNat = [b] := by
  rw [bytesOf_one, BitVec.ofInt_natCast, BitVec.ofNat_toNat, BitVec.setWidth_eq]

/-! ### The feeder table with an empty queue (R123) -/

/-- R123: with an empty queue the projection is rebuilt from the table. -/
theorem State.followProjection_noRecords {s : State} (h : s.queue.records = []) :
    s.followProjection = s.setQueue { s.queue with proj := s.feeders.project } := by
  unfold State.followProjection
  rw [h]

theorem State.feeder_followProjection (s : State) (g : Nat) : s.followProjection.feeder g = s.feeder g := by
  unfold State.followProjection
  split <;> rfl

/-- R132: a feeder that was not carried leaves the yarn monitor alone. -/
theorem State.putFeeder_notCarried {s : State} {f : Nat} (v : Feeder) (h : (s.feeder f).carried = false) :
    s.putFeeder f v = s.setFeeders { s.feeders with table := s.feeders.table.setIfInBounds f v } := by
  unfold State.putFeeder
  rw [h]
  rfl

/-- A projected feeder is the projection of the feeder of the table. -/
theorem FeederUnit.feeder_project (u : FeederUnit) (f : Nat) : u.project.feeder f = (u.table.getD f .undeclared).project :=
  getD_mapTable Feeder.project u.table f .undeclared

/-- R123: with an empty queue a change of a feeder that is not carried goes into the table and into the projection, and nowhere
else. -/
theorem State.putFeeder_followProjection {s : State} {f : Nat} (v : Feeder) (empty : s.queue.records = [])
    (down : (s.feeder f).carried = false) :
    let table := s.feeders.table.setIfInBounds f v
    (s.putFeeder f v).followProjection = { s with
      feeders := { s.feeders with table := table }
      queue := { s.queue with proj := FeederUnit.project { s.feeders with table := table } } } := by
  dsimp only
  rw [State.putFeeder_notCarried v down]
  exact State.followProjection_noRecords empty

theorem State.feeder_putFeeder_followProjection (s : State) (f g : Nat) (v : Feeder) :
    (s.putFeeder f v).followProjection.feeder g = if f = g ∧ g < 16 then v else s.feeder g :=
  (State.feeder_followProjection _ g).trans (s.feeder_putFeeder f g v)

/-- R104, R105: the reply carries the feeder's record as it stands after the request. -/
theorem State.feederAnswer_putFeeder (s : State) {f : Byte} (v : Feeder) (h : f.toNat ≤ 15) :
    (s.putFeeder f.toNat v).followProjection.feederAnswer f.toNat = accept ([f] ++ v.bytes) := by
  rw [State.feederAnswer, State.feeder_putFeeder_followProjection, if_pos ⟨rfl, by omega⟩, bytesOf_byte]

/-! ### DECLARE_FEEDER (R104) -/

theorem exec_declareFeeder_answer {f r p0 p1 : Byte} {s t : State} {a : Answer} (h : s.listening)
    (o : State.declareFeeder (DeclareRequest.mk f.toNat r.toNat (p1 ++ p0).toInt) s = (t, a)) :
    exec (.declareFeeder [f, r, p0, p1]) s = .next (t.sendReply (kindByte 0x11) a) :=
  congrArg Host.Outcome.next (State.addressed_answer h _ (parseDeclare_body f r p0 p1) o)

/-- R104 check 4 in terms of the bounds of the field. -/
theorem State.inField_iff (s : State) (x : Int) : s.inField x = true ↔ s.fieldLow ≤ x ∧ x ≤ s.fieldHigh := by
  simp [State.inField]

/-- R104 check 5 in terms of the feeder table. -/
theorem State.spotTaken_iff (s : State) (f rail : Nat) (x : Int) :
    s.spotTaken f rail x = true ↔ ∃ g < 16, g ≠ f ∧ s.feeder g = .parked rail x := by
  simp [State.spotTaken]

/-- R104 check 1. -/
theorem State.declareFeeder_range {q : DeclareRequest} (s : State) (h : 15 < q.feeder ∨ 7 < q.rail) :
    State.declareFeeder q s = (s, refuse .range) := if_pos h

/-- R104 check 2. -/
theorem State.declareFeeder_busy {q : DeclareRequest} {s : State} (known : ¬(15 < q.feeder ∨ 7 < q.rail))
    (h : s.queue.records ≠ []) : State.declareFeeder q s = (s, refuse .busy) := by
  rw [State.declareFeeder, if_neg known, if_pos h]

/-- R104 check 3. -/
theorem State.declareFeeder_carried {q : DeclareRequest} {s : State} (known : ¬(15 < q.feeder ∨ 7 < q.rail))
    (empty : s.queue.records = []) (h : (s.feeder q.feeder).carried = true) :
    State.declareFeeder q s = (s, refuse .feederState) := by
  rw [State.declareFeeder, if_neg known, if_neg (not_not_intro empty), if_pos h]

/-- R104: past checks 1 to 3 the position decides. -/
theorem State.declareFeeder_position {q : DeclareRequest} {s : State} (known : ¬(15 < q.feeder ∨ 7 < q.rail))
    (empty : s.queue.records = []) (down : (s.feeder q.feeder).carried = false) :
    State.declareFeeder q s =
      if s.inField q.position = false then (s, refuse .range)
      else if s.spotTaken q.feeder q.rail q.position then (s, refuse .railBlocked)
      else
        let t := (s.putFeeder q.feeder (.parked q.rail q.position)).followProjection
        (t, t.feederAnswer q.feeder) := by
  rw [State.declareFeeder, if_neg known, if_neg (not_not_intro empty), if_neg (Bool.eq_false_iff.mp down)]

/-- R104 check 4. -/
theorem State.declareFeeder_outside {q : DeclareRequest} {s : State} (known : ¬(15 < q.feeder ∨ 7 < q.rail))
    (empty : s.queue.records = []) (down : (s.feeder q.feeder).carried = false)
    (h : q.position < s.fieldLow ∨ s.fieldHigh < q.position) : State.declareFeeder q s = (s, refuse .range) := by
  have outside : s.inField q.position = false := by
    rw [Bool.eq_false_iff, ne_eq, State.inField_iff]
    omega
  rw [State.declareFeeder_position known empty down, if_pos outside]

/-- R104: past checks 1 to 4 the other parked feeders of the rail decide. -/
theorem State.declareFeeder_inField {q : DeclareRequest} {s : State} (known : ¬(15 < q.feeder ∨ 7 < q.rail))
    (empty : s.queue.records = []) (down : (s.feeder q.feeder).carried = false)
    (low : s.fieldLow ≤ q.position) (high : q.position ≤ s.fieldHigh) :
    ((∃ g < 16, g ≠ q.feeder ∧ s.feeder g = .parked q.rail q.position) →
      State.declareFeeder q s = (s, refuse .railBlocked))
    ∧ ((∀ g < 16, g ≠ q.feeder → s.feeder g ≠ .parked q.rail q.position) →
      let t := (s.putFeeder q.feeder (.parked q.rail q.position)).followProjection
      State.declareFeeder q s = (t, t.feederAnswer q.feeder)) := by
  have inside : s.inField q.position = true := (s.inField_iff _).mpr ⟨low, high⟩
  rw [State.declareFeeder_position known empty down, if_neg (Bool.not_eq_false _ ▸ inside)]
  refine ⟨fun taken => if_pos ((s.spotTaken_iff _ _ _).mpr taken), fun free => if_neg fun taken => ?_⟩
  obtain ⟨g, bound, other, parked⟩ := (s.spotTaken_iff _ _ _).mp taken
  exact free g bound other parked

/-! ### FORGET_FEEDER (R105) -/

theorem exec_forgetFeeder_answer {f : Byte} {s t : State} {a : Answer} (h : s.listening)
    (o : State.forgetFeeder f.toNat s = (t, a)) : exec (.forgetFeeder [f]) s = .next (t.sendReply (kindByte 0x12) a) :=
  congrArg Host.Outcome.next (State.addressed_answer h _ rfl o)

/-- R105 check 1. -/
theorem State.forgetFeeder_range {f : Nat} (s : State) (h : 15 < f) : State.forgetFeeder f s = (s, refuse .range) := if_pos h

/-- R105 check 2. -/
theorem State.forgetFeeder_busy {f : Nat} {s : State} (known : f ≤ 15) (h : s.queue.records ≠ []) :
    State.forgetFeeder f s = (s, refuse .busy) := by
  rw [State.forgetFeeder, if_neg (Nat.not_lt.mpr known), if_pos h]

/-- R105 check 3, and the request taken. -/
theorem State.forgetFeeder_noRecords {f : Nat} {s : State} (known : f ≤ 15) (empty : s.queue.records = []) :
    State.forgetFeeder f s =
      if (s.feeder f).carried then (s, refuse .feederState)
      else
        let t := (s.putFeeder f .undeclared).followProjection
        (t, t.feederAnswer f) := by
  rw [State.forgetFeeder, if_neg (Nat.not_lt.mpr known), if_neg (not_not_intro empty)]

/-- R177: a broadcast frame of a kind that may not be broadcast. -/
theorem exec_broadcastRefused {k : Byte} {s : State} (h : refusedBroadcastByte k = true) (heard : s.link.rx.busy = false) :
    exec (.broadcastRefused k) s = .next ((s.raise (.frameFault .broadcast (some k))).setRx .hunt) := by
  have faulted : exec (.broadcastRefused k) s = .next (s.faultFrame .broadcast (some k)) := if_pos h
  rw [faulted, State.faultFrame, if_neg (Bool.eq_false_iff.mp heard)]

/-! ### The obligation -/

/-- Settles O45: each refusal by its check, and the taken requests by `State.putFeeder_followProjection`. -/
theorem declareAndForgetFeeder : Obligations.DeclareAndForgetFeeder := by
  refine ⟨fun f r p0 p1 s listening => ?_, fun f s listening => ?_,
    fun s heard => exec_broadcastRefused (by decide) heard⟩
  · have known : f.toNat ≤ 15 → r.toNat ≤ 7 → ¬(15 < f.toNat ∨ 7 < r.toNat) := by omega
    refine ⟨fun unknown => ?_, fun feeder rail records => ?_, fun feeder rail empty carried => ?_,
      fun feeder rail empty down => ⟨fun outside => ?_, fun low high => ?_⟩⟩
    · exact exec_declareFeeder_answer listening (s.declareFeeder_range unknown)
    · exact exec_declareFeeder_answer listening (State.declareFeeder_busy (known feeder rail) records)
    · exact exec_declareFeeder_answer listening (State.declareFeeder_carried (known feeder rail) empty carried)
    · exact exec_declareFeeder_answer listening (State.declareFeeder_outside (known feeder rail) empty down outside)
    · obtain ⟨blocked, parked⟩ := State.declareFeeder_inField (q := DeclareRequest.mk f.toNat r.toNat (p1 ++ p0).toInt)
        (known feeder rail) empty down low high
      refine ⟨fun taken => exec_declareFeeder_answer listening (blocked taken), fun free => ?_⟩
      have done := exec_declareFeeder_answer listening (parked free)
      rwa [State.feederAnswer_putFeeder s _ feeder, State.putFeeder_followProjection _ empty down] at done
  · refine ⟨fun unknown => ?_, fun feeder records => ?_, fun feeder empty carried => ?_, fun feeder empty down => ?_⟩
    · exact exec_forgetFeeder_answer listening (s.forgetFeeder_range unknown)
    · exact exec_forgetFeeder_answer listening (State.forgetFeeder_busy feeder records)
    · exact exec_forgetFeeder_answer listening ((State.forgetFeeder_noRecords feeder empty).trans (if_pos carried))
    · have done := exec_forgetFeeder_answer listening
        ((State.forgetFeeder_noRecords feeder empty).trans (if_neg (Bool.eq_false_iff.mp down)))
      have table := fun g => s.feeder_putFeeder_followProjection f.toNat g .undeclared
      rw [State.feederAnswer_putFeeder s _ feeder, State.putFeeder_followProjection _ empty down] at done
      rw [State.putFeeder_followProjection _ empty down] at table
      have gone := (table f.toNat).trans (if_pos ⟨rfl, by omega⟩)
      exact ⟨done, gone, fun g other => (table g).trans (if_neg fun same => other same.1.symm),
        (FeederUnit.feeder_project _ _).trans (congrArg Feeder.project gone)⟩

end Sys2Proof.Machine

/-! SUPPORT. CLEAR_CONDITIONS: the clearing of one condition, and of all 23 in turn (R153). -/

namespace Sys2Proof.Machine

/-! ### The clearing of conditions (R153) -/

/-- R153 for one condition: its latch is cleared unless it is live and true. -/
def State.clearUnlessLive (s : State) (m : ConditionMonitor) (c : Cond) : ConditionMonitor :=
  if s.live c then m else m.putRecord c { m.record c with latched := none }

/-- CLEAR_CONDITIONS clears the conditions one after another. -/
theorem State.clearConditions_eq_foldl (s : State) :
    s.clearConditions = s.setMonitor (Cond.all.foldl s.clearUnlessLive s.monitor) := rfl

theorem State.clearUnlessLive_live {s : State} {c : Cond} (h : s.live c = true) (m : ConditionMonitor) :
    s.clearUnlessLive m c = m := if_pos h

theorem State.clearUnlessLive_notLive {s : State} {c : Cond} (h : s.live c = false) (m : ConditionMonitor) :
    s.clearUnlessLive m c = m.putRecord c (CondRecord.mk none (m.record c).captured) :=
  if_neg (Bool.eq_false_iff.mp h)

/-- The clearing of c leaves the record of d as it is where c is live and true or d is another condition. -/
theorem State.clearUnlessLive_record_of {s : State} {c d : Cond} (h : s.live c = true ∨ d ≠ c) (m : ConditionMonitor) :
    (s.clearUnlessLive m c).record d = m.record d := by
  cases live : s.live c with
  | true => rw [State.clearUnlessLive_live live]
  | false =>
    have other : d ≠ c := h.resolve_left (Bool.eq_false_iff.mp live)
    rw [State.clearUnlessLive_notLive live, ConditionMonitor.record_putRecord_ne _ _ other]

/-- The clearing of one condition keeps every captured flag. -/
theorem State.clearUnlessLive_captured (s : State) (m : ConditionMonitor) (c d : Cond) :
    ((s.clearUnlessLive m c).record d).captured = (m.record d).captured := by
  cases live : s.live c with
  | true => rw [State.clearUnlessLive_live live]
  | false =>
    rw [State.clearUnlessLive_notLive live, ConditionMonitor.record_putRecord]
    split
    · next same => rw [same]
    · rfl

/-- The clearing of one condition changes the records alone. -/
theorem State.clearUnlessLive_frame (s : State) (m : ConditionMonitor) (c : Cond) :
    ∃ v, s.clearUnlessLive m c = { m with records := v } := by
  cases live : s.live c with
  | true => exact ⟨m.records, State.clearUnlessLive_live live m⟩
  | false => exact ⟨_, State.clearUnlessLive_notLive live m⟩

/-- A condition that is live and true keeps its record, whichever conditions are cleared. -/
theorem State.foldl_clearUnlessLive_live {s : State} {d : Cond} (h : s.live d = true) (cs : List Cond)
    (m : ConditionMonitor) : (cs.foldl s.clearUnlessLive m).record d = m.record d := by
  induction cs generalizing m with
  | nil => rfl
  | cons c cs ih =>
    have kept : s.live c = true ∨ d ≠ c := by
      by_cases same : d = c
      · exact .inl (same ▸ h)
      · exact .inr same
    exact (ih _).trans (State.clearUnlessLive_record_of kept m)

/-- A latch that is clear stays clear, and one that is among those to be cleared becomes clear, where the condition is not live
and true; the captured flag stays. -/
theorem State.foldl_clearUnlessLive_notLive {s : State} {d : Cond} (h : s.live d = false) (cs : List Cond)
    (m : ConditionMonitor) (todo : d ∈ cs ∨ (m.record d).latched = none) :
    (cs.foldl s.clearUnlessLive m).record d = CondRecord.mk none (m.record d).captured := by
  induction cs generalizing m with
  | nil =>
    have clear : (m.record d).latched = none := todo.resolve_left List.not_mem_nil
    rw [List.foldl_nil, ← clear]
  | cons c cs ih =>
    have remaining : d ∈ cs ∨ ((s.clearUnlessLive m c).record d).latched = none := by
      by_cases same : d = c
      · subst same
        rw [State.clearUnlessLive_notLive h, ConditionMonitor.record_putRecord_self]
        exact .inr rfl
      · rw [State.clearUnlessLive_record_of (.inr same)]
        exact todo.imp_left fun mem => (List.mem_cons.mp mem).resolve_left same
    rw [List.foldl_cons, ih _ remaining, State.clearUnlessLive_captured]

/-- The clearing of conditions changes the records alone. -/
theorem State.foldl_clearUnlessLive_frame (s : State) (cs : List Cond) (m : ConditionMonitor) :
    ∃ v, cs.foldl s.clearUnlessLive m = { m with records := v } := by
  induction cs generalizing m with
  | nil => exact ⟨m.records, rfl⟩
  | cons c cs ih =>
    obtain ⟨v, cleared⟩ := s.clearUnlessLive_frame m c
    obtain ⟨w, rest⟩ := ih (s.clearUnlessLive m c)
    exact ⟨w, by rw [List.foldl_cons, rest, cleared]⟩

/-- R148: the live values are read from blocks other than the condition monitor. -/
theorem State.live_setMonitor (s : State) (m : ConditionMonitor) (c : Cond) : (s.setMonitor m).live c = s.live c := by
  cases c <;> rfl

/-! ### The obligation -/

/-- Settles O16: the request by its destination, and the 23 conditions by the fold over them. -/
theorem clearConditionsKeepsLiveOnes : Obligations.ClearConditionsKeepsLiveOnes := by
  refine ⟨fun s listening => ?_, fun s heard => ?_, fun s => ?_⟩
  · exact congrArg Host.Outcome.next (State.addressed_answer listening _ rfl rfl)
  · exact congrArg Host.Outcome.next (State.broadcast_some heard (kindByte 0x17) () State.takeClear)
  · obtain ⟨v, frame⟩ := s.foldl_clearUnlessLive_frame Cond.all s.monitor
    refine ⟨{ s.monitor with records := v }, ?_, fun c notLive => ?_, fun c live => ?_, fun c => ?_, rfl, rfl, rfl, rfl, rfl⟩
    · rw [s.clearConditions_eq_foldl, frame]
      rfl
    · rw [← frame]
      exact State.foldl_clearUnlessLive_notLive notLive _ _ (.inl c.mem_all)
    · rw [← frame]
      exact State.foldl_clearUnlessLive_live live _ _
    · exact s.live_setMonitor _ c

end Sys2Proof.Machine

/-! SUPPORT. READ_EVENTS: what the request removes and carries (R166), and the bytes of an entry, its payload and its detail read
back against their layouts (R181, section 8.8.4). -/

namespace Sys2Proof.Machine

/-! ### A field by the bytes at its offset -/

/-- A field whose bytes are those of v holds v, modulo its width. -/
theorem fieldAt_of_bytes {b : List Byte} {i n : Nat} {v : Int} (h : (b.drop i).take n = bytesOf n v) :
    (fieldAt b i n : Int) = v % 256 ^ n := by
  rw [fieldAt, h]
  exact leNat_bytesOf n v

/-- The same, signed. -/
theorem signedAt_of_bytes {b : List Byte} {i n : Nat} {v : Int} (h : (b.drop i).take n = bytesOf n v) :
    signedAt b i n = Int.bmod v (256 ^ n) := by
  have width : (256 : Int) ^ n = ((256 ^ n : Nat) : Int) := by push_cast; rfl
  rw [signedAt, fieldAt_of_bytes h, width, Int.emod_bmod]

/-- An unsigned field holds a natural number, modulo its width. -/
theorem fieldAt_of_natBytes {b : List Byte} {i n v : Nat} (h : (b.drop i).take n = bytesOf n v) :
    fieldAt b i n = v % 256 ^ n := by
  have read := fieldAt_of_bytes h
  exact_mod_cast read

/-- A field of one byte. -/
theorem fieldAt_of_byte {b : List Byte} {i v : Nat} (h : (b.drop i).take 1 = bytesOf 1 v) : fieldAt b i 1 = v % 256 :=
  fieldAt_of_natBytes h

/-- A field of one byte that holds a code. -/
theorem fieldAt_of_code {b : List Byte} {i v : Nat} (small : v < 256) (h : (b.drop i).take 1 = bytesOf 1 v) :
    fieldAt b i 1 = v :=
  (fieldAt_of_byte h).trans (Nat.mod_eq_of_lt small)

/-- A field that is as wide as the bit vector it holds. -/
theorem fieldAt_of_bits {b : List Byte} {i n k : Nat} {w : BitVec k} (fits : 2 ^ k ≤ 256 ^ n)
    (h : (b.drop i).take n = bytesOf n w.toNat) : fieldAt b i n = w.toNat :=
  (fieldAt_of_natBytes h).trans (Nat.mod_eq_of_lt (Nat.lt_of_lt_of_le w.isLt fits))

/-- A signed field of two bytes. -/
theorem signedAt_of_word {b : List Byte} {i : Nat} {v : Int} (h : (b.drop i).take 2 = bytesOf 2 v) :
    signedAt b i 2 = Int.bmod v 65536 :=
  signedAt_of_bytes h

/-- R181: an X that was clamped is read back as it was sent. -/
theorem signedAt_of_clampX {b : List Byte} {i : Nat} {x : Int} (h : (b.drop i).take 2 = bytesOf 2 (clampX x)) :
    signedAt b i 2 = clampX x := by
  rw [signedAt_of_word h]
  apply Int.bmod_eq_of_le <;> unfold clampX <;> omega

/-- R12: a deviation is sent clamped to a signed byte. -/
theorem signedAt_of_clampDeviation {b : List Byte} {i : Nat} {d : Int}
    (h : (b.drop i).take 1 = bytesOf 1 (clampDeviation d)) : signedAt b i 1 = max (-128) (min 127 d) := by
  have clamped : clampDeviation d = max (-128) (min 127 d) := by
    unfold clampDeviation
    split <;> omega
  rw [signedAt_of_bytes h, clamped]
  apply Int.bmod_eq_of_le <;> omega

/-! ### The codes fit a byte -/

theorem Cond.num_lt_byte (c : Cond) : c.num < 256 := Nat.lt_trans c.num_lt (by decide)
theorem Direction.code_lt_byte (d : Direction) : d.code < 256 := by cases d <;> decide
theorem PosState.code_lt_byte (p : PosState) : p.code < 256 := by cases p <;> decide
theorem PassPhase.code_lt_byte (p : PassPhase) : p.code < 256 := by cases p <;> decide
theorem MissedSource.code_lt_byte (m : MissedSource) : m.code < 256 := by cases m <;> decide
theorem FrameCause.code_lt_byte (c : FrameCause) : c.code < 256 := by cases c <;> decide
theorem EventTag.code_lt_byte (t : EventTag) : t.code < 256 := by cases t <;> decide
theorem AbortReason.code_lt_byte (r : AbortReason) : r.code < 256 := by unfold AbortReason.code; split <;> decide
theorem FlushCause.code_lt_byte (c : FlushCause) : c.code < 256 := by cases c <;> decide
theorem silentCode_lt_byte (o : SilentOutcome) : silentCode o < 256 := by cases o <;> decide
theorem writeCode_lt_byte (o : WriteOutcome) : writeCode o < 256 := by cases o <;> decide

/-! ### Details, payloads and entries (section 8.8.4) -/

theorem padTo_length (n : Nat) (bs : List Byte) : (padTo n bs).length = n := by simp [padTo]

/-- The four bytes of a detail hold its fields. -/
theorem Detail.laidOut_bytes : ∀ d : Detail, d.laidOut d.bytes
  | .posJump st => ⟨fieldAt_of_code st.code_lt_byte rfl, rfl⟩
  | .markSlip (.needle _) => ⟨fieldAt_of_code (by decide) rfl, signedAt_of_clampDeviation rfl, rfl⟩
  | .markSlip (.home _) => ⟨fieldAt_of_code (by decide) rfl, signedAt_of_clampDeviation rfl, rfl⟩
  | .markSlip (.absent _) => ⟨fieldAt_of_code (by decide) rfl, signedAt_of_clampX rfl, rfl⟩
  | .posLost .jump => rfl
  | .posLost .slip => rfl
  | .homeTimeout => rfl
  | .stall ph _ => ⟨fieldAt_of_code ph.code_lt_byte rfl, signedAt_of_clampX rfl, rfl⟩
  | .overspeed _ => ⟨fieldAt_of_natBytes (n := 2) rfl, rfl⟩
  | .reversal _ _ => ⟨fieldAt_of_bytes (n := 1) rfl, signedAt_of_clampX rfl, rfl⟩
  | .wrongWay _ d => ⟨fieldAt_of_bits (by decide) rfl, fieldAt_of_code d.code_lt_byte rfl, rfl⟩
  | .noGo _ => ⟨fieldAt_of_bits (by decide) rfl, rfl⟩
  | .starved d => ⟨fieldAt_of_code d.code_lt_byte rfl, rfl⟩
  | .xferClash _ _ => ⟨fieldAt_of_byte rfl, signedAt_of_word rfl, rfl⟩
  | .xferEdge _ _ .front => ⟨fieldAt_of_byte rfl, signedAt_of_word rfl, rfl⟩
  | .xferEdge _ _ .back => ⟨fieldAt_of_byte rfl, signedAt_of_word rfl, rfl⟩
  | .feederMissed _ _ src => ⟨fieldAt_of_byte rfl, fieldAt_of_byte rfl, fieldAt_of_code src.code_lt_byte rfl, rfl⟩
  | .feederStuck _ _ _ => ⟨fieldAt_of_byte rfl, fieldAt_of_byte rfl, signedAt_of_word rfl⟩
  | .yarnStop _ => ⟨fieldAt_of_byte rfl, rfl⟩
  | .yarnSnag _ _ => ⟨fieldAt_of_byte rfl, fieldAt_of_natBytes (n := 2) rfl, rfl⟩
  | .yarnKnot _ => ⟨fieldAt_of_byte rfl, rfl⟩
  | .headSilent _ o => ⟨fieldAt_of_byte rfl, fieldAt_of_code (silentCode_lt_byte o) rfl, rfl⟩
  | .settingsCheck _ _ => ⟨fieldAt_of_bits (by decide) rfl, fieldAt_of_bits (by decide) rfl⟩
  | .strapChange _ _ => ⟨fieldAt_of_bits (by decide) rfl, fieldAt_of_bits (by decide) rfl, rfl⟩
  | .addressParity _ => ⟨fieldAt_of_bits (by decide) rfl, rfl⟩
  | .frameFault c _ => ⟨fieldAt_of_code c.code_lt_byte rfl, rfl, rfl⟩
  | .eventOverrun t => ⟨fieldAt_of_code t.code_lt_byte rfl, rfl⟩

/-- The payload of a CONDITION entry: the number, the four bytes of the detail and a 0. -/
theorem padTo_condition (d : Detail) : padTo 6 (Event.condition d).fields = bytesOf 1 d.cond.num ++ (d.bytes ++ [0]) := by
  have four : d.bytes.length = 4 := padTo_length 4 d.fields
  simp [padTo, Event.fields, bytesOf_one, four, List.take_append]

/-- The six payload bytes of an event hold its fields. -/
theorem Event.laidOut_payload : ∀ e : Event, e.laidOut (padTo 6 e.fields)
  | .passStarted _ d => ⟨fieldAt_of_bits (by decide) rfl, fieldAt_of_code d.code_lt_byte rfl, rfl⟩
  | .passEnded _ _ => ⟨fieldAt_of_bits (by decide) rfl, fieldAt_of_bits (by decide) rfl, rfl⟩
  | .passAborted _ r _ => by
    refine ⟨fieldAt_of_bits (by decide) rfl, fieldAt_of_code r.code_lt_byte rfl, signedAt_of_word rfl, ?_⟩
    cases r with
    | routed c => exact (fieldAt_byte _ 5).trans (Nat.mod_eq_of_lt c.num_lt_byte)
    | _ => rfl
  | .feederTaken _ _ _ => ⟨fieldAt_of_byte rfl, fieldAt_of_byte rfl, signedAt_of_word rfl, rfl⟩
  | .feederReleased _ _ _ => ⟨fieldAt_of_byte rfl, fieldAt_of_byte rfl, signedAt_of_word rfl, rfl⟩
  | .condition d => by
    have four : d.bytes.length = 4 := padTo_length 4 d.fields
    rw [padTo_condition]
    refine ⟨fieldAt_of_code d.cond.num_lt_byte rfl, ?_, ?_⟩
    · have detail : ((bytesOf 1 d.cond.num ++ (d.bytes ++ [0])).drop 1).take 4 = d.bytes := List.take_left' four
      rw [detail]
      exact d.laidOut_bytes
    · exact List.drop_left' four
  | .homed _ _ => ⟨signedAt_of_bytes (n := 4) rfl, signedAt_of_clampX rfl⟩
  | .passMark _ => ⟨fieldAt_of_bits (by decide) rfl, rfl⟩
  | .headWriteDone _ o => ⟨fieldAt_of_byte rfl, fieldAt_of_code (writeCode_lt_byte o) rfl, rfl⟩
  | .queueFlushed _ c => ⟨fieldAt_of_byte rfl, fieldAt_of_code c.code_lt_byte rfl, rfl⟩

/-- An entry: its tag's code, its timestamp and its payload, in eleven bytes. -/
theorem EventEntry.bytes_laidOut (e : EventEntry) :
    e.bytes.length = 11 ∧ fieldAt e.bytes 0 1 = e.event.tag.code ∧ fieldAt e.bytes 1 4 = e.timestamp.toNat
      ∧ e.event.laidOut (e.bytes.drop 5) := by
  refine ⟨?_, fieldAt_of_code e.event.tag.code_lt_byte rfl, fieldAt_of_bits (by decide) rfl, e.event.laidOut_payload⟩
  rw [EventEntry.bytes, List.length_append, List.length_append, bytesOf_length, bytesOf_length, padTo_length]

/-! ### READ_EVENTS (R166) -/

theorem exec_readEvents_answer {k : Byte} {s t : State} {a : Answer} (h : s.listening)
    (o : State.takeEvents k.toNat s = (t, a)) : exec (.readEvents [k]) s = .next (t.sendReply (kindByte 0x19) a) :=
  congrArg Host.Outcome.next (State.addressed_answer h _ rfl o)

/-- R166: a count outside 1 to 16. -/
theorem State.takeEvents_range {k : Nat} (s : State) (h : k < 1 ∨ 16 < k) : State.takeEvents k s = (s, refuse .range) :=
  if_pos h

/-- R166: the oldest entries are removed and carried, as many as there are up to k. -/
theorem State.takeEvents_taken {k : Nat} (s : State) (low : 1 ≤ k) (high : k ≤ 16) :
    State.takeEvents k s = ({ s with monitor := { s.monitor with events := s.monitor.events.drop k } },
      accept (bytesOf 1 (min k s.monitor.events.length : Nat) ++ (s.monitor.events.take k).flatMap EventEntry.bytes)) := by
  rw [← List.length_take]
  exact if_neg (by omega)

/-! ### The obligation -/

/-- Settles O18: the request by `State.takeEvents`, an entry's bytes by the case split of its layout. -/
theorem readEventsRemovesTheOldest : Obligations.ReadEventsRemovesTheOldest := by
  refine ⟨fun k s low high listening => ?_, fun k s outside listening => ?_, EventEntry.bytes_laidOut, ?_,
    fun s heard => exec_broadcastRefused (by decide) heard⟩
  · exact exec_readEvents_answer listening (s.takeEvents_taken low high)
  · exact exec_readEvents_answer listening (s.takeEvents_range (by omega))
  · and_intros <;> rfl

end Sys2Proof.Machine

/-! SUPPORT. The status summary: its flags, its X and its six bytes, and STATUS (R178, R22, section 8.6). -/

namespace Sys2Proof.Machine

/-! ### The flags and X of the summary (R178, R22) -/

/-- X is meaningful in REFERENCED and DOUBTFUL. -/
theorem PosState.valid_iff (p : PosState) : p.valid = true ↔ p = .referenced ∨ p = .doubtful := by
  cases p <;> simp [PosState.valid]

/-- X has no meaning in the other three states. -/
theorem PosState.invalid_iff (p : PosState) : p.valid = false ↔ p = .unreferenced ∨ p = .seeking ∨ p = .lost := by
  cases p <;> simp [PosState.valid]

/-- R22: where the position is known, the summary carries X clamped to 16 bits. -/
theorem State.summary_x_valid {s : State} (h : s.tracker.position.valid = true) : s.summary.x = clampX s.carriageX := if_pos h

/-- R22: where the position is not known, the summary carries 0. -/
theorem State.summary_x_invalid {s : State} (h : s.tracker.position.valid = false) : s.summary.x = 0 :=
  if_neg (Bool.eq_false_iff.mp h)

theorem State.summary_running_iff (s : State) : s.summary.running = true ↔ s.queue.plan = .running := decide_eq_true_iff

theorem State.summary_passBusy_iff (s : State) : s.summary.passBusy = true ↔ s.engine.pass ≠ none := Option.isSome_iff_ne_none

theorem State.summary_forced_iff (s : State) :
    s.summary.forced = true ↔ s.monitor.forcedAlert = true ∨ s.monitor.forcedCaution = true := Bool.or_eq_true_iff

/-! ### The summary in bytes (section 8.6) -/

/-- R181: bit k of a byte made of bits is the k-th of them. -/
theorem getLsbD_bitsByte {bits : List Bool} (fits : bits.length ≤ 8) {k : Nat} (h : k < bits.length) :
    (bitsByte bits).getLsbD k = bits[k] := by
  have shown : bitsAt [bitsByte bits] 0 (bits.map (· = true)) :=
    bitsAt_bitsByte bits _ [] fits (List.length_map _).symm fun j _ _ => by rw [List.getElem_map]
  have bit : (bitsByte bits).getLsbD k = true ↔ (bits.map (· = true)).getD k False := shown k (by omega)
  rw [List.getD_eq_getElem _ _ (by rwa [List.length_map]), List.getElem_map] at bit
  exact Bool.eq_iff_iff.mpr bit

/-- Byte 1 of the summary (section 8.6). -/
def Summary.flagByte (m : Summary) : Byte :=
  bitsByte [m.alert, m.caution, m.service, m.ready, m.running, m.passBusy, m.stop, m.forced]

theorem Summary.bytes_eq (m : Summary) :
    m.bytes = [m.flagByte] ++ bytesOf 1 m.queueLength ++ bytesOf 1 m.unread ++ bytesOf 1 m.position.code ++ bytesOf 2 m.x := rfl

/-- Section 8.6: the eight flags of byte 1, bit by bit. -/
theorem Summary.flagByte_getLsbD (m : Summary) :
    m.flagByte.getLsbD 0 = m.alert ∧ m.flagByte.getLsbD 1 = m.caution ∧ m.flagByte.getLsbD 2 = m.service
      ∧ m.flagByte.getLsbD 3 = m.ready ∧ m.flagByte.getLsbD 4 = m.running ∧ m.flagByte.getLsbD 5 = m.passBusy
      ∧ m.flagByte.getLsbD 6 = m.stop ∧ m.flagByte.getLsbD 7 = m.forced := by
  have bit := fun k (h : k < 8) => getLsbD_bitsByte
    (bits := [m.alert, m.caution, m.service, m.ready, m.running, m.passBusy, m.stop, m.forced]) (Nat.le_refl 8) h
  exact ⟨bit 0 (by decide), bit 1 (by decide), bit 2 (by decide), bit 3 (by decide), bit 4 (by decide), bit 5 (by decide),
    bit 6 (by decide), bit 7 (by decide)⟩

/-! ### STATUS (R178) -/

/-- R178: STATUS looks at nothing but whether the unit listens, and leaves the state to the reply. -/
theorem exec_status {s : State} (h : s.listening) : exec (.status []) s = .next (s.sendReply (kindByte 0x01) (accept [])) :=
  congrArg Host.Outcome.next (State.addressed_answer h _ rfl rfl)

/-! ### The obligation -/

/-- Settles O11: the summary field by field, X by whether the position is known, and the flag byte bit by bit. -/
theorem statusSummary : Obligations.StatusSummary := by
  refine ⟨fun s => ?_, fun s listening => exec_status listening, fun s heard => exec_broadcastRefused (by decide) heard⟩
  exact ⟨rfl, rfl, rfl, rfl, s.summary_running_iff, s.summary_passBusy_iff, rfl, s.summary_forced_iff, rfl, rfl, rfl,
    fun known => State.summary_x_valid ((PosState.valid_iff _).mpr known),
    fun unknown => State.summary_x_invalid ((PosState.invalid_iff _).mpr unknown),
    s.summary.flagByte, s.summary.bytes_eq, s.summary.flagByte_getLsbD⟩

end Sys2Proof.Machine

/-! SUPPORT. READ_SETTING and IDENTIFY: what the settings block answers for each setting number, and the identity of the part
byte by byte (R185). -/

namespace Sys2Proof.Machine

/-! ### READ_SETTING (R185) -/

/-- R185: a number above 29 names no setting. -/
theorem State.readSetting_range {n : Nat} (s : State) (h : 29 < n) : State.readSetting n s = (s, refuse .range) :=
  if_pos h

/-- R185: the number as it came and the present value, locked or not. -/
theorem State.readSetting_value {n : Byte} (s : State) (h : n.toNat ≤ 29) :
    State.readSetting n.toNat s = (s, accept ([n] ++ bytesOf 4 (s.setting n.toNat))) := by
  rw [State.readSetting, if_neg (Nat.not_lt.mpr h), bytesOf_byte]

theorem exec_readSetting_answer {n : Byte} {s t : State} {a : Answer} (h : s.listening)
    (o : State.readSetting n.toNat s = (t, a)) : exec (.readSetting [n]) s = .next (t.sendReply (kindByte 0x1B) a) :=
  congrArg Host.Outcome.next (State.addressed_answer h _ rfl o)

/-! ### IDENTIFY (R185) -/

/-- R185: vendor code 1E6Bh, part code 412 and silicon revision 3, each low byte first. -/
theorem identity_bytes : identity = [0x6B, 0x1E, 0x9C, 0x01, 0x03] := by
  decide

theorem exec_identify_answer {s : State} (h : s.listening) :
    exec (.identify []) s = .next (s.sendReply (kindByte 0x20) (accept identity)) :=
  congrArg Host.Outcome.next (State.addressed_answer h _ rfl rfl)

/-! ### The obligation -/

/-- Settles O19: READ_SETTING by the setting number, IDENTIFY by the bytes of the identity, and neither as a broadcast. -/
theorem readSettingAndIdentify : Obligations.ReadSettingAndIdentify := by
  refine ⟨fun n s low listening => ?_, fun n s above listening => ?_, fun s listening => ?_, fun s heard => ⟨?_, ?_⟩⟩
  · exact exec_readSetting_answer listening (s.readSetting_value low)
  · exact exec_readSetting_answer listening (s.readSetting_range above)
  · rw [← identity_bytes]
    exact exec_identify_answer listening
  · exact exec_broadcastRefused (by decide) heard
  · exact exec_broadcastRefused (by decide) heard

end Sys2Proof.Machine

/-! SUPPORT. What holds of every state a command can leave: the rules by which a law kept by every command is kept by every step,
and the laws of the plan through each command (R16, R44, R45, R61, R63, R71, R79, R89). -/

namespace Sys2Proof.Machine

/-! ### Laws along a step -/

/-- What holds of the next state of an outcome, where it has one. -/
def Leaves (P : State → Prop) (o : Host.Outcome State Fault Refusal) : Prop := ∀ t, o = .next t → P t

theorem Leaves.next {P : State → Prop} {t : State} (h : P t) : Leaves P (.next t) := by
  rintro _ ⟨⟩
  exact h

theorem Leaves.refused {P : State → Prop} (r : Refusal) : Leaves P (.refused r) := by
  rintro _ ⟨⟩

theorem Leaves.ite {P : State → Prop} {c : Prop} [Decidable c] {o p : Host.Outcome State Fault Refusal} (h : Leaves P o)
    (k : Leaves P p) : Leaves P (if c then o else p) := by
  split
  · exact h
  · exact k

/-- A law that every command keeps, and a unit of time too, is kept by every step. -/
theorem step_keeps {P : State → Prop} (pending : ∀ s l, P s → P (s.setPending l)) (tick : ∀ s, P s → P s.tick)
    (exec : ∀ c s, P s → Leaves P (exec c s)) {s : State} (h : P s) : Leaves P (step s) := by
  unfold step
  split
  · exact .next (tick s h)
  · exact exec _ _ (pending s _ h)

/-- A law that two states keep is kept by the choice between them. -/
theorem keeps_ite {α : Type} {P : α → Prop} {c : Prop} [Decidable c] {u v : α} (h : P u) (k : P v) : P (if c then u else v) := by
  split
  · exact h
  · exact k

/-! ### The one block that a request of a block's owner can change -/

theorem State.defineLine_store (q : Nat × Nat) (s : State) : ∃ v, (State.defineLine q s).1 = s.setStore v := by
  unfold State.defineLine
  dsimp only
  repeat' split
  all_goals exact ⟨_, rfl⟩

theorem State.writeLine_store (w : WriteRequest) (s : State) : ∃ v, (State.writeLine w s).1 = s.setStore v := by
  unfold State.writeLine
  dsimp only
  repeat' split
  all_goals exact ⟨_, rfl⟩

theorem State.sealLine_store (id : Nat) (s : State) : ∃ v, (State.sealLine id s).1 = s.setStore v := by
  unfold State.sealLine
  repeat' split
  all_goals exact ⟨_, rfl⟩

theorem State.reopenLine_store (id : Nat) (s : State) : ∃ v, (State.reopenLine id s).1 = s.setStore v := by
  unfold State.reopenLine
  repeat' split
  all_goals exact ⟨_, rfl⟩

theorem State.dropLine_store (id : Nat) (s : State) : ∃ v, (State.dropLine id s).1 = s.setStore v := by
  unfold State.dropLine
  repeat' split
  all_goals exact ⟨_, rfl⟩

theorem State.queryLine_state (id : Nat) (s : State) : (State.queryLine id s).1 = s := by
  unfold State.queryLine
  split <;> rfl

theorem State.readSetting_state (n : Nat) (s : State) : (State.readSetting n s).1 = s := by
  unfold State.readSetting
  split <;> rfl

theorem State.holdWrite_yarn (w : HeadWrite) (s : State) : ∃ p, (State.holdWrite w s).1 = s.setYarn { s.yarn with pendingWrite := p } := by
  unfold State.holdWrite
  repeat' split
  all_goals exact ⟨_, rfl⟩

theorem State.takeEvents_monitor (k : Nat) (s : State) :
    (State.takeEvents k s).1 = s.setMonitor { s.monitor with events := s.monitor.events.drop k }
      ∨ (State.takeEvents k s).1 = s := by
  unfold State.takeEvents
  split
  · exact .inr rfl
  · exact .inl rfl

/-! ### The laws of the plan, command by command -/

theorem State.PlanLaw.of_setStore {s t : State} (h : s.PlanLaw) (e : ∃ v, t = s.setStore v) : t.PlanLaw := by
  obtain ⟨v, rfl⟩ := e
  exact h.congr rfl

theorem State.PlanLaw.sampleStraps {s : State} (h : s.PlanLaw) : s.sampleStraps.PlanLaw := keeps_ite (h.raise _) h

theorem State.PlanLaw.setRx {s : State} (h : s.PlanLaw) (r) : (s.setRx r).PlanLaw := h.congr rfl

theorem State.PlanLaw.setLink {s : State} (h : s.PlanLaw) (l) : (s.setLink l).PlanLaw := h.congr rfl

theorem State.PlanLaw.sendReply {s : State} (h : s.PlanLaw) (k a) : (s.sendReply k a).PlanLaw := h.congr (by simp)

theorem State.PlanLaw.faultFrame {s : State} (h : s.PlanLaw) (c k) : (s.faultFrame c k).PlanLaw :=
  keeps_ite h ((h.raise _).setRx _)

theorem State.PlanLaw.frameStart {s : State} (h : s.PlanLaw) : Leaves State.PlanLaw (execFrameStart s) := by
  unfold execFrameStart
  apply Leaves.next
  split
  · exact h.setRx _
  all_goals exact h

/-- A unit of time moves the stall timer, which stands stopped with no pass. -/
theorem State.PlanLaw.tick {s : State} (h : s.PlanLaw) : s.tick.PlanLaw := by
  have law := (planLaw_iff s).mp h
  refine (planLaw_iff s.tick).mpr { law with stall := fun noPass => ?_ }
  obtain ⟨stopped, quiet⟩ := law.stall noPass
  exact ⟨congrArg (Option.map fun n => n - 1) stopped, quiet⟩

theorem State.PlanLaw.setLevels {s : State} (h : s.PlanLaw) (a b) : (s.setLevels a b).PlanLaw := h.congr rfl

theorem State.PlanLaw.countTransition {s : State} (h : s.PlanLaw) (l : EncLine) :
    Leaves State.PlanLaw (execCountTransition l s) := by
  unfold execCountTransition
  refine .next (keeps_ite (keeps_ite (State.PlanLaw.trackTransition ?_ _ _) ?_) (State.PlanLaw.positionJump ?_)) <;>
    cases l <;> exact h.congr rfl

theorem State.PlanLaw.loadHome {s : State} (h : s.PlanLaw) : s.loadHome.PlanLaw :=
  have loaded : (s.setTracker { s.tracker with
      count := s.homeCount, position := .referenced, seekTimer := none
      markWindow := s.loadedWindow s.homeCount }).PlanLaw := h.setTracker _ rfl rfl rfl fun _ => rfl
  loaded.log _

theorem State.PlanLaw.homeMarkEdge {s : State} (h : s.PlanLaw) : Leaves State.PlanLaw (execHomeMarkEdge s) := by
  unfold execHomeMarkEdge
  apply Leaves.next
  split
  · exact h.loadHome
  · exact keeps_ite h.goodMark (h.slip _)
  · exact keeps_ite h.goodMark (h.slip _)
  · exact h
  · exact h

theorem State.PlanLaw.needleMarkEdge {s : State} (h : s.PlanLaw) : Leaves State.PlanLaw (execNeedleMarkEdge s) :=
  .next (keeps_ite (keeps_ite (h.goodMark.congr rfl) (h.slip _)) h)

/-- R8: the seek timer runs in SEEKING, where no pass is in progress. -/
theorem State.PlanLaw.seekTimerExpiry {s : State} (h : s.PlanLaw) : Leaves State.PlanLaw (execSeekTimerExpiry s) := by
  unfold execSeekTimerExpiry
  apply Leaves.next
  split
  case isTrue seeking =>
    have unreferenced : (s.setTracker { s.tracker with
        position := .unreferenced, seekTimer := none, lastPeriod := none }).PlanLaw := by
      refine h.setTracker _ rfl rfl rfl fun inPass => ?_
      have valid := h.pass.position inPass
      rw [seeking] at valid
      cases valid
    exact unreferenced.raise _
  case isFalse => exact h


theorem State.PlanLaw.stallExpires {s : State} (h : s.PlanLaw) (inPass : s.tracker.phase ≠ .none) : s.stallExpires.PlanLaw := by
  have live : (s.setTracker { s.tracker with stallTimer := none, stallLive := true }).PlanLaw := by
    have law := (planLaw_iff s).mp h
    refine (planLaw_iff _).mpr { law with stall := fun noPass => absurd ?_ inPass }
    have outside := law.current.symm.trans noPass
    rw [Bool.or_eq_false_iff] at outside
    obtain ⟨notActive, notFinishing⟩ := outside
    have phase := law.phase
    rw [notActive, notFinishing] at phase
    exact phase
  exact keeps_ite (State.PlanLaw.settled (keeps_ite live (live.raise _))) (keeps_ite live (live.raise _))

theorem State.PlanLaw.stallTimerExpiry {s : State} (h : s.PlanLaw) : Leaves State.PlanLaw (execStallTimerExpiry s) := by
  unfold execStallTimerExpiry
  apply Leaves.next
  split
  case isTrue running =>
    rw [Bool.and_eq_true, decide_eq_true_eq] at running
    exact h.stallExpires running.2
  case isFalse => exact h

theorem State.PlanLaw.takeCountdownExpiry {s : State} (h : s.PlanLaw) (i) :
    Leaves State.PlanLaw (execTakeCountdownExpiry i s) := by
  unfold execTakeCountdownExpiry
  apply Leaves.next
  split
  · exact State.PlanLaw.abortPass (h.congr (by simp)) _
  all_goals exact h

theorem State.PlanLaw.releaseCountdownExpiry {s : State} (h : s.PlanLaw) (i) :
    Leaves State.PlanLaw (execReleaseCountdownExpiry i s) := by
  unfold execReleaseCountdownExpiry
  apply Leaves.next
  split
  · exact State.PlanLaw.abortPass (h.congr (by simp)) _
  all_goals exact h

theorem State.PlanLaw.takeEdge {s : State} (h : s.PlanLaw) (i l) : (s.takeEdge i l).PlanLaw := by
  unfold State.takeEdge
  split
  case isFalse => exact h
  case isTrue =>
    split
    case h_1 f pos _ =>
      have coupled : ((s.putLatch i (Latch.mk (.closed f) 0)).putFeeder f (.coupled (s.feeder f).rail i)).PlanLaw :=
        h.congr (by simp)
      exact State.PlanLaw.completeIfSettled ((coupled.log (.feederTaken f i pos)).congr (by simp))
    case h_2 f _ =>
      have parked : ((s.putFeeder f (.parked (s.feeder f).rail (s.feeder f).releasePoint)).openLatch i).PlanLaw :=
        h.congr (by simp)
      exact State.PlanLaw.completeIfSettled ((parked.log (.feederReleased f i (s.feeder f).releasePoint)).congr (by simp))
    case h_3 f _ =>
      have dropped : ((s.noteRaise (.feederMissed f i .dropped)).faultFeeder i f).PlanLaw := h.congr (by simp)
      exact keeps_ite (dropped.abortPass _) (dropped.congr (by simp))
    all_goals exact h

theorem State.PlanLaw.coupleSenseEdge {s : State} (h : s.PlanLaw) (i l) :
    Leaves State.PlanLaw (execCoupleSenseEdge i l s) := by
  have heard : (s.setSense i.val l).PlanLaw := h.congr rfl
  exact .next (keeps_ite h (heard.takeEdge _ _))

theorem State.PlanLaw.pollStart {s : State} (h : s.PlanLaw) : Leaves State.PlanLaw (execPollStart s) := by
  unfold execPollStart
  apply Leaves.next
  split
  · unfold State.startPoll
    split
    all_goals exact h.congr rfl
  all_goals exact h

theorem State.PlanLaw.endTransaction {s : State} (h : s.PlanLaw) (rest) : (s.endTransaction rest).PlanLaw := h.congr rfl

theorem State.PlanLaw.pollEnd {s : State} (h : s.PlanLaw) (o) : Leaves State.PlanLaw (execPollEnd o s) := by
  unfold execPollEnd
  apply Leaves.next
  split
  · exact keeps_ite (h.endTransaction _) ((h.endTransaction _).applyOutcome _ _ _)
  all_goals exact h

theorem State.PlanLaw.headWriteEnd {s : State} (h : s.PlanLaw) (o) : Leaves State.PlanLaw (execHeadWriteEnd o s) := by
  unfold execHeadWriteEnd
  apply Leaves.next
  split
  case h_1 rest _ =>
    have ended : ((s.setYarn { s.yarn with pendingWrite := none }).endTransaction rest).PlanLaw := h.congr rfl
    exact ended.log _
  all_goals exact h

/-- Each command keeps the laws of the plan. -/
theorem State.PlanLaw.exec {s : State} (h : s.PlanLaw) (c : Instr) : Leaves State.PlanLaw (exec c s) := by
  cases c with
  | powerOn pins => exact .next (State.PlanLaw.blocksReset s _ pins).sampleStraps
  | restart b => exact .next (h.addressed _ _ _ fun _ => h.setLink _)
  | restartEffect pins => exact .next (keeps_ite (State.PlanLaw.blocksReset s _ pins).sampleStraps h)
  | countTransition l => exact h.countTransition l
  | illegalTransition => exact .next (h.setLevels _ _).positionJump
  | homeMarkEdge => exact h.homeMarkEdge
  | needleMarkEdge => exact h.needleMarkEdge
  | seekTimerExpiry => exact h.seekTimerExpiry
  | stallTimerExpiry => exact h.stallTimerExpiry
  | takeCountdownExpiry i => exact h.takeCountdownExpiry i
  | releaseCountdownExpiry i => exact h.releaseCountdownExpiry i
  | coupleSenseEdge i l => exact h.coupleSenseEdge i l
  | sweepTimerExpiry => exact .next (h.congr rfl)
  | pollStart => exact h.pollStart
  | pollEnd o => exact h.pollEnd o
  | headWriteEnd o => exact h.headWriteEnd o
  | strapRead l => exact .next (keeps_ite ((h.setLink _).raise _) (h.setLink _))
  | settingsDisturbance k => exact .next (keeps_ite (h.congr rfl) h)
  | frameAbandon => exact .next (h.faultFrame _ _)
  | badCheckFrame => exact .next (h.faultFrame _ _)
  | unknownKind k =>
    exact .ite (.next (keeps_ite h (keeps_ite (h.setRx _) ((h.raise _).sendReply _ _)))) (.refused _)
  | broadcastRefused k => exact .ite (.next (h.faultFrame _ _)) (.refused _)
  | replyEnd => exact .next (keeps_ite (h.setRx _) h)
  | status b => exact .next (h.addressed _ _ _ fun _ => h)
  | home b => exact .next (h.addressed _ _ _ h.takeHome)
  | queryPosition b => exact .next (h.addressed _ _ _ fun _ => h)
  | defineLine b => exact .next (h.addressed _ _ _ fun a => h.of_setStore (State.defineLine_store a s))
  | writeLine b => exact .next (h.addressed _ _ _ fun a => h.of_setStore (State.writeLine_store a s))
  | sealLine b => exact .next (h.addressed _ _ _ fun a => h.of_setStore (State.sealLine_store a s))
  | reopenLine b => exact .next (h.addressed _ _ _ fun a => h.of_setStore (State.reopenLine_store a s))
  | dropLine b => exact .next (h.addressed _ _ _ fun a => h.of_setStore (State.dropLine_store a s))
  | queryLine b => exact .next (h.addressed _ _ _ fun id => (State.queryLine_state id s).symm ▸ h)
  | queuePass b => exact .next (State.addressed_keeps State.PlanLaw (fun _ r k => k.setRx r) (fun _ b a k => k.sendReply b a) (fun _ d k => k.raise d) h
      _ _ _      fun r parsed => h.queuePass r (parseQueuePass_state parsed))
  | cancelQueued b => exact .next (h.addressed _ _ _ h.cancelQueued)
  | stopCycling b => exact .next (h.addressed _ _ _ h.stopCycling)
  | resume b => exact .next (h.addressed _ _ _ h.resume)
  | halt d b => exact .next (h.request d _ _ _ h.halt)
  | go d b => exact .next (h.request d _ _ _ h.giveGo)
  | queryQueue b => exact .next (h.addressed _ _ _ fun _ => h)
  | declareFeeder b => exact .next (h.addressed _ _ _ h.declareFeeder)
  | forgetFeeder b => exact .next (h.addressed _ _ _ h.forgetFeeder)
  | queryFeeders b => exact .next (h.addressed _ _ _ fun _ => h)
  | headWrite b =>
    refine .next (h.addressed _ _ _ fun w => ?_)
    obtain ⟨v, held⟩ := State.holdWrite_yarn w s
    exact h.congr (by rw [held, planView_setYarn])
  | queryHeads b => exact .next (h.addressed _ _ _ fun _ => h)
  | queryConditions b => exact .next (h.addressed _ _ _ fun _ => h)
  | clearConditions d b => exact .next (h.request d _ _ _ fun _ => h.congr rfl)
  | force b => exact .next (h.addressed _ _ _ fun _ => h.congr rfl)
  | readEvents b =>
    refine .next (h.addressed _ _ _ fun k => ?_)
    rcases State.takeEvents_monitor k s with taken | refused
    · exact h.congr (by rw [taken, planView_setMonitor])
    · exact refused.symm ▸ h
  | syncTime d b => exact .next (h.request d _ _ _ fun _ => h.congr rfl)
  | readSetting b => exact .next (h.addressed _ _ _ fun n => (State.readSetting_state n s).symm ▸ h)
  | writeSetting b => exact .next (h.addressed _ _ _ h.writeSetting)
  | lockSettings b => exact .next (h.addressed _ _ _ h.lockSettings)
  | unlockSettings b => exact .next (h.addressed _ _ _ h.unlockSettings)
  | identify b => exact .next (h.addressed _ _ _ fun _ => h)
  | frameStart => exact h.frameStart
  | foreignFrame => exact .next (keeps_ite h (h.setRx _))

/-- Settles O56: each command keeps the laws, and a unit of time too. -/
theorem stepKeepsThePlanLaw : Obligations.StepKeepsThePlanLaw := fun _ t h e =>
  step_keeps (fun _ _ k => k.congr rfl) (fun _ k => k.tick) (fun c _ k => k.exec c) h t e

end Sys2Proof.Machine

/-! SUPPORT. The reference counts of the lines through every command (R37, R38). They depend on the line store and on the channels of
the queued records alone (`State.refView`); a flush, an abort, a completion, an admission and a cancel change both together. -/

namespace Sys2Proof.Machine

/-! ### What the reference counts depend on -/

/-- The line store, and the channels of the queued records. -/
def State.refView (s : State) : Vector Line 64 × List (List Channel) := (s.store, s.queue.records.map PassRecord.channels)

theorem State.namesOf_eq (s : State) (id : Nat) :
    s.namesOf id = (s.queue.records.map PassRecord.channels).flatten.countP fun c => decide (c.line = id) := by
  rw [State.namesOf, List.flatMap_def]

theorem State.referenceLaw.congr {s t : State} (h : s.referenceLaw) (e : t.refView = s.refView) : t.referenceLaw := by
  obtain ⟨store, channels⟩ := Prod.ext_iff.mp e
  intro id
  have lines : t.line id = s.line id := congrArg (fun v => v.getD id Line.free) store
  rw [lines, h id, State.namesOf_eq, State.namesOf_eq]
  exact congrArg (fun l => (List.flatten l).countP fun c => decide (c.line = id)) channels.symm

theorem refView_of_eq {s t : State} (store : t.store = s.store) (queue : t.queue = s.queue) : t.refView = s.refView := by
  rw [State.refView, State.refView, store, queue]

/-! ### Operations that leave the view -/

theorem refView_mapHead (s : State) (g : PassRecord → PassRecord) (h : ∀ r, (g r).channels = r.channels) :
    (s.mapHead g).refView = s.refView := by
  refine Prod.ext rfl ?_
  show List.map PassRecord.channels (match s.queue.records with | [] => [] | r :: rs => g r :: rs) = _
  split
  next e => rw [State.refView, e]
  next r rs e => rw [State.refView, e, List.map_cons, h r, List.map_cons]

theorem refView_remark (s : State) (i : Nat) (o n : Mark) : (s.remark i o n).refView = s.refView :=
  refView_mapHead s _ fun r => Resolves.channels_remark r i o n

theorem refView_setHeadState (s : State) (v : RecordState) : (s.setHeadState v).refView = s.refView :=
  refView_mapHead s _ fun _ => rfl

theorem refView_armHead (s : State) : s.armHead.refView = s.refView := by
  unfold State.armHead
  split
  · refine refView_mapHead s _ fun r => ?_
    split <;> rfl
  · rfl

theorem refView_putFeeder (s : State) (f : Nat) (v : Feeder) : (s.putFeeder f v).refView = s.refView := by
  unfold State.putFeeder
  dsimp only
  split <;> rfl

theorem refView_followProjection (s : State) : s.followProjection.refView = s.refView := by
  unfold State.followProjection
  split <;> rfl

theorem refView_correctProjection (s : State) (i f : Nat) : (s.correctProjection i f).refView = s.refView := by
  unfold State.correctProjection
  split
  · exact refView_followProjection s
  · split
    · split <;> rfl
    all_goals rfl

theorem refView_foldl {α : Type} (g : State → α → State) (hg : ∀ s a, (g s a).refView = s.refView) (l : List α) (s : State) :
    (l.foldl g s).refView = s.refView := by
  induction l generalizing s with
  | nil => rfl
  | cons a l ih => exact (ih _).trans (hg s a)

theorem refView_returnFeeder (s : State) (i f : Nat) (p : Int) : (s.returnFeeder i f p).refView = s.refView :=
  refView_putFeeder s f _

theorem refView_faultFeeder (s : State) (i f : Nat) : (s.faultFeeder i f).refView = s.refView := refView_putFeeder s f _

theorem refView_expireTake (s : State) (i f : Nat) (p : Int) : (s.expireTake i f p).refView = s.refView :=
  (refView_remark _ _ _ _).trans (refView_returnFeeder (s.noteRaise _) i f p)

theorem refView_expireRelease (s : State) (i f : Nat) : (s.expireRelease i f).refView = s.refView :=
  (refView_remark _ _ _ _).trans (refView_faultFeeder (s.noteRaise _) i f)

theorem refView_countdownStep (acc : State × Option AbortReason) (i : Nat) :
    (State.countdownStep acc i).1.refView = acc.1.refView := by
  unfold State.countdownStep
  dsimp only
  split
  case h_3 f pos _ =>
    split
    · exact refView_expireTake acc.1 i f pos
    · rfl
  case h_4 f _ =>
    split
    · exact refView_expireRelease acc.1 i f
    · rfl
  all_goals rfl

theorem refView_countdownFold (l : List Nat) (acc : State × Option AbortReason) :
    (l.foldl State.countdownStep acc).1.refView = acc.1.refView := by
  induction l generalizing acc with
  | nil => rfl
  | cons i l ih => exact (ih _).trans (refView_countdownStep acc i)

theorem refView_driveRelease (s : State) (i f : Nat) (x : Int) : (s.driveRelease i f x).refView = s.refView :=
  (refView_remark _ _ _ _).trans (refView_putFeeder (s.putLatch i _) f _)

theorem refView_resolveAll (s : State) : s.resolveAll.refView = s.refView :=
  Prod.ext (Resolves.resolveAll s).store (Resolves.resolveAll s).channels

theorem refView_markTravel (s : State) : s.markTravel.refView = s.refView := by
  rw [State.markTravel_eq]
  rfl

theorem refView_restartStall (s : State) : s.restartStall.refView = s.refView := by
  unfold State.restartStall
  split <;> rfl

/-! ### Flush, abort and completion -/

/-- R66: where every record leaves the queue with its references, no line has one left. -/
theorem State.referenceLaw.emptied {s t : State} (h : s.referenceLaw) (store : t.store = s.queue.records.foldl dropRefs s.store)
    (records : t.queue.records = []) : t.referenceLaw := by
  intro id
  have dropped := dropAll_refs s.queue.records s.store id
  have counted : (s.store.getD id .free).refs = s.namesOf id := h id
  rw [State.namesOf_eq, records, State.line, store, dropped, counted, State.namesOf]
  exact Nat.sub_self _

theorem State.referenceLaw.flush {s : State} (h : s.referenceLaw) (c) : (s.flush c).referenceLaw := by
  rw [State.flush_eq]
  exact h.emptied rfl rfl

theorem State.referenceLaw.abortPass {s : State} (h : s.referenceLaw) (r) : (s.abortPass r).referenceLaw := by
  cases e : s.engine.pass with
  | none => rwa [State.abortPass_noPass e]
  | some p =>
    rw [State.abortPass_eq s r p e]
    exact h.emptied rfl rfl

theorem State.referenceLaw.abortHead {s : State} (h : s.referenceLaw) (r) : (s.abortHead r).referenceLaw :=
  State.referenceLaw.flush (s := s.append _) (h.congr rfl) _

theorem State.referenceLaw.abortFor {s : State} (h : s.referenceLaw) (r) : (s.abortFor r).referenceLaw := by
  cases r with
  | none => exact h
  | some r => exact h.abortPass r

theorem State.referenceLaw.raise {s : State} (h : s.referenceLaw) (d) : (s.raise d).referenceLaw :=
  State.referenceLaw.abortFor (s := s.noteRaise d) (h.congr rfl) _

theorem State.referenceLaw.log {s : State} (h : s.referenceLaw) (e) : (s.log e).referenceLaw :=
  State.referenceLaw.abortFor (s := s.append e) (h.congr rfl) _

/-- R37: a line that a queued record names is SEALED, since it has a reference. -/
theorem State.referenceLaw.isSealed {s : State} (h : s.referenceLaw) {r : PassRecord} (hr : r ∈ s.queue.records) {c : Channel}
    (hc : c ∈ r.channels) : (s.line c.line).isSealed = true := by
  have named : 0 < s.namesOf c.line :=
    List.countP_pos_iff.mpr ⟨c, List.mem_flatMap.mpr ⟨r, hr, hc⟩, decide_eq_true rfl⟩
  have counted := h c.line
  cases e : s.line c.line with
  | sealed d k n => rfl
  | free => rw [e] at counted; exact absurd counted (Nat.ne_of_lt named)
  | opened d => rw [e] at counted; exact absurd counted (Nat.ne_of_lt named)

/-- A record whose references are dropped and raised again leaves every count as it was. -/
theorem refs_drop_add {st : Vector Line 64} {r : PassRecord} (h : ∀ c ∈ r.channels, (st.getD c.line .free).isSealed = true)
    (id : Nat) : ((addRefs (dropRefs st r) r).getD id .free).refs
      = (st.getD id .free).refs - (r.channels.countP fun c => decide (c.line = id))
        + r.channels.countP fun c => decide (c.line = id) := by
  have still : ∀ c ∈ r.channels, ((dropRefs st r).getD c.line .free).isSealed = true := fun c hc =>
    (isSealed_of_content (dropRefs_content st r c.line)).trans (h c hc)
  rw [addRefs_refs _ _ _ still, dropRefs_refs]

/-- R65: a completed record returns its references, and takes them again where it cycles. -/
theorem State.referenceLaw.completeRecord {s : State} (h : s.referenceLaw) : s.completeRecord.referenceLaw := by
  unfold State.completeRecord
  split
  case h_1 => exact h
  case h_2 r rs e =>
    have counted : ∀ id, (s.store.getD id .free).refs
        = (r.channels.countP fun c => decide (c.line = id))
          + (rs.flatMap PassRecord.channels).countP fun c => decide (c.line = id) := fun id => by
      have named := h id
      rwa [State.namesOf, e, List.flatMap_cons, List.countP_append] at named
    refine State.referenceLaw.congr ?_ (refView_armHead _)
    split
    case isTrue =>
      intro id
      have allSealed : ∀ c ∈ r.channels, (s.store.getD c.line .free).isSealed = true := fun c hc =>
        h.isSealed (e ▸ List.mem_cons_self) hc
      show ((addRefs (dropRefs s.store r) r).getD id .free).refs
        = ((rs ++ [{ r with state := .queued }]).flatMap PassRecord.channels).countP _
      rw [refs_drop_add allSealed id, counted id, List.flatMap_append, List.countP_append, List.flatMap_singleton]
      show _ = _ + r.channels.countP _
      omega
    case isFalse =>
      intro id
      show ((dropRefs s.store r).getD id .free).refs = (rs.flatMap PassRecord.channels).countP _
      rw [dropRefs_refs, counted id]
      omega

theorem State.referenceLaw.completePass {s : State} (h : s.referenceLaw) : s.completePass.referenceLaw := by
  unfold State.completePass
  dsimp only
  generalize ended : State.append _ (Event.passEnded _ _) = t
  have law : t.referenceLaw := by
    subst ended
    exact h.congr rfl
  have marked : (if s.markDue (s.engine.passCounter + 1) = true then t.append (.passMark (s.engine.passCounter + 1)) else t).referenceLaw :=
    keeps_ite (law.congr rfl) law
  exact keeps_ite (marked.completeRecord.flush _) marked.completeRecord

theorem State.referenceLaw.completeIfSettled {s : State} (h : s.referenceLaw) : s.completeIfSettled.referenceLaw :=
  keeps_ite h.completePass h

/-! ### Steps -/

theorem State.referenceLaw.foldl {α : Type} (g : State → α → State) (hg : ∀ s a, s.referenceLaw → (g s a).referenceLaw)
    (l : List α) {s : State} (h : s.referenceLaw) : (l.foldl g s).referenceLaw := by
  induction l generalizing s with
  | nil => exact h
  | cons a l ih => exact ih (hg s a h)

theorem State.referenceLaw.arrive {s : State} (h : s.referenceLaw) (m x i) : (State.arrive m x s i).referenceLaw := by
  unfold State.arrive
  split
  case h_1 => exact h
  case h_2 p _ =>
    refine keeps_ite ?_ h
    unfold State.arriveAt
    dsimp only
    split
    case h_1 d _ =>
      refine State.referenceLaw.raise (h.congr ?_) d
      split <;> rfl
    case h_2 =>
      refine h.congr ?_
      split <;> rfl

theorem State.referenceLaw.arrivals {s : State} (h : s.referenceLaw) (m x) : (s.arrivals m x).referenceLaw :=
  State.referenceLaw.foldl _ (fun _ i k => k.arrive m x i) _ h

theorem State.referenceLaw.countdowns {s : State} (h : s.referenceLaw) : s.countdowns.referenceLaw :=
  State.referenceLaw.abortFor (h.congr (refView_countdownFold _ _)) _

theorem State.referenceLaw.driveTake {s : State} (h : s.referenceLaw) (i f r p) : (s.driveTake i f r p).referenceLaw := by
  unfold State.driveTake
  refine keeps_ite (State.referenceLaw.abortPass (h.congr ?_) _) (h.congr ?_)
  · exact refView_remark _ _ _ _
  · exact (refView_remark _ _ _ _).trans (refView_putFeeder (s.putLatch i _) _ _)

theorem State.referenceLaw.reach {s : State} (h : s.referenceLaw) (x i n) : (State.reach x i n s).referenceLaw := by
  induction n generalizing s with
  | zero => exact h
  | succ n ih =>
    unfold State.reach
    split
    · exact h
    · split
      · exact keeps_ite (h.driveTake _ _ _ _) h
      all_goals exact h
    · exact keeps_ite (keeps_ite (h.congr (refView_driveRelease _ _ _ _)) (ih (h.congr (refView_remark _ _ _ _)))) h

theorem State.referenceLaw.feederStep {s : State} (h : s.referenceLaw) (x) : (s.feederStep x).referenceLaw :=
  keeps_ite (State.referenceLaw.foldl _ (fun _ i k => keeps_ite (k.reach x i 2) k) _ h.countdowns) h.countdowns

theorem State.referenceLaw.measurePeriod {s : State} (h : s.referenceLaw) : s.measurePeriod.referenceLaw := by
  unfold State.measurePeriod
  split
  · exact h
  · exact keeps_ite (State.referenceLaw.raise (by exact h.congr rfl) _) (h.congr rfl)

theorem State.referenceLaw.exitPass {s : State} (h : s.referenceLaw) : s.exitPass.referenceLaw :=
  keeps_ite (h.congr (refView_setHeadState s.clearBanks _)) (State.referenceLaw.completePass (s := s.clearBanks) (h.congr rfl))

theorem State.referenceLaw.activeAdvance {s : State} (h : s.referenceLaw) (d x) : (s.activeAdvance d x).referenceLaw := by
  have arrived := h.measurePeriod.arrivals true x
  have moved : ((s.measurePeriod.arrivals true x).feederStep x).markTravel.referenceLaw :=
    (arrived.feederStep x).congr (refView_markTravel _)
  exact keeps_ite (keeps_ite (keeps_ite moved.exitPass moved) arrived) h.measurePeriod

theorem State.referenceLaw.advance {s : State} (h : s.referenceLaw) (p x) : (s.advance p x).referenceLaw := by
  have further : (s.setEngine { s.engine with pass := some { p with furthestX := x } }).referenceLaw := h.congr rfl
  exact keeps_ite (further.activeAdvance _ x) (further.feederStep x)

theorem State.referenceLaw.startPass {s : State} (h : s.referenceLaw) (r x) : (s.startPass r x).referenceLaw := by
  have fresh : (s.mapHead fun h => { h with
      state := .active
      entries := h.entries.map fun e => { e with actions := e.actions.map fun a => { a with mark := .notReached } } }).referenceLaw :=
    h.congr (refView_mapHead s _ fun k => List.flatMap_map ..)
  unfold State.startPass
  dsimp only
  exact State.referenceLaw.arrivals (State.referenceLaw.log (by exact fresh.congr rfl) _) _ _

theorem State.referenceLaw.entryCrossing {s : State} (h : s.referenceLaw) (d x) : (s.entryCrossing d x).referenceLaw := by
  unfold State.entryCrossing
  split
  · exact h.raise _
  · split
    case h_4 =>
      exact keeps_ite ((h.raise _).abortHead _) (keeps_ite ((h.raise _).abortHead _)
        (keeps_ite (h.startPass _ x) ((h.raise _).abortHead _)))
    all_goals exact h

theorem State.referenceLaw.carriageStep {s : State} (h : s.referenceLaw) (d x) : (s.carriageStep d x).referenceLaw := by
  unfold State.carriageStep
  dsimp only
  have moved : (s.setTracker { s.tracker with lastDir := d }).restartStall.referenceLaw :=
    h.congr (refView_restartStall _)
  split
  · exact keeps_ite (moved.entryCrossing d x) moved
  case h_2 p _ =>
    exact keeps_ite (keeps_ite (moved.advance p x) (keeps_ite (moved.arrivals false x) moved)) (keeps_ite (moved.raise _) moved)

/-! ### The tracker's events -/

theorem State.referenceLaw.enterLost {s : State} (h : s.referenceLaw) (c) : (s.enterLost c).referenceLaw :=
  State.referenceLaw.raise (by exact h.congr rfl) _

theorem State.referenceLaw.slip {s : State} (h : s.referenceLaw) (src) : (s.slip src).referenceLaw := by
  unfold State.slip
  dsimp only
  have raised := h.raise (.markSlip src)
  split
  · exact raised.congr rfl
  · exact raised.enterLost _
  all_goals exact raised

theorem State.referenceLaw.positionJump {s : State} (h : s.referenceLaw) : s.positionJump.referenceLaw :=
  keeps_ite ((h.raise _).enterLost _) h

theorem State.referenceLaw.trackTransition {s : State} (h : s.referenceLaw) (d old) : (s.trackTransition d old).referenceLaw := by
  have windowed : ∀ w, (s.setTracker { s.tracker with markWindow := w }).referenceLaw := fun _ => h.congr rfl
  unfold State.trackTransition
  dsimp only
  split
  · exact keeps_ite (((windowed _).slip _).carriageStep d _) ((windowed _).slip _)
  · exact keeps_ite ((windowed _).carriageStep d _) (windowed _)

theorem State.referenceLaw.countTransition {s : State} (h : s.referenceLaw) (l : EncLine) :
    Leaves State.referenceLaw (execCountTransition l s) := by
  unfold execCountTransition
  refine .next (keeps_ite (keeps_ite (State.referenceLaw.trackTransition ?_ _ _) ?_) (State.referenceLaw.positionJump ?_)) <;>
    cases l <;> exact h.congr rfl

theorem State.referenceLaw.homeMarkEdge {s : State} (h : s.referenceLaw) : Leaves State.referenceLaw (execHomeMarkEdge s) := by
  unfold execHomeMarkEdge
  apply Leaves.next
  split
  · exact State.referenceLaw.log (by exact h.congr rfl) _
  · exact keeps_ite (h.congr rfl) (h.slip _)
  · exact keeps_ite (h.congr rfl) (h.slip _)
  all_goals exact h

theorem State.referenceLaw.stallExpires {s : State} (h : s.referenceLaw) : s.stallExpires.referenceLaw := by
  have live : (s.setTracker { s.tracker with stallTimer := none, stallLive := true }).referenceLaw := h.congr rfl
  have raised : (if s.tracker.stallLive = true then s.setTracker { s.tracker with stallTimer := none, stallLive := true }
      else (s.setTracker { s.tracker with stallTimer := none, stallLive := true }).raise
        (.stall s.tracker.phase s.carriageX)).referenceLaw := keeps_ite live (live.raise _)
  exact keeps_ite (State.referenceLaw.completeIfSettled (raised.congr (refView_resolveAll _))) raised

theorem State.referenceLaw.takeEdge {s : State} (h : s.referenceLaw) (i l) : (s.takeEdge i l).referenceLaw := by
  unfold State.takeEdge
  refine keeps_ite ?_ h
  split
  case h_1 f pos _ =>
    have coupled := h.congr (refView_putFeeder (s.putLatch i (Latch.mk (.closed f) 0)) f (.coupled (s.feeder f).rail i))
    exact State.referenceLaw.completeIfSettled ((coupled.log (.feederTaken f i pos)).congr (refView_remark _ _ _ _))
  case h_2 f _ =>
    have parked := h.congr (refView_putFeeder s f (.parked (s.feeder f).rail (s.feeder f).releasePoint))
    have released : ((s.putFeeder f (.parked (s.feeder f).rail (s.feeder f).releasePoint)).openLatch i).referenceLaw :=
      parked.congr rfl
    exact State.referenceLaw.completeIfSettled
      ((released.log (.feederReleased f i (s.feeder f).releasePoint)).congr (refView_remark _ _ _ _))
  case h_3 f _ =>
    have dropped : ((s.noteRaise (.feederMissed f i .dropped)).faultFeeder i f).referenceLaw :=
      h.congr (refView_faultFeeder (s.noteRaise _) i f)
    exact keeps_ite (dropped.abortPass _) (dropped.congr (refView_correctProjection _ i f))
  all_goals exact h

/-! ### The yarn monitor's events -/

theorem State.referenceLaw.applyOutcome {s : State} (h : s.referenceLaw) (f c o) : (s.applyOutcome f c o).referenceLaw := by
  unfold State.applyOutcome
  split
  case h_1 how => exact keeps_ite (State.referenceLaw.raise (by exact h.congr rfl) _) (h.congr rfl)
  case h_2 motion tension =>
    have moved : (s.applyMotion f c motion tension).referenceLaw :=
      keeps_ite (State.referenceLaw.raise (by exact h.congr rfl) _) (h.congr rfl)
    refine keeps_ite ?_ moved
    unfold State.applyTension
    dsimp only
    split
    · exact State.referenceLaw.raise (by exact moved.congr rfl) _
    · exact moved.congr rfl

theorem State.referenceLaw.pollEnd {s : State} (h : s.referenceLaw) (o) : Leaves State.referenceLaw (execPollEnd o s) := by
  unfold execPollEnd
  apply Leaves.next
  split
  case h_1 f cut disc rest _ =>
    have ended : (s.endTransaction rest).referenceLaw := h.congr rfl
    exact keeps_ite ended (ended.applyOutcome f cut o)
  all_goals exact h

theorem State.referenceLaw.pollStart {s : State} (h : s.referenceLaw) : Leaves State.referenceLaw (execPollStart s) := by
  unfold execPollStart
  apply Leaves.next
  split
  · unfold State.startPoll
    split
    all_goals exact h.congr rfl
  all_goals exact h

theorem State.referenceLaw.headWriteEnd {s : State} (h : s.referenceLaw) (o) :
    Leaves State.referenceLaw (execHeadWriteEnd o s) := by
  unfold execHeadWriteEnd
  apply Leaves.next
  split
  case h_1 rest _ =>
    have ended : ((s.setYarn { s.yarn with pendingWrite := none }).endTransaction rest).referenceLaw := h.congr rfl
    exact ended.log _
  all_goals exact h

/-! ### Requests on lines -/

/-- A line without references gives way to another without references. -/
theorem State.referenceLaw.putLine {s : State} (h : s.referenceLaw) {id : Nat} {l : Line} (old : (s.line id).refs = 0)
    (new : l.refs = 0) : (s.putLine id l).referenceLaw := by
  intro k
  refine Eq.trans ?_ (h k)
  rw [State.line_putLine]
  split
  case isTrue here =>
    obtain ⟨rfl, -⟩ := here
    rw [new, old]
  case isFalse => rfl

theorem Line.refs_free {l : Line} (h : l = .free) : l.refs = 0 := by rw [h]; rfl

theorem Line.refs_opened {l : Line} {d : LineData} (h : l = .opened d) : l.refs = 0 := by rw [h]; rfl

theorem Line.refs_sealed {l : Line} {d : LineData} {c : List Code} {n : Nat} (h : l = .sealed d c n) (k : ¬ 0 < n) :
    l.refs = 0 := by
  rw [h]
  exact Nat.eq_zero_of_not_pos k

theorem State.referenceLaw.defineLine {s : State} (h : s.referenceLaw) (q) : (State.defineLine q s).1.referenceLaw := by
  unfold State.defineLine
  dsimp only
  split
  · exact h
  · split
    case h_3 e =>
      split
      · exact h
      · exact h.putLine (Line.refs_free e) rfl
    all_goals exact h

theorem State.referenceLaw.writeLine {s : State} (h : s.referenceLaw) (w) : (State.writeLine w s).1.referenceLaw := by
  unfold State.writeLine
  dsimp only
  split
  · exact h
  · split
    case h_3 e =>
      split
      · exact h
      · exact h.putLine (Line.refs_opened e) rfl
    all_goals exact h

theorem State.referenceLaw.sealLine {s : State} (h : s.referenceLaw) (id) : (State.sealLine id s).1.referenceLaw := by
  unfold State.sealLine
  split
  · exact h
  · split
    case h_3 e =>
      split
      · exact h
      · exact h.putLine (Line.refs_opened e) rfl
    all_goals exact h

theorem State.referenceLaw.reopenLine {s : State} (h : s.referenceLaw) (id) : (State.reopenLine id s).1.referenceLaw := by
  unfold State.reopenLine
  split
  · exact h
  · split
    case h_3 e =>
      split
      · exact h
      · next unused => exact h.putLine (Line.refs_sealed e unused) rfl
    all_goals exact h

theorem State.referenceLaw.dropLine {s : State} (h : s.referenceLaw) (id) : (State.dropLine id s).1.referenceLaw := by
  unfold State.dropLine
  split
  · exact h
  · split
    case h_1 => exact h
    case h_2 e => exact h.putLine (Line.refs_opened e) rfl
    case h_3 e =>
      split
      · exact h
      · next unused => exact h.putLine (Line.refs_sealed e unused) rfl

/-! ### Requests on the queue -/

/-- R49: an admitted record names SEALED lines alone. -/
theorem State.admission_sealed {s : State} {r : PassRecord} (h : s.admission r = none) :
    ∀ c ∈ r.channels, (s.line c.line).isSealed = true := by
  have passed : s.checkSealed r = none := by
    unfold State.admission at h
    simp only [Option.or_eq_none_iff] at h
    obtain ⟨-, -, -, passed, -⟩ := h
    exact passed
  intro c hc
  by_contra loose
  refine (s.checkSealed_iff r).mpr ⟨c, hc, fun d k n e => loose ?_⟩ passed
  rw [e]
  rfl

theorem Channel.line_resolve (n : Int) (c : Channel) : (c.resolve n).line = c.line := by
  unfold Channel.resolve
  split <;> rfl

theorem PassRecord.channels_resolve (r : PassRecord) (n : Int) : (r.resolve n).channels = r.channels.map (Channel.resolve n) := by
  simp only [PassRecord.channels, PassRecord.resolve, List.flatMap_map, List.map_flatMap, List.map_append, Option.toList_map]

/-- The widths that an admission resolves are no part of a reference. -/
theorem countP_channels_resolve (r : PassRecord) (n : Int) (id : Nat) :
    ((r.resolve n).channels.countP fun c => decide (c.line = id)) = r.channels.countP fun c => decide (c.line = id) := by
  rw [PassRecord.channels_resolve, List.countP_map]
  exact List.countP_congr fun c _ => by simp only [Function.comp_apply, Channel.line_resolve]

/-- R37, R57: an admitted record raises the counts of the lines it names, each by its channels. -/
theorem enqueue_refs {s : State} {r : PassRecord} (h : s.admission r = none) (id : Nat) :
    ((s.enqueue r).line id).refs = (s.line id).refs + r.channels.countP fun c => decide (c.line = id) := by
  have allSealed : ∀ c ∈ (r.resolve s.needles).channels, (s.store.getD c.line .free).isSealed = true := by
    intro c hc
    rw [PassRecord.channels_resolve] at hc
    obtain ⟨d, hd, rfl⟩ := List.mem_map.mp hc
    rw [Channel.line_resolve]
    exact State.admission_sealed h d hd
  have store : (s.enqueue r).store = addRefs s.store (r.resolve s.needles) :=
    congrArg Prod.fst (refView_armHead _)
  rw [State.line, store, addRefs_refs _ _ _ allSealed, countP_channels_resolve]
  rfl

theorem State.referenceLaw.enqueue {s : State} (h : s.referenceLaw) {r : PassRecord} (admitted : s.admission r = none) :
    (s.enqueue r).referenceLaw := by
  intro id
  have queued : (s.enqueue r).queue.records.map PassRecord.channels
      = s.queue.records.map PassRecord.channels ++ [(r.resolve s.needles).channels] :=
    (congrArg Prod.snd (refView_armHead _)).trans List.map_append
  rw [enqueue_refs admitted, h id, State.namesOf_eq, State.namesOf_eq, queued, List.flatten_append, List.countP_append,
    List.flatten_singleton, countP_channels_resolve]

theorem State.referenceLaw.queuePass {s : State} (h : s.referenceLaw) (r) : (State.queuePass r s).1.referenceLaw := by
  unfold State.queuePass
  split
  · exact h
  · split
    · exact h
    · next admitted => exact h.enqueue admitted

/-- R67: the removed records return their references, and the kept ones keep theirs. -/
theorem State.referenceLaw.cancelQueued {s : State} (h : s.referenceLaw) (a) : (State.cancelQueued a s).1.referenceLaw := by
  refine State.referenceLaw.log (fun id => ?_) _
  show ((List.foldl dropRefs s.store (s.queue.records.filter fun r => !r.state.inPass)).getD id .free).refs
    = ((s.queue.records.filter fun r => r.state.inPass).flatMap PassRecord.channels).countP _
  have named := h id
  have split := (List.filter_append_perm (fun r => r.state.inPass) s.queue.records).flatMap_right PassRecord.channels
  have counted := split.countP_eq fun c => decide (c.line = id)
  rw [List.flatMap_append, List.countP_append] at counted
  rw [State.namesOf, ← counted] at named
  rw [dropAll_refs]
  exact Nat.sub_eq_of_eq_add named

theorem State.referenceLaw.stopCycling {s : State} (h : s.referenceLaw) (a) : (State.stopCycling a s).1.referenceLaw :=
  h.congr (Prod.ext rfl (List.map_map ..))

theorem State.referenceLaw.resume {s : State} (h : s.referenceLaw) (a) : (State.resume a s).1.referenceLaw := by
  unfold State.resume
  split
  · exact h
  · split
    · exact h
    · split
      · exact h
      · exact h.congr (refView_armHead _)

theorem State.referenceLaw.halt {s : State} (h : s.referenceLaw) (a) : (State.halt a s).1.referenceLaw :=
  keeps_ite (h.abortPass _) (h.flush _)

theorem State.referenceLaw.giveGo {s : State} (h : s.referenceLaw) (a) : (State.giveGo a s).1.referenceLaw :=
  keeps_ite (P := fun p : State × Answer => p.1.referenceLaw) (h.congr (refView_setHeadState s _)) h

/-! ### Requests on the feeders and on the settings -/

theorem State.referenceLaw.followProjection {s : State} (h : s.referenceLaw) : s.followProjection.referenceLaw :=
  h.congr (refView_followProjection s)

theorem State.referenceLaw.declareFeeder {s : State} (h : s.referenceLaw) (q) : (State.declareFeeder q s).1.referenceLaw := by
  unfold State.declareFeeder
  repeat' split
  case isFalse.isFalse.isFalse.isFalse.isFalse =>
    exact State.referenceLaw.followProjection (h.congr (refView_putFeeder s _ _))
  all_goals exact h

theorem State.referenceLaw.forgetFeeder {s : State} (h : s.referenceLaw) (f) : (State.forgetFeeder f s).1.referenceLaw := by
  unfold State.forgetFeeder
  repeat' split
  case isFalse.isFalse.isFalse => exact State.referenceLaw.followProjection (h.congr (refView_putFeeder s _ _))
  all_goals exact h

theorem State.referenceLaw.limitStill {s : State} (h : s.referenceLaw) (old f) : (State.limitStill old s f).referenceLaw :=
  keeps_ite (State.referenceLaw.raise (by exact h.congr rfl) _) (h.congr rfl)

theorem State.referenceLaw.limitSilent {s : State} (h : s.referenceLaw) (old f) : (State.limitSilent old s f).referenceLaw :=
  keeps_ite (State.referenceLaw.raise (by exact h.congr rfl) _) (h.congr rfl)

theorem refView_faultOutside (s : State) (f : Nat) : (s.faultOutside f).refView = s.refView := by
  unfold State.faultOutside
  split
  · split
    · rfl
    · exact refView_putFeeder s f _
  all_goals rfl

theorem refView_removeLatch (s : State) (i : Nat) : (s.removeLatch i).refView = s.refView := by
  unfold State.removeLatch
  split
  case h_4 => rfl
  all_goals exact refView_faultFeeder s i _

theorem State.referenceLaw.settingWritten {s : State} (h : s.referenceLaw) (n a b) : (s.settingWritten n a b).referenceLaw := by
  have tracking : s.trackingWritten.referenceLaw := keeps_ite (h.congr rfl) h
  have field : s.fieldWritten.referenceLaw :=
    State.referenceLaw.followProjection (h.congr (refView_foldl _ refView_faultOutside _ _))
  have systems : s.systemsWritten.referenceLaw :=
    State.referenceLaw.followProjection (h.congr (refView_foldl _ refView_removeLatch _ _))
  have still := State.referenceLaw.foldl (State.limitStill a) (fun _ f k => k.limitStill a f) (List.range 16) h
  have silent := State.referenceLaw.foldl (State.limitSilent b) (fun _ f k => k.limitSilent b f) (List.range 16) h
  unfold State.settingWritten
  split
  · exact tracking
  · exact tracking
  · exact tracking
  · exact tracking
  · exact field
  · exact field
  · exact field
  · exact systems
  · exact still
  · exact silent
  · exact h

theorem State.referenceLaw.writeSetting {s : State} (h : s.referenceLaw) (q) : (State.writeSetting q s).1.referenceLaw := by
  have put : (s.putSetting q.1 q.2).referenceLaw := h.congr rfl
  unfold State.writeSetting
  repeat' split
  case isFalse.isFalse.isFalse => exact put.settingWritten _ _ _
  all_goals exact h

theorem State.referenceLaw.lockSettings {s : State} (h : s.referenceLaw) (a) : (State.lockSettings a s).1.referenceLaw := by
  unfold State.lockSettings
  repeat' split
  all_goals exact h.congr rfl

theorem State.referenceLaw.unlockSettings {s : State} (h : s.referenceLaw) (a) : (State.unlockSettings a s).1.referenceLaw := by
  unfold State.unlockSettings
  repeat' split
  all_goals exact h.congr rfl

/-! ### The law command by command -/

theorem State.referenceLaw.blocksReset (s : State) (b p) : (s.blocksReset b p).referenceLaw := fun id => by
  rw [State.line, State.namesOf]
  exact congrArg Line.refs (getD_replicate Line.free id)

theorem State.referenceLaw.sampleStraps {s : State} (h : s.referenceLaw) : s.sampleStraps.referenceLaw := keeps_ite (h.raise _) h

theorem State.referenceLaw.setRx {s : State} (h : s.referenceLaw) (r) : (s.setRx r).referenceLaw := h.congr rfl

theorem State.referenceLaw.sendReply {s : State} (h : s.referenceLaw) (k a) : (s.sendReply k a).referenceLaw := h.congr rfl

theorem State.referenceLaw.setYarn {s : State} (h : s.referenceLaw) (v) : (s.setYarn v).referenceLaw := h.congr rfl

theorem State.referenceLaw.setMonitor {s : State} (h : s.referenceLaw) (v) : (s.setMonitor v).referenceLaw := h.congr rfl

theorem State.referenceLaw.setTracker {s : State} (h : s.referenceLaw) (v) : (s.setTracker v).referenceLaw := h.congr rfl

theorem State.referenceLaw.setLink {s : State} (h : s.referenceLaw) (v) : (s.setLink v).referenceLaw := h.congr rfl

theorem State.referenceLaw.faultFrame {s : State} (h : s.referenceLaw) (c k) : (s.faultFrame c k).referenceLaw :=
  keeps_ite h ((h.raise _).setRx _)

theorem State.referenceLaw.frameStart {s : State} (h : s.referenceLaw) : Leaves State.referenceLaw (execFrameStart s) := by
  unfold execFrameStart
  apply Leaves.next
  split
  · exact h.setRx _
  all_goals exact h

theorem State.referenceLaw.addressed {α} {s : State} (h : s.referenceLaw) (k) (p : Option α) (o)
    (ho : ∀ a, (o a s).1.referenceLaw) : (s.addressed k p o).referenceLaw :=
  State.addressed_keeps State.referenceLaw (fun _ r k => k.setRx r) (fun _ b a k => k.sendReply b a) (fun _ d k => k.raise d) h
    k p o fun a _ => ho a

theorem State.referenceLaw.request {α} {s : State} (h : s.referenceLaw) (d k) (p : Option α) (o)
    (ho : ∀ a, (o a s).1.referenceLaw) : (s.request d k p o).referenceLaw :=
  State.request_keeps State.referenceLaw (fun _ r k => k.setRx r) (fun _ b a k => k.sendReply b a) (fun _ d k => k.raise d) h
    d k p o fun a _ => ho a

theorem State.referenceLaw.takeCountdownExpiry {s : State} (h : s.referenceLaw) (i) :
    Leaves State.referenceLaw (execTakeCountdownExpiry i s) := by
  unfold execTakeCountdownExpiry
  apply Leaves.next
  split
  · exact State.referenceLaw.abortPass (h.congr (refView_expireTake s _ _ _)) _
  all_goals exact h

theorem State.referenceLaw.releaseCountdownExpiry {s : State} (h : s.referenceLaw) (i) :
    Leaves State.referenceLaw (execReleaseCountdownExpiry i s) := by
  unfold execReleaseCountdownExpiry
  apply Leaves.next
  split
  · exact State.referenceLaw.abortPass (h.congr (refView_expireRelease s _ _)) _
  all_goals exact h

/-- Each command keeps the reference counts. -/
theorem State.referenceLaw.exec {s : State} (h : s.referenceLaw) (c : Instr) : Leaves State.referenceLaw (exec c s) := by
  cases c with
  | powerOn pins => exact .next (State.referenceLaw.blocksReset s _ pins).sampleStraps
  | restart b => exact .next (h.addressed _ _ _ fun _ => h.setLink _)
  | restartEffect pins => exact .next (keeps_ite (State.referenceLaw.blocksReset s _ pins).sampleStraps h)
  | countTransition l => exact h.countTransition l
  | illegalTransition => exact .next (State.referenceLaw.positionJump (h.setTracker _))
  | homeMarkEdge => exact h.homeMarkEdge
  | needleMarkEdge => exact .next (keeps_ite (keeps_ite (h.congr rfl) (h.slip _)) h)
  | seekTimerExpiry => exact .next (keeps_ite ((h.setTracker _).raise _) h)
  | stallTimerExpiry => exact .next (keeps_ite h.stallExpires h)
  | takeCountdownExpiry i => exact h.takeCountdownExpiry i
  | releaseCountdownExpiry i => exact h.releaseCountdownExpiry i
  | coupleSenseEdge i l => exact .next (keeps_ite h (State.referenceLaw.takeEdge (by exact h.congr rfl) _ _))
  | sweepTimerExpiry => exact .next (h.setYarn _)
  | pollStart => exact h.pollStart
  | pollEnd o => exact h.pollEnd o
  | headWriteEnd o => exact h.headWriteEnd o
  | strapRead l => exact .next (keeps_ite ((h.setLink _).raise _) (h.setLink _))
  | settingsDisturbance k => exact .next (keeps_ite (h.congr rfl) h)
  | frameAbandon => exact .next (h.faultFrame _ _)
  | badCheckFrame => exact .next (h.faultFrame _ _)
  | unknownKind k =>
    exact .ite (.next (keeps_ite h (keeps_ite (h.setRx _) ((h.raise _).sendReply _ _)))) (.refused _)
  | broadcastRefused k => exact .ite (.next (h.faultFrame _ _)) (.refused _)
  | replyEnd => exact .next (keeps_ite (h.setRx _) h)
  | status b => exact .next (h.addressed _ _ _ fun _ => h)
  | home b =>
    exact .next (h.addressed _ _ _ fun _ => keeps_ite (P := fun p : State × Answer => p.1.referenceLaw) h
      (keeps_ite (P := fun p : State × Answer => p.1.referenceLaw) h (h.setTracker _)))
  | queryPosition b => exact .next (h.addressed _ _ _ fun _ => h)
  | defineLine b => exact .next (h.addressed _ _ _ h.defineLine)
  | writeLine b => exact .next (h.addressed _ _ _ h.writeLine)
  | sealLine b => exact .next (h.addressed _ _ _ h.sealLine)
  | reopenLine b => exact .next (h.addressed _ _ _ h.reopenLine)
  | dropLine b => exact .next (h.addressed _ _ _ h.dropLine)
  | queryLine b => exact .next (h.addressed _ _ _ fun id => (State.queryLine_state id s).symm ▸ h)
  | queuePass b => exact .next (h.addressed _ _ _ h.queuePass)
  | cancelQueued b => exact .next (h.addressed _ _ _ h.cancelQueued)
  | stopCycling b => exact .next (h.addressed _ _ _ h.stopCycling)
  | resume b => exact .next (h.addressed _ _ _ h.resume)
  | halt d b => exact .next (h.request d _ _ _ h.halt)
  | go d b => exact .next (h.request d _ _ _ h.giveGo)
  | queryQueue b => exact .next (h.addressed _ _ _ fun _ => h)
  | declareFeeder b => exact .next (h.addressed _ _ _ h.declareFeeder)
  | forgetFeeder b => exact .next (h.addressed _ _ _ h.forgetFeeder)
  | queryFeeders b => exact .next (h.addressed _ _ _ fun _ => h)
  | headWrite b =>
    refine .next (h.addressed _ _ _ fun w => ?_)
    obtain ⟨v, held⟩ := State.holdWrite_yarn w s
    exact held.symm ▸ h.setYarn _
  | queryHeads b => exact .next (h.addressed _ _ _ fun _ => h)
  | queryConditions b => exact .next (h.addressed _ _ _ fun _ => h)
  | clearConditions d b => exact .next (h.request d _ _ _ fun _ => h.setMonitor _)
  | force b => exact .next (h.addressed _ _ _ fun _ => h.setMonitor _)
  | readEvents b =>
    refine .next (h.addressed _ _ _ fun k => ?_)
    rcases State.takeEvents_monitor k s with taken | refused
    · exact taken.symm ▸ h.setMonitor _
    · exact refused.symm ▸ h
  | syncTime d b => exact .next (h.request d _ _ _ fun _ => h.setMonitor _)
  | readSetting b => exact .next (h.addressed _ _ _ fun n => (State.readSetting_state n s).symm ▸ h)
  | writeSetting b => exact .next (h.addressed _ _ _ h.writeSetting)
  | lockSettings b => exact .next (h.addressed _ _ _ h.lockSettings)
  | unlockSettings b => exact .next (h.addressed _ _ _ h.unlockSettings)
  | identify b => exact .next (h.addressed _ _ _ fun _ => h)
  | frameStart => exact h.frameStart
  | foreignFrame => exact .next (keeps_ite h (h.setRx _))

/-- Settles O57: each command keeps the counts, and a unit of time touches neither the lines nor the queue. -/
theorem stepKeepsTheReferenceLaw : Obligations.StepKeepsTheReferenceLaw := fun _ t h e =>
  step_keeps (fun _ _ k => k.congr rfl) (fun _ k => k.congr rfl) (fun c _ k => k.exec c) h t e

end Sys2Proof.Machine

/-! SUPPORT. What the events of the carriage leave alone, and what every command keeps: the waiting commands, the capacity of the
event queue and the code cells (R26, R163, and the frame of section 95). -/

namespace Sys2Proof.Machine

/-! ### The code cells (R26) -/

theorem State.cellCount_eq (s : State) : s.cellCount = (mapTable lineCells s.store).toList.sum := rfl

theorem lineCells_content (l : Line) : lineCells l.content = lineCells l := by
  cases l <;> rfl

theorem State.cellCount_congr {s t : State} (h : ∀ id, (t.line id).content = (s.line id).content) : t.cellCount = s.cellCount := by
  have cells : mapTable lineCells t.store = mapTable lineCells s.store := by
    refine ext_getD (lineCells .free) fun id _ => ?_
    rw [getD_mapTable, getD_mapTable, ← lineCells_content, ← lineCells_content (s.store.getD id .free)]
    exact congrArg lineCells (h id)
  rw [State.cellCount_eq, State.cellCount_eq, cells]

theorem sum_set_add_getElem (l : List Nat) (i : Nat) (a : Nat) (h : i < l.length) : (l.set i a).sum + l[i] = l.sum + a := by
  induction l generalizing i with
  | nil => cases h
  | cons b l ih =>
    cases i with
    | zero =>
      simp only [List.set_cons_zero, List.sum_cons, List.getElem_cons_zero]
      omega
    | succ i =>
      have rest := ih i (Nat.lt_of_succ_lt_succ h)
      simp only [List.set_cons_succ, List.sum_cons, List.getElem_cons_succ]
      omega

/-- R26: a line that is written anew gives its old cells back and takes its new ones. -/
theorem State.cellCount_putLine (s : State) {id : Nat} (h : id ≤ 63) (l : Line) :
    (s.putLine id l).cellCount + lineCells (s.line id) = s.cellCount + lineCells l := by
  have within : id < 64 := by omega
  have put : (s.putLine id l).store.toList.map lineCells = (s.store.toList.map lineCells).set id (lineCells l) := by
    rw [← List.map_set]
    exact congrArg (List.map lineCells) (Vector.toList_setIfInBounds ..)
  have old : (s.store.toList.map lineCells)[id]'(by simpa using within) = lineCells (s.line id) := by
    simp [State.line, Vector.getD, within]
  rw [State.cellCount, State.cellCount, put, ← old]
  exact sum_set_add_getElem _ _ _ _

/-! ### The frame of the carriage's events -/

/-- What the events of the carriage, of the marks and of the timers leave, in a pass or out of it. -/
structure EventFrame (s t : State) : Prop where
  pending : t.pending = s.pending
  settings : t.settings = s.settings
  link : t.link = s.link
  freeCount : t.freeCount = s.freeCount
  clock : t.tracker.clock = s.tracker.clock
  monitor : s.monitor.Grows t.monitor
  senses : t.feeders.senses = s.feeders.senses
  sweepTimer : t.yarn.sweepTimer = s.yarn.sweepTimer
  pendingWrite : t.yarn.pendingWrite = s.yarn.pendingWrite
  lines : ∀ id, (t.line id).content = (s.line id).content

namespace EventFrame

theorem ofRun {s t : State} (h : RunFrame s t) : EventFrame s t :=
  ⟨h.pending, h.settings, h.link, h.freeCount, h.clock, h.monitor, h.senses, h.sweepTimer, h.pendingWrite, h.lines⟩

theorem refl (s : State) : EventFrame s s := ofRun (RunFrame.refl s)

theorem trans {s t u : State} (h : EventFrame s t) (k : EventFrame t u) : EventFrame s u where
  pending := k.pending.trans h.pending
  settings := k.settings.trans h.settings
  link := k.link.trans h.link
  freeCount := k.freeCount.trans h.freeCount
  clock := k.clock.trans h.clock
  monitor := h.monitor.trans k.monitor
  senses := k.senses.trans h.senses
  sweepTimer := k.sweepTimer.trans h.sweepTimer
  pendingWrite := k.pendingWrite.trans h.pendingWrite
  lines := fun id => (k.lines id).trans (h.lines id)

/-- A run of the pass goes on after the event. -/
theorem run {s t u : State} (h : EventFrame s t) (k : RunFrame t u) : EventFrame s u := h.trans (ofRun k)

theorem setTracker (s : State) (v : Tracker) (h : v.clock = s.tracker.clock := by rfl) : EventFrame s (s.setTracker v) :=
  { refl s with clock := h }

theorem setYarn (s : State) (v : YarnMonitor) (h : v.sweepTimer = s.yarn.sweepTimer) (k : v.pendingWrite = s.yarn.pendingWrite) :
    EventFrame s (s.setYarn v) := ofRun (RunFrame.setYarn s v h k)

theorem enterLost (s : State) (c : LostCause) : EventFrame s (s.enterLost c) :=
  (setTracker s _).run (s.enterLost_frame c)

theorem slip (s : State) (src : SlipSource) : EventFrame s (s.slip src) := by
  have raised := ofRun (RunFrame.raise s (.markSlip src))
  unfold State.slip
  dsimp only
  split
  · exact raised.trans (setTracker _ _)
  · exact raised.trans (enterLost _ _)
  all_goals exact raised

theorem positionJump (s : State) : EventFrame s s.positionJump :=
  keeps_ite ((ofRun (RunFrame.raise s _)).trans (enterLost _ _)) (refl s)

theorem trackTransition (s : State) (d : Direction) (old : Int) : EventFrame s (s.trackTransition d old) := by
  have windowed : ∀ w, EventFrame s (s.setTracker { s.tracker with markWindow := w }) := fun _ => setTracker s _
  unfold State.trackTransition
  dsimp only
  split
  · exact keeps_ite (((windowed _).trans (slip _ _)).run (RunFrame.carriageStep _ _ _)) ((windowed _).trans (slip _ _))
  · exact keeps_ite ((windowed _).run (RunFrame.carriageStep _ _ _)) (windowed _)

theorem countTransition (s : State) (l : EncLine) : Leaves (EventFrame s) (execCountTransition l s) := by
  have levels : ∀ a b, EventFrame s (s.setLevels a b) := fun _ _ => setTracker s _
  have counted : ∀ a b c, EventFrame s ((s.setLevels a b).setTracker { (s.setLevels a b).tracker with count := c }) :=
    fun a b _ => (levels a b).trans (setTracker _ _)
  unfold execCountTransition
  cases l with
  | a => exact .next (keeps_ite (keeps_ite ((counted _ _ _).trans (trackTransition _ _ _)) (counted _ _ _))
      ((levels _ _).trans (positionJump _)))
  | b => exact .next (keeps_ite (keeps_ite ((counted _ _ _).trans (trackTransition _ _ _)) (counted _ _ _))
      ((levels _ _).trans (positionJump _)))

theorem homeMarkEdge (s : State) : Leaves (EventFrame s) (execHomeMarkEdge s) := by
  have good : EventFrame s s.goodMark := setTracker s _
  unfold execHomeMarkEdge
  apply Leaves.next
  split
  · exact (setTracker s _).run (RunFrame.log _ _)
  · exact keeps_ite good (slip _ _)
  · exact keeps_ite good (slip _ _)
  all_goals exact refl s

theorem needleMarkEdge (s : State) : Leaves (EventFrame s) (execNeedleMarkEdge s) :=
  .next (keeps_ite (keeps_ite ((setTracker s _).trans (setTracker s.goodMark _)) (slip _ _)) (refl s))

theorem seekTimerExpiry (s : State) : Leaves (EventFrame s) (execSeekTimerExpiry s) :=
  .next (keeps_ite ((setTracker s _).run (RunFrame.raise _ _)) (refl s))

theorem stallTimerExpiry (s : State) : Leaves (EventFrame s) (execStallTimerExpiry s) :=
  .next (keeps_ite (ofRun (RunFrame.stallExpires s)) (refl s))

theorem takeCountdownExpiry (s : State) (i : Fin 4) : Leaves (EventFrame s) (execTakeCountdownExpiry i s) := by
  unfold execTakeCountdownExpiry
  apply Leaves.next
  split
  · exact ofRun ((RunFrame.expireTake s _ _ _).trans (RunFrame.abortPass _ _))
  all_goals exact refl s

theorem releaseCountdownExpiry (s : State) (i : Fin 4) : Leaves (EventFrame s) (execReleaseCountdownExpiry i s) := by
  unfold execReleaseCountdownExpiry
  apply Leaves.next
  split
  · exact ofRun ((RunFrame.expireRelease s _ _).trans (RunFrame.abortPass _ _))
  all_goals exact refl s

theorem applyOutcome (s : State) (f : Nat) (cut : Bool) (o : PollOutcome) : EventFrame s (s.applyOutcome f cut o) := by
  have put : ∀ (t : State) (h : HeadRecord) (d : Detail), EventFrame t ((t.putHead f h).raise d) := fun t h d =>
    ofRun ((RunFrame.putHead t f h).trans (RunFrame.raise _ d))
  unfold State.applyOutcome
  split
  · exact keeps_ite (put s _ _) (ofRun (RunFrame.putHead s f _))
  case h_2 motion tension =>
    have moved : EventFrame s (s.applyMotion f cut motion tension) := keeps_ite (put s _ _) (ofRun (RunFrame.putHead s f _))
    refine keeps_ite ?_ moved
    unfold State.applyTension
    dsimp only
    split
    · exact moved.trans (put _ _ _)
    · exact moved.run (RunFrame.putHead _ f _)

theorem pollEnd (s : State) (o : PollOutcome) : Leaves (EventFrame s) (execPollEnd o s) := by
  have ended : ∀ rest, EventFrame s (s.endTransaction rest) := fun _ => setYarn s _ rfl rfl
  unfold execPollEnd
  apply Leaves.next
  split
  · exact keeps_ite (ended _) ((ended _).trans (applyOutcome _ _ _ _))
  all_goals exact refl s

end EventFrame

/-- Settles O54: each of these events has the frame, and what has only grown in the monitor keeps its clock. -/
theorem carriageEventsLeaveTheRest : Obligations.CarriageEventsLeaveTheRest := by
  intro c s t e event
  have frame : EventFrame s t := by
    rcases event with ⟨l, rfl⟩ | rfl | rfl | rfl | rfl | rfl | ⟨i, rfl⟩ | ⟨i, rfl⟩ | ⟨o, rfl⟩
    · exact EventFrame.countTransition s l t e
    · exact Leaves.next ((EventFrame.setTracker s _).trans (EventFrame.positionJump _)) t e
    · exact EventFrame.homeMarkEdge s t e
    · exact EventFrame.needleMarkEdge s t e
    · exact EventFrame.seekTimerExpiry s t e
    · exact EventFrame.stallTimerExpiry s t e
    · exact EventFrame.takeCountdownExpiry s i t e
    · exact EventFrame.releaseCountdownExpiry s i t e
    · exact EventFrame.pollEnd s o t e
  obtain ⟨timestamp, subStamp, alert, caution⟩ := frame.monitor.clock
  exact ⟨frame.pending, frame.settings, frame.link, frame.freeCount, frame.clock, timestamp, subStamp, alert, caution,
    frame.senses, frame.sweepTimer, frame.pendingWrite, frame.lines⟩

/-! ### What every command keeps -/

/-- What every command keeps: the waiting commands, and the two capacities. -/
structure StepFrame (s t : State) : Prop where
  pending : t.pending = s.pending
  events : s.eventLaw → t.eventLaw
  cells : s.storeLaw → t.storeLaw

theorem StepFrame.trans {s t u : State} (h : StepFrame s t) (k : StepFrame t u) : StepFrame s u :=
  ⟨k.pending.trans h.pending, k.events ∘ h.events, k.cells ∘ h.cells⟩

theorem StepFrame.blocksReset (s : State) (b : SettingsBlock) (p : PinLevels) : StepFrame s (s.blocksReset b p) where
  pending := rfl
  events := fun _ => Nat.zero_le _
  cells := fun _ => (by decide : State.reset.cellCount ≤ 24576)

/-- What every command but a reset of the blocks keeps: the sampled straps too. -/
structure CommandFrame (s t : State) : Prop extends StepFrame s t where
  straps : t.link.straps = s.link.straps

namespace CommandFrame

theorem ofEvent {s t : State} (h : EventFrame s t) : CommandFrame s t where
  pending := h.pending
  events := h.monitor.events_le
  cells := fun low => (State.cellCount_congr h.lines).trans_le low
  straps := congrArg LinkPort.straps h.link

theorem ofRun {s t : State} (h : RunFrame s t) : CommandFrame s t := ofEvent (.ofRun h)

theorem refl (s : State) : CommandFrame s s := ⟨⟨rfl, id, id⟩, rfl⟩

theorem trans {s t u : State} (h : CommandFrame s t) (k : CommandFrame t u) : CommandFrame s u :=
  ⟨h.toStepFrame.trans k.toStepFrame, k.straps.trans h.straps⟩

/-- A change that touches none of what the laws read. -/
theorem same {s t : State} (pending : t.pending = s.pending) (events : t.monitor.events = s.monitor.events)
    (store : t.store = s.store) (straps : t.link.straps = s.link.straps := by rfl) : CommandFrame s t where
  pending := pending
  events := fun low => by rwa [State.eventLaw, events]
  cells := fun low => by rwa [State.storeLaw, State.cellCount, store]
  straps := straps

theorem raise (s : State) (d : Detail) : CommandFrame s (s.raise d) := ofRun (RunFrame.raise s d)

theorem foldl {α : Type} (g : State → α → State) (hg : ∀ s a, CommandFrame s (g s a)) (l : List α) (s : State) :
    CommandFrame s (l.foldl g s) := by
  induction l generalizing s with
  | nil => exact refl s
  | cons a l ih => exact (hg s a).trans (ih _)

theorem addressed {α : Type} (s : State) (k : Byte) (p : Option α) (o : α → State → State × Answer)
    (ho : ∀ a, p = some a → CommandFrame s (o a s).1) : CommandFrame s (s.addressed k p o) :=
  State.addressed_keeps (CommandFrame s) (fun _ _ h => h.trans (same rfl rfl rfl)) (fun _ _ _ h => h.trans (same rfl rfl rfl))
    (fun _ d h => h.trans (raise _ d)) (refl s) k p o ho

theorem request {α : Type} (s : State) (d : Dest) (k : Byte) (p : Option α) (o : α → State → State × Answer)
    (ho : ∀ a, p = some a → CommandFrame s (o a s).1) : CommandFrame s (s.request d k p o) :=
  State.request_keeps (CommandFrame s) (fun _ _ h => h.trans (same rfl rfl rfl)) (fun _ _ _ h => h.trans (same rfl rfl rfl))
    (fun _ d h => h.trans (raise _ d)) (refl s) d k p o ho

theorem sampleStraps (s : State) : CommandFrame s s.sampleStraps := keeps_ite (raise s _) (refl s)

theorem faultFrame (s : State) (c : FrameCause) (k : Option Byte) : CommandFrame s (s.faultFrame c k) :=
  keeps_ite (refl s) ((raise s _).trans (same rfl rfl rfl))

theorem frameStart (s : State) : Leaves (CommandFrame s) (execFrameStart s) := by
  unfold execFrameStart
  apply Leaves.next
  split
  · exact same rfl rfl rfl
  all_goals exact refl s

theorem pollStart (s : State) : Leaves (CommandFrame s) (execPollStart s) := by
  unfold execPollStart
  apply Leaves.next
  split
  · unfold State.startPoll
    split
    all_goals exact same rfl rfl rfl
  all_goals exact refl s

theorem headWriteEnd (s : State) (o : WriteOutcome) : Leaves (CommandFrame s) (execHeadWriteEnd o s) := by
  unfold execHeadWriteEnd
  apply Leaves.next
  split
  case h_1 rest _ =>
    have ended : CommandFrame s ((s.setYarn { s.yarn with pendingWrite := none }).endTransaction rest) := same rfl rfl rfl
    exact ended.trans (ofRun (RunFrame.log _ _))
  all_goals exact refl s

/-! #### Lines -/

/-- A line written anew keeps the cells where it needs no more of them than are left. -/
theorem putLine (s : State) {id : Nat} (h : id ≤ 63) (l : Line)
    (room : s.storeLaw → s.cellCount + lineCells l ≤ 24576 + lineCells (s.line id)) : CommandFrame s (s.putLine id l) where
  pending := rfl
  events := fun low => low
  cells := fun low => by
    have moved := s.cellCount_putLine h l
    have fits := room low
    unfold State.storeLaw
    omega
  straps := rfl

/-- A line that keeps its length, or loses it. -/
theorem putShorter (s : State) {id : Nat} (h : id ≤ 63) (l : Line) (short : lineCells l ≤ lineCells (s.line id)) :
    CommandFrame s (s.putLine id l) :=
  putLine s h l fun low => by
    unfold State.storeLaw at low
    omega

theorem defineLine (q : Nat × Nat) (s : State) : CommandFrame s (State.defineLine q s).1 := by
  unfold State.defineLine
  dsimp only
  split
  · exact refl s
  next known =>
    split
    case h_3 free =>
      split
      · exact refl s
      next fits =>
        refine putLine s (by omega) _ fun low => ?_
        rw [free]
        simp only [lineCells, List.length_replicate]
        unfold State.cellsFree Config.codeCells at fits
        unfold State.storeLaw at low
        omega
    all_goals exact refl s

theorem writeLine {w : WriteRequest} (h : w.codes.length = w.count) (s : State) : CommandFrame s (State.writeLine w s).1 := by
  unfold State.writeLine
  dsimp only
  split
  · exact refl s
  next known =>
    split
    case h_3 d opened =>
      split
      · exact refl s
      next fits =>
        refine putShorter s (by omega) _ ?_
        rw [opened]
        exact (LineData.write_codes_length (by omega)).le
    all_goals exact refl s

theorem sealLine (id : Nat) (s : State) : CommandFrame s (State.sealLine id s).1 := by
  unfold State.sealLine
  split
  · exact refl s
  next known =>
    split
    case h_3 d opened =>
      split
      · exact refl s
      · exact putShorter s (by omega) _ (by rw [opened]; exact le_rfl)
    all_goals exact refl s

theorem reopenLine (id : Nat) (s : State) : CommandFrame s (State.reopenLine id s).1 := by
  unfold State.reopenLine
  split
  · exact refl s
  next known =>
    split
    case h_3 d _ _ closed =>
      split
      · exact refl s
      · exact putShorter s (by omega) _ (by rw [closed]; exact le_rfl)
    all_goals exact refl s

theorem dropLine (id : Nat) (s : State) : CommandFrame s (State.dropLine id s).1 := by
  unfold State.dropLine
  split
  · exact refl s
  next known =>
    have dropped : CommandFrame s (s.putLine id .free) := putShorter s (by omega) _ (Nat.zero_le _)
    split
    · exact refl s
    · exact dropped
    · split
      · exact refl s
      · exact dropped

/-! #### The queue -/

theorem enqueue (s : State) (r : PassRecord) : CommandFrame s (s.enqueue r) :=
  ofRun (((RunFrame.setStore s _ fun id => addRefs_content s.store _ id).trans (RunFrame.setQueue _ _)).trans
    (RunFrame.armHead _))

theorem queuePass (r : PassRecord) (s : State) : CommandFrame s (State.queuePass r s).1 := by
  unfold State.queuePass
  split
  · exact refl s
  · split
    · exact refl s
    · exact enqueue s r

theorem cancelQueued (a : Unit) (s : State) : CommandFrame s (State.cancelQueued a s).1 :=
  ofRun (((RunFrame.setStore s _ fun id => dropAll_content _ s.store id).trans (RunFrame.setQueue _ _)).trans (RunFrame.log _ _))

theorem resume (a : Unit) (s : State) : CommandFrame s (State.resume a s).1 := by
  unfold State.resume
  split
  · exact refl s
  · split
    · exact refl s
    · split
      · exact refl s
      · exact ofRun (RunFrame.trans (RunFrame.setQueue s { s.queue with plan := .running }) (RunFrame.armHead _))

theorem halt (a : Unit) (s : State) : CommandFrame s (State.halt a s).1 :=
  ofRun (keeps_ite (RunFrame.abortPass s _) (RunFrame.flush s _))

theorem giveGo (a : Unit) (s : State) : CommandFrame s (State.giveGo a s).1 :=
  keeps_ite (P := fun p : State × Answer => CommandFrame s p.1) (ofRun (RunFrame.setHeadState s _)) (refl s)

/-! #### Feeders and settings -/

theorem putFollow (s : State) (f : Nat) (v : Feeder) : CommandFrame s (s.putFeeder f v).followProjection :=
  ofRun ((RunFrame.putFeeder s f v).trans (RunFrame.followProjection _))

theorem declareFeeder (q : DeclareRequest) (s : State) : CommandFrame s (State.declareFeeder q s).1 := by
  unfold State.declareFeeder
  repeat' split
  case isFalse.isFalse.isFalse.isFalse.isFalse => exact putFollow s _ _
  all_goals exact refl s

theorem forgetFeeder (f : Nat) (s : State) : CommandFrame s (State.forgetFeeder f s).1 := by
  unfold State.forgetFeeder
  repeat' split
  case isFalse.isFalse.isFalse => exact putFollow s _ _
  all_goals exact refl s

theorem faultOutside (s : State) (f : Nat) : CommandFrame s (s.faultOutside f) := by
  unfold State.faultOutside
  split
  · exact keeps_ite (refl s) (ofRun (RunFrame.putFeeder s f _))
  all_goals exact refl s

theorem removeLatch (s : State) (i : Nat) : CommandFrame s (s.removeLatch i) := by
  unfold State.removeLatch
  split
  case h_4 => exact ofRun (RunFrame.openLatch s i)
  all_goals exact ofRun (RunFrame.faultFeeder s i _)

theorem limitStill (old : Nat) (s : State) (f : Nat) : CommandFrame s (State.limitStill old s f) := by
  have put : ∀ h, CommandFrame s (s.putHead f h) := fun h => ofRun (RunFrame.putHead s f h)
  exact keeps_ite ((put _).trans (raise _ _)) (put _)

theorem limitSilent (old : Nat) (s : State) (f : Nat) : CommandFrame s (State.limitSilent old s f) := by
  have put : ∀ h, CommandFrame s (s.putHead f h) := fun h => ofRun (RunFrame.putHead s f h)
  have counted : ∀ h n, CommandFrame s ((s.putHead f h).setFreeCount n) := fun h n => (put h).trans (same rfl rfl rfl)
  exact keeps_ite ((counted _ _).trans (raise _ _)) (put _)

theorem settingWritten (n a b : Nat) (s : State) : CommandFrame s (s.settingWritten n a b) := by
  have tracking : CommandFrame s s.trackingWritten := keeps_ite (same rfl rfl rfl) (refl s)
  have field : CommandFrame s s.fieldWritten := (foldl _ faultOutside _ s).trans (ofRun (RunFrame.followProjection _))
  have systems : CommandFrame s s.systemsWritten := (foldl _ removeLatch _ s).trans (ofRun (RunFrame.followProjection _))
  unfold State.settingWritten
  split
  · exact tracking
  · exact tracking
  · exact tracking
  · exact tracking
  · exact field
  · exact field
  · exact field
  · exact systems
  · exact foldl _ (limitStill a) _ s
  · exact foldl _ (limitSilent b) _ s
  · exact refl s

theorem writeSetting (q : Nat × Int) (s : State) : CommandFrame s (State.writeSetting q s).1 := by
  have put : CommandFrame s (s.putSetting q.1 q.2) := same rfl rfl rfl
  unfold State.writeSetting
  repeat' split
  case isFalse.isFalse.isFalse => exact put.trans (settingWritten _ _ _ _)
  all_goals exact refl s

theorem lockSettings (a : Unit) (s : State) : CommandFrame s (State.lockSettings a s).1 := by
  unfold State.lockSettings
  repeat' split
  all_goals exact same rfl rfl rfl

theorem unlockSettings (a : Unit) (s : State) : CommandFrame s (State.unlockSettings a s).1 := by
  unfold State.unlockSettings
  repeat' split
  all_goals exact same rfl rfl rfl

theorem takeHome (a : Unit) (s : State) : CommandFrame s (State.takeHome a s).1 := by
  unfold State.takeHome
  repeat' split
  all_goals exact same rfl rfl rfl

theorem holdWrite (w : HeadWrite) (s : State) : CommandFrame s (State.holdWrite w s).1 := by
  obtain ⟨v, held⟩ := State.holdWrite_yarn w s
  exact held.symm ▸ same rfl rfl rfl

theorem clearConditions (s : State) : CommandFrame s s.clearConditions := by
  obtain ⟨v, cleared⟩ := State.foldl_clearUnlessLive_frame s Cond.all s.monitor
  rw [State.clearConditions_eq_foldl, cleared]
  exact same rfl rfl rfl

theorem takeForce (q : Bool × Bool) (s : State) : CommandFrame s (State.takeForce q s).1 := by
  unfold State.takeForce
  split
  all_goals exact same rfl rfl rfl

theorem takeEvents (k : Nat) (s : State) : CommandFrame s (State.takeEvents k s).1 := by
  rcases State.takeEvents_monitor k s with taken | refused
  · rw [taken]
    refine ⟨⟨rfl, fun low => le_trans ?_ low, fun low => low⟩, rfl⟩
    exact (List.drop_sublist k _).length_le
  · exact refused.symm ▸ refl s

end CommandFrame

/-- The commands that reset every block. -/
def resetsBlocks : Instr → Bool
  | .powerOn _ | .restartEffect _ => true
  | _ => false

/-- Each command but a reset keeps what waits, the two capacities and the sampled straps. -/
theorem exec_commandFrame (s : State) (c : Instr) (h : resetsBlocks c = false) : Leaves (CommandFrame s) (exec c s) := by
  have event : ∀ {o}, Leaves (EventFrame s) o → Leaves (CommandFrame s) o := fun h t e => .ofEvent (h t e)
  cases c with
  | powerOn _ | restartEffect _ => cases h
  | restart b => exact .next (.addressed s _ _ _ fun _ _ => .same rfl rfl rfl)
  | countTransition l => exact event (EventFrame.countTransition s l)
  | illegalTransition => exact event (.next ((EventFrame.setTracker s _).trans (EventFrame.positionJump _)))
  | homeMarkEdge => exact event (EventFrame.homeMarkEdge s)
  | needleMarkEdge => exact event (EventFrame.needleMarkEdge s)
  | seekTimerExpiry => exact event (EventFrame.seekTimerExpiry s)
  | stallTimerExpiry => exact event (EventFrame.stallTimerExpiry s)
  | takeCountdownExpiry i => exact event (EventFrame.takeCountdownExpiry s i)
  | releaseCountdownExpiry i => exact event (EventFrame.releaseCountdownExpiry s i)
  | coupleSenseEdge i l =>
    have heard : CommandFrame s (s.setSense i.val l) := .same rfl rfl rfl
    exact .next (keeps_ite (.refl s) (heard.trans (.ofRun (RunFrame.takeEdge _ _ _))))
  | sweepTimerExpiry => exact .next (.same rfl rfl rfl)
  | pollStart => exact CommandFrame.pollStart s
  | pollEnd o => exact event (EventFrame.pollEnd s o)
  | headWriteEnd o => exact CommandFrame.headWriteEnd s o
  | strapRead l =>
    have read : CommandFrame s (s.setLink { s.link with reading := l }) := .same rfl rfl rfl
    exact .next (keeps_ite (read.trans (.raise _ _)) read)
  | settingsDisturbance k => exact .next (keeps_ite (.same rfl rfl rfl) (.refl s))
  | frameAbandon => exact .next (.faultFrame s _ _)
  | badCheckFrame => exact .next (.faultFrame s _ _)
  | unknownKind k =>
    have answered : CommandFrame s ((s.raise (.frameFault .kind (some k))).sendReply k (refuse .badRequest)) :=
      (CommandFrame.raise s _).trans (.same rfl rfl rfl)
    exact .ite (.next (keeps_ite (.refl s) (keeps_ite (.same rfl rfl rfl) answered))) (.refused _)
  | broadcastRefused k => exact .ite (.next (.faultFrame s _ _)) (.refused _)
  | replyEnd => exact .next (keeps_ite (.same rfl rfl rfl) (.refl s))
  | status b => exact .next (.addressed s _ _ _ fun _ _ => .refl s)
  | home b => exact .next (.addressed s _ _ _ fun a _ => .takeHome a s)
  | queryPosition b => exact .next (.addressed s _ _ _ fun _ _ => .refl s)
  | defineLine b => exact .next (.addressed s _ _ _ fun q _ => .defineLine q s)
  | writeLine b => exact .next (.addressed s _ _ _ fun _ parsed => .writeLine (parseWriteLine_codes_length parsed) s)
  | sealLine b => exact .next (.addressed s _ _ _ fun id _ => .sealLine id s)
  | reopenLine b => exact .next (.addressed s _ _ _ fun id _ => .reopenLine id s)
  | dropLine b => exact .next (.addressed s _ _ _ fun id _ => .dropLine id s)
  | queryLine b => exact .next (.addressed s _ _ _ fun id _ => (State.queryLine_state id s).symm ▸ .refl s)
  | queuePass b => exact .next (.addressed s _ _ _ fun r _ => .queuePass r s)
  | cancelQueued b => exact .next (.addressed s _ _ _ fun a _ => .cancelQueued a s)
  | stopCycling b => exact .next (.addressed s _ _ _ fun _ _ => .same rfl rfl rfl)
  | resume b => exact .next (.addressed s _ _ _ fun a _ => .resume a s)
  | halt d b => exact .next (.request s d _ _ _ fun a _ => .halt a s)
  | go d b => exact .next (.request s d _ _ _ fun a _ => .giveGo a s)
  | queryQueue b => exact .next (.addressed s _ _ _ fun _ _ => .refl s)
  | declareFeeder b => exact .next (.addressed s _ _ _ fun q _ => .declareFeeder q s)
  | forgetFeeder b => exact .next (.addressed s _ _ _ fun f _ => .forgetFeeder f s)
  | queryFeeders b => exact .next (.addressed s _ _ _ fun _ _ => .refl s)
  | headWrite b => exact .next (.addressed s _ _ _ fun w _ => .holdWrite w s)
  | queryHeads b => exact .next (.addressed s _ _ _ fun _ _ => .refl s)
  | queryConditions b => exact .next (.addressed s _ _ _ fun _ _ => .refl s)
  | clearConditions d b => exact .next (.request s d _ _ _ fun _ _ => .clearConditions s)
  | force b => exact .next (.addressed s _ _ _ fun q _ => .takeForce q s)
  | readEvents b => exact .next (.addressed s _ _ _ fun k _ => .takeEvents k s)
  | syncTime d b => exact .next (.request s d _ _ _ fun _ _ => .same rfl rfl rfl)
  | readSetting b => exact .next (.addressed s _ _ _ fun n _ => (State.readSetting_state n s).symm ▸ .refl s)
  | writeSetting b => exact .next (.addressed s _ _ _ fun q _ => .writeSetting q s)
  | lockSettings b => exact .next (.addressed s _ _ _ fun a _ => .lockSettings a s)
  | unlockSettings b => exact .next (.addressed s _ _ _ fun a _ => .unlockSettings a s)
  | identify b => exact .next (.addressed s _ _ _ fun _ _ => .refl s)
  | frameStart => exact CommandFrame.frameStart s
  | foreignFrame => exact .next (keeps_ite (.refl s) (.same rfl rfl rfl))

/-- Each command keeps what waits and the two capacities. -/
theorem exec_frame (s : State) (c : Instr) : Leaves (StepFrame s) (exec c s) := by
  have reset : ∀ b pins, StepFrame s (s.blocksReset b pins).sampleStraps := fun b pins =>
    (StepFrame.blocksReset s b pins).trans (CommandFrame.sampleStraps _).toStepFrame
  cases h : resetsBlocks c with
  | false => exact fun t e => (exec_commandFrame s c h t e).toStepFrame
  | true =>
    cases c with
    | powerOn pins => exact .next (reset _ pins)
    | restartEffect pins => exact .next (keeps_ite (reset _ pins) (CommandFrame.refl s).toStepFrame)
    | _ => cases h

/-- A unit of time appends no event and touches no line. -/
theorem State.tick_events (s : State) : s.tick.monitor.events = s.monitor.events := by
  show s.monitor.tick.events = _
  unfold ConditionMonitor.tick
  split <;> rfl

theorem State.tick_eventLaw (s : State) (h : s.eventLaw) : s.tick.eventLaw := by
  unfold State.eventLaw
  rwa [State.tick_events]

/-- Settles O55: each law by the frame of every command, and by the unit of time that passes with none. -/
theorem stepKeepsTheCapacities : Obligations.StepKeepsTheCapacities := by
  refine fun s t e => ⟨fun events => ?_, fun cells => ?_⟩
  · exact step_keeps (P := State.eventLaw) (fun _ _ h => h) State.tick_eventLaw
      (fun c s h u k => (exec_frame s c u k).events h) events t e
  · exact step_keeps (P := State.storeLaw) (fun _ _ h => h) (fun _ h => h)
      (fun c s h u k => (exec_frame s c u k).cells h) cells t e

/-! ### Commands that complete -/

/-- A well-formed command has a next state. -/
theorem exec_completes (c : Instr) (s : State) (h : c.wellFormed = true) : ∃ t, exec c s = .next t := by
  cases c
  case unknownKind k => exact ⟨_, if_pos h⟩
  case broadcastRefused k => exact ⟨_, if_pos h⟩
  all_goals exact ⟨_, rfl⟩

theorem exec_unknownKind_illFormed {k : Byte} (h : unknownKindByte k = false) (s : State) :
    exec (.unknownKind k) s = .refused (.illFormed "UNKNOWN_KIND") := if_neg (by rw [h]; exact Bool.false_ne_true)

theorem exec_broadcastRefused_illFormed {k : Byte} (h : refusedBroadcastByte k = false) (s : State) :
    exec (.broadcastRefused k) s = .refused (.illFormed "BROADCAST_REFUSED") := if_neg (by rw [h]; exact Bool.false_ne_true)

/-- Settles O3: a well-formed command completes in the frame of every command; there is no fault to answer. -/
theorem everyWellFormedCommandCompletes : Obligations.EveryWellFormedCommandCompletes := by
  refine fun c s => ⟨fun formed => ?_, fun f => f.rec, fun k bad => exec_unknownKind_illFormed bad s,
    fun k bad => exec_broadcastRefused_illFormed bad s⟩
  obtain ⟨t, e⟩ := exec_completes c s formed
  exact ⟨t, e, (exec_frame s c t e).pending⟩

end Sys2Proof.Machine

/-! SUPPORT. The machine's step, power-on and RESTART, and the link's frames that no block owns. -/

namespace Sys2Proof.Machine

/-! ### The step -/

/-- Settles O1: `setPending` is the update of the queue. -/
theorem stepRunsFrontCommand : Obligations.StepRunsFrontCommand := fun _ _ _ => rfl

theorem runsOut_iff (t : Option Nat) : runsOut t = true ↔ ∃ n ≤ 1, t = some n := by
  cases t <;> simp [runsOut]

theorem YarnMonitor.pollDue_iff (y : YarnMonitor) :
    y.pollDue = true ↔ y.gap ≤ 1 ∧ ∃ w, y.sweep = some w ∧ w.current = none := by
  unfold YarnMonitor.pollDue
  rcases y.sweep with _ | ⟨_ | _, _⟩ <;> simp

theorem State.tick_pending {s : State} (h : s.pending = []) : s.tick.pending = s.expiries := by
  simp [State.tick, h]

theorem State.seekTimerExpiry_mem_expiries (s : State) :
    Instr.seekTimerExpiry ∈ s.expiries ↔ runsOut s.tracker.seekTimer = true := by
  simp [State.expiries, List.mem_ite_nil_right]

theorem State.stallTimerExpiry_mem_expiries (s : State) :
    Instr.stallTimerExpiry ∈ s.expiries ↔ runsOut s.tracker.stallTimer = true := by
  simp [State.expiries, List.mem_ite_nil_right]

theorem State.sweepTimerExpiry_mem_expiries (s : State) :
    Instr.sweepTimerExpiry ∈ s.expiries ↔ s.yarn.sweepTimer ≤ 1 := by
  simp [State.expiries, List.mem_ite_nil_right]

theorem State.pollStart_mem_expiries (s : State) : Instr.pollStart ∈ s.expiries ↔ s.yarn.pollDue = true := by
  simp [State.expiries, List.mem_ite_nil_right]

theorem ConditionMonitor.tick_within {m : ConditionMonitor} (h : m.subStamp < 99) :
    m.tick = { m with subStamp := m.subStamp + 1 } :=
  if_neg (show ¬ 100 ≤ m.subStamp + 1 by omega)

theorem ConditionMonitor.tick_over {m : ConditionMonitor} (h : 99 ≤ m.subStamp) :
    m.tick = { m with subStamp := 0, timestamp := m.timestamp + 1 } :=
  if_pos (show 100 ≤ m.subStamp + 1 by omega)

/-- Settles O2: the step is `State.tick`, whose expiries are listed by the timers that run out. -/
theorem emptyQueueStepPassesOneTick : Obligations.EmptyQueueStepPassesOneTick := by
  intro s h
  refine ⟨s.tick, by simp [step, h], rfl, ConditionMonitor.tick_within, ConditionMonitor.tick_over, rfl, ?_, ?_, ?_, ?_,
    rfl, rfl, rfl, rfl, rfl, rfl, rfl⟩
  · rw [State.tick_pending h, State.seekTimerExpiry_mem_expiries, runsOut_iff]
  · rw [State.tick_pending h, State.stallTimerExpiry_mem_expiries, runsOut_iff]
  · rw [State.tick_pending h, State.sweepTimerExpiry_mem_expiries]
  · rw [State.tick_pending h, State.pollStart_mem_expiries, YarnMonitor.pollDue_iff]

/-! ### The values right after reset -/

theorem State.line_reset (id : Nat) : State.reset.line id = .free := getD_replicate _ _

theorem State.feeder_reset (f : Nat) : State.reset.feeder f = .undeclared := getD_replicate _ _

theorem State.latch_reset (i : Nat) : State.reset.latch i = Latch.mk .opened 0 := getD_replicate _ _

theorem State.head_reset (f : Nat) : State.reset.head f = HeadRecord.initial := getD_replicate _ _

theorem State.bank_reset (i : Nat) : State.reset.bank i = BankPair.mk .miss .miss := getD_replicate _ _

theorem State.projFeeder_reset (f : Nat) : State.reset.queue.proj.feeder f = .undeclared := getD_replicate _ _

theorem State.projHolder_reset (i : Nat) : State.reset.queue.proj.holder i = none := getD_replicate _ _

theorem State.record_reset (c : Cond) : State.reset.monitor.record c = CondRecord.mk none false := getD_replicate _ _

theorem State.frontLines_reset (i : Nat) : State.reset.frontLines i = BankLines.mk false false := by
  simp [State.frontLines, State.bank_reset, Code.lines]

theorem State.backLines_reset (i : Nat) : State.reset.backLines i = BankLines.mk false false := by
  simp [State.backLines, State.bank_reset, Code.lines]

theorem State.drivePin_reset (i : Nat) : State.reset.drivePin i = .low := by
  simp [State.drivePin, State.latchDrive, State.latch_reset, LatchState.driveClosed, highWhile]

theorem State.cellCount_reset : State.reset.cellCount = 0 := by decide

/-- Settles O4: the blocks' values are those that `State.reset` writes, and the tables hold one value in every place. -/
theorem resetHoldsPowerOnValues : Obligations.ResetHoldsPowerOnValues := by
  refine ⟨rfl, rfl, rfl, rfl, rfl, rfl, rfl, rfl, rfl, rfl, rfl, rfl, State.line_reset, State.cellCount_reset, rfl, rfl,
    State.projFeeder_reset, State.projHolder_reset, rfl, rfl, State.bank_reset, State.feeder_reset, State.latch_reset, rfl, rfl,
    rfl, State.head_reset, State.record_reset, rfl, rfl, rfl, rfl, by decide, by decide, by decide, rfl, rfl, rfl, rfl,
    fun i => ⟨State.frontLines_reset i, State.backLines_reset i, State.drivePin_reset i⟩, by decide, by decide, by decide,
    by decide, by decide, rfl⟩

theorem State.reset_eq_blocksReset : State.reset = State.reset.blocksReset SettingsBlock.initial defaultPins := rfl

theorem State.reset_planLaw : State.reset.PlanLaw := State.PlanLaw.blocksReset State.reset SettingsBlock.initial defaultPins

theorem State.reset_latchLaw : State.reset.LatchLaw := State.LatchLaw.blocksReset State.reset SettingsBlock.initial defaultPins

/-- Settles O58: every table stands at its empty value, so no law has anything to say but the two that the plan and the latches
have from the reset of the blocks. -/
theorem lawsHoldAtReset : Obligations.LawsHoldAtReset := by
  have noNames : State.reset.referenceLaw := fun id => by rw [State.line_reset]; rfl
  have noParked : State.reset.parkedLaw := fun f g rail x hf => by simp [State.feeder_reset] at hf
  have noHolder : State.reset.queue.proj.holderLaw := fun f i => by simp [State.projFeeder_reset, State.projHolder_reset]
  have noRail : State.reset.queue.proj.RailLaw :=
    ⟨fun f g rail i j hf => by simp [State.projFeeder_reset] at hf, fun f g rail x hf => by simp [State.projFeeder_reset] at hf⟩
  exact ⟨Nat.zero_le _, State.cellCount_reset.le.trans (Nat.zero_le _), State.reset_planLaw, noNames, State.reset_latchLaw, ⟨State.reset_latchLaw, by decide, by decide⟩,
    noParked, noHolder, noRail, by decide⟩

/-! ### Power-on and RESTART (R182, R191) -/

/-- R150: a raise that finds its latched flag clear and room for its entry. -/
theorem ConditionMonitor.noteRaise_clear {m : ConditionMonitor} {d : Detail} (clear : (m.record d.cond).latched = none)
    (room : m.full = false) :
    m.noteRaise d = { m.putRecord d.cond (CondRecord.mk (some d) true) with
      events := m.events ++ [EventEntry.mk m.timestamp (.condition d)] } := by
  have room' : (m.putRecord d.cond (CondRecord.mk (some d) true)).full = false := room
  simp [ConditionMonitor.noteRaise, clear, ConditionMonitor.append, room']

theorem State.sampleStraps_good {s : State} (h : parityGood s.link.straps = true) : s.sampleStraps = s := by
  simp [State.sampleStraps, State.addressParityLive, h]

theorem State.sampleStraps_bad {s : State} (h : parityGood s.link.straps = false) (initial : s.monitor = ConditionMonitor.initial)
    (noPass : s.engine.pass = none) :
    s.sampleStraps = { s with
      monitor := { s.monitor.putRecord .addressParity (CondRecord.mk (some (.addressParity s.link.straps)) true) with
        events := [EventEntry.mk 0 (.condition (.addressParity s.link.straps))] } } := by
  have clear : (s.monitor.record (Detail.addressParity s.link.straps).cond).latched = none := by rw [initial]; rfl
  have room : s.monitor.full = false := by rw [initial]; rfl
  have fresh : s.monitor.events = [] ∧ s.monitor.timestamp = 0 := by rw [initial]; exact ⟨rfl, rfl⟩
  have raised := State.raise_noPass noPass (.addressParity s.link.straps)
  rw [State.noteRaise, ConditionMonitor.noteRaise_clear clear room, fresh.1, fresh.2] at raised
  exact (if_pos (by simp [State.addressParityLive, h])).trans raised

theorem parityGood_iff (l : Levels4) : parityGood l = true ↔ (List.range 4).countP (fun i => l.getLsbD i) % 2 = 1 := by
  revert l
  decide

theorem exec_restart {s : State} (h : s.listening) :
    exec (.restart []) s
      = .next (State.sendReply { s with link := { s.link with restartPending := true } } (kindByte 0x1F) (accept [])) :=
  congrArg _ (State.addressed_some h (kindByte 0x1F) () State.takeRestart)

theorem exec_restartEffect (pins : PinLevels) {s : State} (h : s.link.restartPending = true) :
    exec (.restartEffect pins) s = .next (s.blocksReset s.settings pins).sampleStraps :=
  congrArg _ (if_pos h)

/-- Settles O5: both resets are `blocksReset` followed by the sample of the straps, which raises only on bad parity. -/
theorem powerOnAndRestartResetEveryBlock : Obligations.PowerOnAndRestartResetEveryBlock := by
  refine ⟨⟨fun pins s => ⟨fun good => ?_, fun bad => ?_⟩, fun s h => exec_restart h, fun pins s =>
    ⟨fun answered good => ?_, fun answered bad => ?_, fun unanswered => ?_⟩⟩, parityGood_iff⟩
  · exact congrArg _ (State.sampleStraps_good (s := s.blocksReset SettingsBlock.initial pins) good)
  · exact congrArg _ (State.sampleStraps_bad (s := s.blocksReset SettingsBlock.initial pins) bad rfl rfl)
  · exact (exec_restartEffect pins answered).trans
      (congrArg _ (State.sampleStraps_good (s := s.blocksReset s.settings pins) good))
  · exact (exec_restartEffect pins answered).trans
      (congrArg _ (State.sampleStraps_bad (s := s.blocksReset s.settings pins) bad rfl rfl))
  · exact congrArg Host.Outcome.next (if_neg (by simp [unanswered]))

/-! ### The reply, the straps and the frames without owner -/

theorem kindByte_toNat {k : Nat} (h : k < 256) : (kindByte k).toNat = k := by
  rw [toNat_ofByte]
  omega

/-- Settles O8: `sendReply` writes the monitor with its captured flags cleared, and the receiver. -/
theorem replyReportsAndClears : Obligations.ReplyReportsAndClears :=
  ⟨fun s _ _ => ⟨s.monitor.clearCaptured, rfl,
      fun x => by rw [ConditionMonitor.clearCaptured_record]; exact ⟨rfl, rfl⟩, rfl, rfl, rfl, rfl, rfl⟩,
    fun _ => rfl, fun _ => rfl, fun _ => kindByte_toNat⟩

theorem State.strapChangeLive_iff (s : State) : s.strapChangeLive = true ↔ s.link.reading ≠ s.link.straps := by
  simp [State.strapChangeLive]

/-- Settles O13: a reading is a raise exactly where it differs from the sample and the last one did not. -/
theorem strapReading : Obligations.StrapReading := by
  intro l s
  refine ⟨s.strapChangeLive_iff, fun same => ?_, fun differs live => ?_, fun differs notLive => ?_⟩
  · exact congrArg Host.Outcome.next (if_neg (by simp [State.strapChangeLive, same]))
  · exact congrArg Host.Outcome.next (if_neg (by simp [State.strapChangeLive, live]))
  · exact congrArg Host.Outcome.next (if_pos (by simp [State.strapChangeLive, differs, notLive]))

theorem State.faultFrame_heard {s : State} (h : s.link.rx.busy = false) (cause : FrameCause) (k : Option Byte) :
    s.faultFrame cause k = (s.raise (.frameFault cause k)).setRx .hunt :=
  if_neg (by simp [h])

theorem unknownKindByte_iff (k : Byte) : unknownKindByte k = true ↔ 0x21 ≤ k.toNat ∧ k.toNat ≤ 0x7F ∨ k = 0 := by
  revert k
  decide

theorem refusedBroadcastByte_of {k : Byte} (request : k.toNat ≤ 0x7F) (halt : k ≠ 0x0E) (go : k ≠ 0x0F) (clear : k ≠ 0x17)
    (sync : k ≠ 0x1A) : refusedBroadcastByte k = true := by
  revert k
  decide

theorem exec_unknownKind_heard {k : Byte} {s : State} (h : unknownKindByte k = true) (heard : s.listening) :
    exec (.unknownKind k) s = .next ((s.raise (.frameFault .kind (some k))).sendReply k (refuse .badRequest)) := by
  show execUnknownKind k s = _
  simp [execUnknownKind, h, heard.1, heard.2]

/-- Settles O10, command by command. -/
theorem framesWithoutOwner : Obligations.FramesWithoutOwner := by
  refine ⟨fun s hunt => ?_, fun s frame => ?_, fun s heard => ?_, fun s heard => ?_, fun s heard => ?_, fun k s known heard => ?_,
    fun k s request halt go clear sync heard => ?_, fun r s sending free => ?_⟩
  · show execFrameStart s = _
    simp [execFrameStart, hunt]
    rfl
  · show execFrameStart s = _
    simp [execFrameStart, frame]
  · exact congrArg Host.Outcome.next (if_neg (by simp [heard]))
  · exact congrArg Host.Outcome.next (State.faultFrame_heard heard .check none)
  · exact congrArg Host.Outcome.next (State.faultFrame_heard heard .check none)
  · exact exec_unknownKind_heard ((unknownKindByte_iff k).mpr known) heard
  · exact exec_broadcastRefused (refusedBroadcastByte_of request halt go clear sync) heard
  · exact congrArg Host.Outcome.next (if_pos (by simp [sending, free, Rx.busy]))

end Sys2Proof.Machine

/-! SUPPORT. How a request reads its body: which bodies break their layout, and the request that each command stands for. -/

namespace Sys2Proof.Machine

/-! ### Bodies of a fixed length (section 8.8) -/

theorem parseEmpty_none_iff (b : List Byte) : parseEmpty b = none ↔ b.length ≠ 0 := by
  cases b <;> simp [parseEmpty]

theorem parseByte_none_iff (b : List Byte) : parseByte b = none ↔ b.length ≠ 1 := by
  rcases b with _ | ⟨_, _ | _⟩ <;> simp [parseByte]

theorem parseDefineLine_none_iff (b : List Byte) : parseDefineLine b = none ↔ b.length ≠ 3 := by
  rcases b with _ | ⟨_, _ | ⟨_, _ | ⟨_, _ | _⟩⟩⟩ <;> simp [parseDefineLine]

theorem parseDeclare_none_iff (b : List Byte) : parseDeclare b = none ↔ b.length ≠ 4 := by
  rcases b with _ | ⟨_, _ | ⟨_, _ | ⟨_, _ | ⟨_, _ | _⟩⟩⟩⟩ <;> simp [parseDeclare]

theorem parseHeadWrite_none_iff (b : List Byte) : parseHeadWrite b = none ↔ b.length ≠ 4 := by
  rcases b with _ | ⟨_, _ | ⟨_, _ | ⟨_, _ | ⟨_, _ | _⟩⟩⟩⟩ <;> simp [parseHeadWrite]

theorem parseSyncTime_none_iff (b : List Byte) : parseSyncTime b = none ↔ b.length ≠ 4 := by
  rcases b with _ | ⟨_, _ | ⟨_, _ | ⟨_, _ | ⟨_, _ | _⟩⟩⟩⟩ <;> simp [parseSyncTime]

theorem parseWriteSetting_none_iff (b : List Byte) : parseWriteSetting b = none ↔ b.length ≠ 5 := by
  rcases b with _ | ⟨_, _ | ⟨_, _ | ⟨_, _ | ⟨_, _ | ⟨_, _ | _⟩⟩⟩⟩⟩ <;> simp [parseWriteSetting]

theorem parseForce_none_iff (b : List Byte) :
    parseForce b = none ↔ b.length ≠ 2 ∨ ∃ w v, b = [w, v] ∧ (1 < w.toNat ∨ 1 < v.toNat) := by
  rcases b with _ | ⟨w, _ | ⟨v, _ | _⟩⟩ <;> simp [parseForce]
  omega

/-! ### A WRITE_LINE body (section 8.8.1) -/

theorem exists_header {b : List Byte} (h : 5 ≤ b.length) : ∃ a0 a1 a2 a3 a4 rest, b = a0 :: a1 :: a2 :: a3 :: a4 :: rest := by
  rcases b with _ | ⟨a0, _ | ⟨a1, _ | ⟨a2, _ | ⟨a3, _ | ⟨a4, rest⟩⟩⟩⟩⟩ <;> simp at h
  exact ⟨a0, a1, a2, a3, a4, rest, rfl⟩

/-- The codes beyond the count are the unused bit pairs of the last byte. -/
theorem unusedPairs_iff (rest : List Byte) (count : Nat) (full : rest.length = (count + 3) / 4) :
    (((rest.flatMap unpackByte).drop count).all fun c => decide (c = .miss)) = true
      ↔ ∀ j, count ≤ j → j < 4 * ((count + 3) / 4) → (rest.getD (j / 4) 0).toNat / 4 ^ (j % 4) % 4 = 0 := by
  have item (j : Nat) (h : j < 4 * ((count + 3) / 4)) :
      (rest.flatMap unpackByte)[j]? = some (codeOf ((rest.getD (j / 4) 0).toNat / 4 ^ (j % 4))) := by
    have inside : j / 4 < rest.length := by omega
    simp [unpackByte_flatMap_getElem?, inside]
  have past (j : Nat) (h : ¬ j < 4 * ((count + 3) / 4)) : (rest.flatMap unpackByte)[j]? = none := by
    have outside : rest.length ≤ j / 4 := by omega
    simp [unpackByte_flatMap_getElem?, outside]
  simp only [List.all_eq_true, decide_eq_true_eq]
  constructor
  · intro all j low high
    refine (codeOf_eq_miss_iff _).mp (all _ (List.mem_iff_getElem?.mpr ⟨j - count, ?_⟩))
    rw [List.getElem?_drop, Nat.add_sub_cancel' low, item j high]
  · intro all c hc
    obtain ⟨n, hn⟩ := List.mem_iff_getElem?.mp hc
    rw [List.getElem?_drop] at hn
    by_cases high : count + n < 4 * ((count + 3) / 4)
    · rw [item _ high, Option.some_inj] at hn
      exact hn ▸ (codeOf_eq_miss_iff _).mpr (all _ (Nat.le_add_right _ _) high)
    · simp [past _ high] at hn

theorem parseWriteLine_none_iff (b : List Byte) : parseWriteLine b = none ↔ writeLineMalformed b := by
  by_cases short : b.length < 5
  · have none : parseWriteLine b = none := by
      rcases b with _ | ⟨_, _ | ⟨_, _ | ⟨_, _ | ⟨_, _ | ⟨_, _⟩⟩⟩⟩⟩ <;> simp [parseWriteLine] at short ⊢
      omega
    exact iff_of_true none (.inl short)
  obtain ⟨i, s0, s1, c0, c1, rest, rfl⟩ := exists_header (not_lt.mp short)
  have count : fieldAt (i :: s0 :: s1 :: c0 :: c1 :: rest) 3 2 = word16 c0 c1 := fieldAt_word16 _ _ _
  have pair (j : Nat) : fieldAt (i :: s0 :: s1 :: c0 :: c1 :: rest) (5 + j / 4) 1 = (rest.getD (j / 4) 0).toNat := by
    rw [fieldAt_byte, show 5 + j / 4 = j / 4 + 5 by omega]
    rfl
  have len : (i :: s0 :: s1 :: c0 :: c1 :: rest).length = rest.length + 5 := rfl
  by_cases full : rest.length = (word16 c0 c1 + 3) / 4
  · have fits : ¬ rest.length + 5 ≠ 5 + (word16 c0 c1 + 3) / 4 := by omega
    have parsed : parseWriteLine (i :: s0 :: s1 :: c0 :: c1 :: rest) = none
        ↔ ¬ (((rest.flatMap unpackByte).drop (word16 c0 c1)).all fun c => decide (c = .miss)) = true := by
      simp only [parseWriteLine, full, true_and]
      split <;> rename_i unused <;> simp [unused]
    rw [parsed, unusedPairs_iff rest _ full, writeLineMalformed, count, len]
    simp only [pair, show ¬ rest.length + 5 < 5 by omega, fits, false_or]
    push Not
    rfl
  · have long : rest.length + 5 ≠ 5 + (word16 c0 c1 + 3) / 4 := by omega
    refine iff_of_true (by simp [parseWriteLine, full]) (.inr (.inl ?_))
    rw [count, len]
    exact long

/-! ### A QUEUE_PASS body (section 8.8.2) -/

theorem camModeOf_none_iff (n : Nat) : camModeOf n = none ↔ 2 < n := by
  rcases n with _ | _ | _ | n <;> simp [camModeOf]

/-- A channel that the layout announces breaks its layout. -/
def channelBad (b : List Byte) : Prop := b.length < 8 ∨ bitAt b 7 1 = true ∨ 16 ≤ fieldAt b 7 1

/-- One of the n actions that the layout announces breaks its layout. -/
def actionsBad (n : Nat) (b : List Byte) : Prop :=
  b.length < 3 * n ∨ ∃ k < n, bitAt b (3 * k) 7 = false ∧ fieldAt b (3 * k + 1) 2 ≠ 0

/-- The parts of an entry behind its three first bytes, read one after another. -/
theorem parseEntry_parts (i m lay : Byte) (rest : List Byte) (mode : m.toNat ≤ 2) (layout : lay.toNat < 12) (p q : Bool)
    (hp : p = decide (lay.toNat % 2 = 1)) (hq : q = decide (lay.toNat / 2 % 2 = 1)) :
    (parseEntry (i :: m :: lay :: rest) = none
      ↔ (p = true ∧ channelBad rest) ∨ (q = true ∧ channelBad (rest.drop (8 * p.toNat)))
        ∨ actionsBad (lay.toNat / 4) (rest.drop (8 * (p.toNat + q.toNat))))
    ∧ ∀ e r, parseEntry (i :: m :: lay :: rest) = some (e, r) →
      r = rest.drop (8 * (p.toNat + q.toNat) + 3 * (lay.toNat / 4)) := by
  obtain ⟨cam, hcam⟩ : ∃ cam, camModeOf m.toNat = some cam := by
    rw [← Option.ne_none_iff_exists']
    exact fun h => absurd ((camModeOf_none_iff _).mp h) (by omega)
  have meaning : lay.toNat / 16 = 0 ∧ lay.toNat / 4 ≤ 2 := by omega
  obtain ⟨frontNone, frontSome⟩ := parseOptional_iff p rest
  have read : parseEntry (i :: m :: lay :: rest) = match parseOptional p rest with
      | none => none
      | some (front, r1) => match parseOptional q r1 with
        | none => none
        | some (back, r2) => match parseMany parseAction (lay.toNat / 4) r2 with
          | none => none
          | some (actions, r3) => some (SystemEntry.mk i.toNat cam front back actions, r3) := by
    simp only [parseEntry, hcam, hp, hq]
    exact if_pos meaning
  rw [read]
  cases hfront : parseOptional p rest with
  | none => simpa using .inl (frontNone.mp hfront)
  | some x =>
    obtain ⟨front, r1⟩ := x
    have goodFront : ¬ (p = true ∧ channelBad rest) := fun bad => by simp [frontNone.mpr bad] at hfront
    obtain ⟨_, rfl⟩ := frontSome front r1 hfront
    obtain ⟨backNone, backSome⟩ := parseOptional_iff q (rest.drop (8 * p.toNat))
    cases hback : parseOptional q (rest.drop (8 * p.toNat)) with
    | none => simpa [goodFront, hback] using .inl (backNone.mp hback)
    | some y =>
      obtain ⟨back, r2⟩ := y
      have goodBack : ¬ (q = true ∧ channelBad (rest.drop (8 * p.toNat))) := fun bad => by simp [backNone.mpr bad] at hback
      obtain ⟨_, rfl⟩ := backSome back r2 hback
      have behind : (rest.drop (8 * p.toNat)).drop (8 * q.toNat) = rest.drop (8 * (p.toNat + q.toNat)) := by
        rw [List.drop_drop, ← Nat.mul_add]
      obtain ⟨actionsNone, actionsSome⟩ := parseMany_parseAction_iff (lay.toNat / 4) (rest.drop (8 * (p.toNat + q.toNat)))
      simp only [hback, behind, goodFront, goodBack, false_or]
      cases hact : parseMany parseAction (lay.toNat / 4) (rest.drop (8 * (p.toNat + q.toNat))) with
      | none => exact ⟨iff_of_true rfl (actionsNone.mp hact), nofun⟩
      | some z =>
        obtain ⟨actions, r3⟩ := z
        have goodActions : ¬ actionsBad (lay.toNat / 4) (rest.drop (8 * (p.toNat + q.toNat))) := fun bad => by
          simp [actionsNone.mpr bad] at hact
        obtain ⟨_, rfl⟩ := actionsSome actions r3 hact
        refine ⟨by simpa using goodActions, fun e r h => ?_⟩
        simp only [Option.some.injEq, Prod.mk.injEq] at h
        rw [← h.2, List.drop_drop]

/-- The clause on the channels' last bytes, for the channels that the layout announces. -/
def channelBitsBad (n : Nat) (b : List Byte) : Prop :=
  ∃ k < n, bitAt b (7 + 8 * k) 1 = true ∨ 16 ≤ fieldAt b (7 + 8 * k) 1

theorem channelBitsBad_zero (b : List Byte) : ¬ channelBitsBad 0 b := fun ⟨_, h, _⟩ => absurd h (Nat.not_lt_zero _)

theorem channelBitsBad_succ (n : Nat) (b : List Byte) :
    channelBitsBad (n + 1) b ↔ (bitAt b 7 1 = true ∨ 16 ≤ fieldAt b 7 1) ∨ channelBitsBad n (b.drop 8) := by
  have shift (k : Nat) : 8 + (7 + 8 * k) = 7 + 8 * (k + 1) := by omega
  simp only [channelBitsBad, bitAt_drop, fieldAt_drop, shift]
  constructor
  · rintro ⟨_ | k, hk, bad⟩
    · exact .inl bad
    · exact .inr ⟨k, by omega, bad⟩
  · rintro (bad | ⟨k, hk, bad⟩)
    · exact ⟨0, by omega, bad⟩
    · exact ⟨k + 1, by omega, bad⟩

theorem channelBad_iff (b : List Byte) : channelBad b ↔ b.length < 8 ∨ channelBitsBad 1 b := by
  simp [channelBitsBad_succ, channelBitsBad_zero, channelBad]

/-- Reading the parts one after another fails exactly where the length or one of the last bytes is wrong. -/
theorem entryParts_iff (p q : Bool) (n : Nat) (rest : List Byte) :
    ((p = true ∧ channelBad rest) ∨ (q = true ∧ channelBad (rest.drop (8 * p.toNat)))
        ∨ actionsBad n (rest.drop (8 * (p.toNat + q.toNat))))
      ↔ rest.length < 8 * (p.toNat + q.toNat) + 3 * n ∨ channelBitsBad (p.toNat + q.toNat) rest
        ∨ ∃ k < n, bitAt rest (8 * (p.toNat + q.toNat) + 3 * k) 7 = false
            ∧ fieldAt rest (8 * (p.toNat + q.toNat) + (3 * k + 1)) 2 ≠ 0 := by
  simp only [actionsBad, bitAt_drop, fieldAt_drop, channelBad_iff, List.length_drop]
  cases p <;> cases q <;>
    simp only [Bool.toNat_false, Bool.toNat_true, channelBitsBad_succ, channelBitsBad_zero, reduceCtorEq, false_and, true_and,
      false_or, or_false, List.drop_zero, Nat.mul_zero, Nat.zero_add, Nat.sub_zero, Nat.add_zero, Nat.mul_one, Nat.reduceAdd,
      Nat.reduceMul]
  · grind
  · grind
  · grind

theorem parseEntry_iff (b : List Byte) : (parseEntry b = none ↔ entryMalformed b)
    ∧ ∀ e r, parseEntry b = some (e, r) → r = b.drop (entryLength b) := by
  by_cases short : b.length < 3
  · have none : parseEntry b = none := by
      rcases b with _ | ⟨_, _ | ⟨_, _ | ⟨_, _⟩⟩⟩ <;> simp [parseEntry] at short ⊢
      omega
    exact ⟨iff_of_true none (.inl short), by simp [none]⟩
  obtain ⟨i, m, lay, rest, rfl⟩ := List.exists_three b short
  have cam : fieldAt (i :: m :: lay :: rest) 1 1 = m.toNat := fieldAt_cons_byte _ _
  have bits : fieldAt (i :: m :: lay :: rest) 2 1 = lay.toNat := fieldAt_cons_byte _ _
  have front : bitAt (i :: m :: lay :: rest) 2 0 = decide (lay.toNat % 2 = 1) := by
    simp [bitAt, BitVec.getLsbD, Nat.testBit_zero]
  have back : bitAt (i :: m :: lay :: rest) 2 1 = decide (lay.toNat / 2 % 2 = 1) := by
    simp [bitAt, BitVec.getLsbD, Nat.testBit_succ, Nat.testBit_zero]
  have lay256 : lay.toNat < 256 := lay.isLt
  by_cases mode : m.toNat ≤ 2
  swap
  · have none : parseEntry (i :: m :: lay :: rest) = none := by
      simp [parseEntry, (camModeOf_none_iff m.toNat).mpr (by omega)]
    exact ⟨iff_of_true none (.inr (.inr (.inl (by omega)))), by simp [none]⟩
  by_cases layout : lay.toNat < 12
  swap
  · have none : parseEntry (i :: m :: lay :: rest) = none := by
      have noMeaning : ¬ (lay.toNat / 16 = 0 ∧ lay.toNat / 4 ≤ 2) := by omega
      simp only [parseEntry, if_neg noMeaning]
      split <;> rfl
    refine ⟨iff_of_true none ?_, by simp [none]⟩
    have large : 2 < entryActions (i :: m :: lay :: rest) ∨ 16 ≤ fieldAt (i :: m :: lay :: rest) 2 1 := by
      rw [entryActions, bits]
      omega
    exact .inr (.inr (.inr (or_assoc.mp (.inl large))))
  obtain ⟨fails, left⟩ := parseEntry_parts i m lay rest mode layout _ _ front back
  have channels : (bitAt (i :: m :: lay :: rest) 2 0).toNat + (bitAt (i :: m :: lay :: rest) 2 1).toNat
      = entryChannels (i :: m :: lay :: rest) := rfl
  have actions : entryActions (i :: m :: lay :: rest) = lay.toNat / 4 := by
    rw [entryActions, bits]
    omega
  rw [channels] at left
  rw [entryParts_iff, channels] at fails
  have bit (j k : Nat) : bitAt (i :: m :: lay :: rest) (3 + j) k = bitAt rest j k := (bitAt_drop _ 3 j k).symm
  have field (j k : Nat) : fieldAt (i :: m :: lay :: rest) (3 + j) k = fieldAt rest j k := (fieldAt_drop _ 3 j k).symm
  have len : (i :: m :: lay :: rest).length = rest.length + 3 := rfl
  have short' : (rest.length + 3 < 3 + 8 * entryChannels (i :: m :: lay :: rest) + 3 * (lay.toNat / 4))
      ↔ rest.length < 8 * entryChannels (i :: m :: lay :: rest) + 3 * (lay.toNat / 4) := by omega
  constructor
  · rw [fails, entryMalformed, entryLength, actions, cam, bits, len, short']
    simp only [show ¬ rest.length + 3 < 3 by omega, show ¬ 2 < m.toNat by omega, show ¬ 2 < lay.toNat / 4 by omega,
      show ¬ 16 ≤ lay.toNat by omega, false_or, channelBitsBad, ← bit, ← field, ← Nat.add_assoc]
    ring_nf
  · intro e r h
    rw [left e r h, entryLength, actions, Nat.add_assoc, Nat.add_comm 3]
    rfl

theorem entries_parsed_iff (n : Nat) (b : List Byte) :
    (∃ es, parseMany parseEntry n b = some (es, [])) ↔ ¬ entriesMalformed n b := by
  induction n generalizing b with
  | zero => simp [parseMany, entriesMalformed]
  | succ n ih =>
    obtain ⟨fails, left⟩ := parseEntry_iff b
    cases hentry : parseEntry b with
    | none => simp [parseMany, hentry, entriesMalformed, fails.mp hentry]
    | some x =>
      obtain ⟨e, rest⟩ := x
      have good : ¬ entryMalformed b := fun bad => by simp [fails.mpr bad] at hentry
      obtain rfl := left e rest hentry
      rw [entriesMalformed, or_iff_right good, ← ih]
      cases hrest : parseMany parseEntry n (b.drop (entryLength b)) with
      | none => simp [parseMany, hentry, hrest]
      | some y =>
        obtain ⟨es, left⟩ := y
        simp [parseMany, hentry, hrest]

theorem parseQueuePass_none_iff (b : List Byte) : parseQueuePass b = none ↔ queuePassMalformed b := by
  by_cases short : b.length < 5
  · have none : parseQueuePass b = none := by
      rcases b with _ | ⟨_, _ | ⟨_, _ | ⟨_, _ | ⟨_, _ | ⟨_, _⟩⟩⟩⟩⟩ <;> simp [parseQueuePass] at short ⊢
      omega
    exact iff_of_true none (.inl short)
  obtain ⟨t0, t1, flags, racking, n, rest, rfl⟩ := exists_header (not_lt.mp short)
  have flag : fieldAt (t0 :: t1 :: flags :: racking :: n :: rest) 2 1 = flags.toNat := fieldAt_cons_byte _ _
  have count : fieldAt (t0 :: t1 :: flags :: racking :: n :: rest) 4 1 = n.toNat := fieldAt_cons_byte _ _
  have behind : (t0 :: t1 :: flags :: racking :: n :: rest).drop 5 = rest := rfl
  rw [queuePassMalformed, flag, count, behind, or_iff_right short]
  by_cases header : flags.toNat / 8 = 0 ∧ n.toNat ≤ 4
  · rw [or_iff_right (show ¬ 8 ≤ flags.toNat by omega), or_iff_right (show ¬ 4 < n.toNat by omega), ← not_iff_not,
      ← entries_parsed_iff]
    simp only [parseQueuePass, if_pos header]
    rcases parseMany parseEntry n.toNat rest with _ | ⟨es, _ | _⟩ <;> simp
  · exact iff_of_true (by simp only [parseQueuePass, if_neg header]) (by omega)

/-! ### The request of a command -/

/-- The bodies that are answered BAD_REQUEST: those of a wrong length, and those that break their kind's layout. -/
def bodyMalformed (k : Nat) (b : List Byte) : Prop :=
  (∃ n, bodyLengthOf k = some n ∧ b.length ≠ n)
    ∨ (k = 0x18 ∧ ∃ w v, b = [w, v] ∧ (1 < w.toNat ∨ 1 < v.toNat))
    ∨ (k = 0x05 ∧ writeLineMalformed b) ∨ (k = 0x0A ∧ queuePassMalformed b)

/-- Of a kind with a fixed length and no other layout, the length decides. -/
theorem bodyMalformed_fixed {k n : Nat} (len : bodyLengthOf k = some n) (notForce : k ≠ 0x18) (b : List Byte) :
    bodyMalformed k b ↔ b.length ≠ n := by
  have notLine : k ≠ 0x05 := fun e => by simp [e, bodyLengthOf] at len
  have notPass : k ≠ 0x0A := fun e => by simp [e, bodyLengthOf] at len
  simp [bodyMalformed, len, notForce, notLine, notPass]

theorem bodyMalformed_force (b : List Byte) :
    bodyMalformed 0x18 b ↔ b.length ≠ 2 ∨ ∃ w v, b = [w, v] ∧ (1 < w.toNat ∨ 1 < v.toNat) := by
  simp [bodyMalformed, bodyLengthOf]

theorem bodyMalformed_writeLine (b : List Byte) : bodyMalformed 0x05 b ↔ writeLineMalformed b := by
  simp [bodyMalformed, bodyLengthOf]

theorem bodyMalformed_queuePass (b : List Byte) : bodyMalformed 0x0A b ↔ queuePassMalformed b := by
  simp [bodyMalformed, bodyLengthOf]

/-- A command stands for a request of kind k with body b: the body as it is parsed, and the owner that acts on it. -/
structure RequestForm {α : Type} (c : Instr) (k : Nat) (d : Dest) (b : List Byte) (parsed : Option α)
    (owner : α → State → State × Answer) : Prop where
  meaning : ∀ s, exec c s = .next (s.request d (kindByte k) parsed owner)
  malformed : parsed = none ↔ bodyMalformed k b
  /-- R154: no request clears a captured flag; its reply does. -/
  captured : d = .broadcast → ∀ a s x, s.captured x = true → (owner a s).1.captured x = true

theorem State.clearConditions_captured (s : State) (x : Cond) : s.clearConditions.captured x = s.captured x := by
  have fold (cs : List Cond) (m : ConditionMonitor) :
      ((cs.foldl s.clearUnlessLive m).record x).captured = (m.record x).captured := by
    induction cs generalizing m with
    | nil => rfl
    | cons c cs ih => rw [List.foldl_cons, ih, State.clearUnlessLive_captured]
  exact fold Cond.all s.monitor

theorem State.halt_captured (a : Unit) {s : State} {x : Cond} (h : s.captured x = true) :
    (State.halt a s).1.captured x = true :=
  keeps_ite (P := fun t : State => t.captured x = true) ((RunFrame.abortPass s _).captured h) ((RunFrame.flush s _).captured h)

theorem State.giveGo_captured (a : Unit) {s : State} {x : Cond} (h : s.captured x = true) :
    (State.giveGo a s).1.captured x = true :=
  keeps_ite (P := fun p : State × Answer => p.1.captured x = true) ((RunFrame.setHeadState s _).captured h) h

/-- A request that cannot be broadcast, with a body of a fixed length. -/
theorem RequestForm.fixed {α : Type} {c : Instr} {k n : Nat} {b : List Byte} {parsed : Option α}
    {owner : α → State → State × Answer} (parses : parsed = none ↔ b.length ≠ n)
    (meaning : ∀ s, exec c s = .next (s.request .addressed (kindByte k) parsed owner) := by exact fun _ => rfl)
    (len : bodyLengthOf k = some n := by rfl) (notForce : k ≠ 0x18 := by decide) :
    RequestForm c k .addressed b parsed owner :=
  ⟨meaning, parses.trans (bodyMalformed_fixed len notForce b).symm, nofun⟩

/-- The request that each command of section 8.8 stands for. -/
theorem requestForm {c : Instr} {k : Nat} {d : Dest} {b : List Byte} (h : requestOf c = some (k, d, b)) :
    ∃ (α : Type) (parsed : Option α) (owner : α → State → State × Answer), RequestForm c k d b parsed owner := by
  cases c with
  | status b => cases h; exact ⟨_, _, _, .fixed (parseEmpty_none_iff b)⟩
  | home b => cases h; exact ⟨_, _, _, .fixed (parseEmpty_none_iff b)⟩
  | queryPosition b => cases h; exact ⟨_, _, _, .fixed (parseEmpty_none_iff b)⟩
  | defineLine b => cases h; exact ⟨_, _, _, .fixed (parseDefineLine_none_iff b)⟩
  | writeLine b =>
    cases h
    exact ⟨_, _, _, fun _ => rfl, (parseWriteLine_none_iff b).trans (bodyMalformed_writeLine b).symm, nofun⟩
  | sealLine b => cases h; exact ⟨_, _, _, .fixed (parseByte_none_iff b)⟩
  | reopenLine b => cases h; exact ⟨_, _, _, .fixed (parseByte_none_iff b)⟩
  | dropLine b => cases h; exact ⟨_, _, _, .fixed (parseByte_none_iff b)⟩
  | queryLine b => cases h; exact ⟨_, _, _, .fixed (parseByte_none_iff b)⟩
  | queuePass b =>
    cases h
    exact ⟨_, _, _, fun _ => rfl, (parseQueuePass_none_iff b).trans (bodyMalformed_queuePass b).symm, nofun⟩
  | cancelQueued b => cases h; exact ⟨_, _, _, .fixed (parseEmpty_none_iff b)⟩
  | stopCycling b => cases h; exact ⟨_, _, _, .fixed (parseEmpty_none_iff b)⟩
  | resume b => cases h; exact ⟨_, _, _, .fixed (parseEmpty_none_iff b)⟩
  | halt d b =>
    cases h
    exact ⟨_, _, State.halt, fun _ => rfl, (parseEmpty_none_iff b).trans (bodyMalformed_fixed rfl (by decide) b).symm,
      fun _ a _ _ => State.halt_captured a⟩
  | go d b =>
    cases h
    exact ⟨_, _, State.giveGo, fun _ => rfl, (parseEmpty_none_iff b).trans (bodyMalformed_fixed rfl (by decide) b).symm,
      fun _ a _ _ => State.giveGo_captured a⟩
  | queryQueue b => cases h; exact ⟨_, _, _, .fixed (parseEmpty_none_iff b)⟩
  | declareFeeder b => cases h; exact ⟨_, _, _, .fixed (parseDeclare_none_iff b)⟩
  | forgetFeeder b => cases h; exact ⟨_, _, _, .fixed (parseByte_none_iff b)⟩
  | queryFeeders b => cases h; exact ⟨_, _, _, .fixed (parseEmpty_none_iff b)⟩
  | headWrite b => cases h; exact ⟨_, _, _, .fixed (parseHeadWrite_none_iff b)⟩
  | queryHeads b => cases h; exact ⟨_, _, _, .fixed (parseEmpty_none_iff b)⟩
  | queryConditions b => cases h; exact ⟨_, _, _, .fixed (parseEmpty_none_iff b)⟩
  | clearConditions d b =>
    cases h
    exact ⟨_, _, State.takeClear, fun _ => rfl, (parseEmpty_none_iff b).trans (bodyMalformed_fixed rfl (by decide) b).symm,
      fun _ _ s x h => (State.clearConditions_captured s x).trans h⟩
  | force b =>
    cases h
    exact ⟨_, _, _, fun _ => rfl, (parseForce_none_iff b).trans (bodyMalformed_force b).symm, nofun⟩
  | readEvents b => cases h; exact ⟨_, _, _, .fixed (parseByte_none_iff b)⟩
  | syncTime d b =>
    cases h
    exact ⟨_, _, State.loadTime, fun _ => rfl, (parseSyncTime_none_iff b).trans (bodyMalformed_fixed rfl (by decide) b).symm,
      fun _ _ _ _ h => h⟩
  | readSetting b => cases h; exact ⟨_, _, _, .fixed (parseByte_none_iff b)⟩
  | writeSetting b => cases h; exact ⟨_, _, _, .fixed (parseWriteSetting_none_iff b)⟩
  | lockSettings b => cases h; exact ⟨_, _, _, .fixed (parseEmpty_none_iff b)⟩
  | unlockSettings b => cases h; exact ⟨_, _, _, .fixed (parseEmpty_none_iff b)⟩
  | restart b => cases h; exact ⟨_, _, _, .fixed (parseEmpty_none_iff b)⟩
  | identify b => cases h; exact ⟨_, _, _, .fixed (parseEmpty_none_iff b)⟩
  | powerOn _ | restartEffect _ | countTransition _ | illegalTransition | homeMarkEdge | needleMarkEdge
  | seekTimerExpiry | stallTimerExpiry | takeCountdownExpiry _ | releaseCountdownExpiry _ | coupleSenseEdge _ _
  | sweepTimerExpiry | pollStart | pollEnd _ | headWriteEnd _ | strapRead _ | settingsDisturbance _ | frameAbandon
  | badCheckFrame | unknownKind _ | broadcastRefused _ | replyEnd | frameStart | foreignFrame => cases h

/-- Settles O9: the body is malformed exactly where it does not parse, and what does not parse is answered or ignored before any
owner sees it. -/
theorem malformedBodyIsAnsweredBadRequest : Obligations.MalformedBodyIsAnsweredBadRequest := by
  refine ⟨fun c k d b s request malformed => ?_, fun b => ⟨parseWriteLine_none_iff b, parseQueuePass_none_iff b⟩⟩
  obtain ⟨α, parsed, owner, form⟩ := requestForm request
  have unread : parsed = none := form.malformed.mpr malformed
  rw [form.meaning, unread]
  refine ⟨fun dest heard => ?_, fun dest heard => ?_⟩
  · rw [dest]
    exact congrArg Host.Outcome.next (State.addressed_none heard _ owner)
  · rw [dest]
    exact congrArg Host.Outcome.next (State.broadcast_none heard _ owner)

/-- Settles O59: the packed codes read back with what fills up their last byte, and the count takes them. -/
theorem writeLineBodyReadsBack : Obligations.WriteLineBodyReadsBack := by
  intro w idFits startFits countFits codes
  obtain ⟨len, pad, unpacked, filled⟩ := unpack_packCodes w.codes
  have start : word16 (BitVec.ofNat 8 (w.start.getD 0xFFFF)) (BitVec.ofNat 8 (w.start.getD 0xFFFF / 256)) = w.start.getD 0xFFFF := by
    refine word16_encodeWord _ ?_
    cases hs : w.start with
    | none => decide
    | some n => exact (startFits n hs).trans (by decide)
  have count := word16_encodeWord w.count countFits
  have id : (BitVec.ofNat 8 w.id).toNat = w.id := kindByte_toNat idFits
  have fits : (packCodes w.codes).length = (w.count + 3) / 4
      ∧ (((packCodes w.codes).flatMap unpackByte).drop w.count).all (fun c => decide (c = .miss)) = true := by
    refine ⟨codes ▸ len, ?_⟩
    rw [unpacked, ← codes, List.drop_left]
    exact List.all_eq_true.mpr fun c hc => decide_eq_true (filled c hc)
  have taken : ((packCodes w.codes).flatMap unpackByte).take w.count = w.codes := by
    rw [unpacked, ← codes, List.take_left]
  have back : (if w.start.getD 0xFFFF = 0xFFFF then none else some (w.start.getD 0xFFFF)) = w.start := by
    cases hs : w.start with
    | none => rfl
    | some n => exact if_neg (startFits n hs).ne
  show parseWriteLine (BitVec.ofNat 8 w.id :: BitVec.ofNat 8 (w.start.getD 0xFFFF) :: BitVec.ofNat 8 (w.start.getD 0xFFFF / 256)
    :: BitVec.ofNat 8 w.count :: BitVec.ofNat 8 (w.count / 256) :: packCodes w.codes) = some w
  simp only [parseWriteLine, start, count, id, if_pos fits, taken, back]

/-- The flag byte of a pass, in its value. -/
def passFlags (r : PassRecord) : Nat :=
  (if r.direction = .leftward then 1 else 0) + 2 * (if r.start = .onGo then 1 else 0) + 4 * r.cycle.toNat

theorem passFlags_reads (r : PassRecord) : passFlags r < 8
    ∧ (if passFlags r % 2 = 1 then Direction.leftward else .rightward) = r.direction
    ∧ (if passFlags r / 2 % 2 = 1 then StartKind.onGo else .onEntry) = r.start
    ∧ decide (passFlags r / 4 % 2 = 1) = r.cycle := by
  unfold passFlags
  cases r.direction <;> cases r.start <;> cases r.cycle <;> decide

/-- Settles O60: the header's fields, and the entries by `parseEntry_encode`. -/
theorem queuePassBodyReadsBack : Obligations.QueuePassBodyReadsBack := by
  intro r queued few low high channels entries
  have tag : BitVec.ofNat 16 (word16 (BitVec.ofNat 8 r.tag.toNat) (BitVec.ofNat 8 (r.tag.toNat / 256))) = r.tag := by
    rw [word16_encodeWord _ r.tag.isLt, BitVec.ofNat_toNat, BitVec.setWidth_eq]
  have racking : signedOf 8 (BitVec.ofNat 8 (r.racking % 256).toNat).toNat = r.racking := signedOf_eight r.racking ⟨low, high⟩
  have count : (BitVec.ofNat 8 r.entries.length).toNat = r.entries.length := kindByte_toNat (by omega)
  have parsed : parseMany parseEntry r.entries.length (r.entries.flatMap encodeEntry) = some (r.entries, []) := by
    have all := parseMany_flatMap encodeEntry parseEntry r.entries (rest := []) fun e he rest => by
      obtain ⟨system, actions, marks⟩ := entries e he
      refine parseEntry_encode e system actions (fun c hc => channels c ?_) marks rest
      exact List.mem_flatMap.mpr ⟨e, he, hc⟩
    simpa using all
  obtain ⟨small, direction, start, cycle⟩ := passFlags_reads r
  have flags : (BitVec.ofNat 8 (passFlags r)).toNat = passFlags r := kindByte_toNat (by omega)
  show parseQueuePass (BitVec.ofNat 8 r.tag.toNat :: BitVec.ofNat 8 (r.tag.toNat / 256) :: BitVec.ofNat 8 (passFlags r)
    :: BitVec.ofNat 8 (r.racking % 256).toNat :: BitVec.ofNat 8 r.entries.length :: r.entries.flatMap encodeEntry) = _
  have header : passFlags r / 8 = 0 ∧ r.entries.length ≤ 4 := ⟨Nat.div_eq_of_lt small, few⟩
  simp only [parseQueuePass, tag, racking, count, parsed, flags, if_pos header, direction, start, cycle, ← queued]

/-! ### Frames that are not taken (R171 to R173) -/

theorem State.request_busy {α : Type} {s : State} (h : s.link.rx.busy = true) (d : Dest) (k : Byte) (p : Option α)
    (o : α → State → State × Answer) : s.request d k p o = s := by
  cases d
  · exact State.addressed_busy h k p o
  · exact State.broadcast_busy h k p o

theorem comesFromPair_cases {c : Instr} (h : comesFromPair c = true) :
    (∃ k d b, requestOf c = some (k, d, b)) ∨ c = .frameStart ∨ c = .frameAbandon ∨ c = .badCheckFrame ∨ c = .foreignFrame
      ∨ (∃ k, c = .unknownKind k) ∨ ∃ k, c = .broadcastRefused k := by
  cases c <;> simp [comesFromPair, requestOf] at h ⊢

theorem State.faultFrame_busy {s : State} (h : s.link.rx.busy = true) (cause : FrameCause) (k : Option Byte) :
    s.faultFrame cause k = s := if_pos h

theorem exec_busy {c : Instr} {s : State} (pair : comesFromPair c = true) (wellFormed : c.wellFormed = true)
    (busy : s.link.rx.busy = true) : exec c s = .next s := by
  rcases comesFromPair_cases pair with ⟨k, d, b, request⟩ | rfl | rfl | rfl | rfl | ⟨k, rfl⟩ | ⟨k, rfl⟩
  · obtain ⟨_, _, _, form⟩ := requestForm request
    rw [form.meaning, State.request_busy busy]
  · refine congrArg Host.Outcome.next ?_
    cases hrx : s.link.rx with
    | hunt => simp [hrx, Rx.busy] at busy
    | frame => simp
    | reply r => simp
  · exact congrArg Host.Outcome.next (State.faultFrame_busy busy _ _)
  · exact congrArg Host.Outcome.next (State.faultFrame_busy busy _ _)
  · exact congrArg Host.Outcome.next (if_pos busy)
  · exact (if_pos wellFormed).trans (congrArg Host.Outcome.next (if_pos busy))
  · exact (if_pos wellFormed).trans (congrArg Host.Outcome.next (State.faultFrame_busy busy _ _))

theorem State.addressParityLive_iff (s : State) :
    s.addressParityLive = true ↔ (List.range 4).countP (fun i => s.link.straps.getLsbD i) % 2 = 0 := by
  have good := parityGood_iff s.link.straps
  rw [State.addressParityLive, Bool.not_eq_true', ← Bool.not_eq_true, good]
  omega

/-- Settles O6: a frame that meets a reply is dropped whole, and one that meets no address ends in HUNT. -/
theorem framesThatAreNotTaken : Obligations.FramesThatAreNotTaken := by
  refine ⟨⟨fun c s => exec_busy, fun c s heard foreign addressed => ?_⟩, State.addressParityLive_iff⟩
  rcases addressed with ⟨k, b, request⟩ | ⟨k, rfl, unknown⟩
  · obtain ⟨_, _, owner, form⟩ := requestForm request
    rw [form.meaning]
    exact congrArg Host.Outcome.next (State.addressed_noAddress heard foreign _ _ owner)
  · refine (if_pos unknown).trans (congrArg Host.Outcome.next ?_)
    rw [if_neg (by simp [heard]), if_pos foreign]
    rfl

/-! ### The reply to an addressed request (R154, R175 to R178) -/

theorem State.captured_sendReply (u : State) (k : Byte) (a : Answer) (x : Cond) :
    ((u.sendReply k a).monitor.record x).captured = false := by
  rw [State.sendReply_monitor, ConditionMonitor.clearCaptured_record]

theorem State.latched_sendReply (u : State) (k : Byte) (a : Answer) (x : Cond) : (u.sendReply k a).latched x = u.latched x := by
  rw [State.latched, State.sendReply_monitor, ConditionMonitor.clearCaptured_record, State.latched]

theorem State.caution_sendReply (u : State) (k : Byte) (a : Answer) : (u.sendReply k a).caution = u.caution := by
  simp only [State.caution, State.latched_sendReply]
  rfl

theorem State.stopLine_sendReply (u : State) (k : Byte) (a : Answer) : (u.sendReply k a).stopLine = u.stopLine := by
  simp only [State.stopLine, State.latched_sendReply]
  rfl

/-- Every field of the summary but ALERT stands in the state that the reply leaves; ALERT is of the state before the captured
flags were cleared. -/
theorem State.summary_sendReply (u : State) (k : Byte) (a : Answer) :
    u.summary = { (u.sendReply k a).summary with alert := u.alert } := by
  rw [State.summary, State.summary, State.caution_sendReply, State.stopLine_sendReply]
  rfl

theorem resetsBlocks_request {c : Instr} {k : Nat} {d : Dest} {b : List Byte} (h : requestOf c = some (k, d, b)) :
    resetsBlocks c = false := by
  cases c with
  | powerOn _ | restartEffect _ => cases h
  | _ => rfl

theorem State.straps_request {c : Instr} {k : Nat} {d : Dest} {b : List Byte} {s t : State} (h : requestOf c = some (k, d, b))
    (e : exec c s = .next t) : t.link.straps = s.link.straps :=
  (exec_commandFrame s c (resetsBlocks_request h) t e).straps

/-- An addressed request is answered by the state that its owner, or the raise for its malformed body, leaves. -/
theorem State.request_replies {α : Type} {s : State} (h : s.listening) (k : Byte) (p : Option α) (o : α → State → State × Answer) :
    ∃ (u : State) (a : Answer), s.request .addressed k p o = u.sendReply k a := by
  cases p with
  | none => exact ⟨_, _, State.addressed_none h k o⟩
  | some a => exact ⟨_, _, State.addressed_some h k a o⟩

theorem exec_addressedRequest {c : Instr} {k : Nat} {b : List Byte} {s : State} (request : requestOf c = some (k, .addressed, b))
    (heard : s.listening) :
    ∃ (u : State) (a : Answer), exec c s = .next (u.sendReply (kindByte k) a) ∧ u.link.address = s.link.address := by
  obtain ⟨_, parsed, owner, form⟩ := requestForm request
  obtain ⟨u, a, replied⟩ := State.request_replies heard (kindByte k) parsed owner
  have answered : exec c s = .next (u.sendReply (kindByte k) a) := (form.meaning s).trans (congrArg _ replied)
  have straps : (u.sendReply (kindByte k) a).link.straps = s.link.straps := State.straps_request request answered
  exact ⟨u, a, answered, congrArg (fun l : Levels4 => l.toNat % 8) straps⟩

theorem exec_broadcastRequest {c : Instr} {k : Nat} {b : List Byte} {s : State} (request : requestOf c = some (k, .broadcast, b))
    (heard : s.link.rx.busy = false) :
    ∃ t, exec c s = .next t ∧ t.link.rx = .hunt ∧ ∀ x, s.captured x = true → t.captured x = true := by
  obtain ⟨_, parsed, owner, form⟩ := requestForm request
  rw [form.meaning]
  cases parsed with
  | none =>
    refine ⟨_, congrArg _ (State.broadcast_none heard _ owner), rfl, fun x h => ?_⟩
    exact (RunFrame.raise s (.frameFault .body (some (kindByte k)))).captured h
  | some a => exact ⟨_, congrArg _ (State.broadcast_some heard (kindByte k) a owner), rfl, form.captured rfl a s⟩

theorem LinkPort.address_eq (p : LinkPort) :
    p.address = (p.straps.getLsbD 0).toNat + 2 * (p.straps.getLsbD 1).toNat + 4 * (p.straps.getLsbD 2).toNat := by
  have all : ∀ l : Levels4, l.toNat % 8 = (l.getLsbD 0).toNat + 2 * (l.getLsbD 1).toNat + 4 * (l.getLsbD 2).toNat := by decide
  exact all p.straps

/-! ### The bytes of a frame (R169, R170) -/

theorem bytesOf_one_nat (n : Nat) : bytesOf 1 n = [BitVec.ofNat 8 n] := by
  rw [bytesOf_one, BitVec.ofInt_natCast]

theorem bytesOf_word (w : Word16) : bytesOf 2 w.toNat = [w.setWidth 8, (w >>> 8).setWidth 8] := by
  have high : BitVec.ofInt 8 ((w.toNat : Int) / 256) = (w >>> 8).setWidth 8 := by
    rw [show (w.toNat : Int) / 256 = ((w.toNat / 256 : Nat) : Int) by norm_cast, BitVec.ofInt_natCast]
    exact BitVec.eq_of_toNat_eq (by simp [Nat.shiftRight_eq_div_pow])
  rw [bytesOf_two, high, BitVec.ofInt_natCast, BitVec.ofNat_toNat]

theorem bytesOf_getD (n : Nat) (v : Int) {i : Nat} (h : i < n) : (((bytesOf n v).getD i 0).toNat : Int) = v / 256 ^ i % 256 := by
  have item : (bytesOf n v).getD i 0 = BitVec.ofInt 8 (v / 256 ^ i) := by simp [bytesOf, List.getD_eq_getElem?_getD, h]
  rw [item, toNat_ofInt_byte]

theorem Summary.bytes_length (m : Summary) : m.bytes.length = 6 := by
  simp [Summary.bytes, bytesOf_length]

theorem Reply.body_eq (r : Reply) : r.body = [BitVec.ofNat 8 r.result.code] ++ r.summary.bytes ++ r.data := by
  rw [Reply.body, bytesOf_one_nat]

/-- Settles O7: the form of a request gives its reply, the straps are kept, and the bytes of the frame are those of `bytesOf`. -/
theorem addressedRequestIsAnsweredOnce : Obligations.AddressedRequestIsAnsweredOnce := by
  refine ⟨⟨fun c k b s request heard => ?_, fun c k b s request heard => exec_broadcastRequest request heard⟩,
    LinkPort.address_eq, fun r => ⟨?_, r.summary.bytes_length⟩, crc16_eq_checkRegister, ?_,
    fun n v => ⟨bytesOf_length n v, fun i h => bytesOf_getD n v h⟩⟩
  · obtain ⟨u, a, answered, address⟩ := exec_addressedRequest request heard
    refine ⟨u, a, _, _, answered, rfl, State.sendReply_rx u _ a, address, rfl, rfl, rfl, State.captured_sendReply u _ a, ?_⟩
    have report := u.summary_sendReply (kindByte k) a
    set t := u.sendReply (kindByte k) a
    refine ⟨rfl, ?_⟩
    simp only [report]
    exact ⟨rfl, rfl, rfl, t.summary_running_iff, t.summary_passBusy_iff, rfl, t.summary_forced_iff, rfl, rfl, rfl, rfl⟩
  · show [(0xA7 : Byte)] ++ (bytesOf 1 r.address ++ [r.kind + 0x80#8] ++ bytesOf 1 r.body.length ++ r.body) ++ _ = _
    rw [bytesOf_word, bytesOf_one_nat, bytesOf_one_nat, Reply.body_eq]
    rfl
  · refine ⟨by decide, ?_⟩
    unfold ResultCode.code
    dsimp only
    split <;> omega

end Sys2Proof.Machine

/-! SUPPORT. The condition monitor: what a raise and an append do and hand over, the summary flags, the lines and the pins. -/

namespace Sys2Proof.Machine

/-! ### Appends (R163, R165) -/

theorem State.full_iff (s : State) : s.monitor.full = true ↔ ¬ s.room 1 := by
  rw [ConditionMonitor.full, decide_eq_true_iff, State.room, Config.eventCapacity]
  omega

theorem State.append_full {s : State} (h : ¬ s.room 1) (e : Event) : s.append e = s.setMonitor (s.monitor.noteOverrun e.tag) :=
  congrArg s.setMonitor (if_pos (s.full_iff.mpr h))

theorem ConditionMonitor.noteOverrun_record (m : ConditionMonitor) (t : EventTag) :
    (m.noteOverrun t).record .eventOverrun
      = CondRecord.mk ((m.record .eventOverrun).latched.or (some (.eventOverrun t))) true :=
  m.record_putRecord_self _ _

theorem ConditionMonitor.noteOverrun_record_ne (m : ConditionMonitor) (t : EventTag) {c : Cond} (h : c ≠ .eventOverrun) :
    (m.noteOverrun t).record c = m.record c :=
  m.record_putRecord_ne _ h

/-- R165: what a full queue makes of an append. -/
theorem State.append_overruns {s : State} (h : ¬ s.room 1) (e : Event) :
    ∃ m, s.append e = { s with monitor := m } ∧ m.events = s.monitor.events
      ∧ (m.record .eventOverrun).captured = true
      ∧ ((s.monitor.record .eventOverrun).latched = none → (m.record .eventOverrun).latched = some (.eventOverrun e.tag))
      ∧ (∀ d, (s.monitor.record .eventOverrun).latched = some d → (m.record .eventOverrun).latched = some d)
      ∧ ∀ c, c ≠ .eventOverrun → m.record c = s.monitor.record c := by
  refine ⟨s.monitor.noteOverrun e.tag, State.append_full h e, rfl, ?_, fun clear => ?_, fun d latched => ?_, fun c hc => ?_⟩
  · rw [ConditionMonitor.noteOverrun_record]
  · rw [ConditionMonitor.noteOverrun_record, clear, Option.none_or]
  · rw [ConditionMonitor.noteOverrun_record, latched, Option.some_or]
  · exact ConditionMonitor.noteOverrun_record_ne _ _ hc

/-! ### A raise without its handover (R150) -/

/-- The record of a raised condition: captured, and latched with the detail where its flag was clear. -/
theorem ConditionMonitor.noteRaise_record_eq (m : ConditionMonitor) (d : Detail) :
    (m.noteRaise d).record d.cond = CondRecord.mk ((m.record d.cond).latched.or (some d)) true := by
  have captured := m.noteRaise_captured d
  have latched := m.noteRaise_record d
  cases h : (m.noteRaise d).record d.cond with
  | mk l c =>
    rw [h] at captured latched
    exact congrArg₂ CondRecord.mk latched captured

theorem ConditionMonitor.noteRaise_events_latched {m : ConditionMonitor} {d : Detail} (h : (m.record d.cond).latched ≠ none) :
    (m.noteRaise d).events = m.events := by
  rw [ConditionMonitor.noteRaise_events, Option.isSome_iff_ne_none.mpr h]
  rfl

theorem State.latched_false_iff (s : State) (c : Cond) : s.latched c = false ↔ (s.monitor.record c).latched = none := by
  simp [State.latched]

/-- R165: a raise overruns exactly where its entry is due and finds no room. -/
theorem State.overruns_iff (s : State) (d : Detail) :
    s.monitor.overruns d = true ↔ (s.monitor.record d.cond).latched = none ∧ ¬ s.room 1 := by
  rw [ConditionMonitor.overruns, Bool.and_eq_true, s.full_iff]
  simp

/-! ### The handover of a raise (R95, R151, R165) -/

theorem State.raise_fatal {s : State} {d : Detail} {reason : AbortReason} (h : d.cond.fatalReason = some reason) :
    s.raise d = (s.noteRaise d).abortPass reason := by
  rw [State.raise, State.abortReason, h]
  rfl

theorem State.raise_routed {s : State} {d : Detail} (h : d.cond.fatalReason = none) (k : s.inStopRoute d.cond = true) :
    s.raise d = (s.noteRaise d).abortPass (.routed d.cond) := by
  rw [State.raise, State.abortReason, h, k]
  rfl

theorem State.raise_unrouted {s : State} {d : Detail} (h : d.cond.fatalReason = none) (k : s.inStopRoute d.cond = false) :
    s.raise d = (s.noteRaise d).abortFor
      (if s.monitor.overruns d && s.inStopRoute .eventOverrun then some (.routed .eventOverrun) else none) := by
  rw [State.raise, State.abortReason, h, k]
  rfl

theorem State.raise_overrun {s : State} {d : Detail} (h : d.cond.fatalReason = none) (k : s.inStopRoute d.cond = false)
    (lost : (s.monitor.record d.cond).latched = none ∧ ¬ s.room 1) (route : s.inStopRoute .eventOverrun = true) :
    s.raise d = (s.noteRaise d).abortPass (.routed .eventOverrun) := by
  rw [State.raise_unrouted h k, (s.overruns_iff d).mpr lost, route]
  rfl

theorem State.raise_alone {s : State} {d : Detail} (h : d.cond.fatalReason = none) (k : s.inStopRoute d.cond = false)
    (quiet : ¬ ((s.monitor.record d.cond).latched = none ∧ ¬ s.room 1) ∨ s.inStopRoute .eventOverrun = false) :
    s.raise d = s.noteRaise d := by
  have none : (s.monitor.overruns d && s.inStopRoute .eventOverrun) = false := by
    rw [← Bool.not_eq_true, Bool.and_eq_true, s.overruns_iff]
    rintro ⟨lost, route⟩
    rcases quiet with kept | unrouted
    · exact kept lost
    · simp [unrouted] at route
  rw [State.raise_unrouted h k, none]
  rfl

theorem State.log_quiet {s : State} (h : s.room 1 ∨ s.inStopRoute .eventOverrun = false) (e : Event) : s.log e = s.append e := by
  have none : (s.monitor.full && s.inStopRoute .eventOverrun) = false := by
    rw [← Bool.not_eq_true, Bool.and_eq_true, s.full_iff]
    rintro ⟨full, route⟩
    rcases h with room | unrouted
    · exact full room
    · simp [unrouted] at route
  rw [State.log, none]
  rfl

theorem State.log_overrun {s : State} (full : ¬ s.room 1) (route : s.inStopRoute .eventOverrun = true) (e : Event) :
    s.log e = (s.append e).abortPass (.routed .eventOverrun) := by
  rw [State.log, s.full_iff.mpr full, route]
  rfl

/-! ### The monitor through an abort (R96) -/

theorem State.abortPass_record_ne (s : State) (r : AbortReason) {c : Cond} (h : c ≠ .eventOverrun) :
    (s.abortPass r).monitor.record c = s.monitor.record c := by
  cases hp : s.engine.pass with
  | none => rw [State.abortPass_noPass hp]
  | some p =>
    rw [State.abortPass_eq s r p hp]
    exact (ConditionMonitor.append_record_ne _ _ h).trans (ConditionMonitor.append_record_ne _ _ h)

/-- R96, R163: the entries of an abort with room for both. -/
theorem State.abortPass_events {s : State} {p : Pass} {h : PassRecord} {rest : List PassRecord} (pass : s.engine.pass = some p)
    (records : s.queue.records = h :: rest) (room : s.room 2) (r : AbortReason) :
    (s.abortPass r).monitor.events = s.monitor.events
      ++ [s.entry (.passAborted h.tag r p.furthestPair), s.entry (.queueFlushed (rest.length + 1) .abort)] := by
  have tag : s.headTag = h.tag := by rw [State.headTag, records]
  have first : s.room 1 := Nat.le_of_succ_le room
  have second : (s.append (.passAborted h.tag r p.furthestPair)).room 1 := by
    rw [State.append_room first]
    simp [State.room] at room ⊢
    omega
  have flushed := congrArg (fun t : State => t.monitor.events)
    (State.append_room second (.queueFlushed (rest.length + 1) .abort))
  rw [State.abortPass_eq s r p pass]
  simp only [tag, records, List.length_cons]
  refine flushed.trans ?_
  rw [State.append_room first]
  simp [State.entry]

/-- R96: what an abort leaves of the pass. -/
theorem State.abortPass_ends {s : State} (pass : s.engine.pass ≠ none) (r : AbortReason) :
    (s.abortPass r).engine.pass = none ∧ (s.abortPass r).queue.records = [] ∧ (s.abortPass r).queue.plan = .held
      ∧ ∀ i, (s.abortPass r).bank i = BankPair.mk .miss .miss := by
  obtain ⟨p, hp⟩ := Option.ne_none_iff_exists'.mp pass
  rw [State.abortPass_eq s r p hp]
  exact ⟨rfl, rfl, rfl, fun i => getD_replicate _ _⟩

/-! ### A raise as a whole -/

theorem State.raise_record_ne (s : State) (d : Detail) {c : Cond} (h : c ≠ d.cond) (k : c ≠ .eventOverrun) :
    (s.raise d).monitor.record c = s.monitor.record c := by
  have noted := s.monitor.noteRaise_record_ne d h k
  rcases s.raise_notes_or_aborts d with raised | ⟨r, raised⟩
  · rw [raised]
    exact noted
  · rw [raised, State.abortPass_record_ne _ _ k]
    exact noted

/-- R150: the latched flag of a raised condition keeps its first detail. -/
theorem State.raise_detail (s : State) (d e : Detail) (h : (s.monitor.record d.cond).latched.or (some d) = some e) :
    ((s.raise d).monitor.record d.cond).latched = some e := by
  have noted : ((s.noteRaise d).monitor.record d.cond).latched = some e := (s.monitor.noteRaise_record d).trans h
  exact (RunFrame.abortFor (s.noteRaise d) _).monitor.latched noted

/-- R151: the reason with which a raise that hands an abort over ends the pass. -/
theorem State.raise_reason {s : State} {d : Detail} {reason : AbortReason}
    (h : d.cond.fatalReason = some reason
      ∨ d.cond.fatalReason = none ∧ s.inStopRoute d.cond = true ∧ reason = .routed d.cond) :
    s.raise d = (s.noteRaise d).abortPass reason := by
  rcases h with fatal | ⟨plain, route, rfl⟩
  · exact State.raise_fatal fatal
  · exact State.raise_routed plain route

/-- R150, R163: the entries of a raise before its handover. -/
theorem State.noteRaise_entries {s : State} (room : s.room 1) (d : Detail) :
    (s.noteRaise d).monitor.events = s.monitor.events
      ++ (if (s.monitor.record d.cond).latched = none then [s.entry (.condition d)] else []) := by
  by_cases clear : (s.monitor.record d.cond).latched = none
  · rw [if_pos clear]
    exact State.noteRaise_events_clear ((s.latched_false_iff d.cond).mpr clear) room
  · rw [if_neg clear, List.append_nil]
    exact ConditionMonitor.noteRaise_events_latched clear

theorem State.raise_entries {s : State} {d : Detail} {reason : AbortReason} {p : Pass} {h : PassRecord} {rest : List PassRecord}
    (pass : s.engine.pass = some p) (records : s.queue.records = h :: rest) (room : s.room 3)
    (handed : s.raise d = (s.noteRaise d).abortPass reason) :
    (s.raise d).monitor.events = s.monitor.events
      ++ (if (s.monitor.record d.cond).latched = none then [s.entry (.condition d)] else [])
      ++ [s.entry (.passAborted h.tag reason p.furthestPair), s.entry (.queueFlushed (rest.length + 1) .abort)] := by
  have noted : (s.noteRaise d).monitor.events = _ := State.noteRaise_entries (Nat.le_of_add_right_le (k := 2) room) d
  have left : (s.noteRaise d).room 2 := by
    unfold State.room at room ⊢
    rw [noted, List.length_append]
    split <;> simp <;> omega
  rw [handed, State.abortPass_events (s := s.noteRaise d) pass records left, noted, State.entry_noteRaise, State.entry_noteRaise]

/-! ### Settings that hold conditions, and live values -/

theorem Cond.fatalReason_cases (c : Cond) :
    (c, c.fatalReason) ∈ [(Cond.posLost, some AbortReason.posLost), (.overspeed, some .overspeed),
        (.reversal, some .reversal), (.wrongWay, some .wrongWay), (.noGo, some .noGo), (.feederMissed, some .feederMissed),
        (.feederStuck, some .feederStuck), (.settingsCheck, some .settingsCheck)]
      ∨ c.fatalReason = none ∧ c ∉ [Cond.posLost, .overspeed, .reversal, .wrongWay, .noGo, .feederMissed, .feederStuck,
        .settingsCheck] := by
  revert c
  exact fun c => by cases c <;> decide

theorem State.live_yarnStop_iff (s : State) : s.live .yarnStop = true ↔ ∃ f < 16, (s.head f).stillRun = s.stopSweeps := by
  simp [State.live, State.stopContribution, List.any_eq_true]

theorem State.live_yarnSnag_iff (s : State) : s.live .yarnSnag = true ↔ ∃ f < 16, (s.head f).spike = .snagged := by
  simp [State.live, State.snagContribution, List.any_eq_true]

theorem State.live_headSilent_iff (s : State) : s.live .headSilent = true ↔ ∃ f < 16, (s.head f).silentRun = s.silentLimit := by
  simp [State.live, State.silentContribution, List.any_eq_true]

/-- Settles O14: the record and the entries of `noteRaise`, and the abort that `abortReason` hands over. -/
theorem raisesAndAppends : Obligations.RaisesAndAppends := by
  refine ⟨⟨fun s d => ?_, fun s e => ⟨fun room => State.append_room room e, fun full => State.append_overruns full e⟩⟩,
    fun s d => ?_, fun s e => ⟨fun h => State.log_quiet h e, fun full route => State.log_overrun full route e⟩,
    Cond.fatalReason_cases, fun s c => Iff.rfl, fun s => ⟨by simp [State.live], rfl, s.live_yarnStop_iff, s.live_yarnSnag_iff,
      s.live_headSilent_iff, s.strapChangeLive_iff, rfl⟩⟩
  · refine ⟨s.raise_captured d, fun e latched => s.raise_detail d e (by simp [latched]),
      fun clear => s.raise_detail d d (by simp [clear]), fun c => s.raise_record_ne d, fun noPass => ?_,
      fun _ plain unrouted room => ?_, fun noPass latched => ?_, fun noPass clear room => ?_, fun pass handed => ?_⟩
    · rw [State.raise_noPass noPass]
      rfl
    · rw [State.raise_quiet room d plain unrouted]
      rfl
    · rw [State.raise_noPass noPass]
      exact ConditionMonitor.noteRaise_events_latched latched
    · rw [State.raise_noPass noPass]
      exact State.noteRaise_events_clear ((s.latched_false_iff d.cond).mpr clear) room
    · obtain ⟨reason, raised⟩ := s.raise_handed d handed
      rw [raised]
      exact State.abortPass_ends (s := s.noteRaise d) pass reason
  · refine ⟨fun reason => State.raise_fatal, State.raise_routed, State.raise_overrun, State.raise_alone, ?_,
      fun reason p h rest pass records room handed => State.raise_entries pass records room (State.raise_reason handed)⟩
    exact ⟨s.monitor.noteRaise d, rfl, s.monitor.noteRaise_record_eq d, fun c => s.monitor.noteRaise_record_ne d,
      ConditionMonitor.noteRaise_events_latched,
      fun clear room => State.noteRaise_events_clear ((s.latched_false_iff d.cond).mpr clear) room⟩

/-! ### The summary flags and the lines (R155 to R159, R190) -/

theorem State.alert_iff (s : State) :
    s.alert = true ↔ s.monitor.forcedAlert = true ∨ ∃ c, s.inAlertMask c = true ∧ (s.captured c = true ∨ s.live c = true) := by
  simp only [State.alert, Bool.or_eq_true, Cond.any_all, Bool.and_eq_true]

theorem State.caution_iff (s : State) :
    s.caution = true ↔ s.monitor.forcedCaution = true ∨ ∃ c, s.inCautionMask c = true ∧ s.latched c = true := by
  simp only [State.caution, Bool.or_eq_true, Cond.any_all, Bool.and_eq_true]

theorem State.live_event (s : State) {c : Cond} (h : c.isLiveKind = false) : s.live c = false := by
  cases c <;> simp [Cond.isLiveKind] at h <;> rfl

theorem State.stopLine_iff (s : State) : s.stopLine = true ↔ ∃ c, s.inStopRoute c = true ∧ s.latched c = true := by
  simp only [State.stopLine, Cond.any_all, Bool.and_eq_true]

theorem State.service_iff (s : State) : s.service = true ↔ s.eventWatermark ≤ s.monitor.events.length := decide_eq_true_iff

theorem State.attnLine_iff (s : State) :
    s.attnLine = true ↔ s.service = true ∨ ∃ c, s.inAttnRoute c = true ∧ s.latched c = true := by
  simp only [State.attnLine, Bool.or_eq_true, Cond.any_all, Bool.and_eq_true]

theorem State.readyLine_iff (s : State) : s.readyLine = true ↔ s.settings.locked = true
    ∧ (s.tracker.position = .referenced ∨ s.tracker.position = .doubtful) ∧ s.addressParityLive = false := by
  simp only [State.readyLine, Bool.and_eq_true, Bool.not_eq_true', PosState.valid_iff, and_assoc]

/-- The power-on masks: ALERT_MASK holds the pass-fatal conditions, YARN_STOP and YARN_SNAG; CAUTION_MASK and ATTN_ROUTE hold
every condition. -/
theorem State.masks_default {s : State} (h : s.settings.values = defaultSettings) (c : Cond) :
    (s.inAlertMask c = true ↔ c.fatalReason ≠ none ∨ c = .yarnStop ∨ c = .yarnSnag) ∧ s.inCautionMask c = true
      ∧ s.inAttnRoute c = true := by
  simp only [State.inAlertMask, State.inCautionMask, State.inAttnRoute, State.setHolds, State.setting, h]
  cases c <;> decide

theorem State.attnLine_default {s : State} (h : s.settings.values = defaultSettings) :
    s.attnLine = true ↔ 32 ≤ s.monitor.events.length ∨ ∃ c, s.latched c = true := by
  have watermark : s.eventWatermark = 32 := by
    rw [State.eventWatermark, State.setting, h]
    decide
  simp [State.attnLine_iff, State.service_iff, watermark, (State.masks_default h _).2.2]

/-! ### The pins (R183) -/

theorem Code.lines_value (c : Code) : c.lines.a.toNat + 2 * c.lines.b.toNat = c.value := by
  cases c <;> rfl

theorem State.frontLines_fitted {s : State} {i : Nat} (h : i < s.systems) : s.frontLines i = (s.bank i).front.lines := by
  rw [State.frontLines, if_pos h]

theorem State.backLines_fitted {s : State} {i : Nat} (h : i < s.systems) : s.backLines i = (s.bank i).back.lines := by
  rw [State.backLines, if_pos h]

theorem State.drivePin_fitted {s : State} {i : Nat} (h : i < s.systems) :
    s.drivePin i = highWhile (s.latch i).state.driveClosed := by
  simp [State.drivePin, State.latchDrive, h]

theorem State.lines_notFitted {s : State} {i : Nat} (h : s.systems ≤ i) :
    s.frontLines i = BankLines.mk false false ∧ s.backLines i = BankLines.mk false false ∧ s.drivePin i = .low := by
  have out : ¬ i < s.systems := Nat.not_lt.mpr h
  simp [State.frontLines, State.backLines, State.drivePin, State.latchDrive, out, Code.lines, highWhile]

theorem LatchState.drive_high_iff (l : LatchState) :
    highWhile l.driveClosed = .high ↔ ∃ f x, l = .closing f x ∨ l = .closed f := by
  cases l <;> simp [LatchState.driveClosed, highWhile]

theorem LatchState.drive_low_iff (l : LatchState) : highWhile l.driveClosed = .low ↔ l = .opened ∨ ∃ f, l = .opening f := by
  cases l <;> simp [LatchState.driveClosed, highWhile]

theorem YarnMonitor.busIdle_of {y : YarnMonitor} (h : y.sweep = none ∨ (∃ rest, y.sweep = some (Sweep.mk none rest)) ∨ 0 < y.gap) :
    y.busIdle = true := by
  unfold YarnMonitor.busIdle
  split
  next hs => simpa [hs] using h
  · rfl
  · rfl

theorem YarnMonitor.busIdle_transacting {y : YarnMonitor} {x : Transaction} {rest : List Nat}
    (h : y.sweep = some (Sweep.mk (some x) rest)) (gap : y.gap = 0) : y.busIdle = false := by
  simp [YarnMonitor.busIdle, h, gap]

/-- Settles O15: each flag is a search of the conditions, and each pin follows its line. -/
theorem summaryFlagsAndLines : Obligations.SummaryFlagsAndLines := by
  refine ⟨fun s => ⟨s.alert_iff, s.caution_iff, fun c => s.live_event, fun default c => ?_⟩,
    fun s => ⟨s.stopLine_iff, s.service_iff, s.attnLine_iff, State.attnLine_default, s.readyLine_iff, rfl⟩,
    fun s => ⟨fun i fitted => ⟨?_, ?_, ?_, ?_⟩, fun i => State.lines_notFitted, ?_, ?_, ?_, ?_, ?_, ?_, fun idle => ?_,
      fun x rest sweep gap => ?_, fun free => ?_⟩⟩
  · obtain ⟨alert, caution, _⟩ := State.masks_default default c
    exact ⟨alert, caution⟩
  · rw [State.frontLines_fitted fitted, Code.lines_value]
  · rw [State.backLines_fitted fitted, Code.lines_value]
  · rw [State.drivePin_fitted fitted, LatchState.drive_high_iff]
  · rw [State.drivePin_fitted fitted, LatchState.drive_low_iff]
  · intro h; simp [State.stopPin, h, highWhile]
  · intro h; simp [State.stopPin, h, highWhile]
  · intro h; simp [State.attnPin, h]
  · intro h; simp [State.attnPin, h]
  · intro h; simp [State.readyPin, h, highWhile]
  · intro h; simp [State.readyPin, h, highWhile]
  · simp [State.clockPin, State.dataPin, YarnMonitor.busIdle_of idle]
  · simp [State.clockPin, State.dataPin, YarnMonitor.busIdle_transacting sweep gap]
  · cases hrx : s.link.rx with
    | reply r => simp [hrx, Rx.busy] at free
    | hunt => simp [State.linkPins, hrx]
    | frame => simp [State.linkPins, hrx]

/-! ### FORCE and SYNC_TIME (R157, R162) -/

theorem exec_force {s : State} (h : s.listening) {w v : Byte} (hw : w.toNat ≤ 1) (hv : v.toNat ≤ 1) :
    exec (.force [w, v]) s
      = .next ((State.takeForce (decide (w.toNat = 0), decide (v.toNat = 1)) s).1.sendReply (kindByte 0x18) (accept [])) := by
  have parsed : parseForce [w, v] = some (decide (w.toNat = 0), decide (v.toNat = 1)) := if_pos ⟨hw, hv⟩
  show Host.Outcome.next (s.addressed (kindByte 0x18) (parseForce [w, v]) State.takeForce) = _
  rw [parsed, State.addressed_some h]
  rfl

theorem toNat_append_byte {n : Nat} (x : BitVec n) (y : Byte) : (x ++ y).toNat = 256 * x.toNat + y.toNat := by
  rw [BitVec.toNat_append, ← Nat.shiftLeft_add_eq_or_of_lt y.isLt, Nat.shiftLeft_eq]
  omega

theorem syncTime_value (b0 b1 b2 b3 : Byte) :
    BitVec.ofNat 32 (word16 b0 b1 + 65536 * word16 b2 b3) = b3 ++ b2 ++ b1 ++ b0 := by
  apply BitVec.eq_of_toNat_eq
  rw [BitVec.toNat_ofNat, toNat_append_byte, toNat_append_byte, toNat_append_byte, word16, word16]
  have := b0.isLt
  have := b1.isLt
  have := b2.isLt
  have := b3.isLt
  omega

theorem parseSyncTime_bytes (b0 b1 b2 b3 : Byte) : parseSyncTime [b0, b1, b2, b3] = some (b3 ++ b2 ++ b1 ++ b0) :=
  congrArg some (syncTime_value b0 b1 b2 b3)

theorem decide_toNat_one (v : Byte) : decide (v.toNat = 1) = decide (v = 1) :=
  decide_eq_decide.mpr ⟨fun h => BitVec.eq_of_toNat_eq h, fun h => h ▸ rfl⟩

/-- Settles O17: the parsed body names the flag and the setting, or the four bytes of the value. -/
theorem forceAndSyncTime : Obligations.ForceAndSyncTime := by
  refine ⟨⟨fun v s small heard => ⟨?_, ?_⟩, fun w v s outside heard => ?_, fun a c s => ⟨rfl, rfl, ?_⟩,
    fun s heard => exec_broadcastRefused (by decide) heard⟩, fun b0 b1 b2 b3 s => ⟨fun heard => ?_, fun heard => ?_⟩⟩
  · rw [exec_force heard (by decide) small, decide_toNat_one]
    rfl
  · rw [exec_force heard (by decide) small, decide_toNat_one]
    rfl
  · have malformed : parseForce [w, v] = none := (parseForce_none_iff _).mpr (.inr ⟨w, v, rfl, outside⟩)
    show Host.Outcome.next (s.addressed (kindByte 0x18) (parseForce [w, v]) State.takeForce) = _
    rw [malformed, State.addressed_none heard]
    rfl
  · simp [State.summary]
  · show Host.Outcome.next (s.addressed (kindByte 0x1A) (parseSyncTime [b0, b1, b2, b3]) State.loadTime) = _
    rw [parseSyncTime_bytes, State.addressed_some heard]
    rfl
  · show Host.Outcome.next (s.broadcast (kindByte 0x1A) (parseSyncTime [b0, b1, b2, b3]) State.loadTime) = _
    rw [parseSyncTime_bytes, State.broadcast_some heard]
    rfl

end Sys2Proof.Machine

/-! SUPPORT. The position tracker: a transition in every position state, the mark window, the home mark and the two timers. -/

namespace Sys2Proof.Machine

/-! ### A transition (R1, R3) -/

/-- The encoder's part of the tracker: the count and the reference levels. -/
def Tracker.levels (t : Tracker) : Int × Bool × Bool := (t.count, t.encA, t.encB)

theorem RunFrame.levels {s t : State} (h : RunFrame s t) : t.tracker.levels = s.tracker.levels := by
  rw [Tracker.levels, h.count, h.encA, h.encB, Tracker.levels]

theorem State.enterLost_levels (s : State) (c : LostCause) : (s.enterLost c).tracker.levels = s.tracker.levels :=
  (s.enterLost_frame c).levels

theorem State.slip_levels (s : State) (src : SlipSource) : (s.slip src).tracker.levels = s.tracker.levels := by
  have raised := (RunFrame.raise s (.markSlip src)).levels
  unfold State.slip
  dsimp only
  split
  · exact raised
  · rw [State.enterLost_levels, raised]
  all_goals exact raised

theorem State.trackTransition_levels (s : State) (d : Direction) (old : Int) :
    (s.trackTransition d old).tracker.levels = s.tracker.levels := by
  have windowed (w : Option MarkWindow) : (s.setTracker { s.tracker with markWindow := w }).tracker.levels = s.tracker.levels := rfl
  have stepped (u : State) (h : u.tracker.levels = s.tracker.levels) (d : Direction) (x : Int) (b : Bool) :
      (if b = true then u.carriageStep d x else u).tracker.levels = s.tracker.levels :=
    keeps_ite (P := fun t : State => t.tracker.levels = s.tracker.levels) ((RunFrame.carriageStep u d x).levels.trans h) h
  unfold State.trackTransition
  dsimp only
  split
  · exact stepped _ ((State.slip_levels _ _).trans (windowed _)) _ _ _
  · exact stepped _ (windowed _) _ _ _

/-- The state with the count and the reference levels of a transition taken. -/
def State.counted (s : State) (line : EncLine) : State := s.setTracker { s.tracker with
  count := s.tracker.count + (s.tracker.direction line).sign
  encA := if line = .a then !s.tracker.encA else s.tracker.encA
  encB := if line = .b then !s.tracker.encB else s.tracker.encB }

theorem exec_countTransition_inRange {s : State} {line : EncLine}
    (h : countInRange (s.tracker.count + (s.tracker.direction line).sign) = true) :
    exec (.countTransition line) s = .next (if s.tracker.position.valid = true then
      (s.counted line).trackTransition (s.tracker.direction line) s.tracker.count else s.counted line) := by
  cases line <;> exact congrArg Host.Outcome.next (if_pos h)

theorem countInRange_iff (c : Int) : countInRange c = true ↔ -2147483648 ≤ c ∧ c ≤ 2147483647 := by
  simp [countInRange]

/-- R1: the sequence of the reference levels gives the direction of a change. -/
theorem Tracker.direction_sign (t : Tracker) (line : EncLine) :
    (t.direction line).sign = if ((t.encA, t.encB), match line with
        | .a => (!t.encA, t.encB)
        | .b => (t.encA, !t.encB)) ∈ [((false, false), (true, false)), ((true, false), (true, true)),
          ((true, true), (false, true)), ((false, true), (false, false))] then 1 else -1 := by
  unfold Tracker.direction
  cases line <;> cases t.encA <;> cases t.encB <;> rfl

/-- Settles O23: within the range of the count a transition takes its count and levels, and nothing after it moves them. -/
theorem countTransitionCountsInEveryState : Obligations.CountTransitionCountsInEveryState := by
  intro line s old new up c
  have count : c = s.tracker.count + (s.tracker.direction line).sign :=
    congrArg (s.tracker.count + ·) (s.tracker.direction_sign line).symm
  have newLevels : new = (if line = .a then !s.tracker.encA else s.tracker.encA, if line = .b then !s.tracker.encB else s.tracker.encB) := by
    cases line <;> rfl
  have levels : (s.counted line).tracker.levels = (c, new.1, new.2) := by rw [count, newLevels]; rfl
  refine ⟨fun low high => ?_, fun low high invalid => ?_⟩
  · have taken := exec_countTransition_inRange (line := line) ((countInRange_iff _).mpr ⟨count ▸ low, count ▸ high⟩)
    refine ⟨_, taken, ?_⟩
    have kept := keeps_ite (P := fun t : State => t.tracker.levels = (c, new.1, new.2)) (c := s.tracker.position.valid = true)
      ((State.trackTransition_levels (s.counted line) (s.tracker.direction line) s.tracker.count).trans levels) levels
    rw [Tracker.levels, Prod.mk.injEq, Prod.mk.injEq] at kept
    exact ⟨kept.1, kept.2.1, kept.2.2, (EventFrame.countTransition s line _ taken).clock⟩
  · have outside : s.tracker.position.valid = false := (PosState.invalid_iff _).mpr invalid
    rw [exec_countTransition_inRange ((countInRange_iff _).mpr ⟨count ▸ low, count ▸ high⟩), if_neg (by simp [outside]), count, newLevels]
    rfl

/-! ### The mark window (R10) -/

/-- Under settings that LOCK_SETTINGS lets pass the windows of two marks lie apart. -/
theorem State.markPitch_wide {s : State} (apart : 2 * s.markWindowWidth + 2 < s.countsPerNeedle) (width : 0 ≤ s.markWindowWidth)
    (spacing : 1 ≤ s.markSpacing) : 2 * s.markWindowWidth + 2 < s.markPitch := by
  have needle : 0 ≤ s.countsPerNeedle := by omega
  have wide : s.countsPerNeedle ≤ s.markPitch := le_mul_of_one_le_left needle spacing
  omega

theorem State.nearestMark_unique {s : State} {c k : Int} (width : 0 ≤ s.markWindowWidth)
    (apart : 2 * s.markWindowWidth + 2 < s.markPitch) (low : k * s.markPitch - s.markWindowWidth ≤ c)
    (high : c ≤ k * s.markPitch + s.markWindowWidth) : s.nearestMark c = k := by
  obtain ⟨below, above⟩ := State.markDeviation_bounds (s := s) (by omega) c
  unfold State.markDeviation at below above
  generalize s.nearestMark c = n at *
  generalize s.markPitch = m at *
  have lt : n < k + 1 := by
    by_contra h
    have : (k + 1) * m ≤ n * m := Int.mul_le_mul_of_nonneg_right (by omega) (by omega)
    linarith
  have gt : k - 1 < n := by
    by_contra h
    have : n * m ≤ (k - 1) * m := Int.mul_le_mul_of_nonneg_right (by omega) (by omega)
    linarith
  omega

theorem State.windowAt_inside {s : State} {c k : Int} (width : 0 ≤ s.markWindowWidth) (apart : 2 * s.markWindowWidth + 2 < s.markPitch)
    (low : k * s.markPitch - s.markWindowWidth ≤ c) (high : c ≤ k * s.markPitch + s.markWindowWidth) : s.windowAt c = some k := by
  have nearest := State.nearestMark_unique width apart low high
  have within : s.withinWindow (s.markDeviation c) = true := by
    rw [State.withinWindow_iff, State.markDeviation, nearest]
    omega
  rw [State.windowAt, if_pos within, nearest]

theorem State.windowAt_outside {s : State} {c : Int}
    (h : ∀ k, c < k * s.markPitch - s.markWindowWidth ∨ k * s.markPitch + s.markWindowWidth < c) : s.windowAt c = none := by
  refine if_neg ?_
  rw [State.withinWindow_iff, State.markDeviation]
  have := h (s.nearestMark c)
  omega

theorem State.nextWindow_entered {s : State} {old new k : Int} (h : s.windowAt new = some k) (none : s.tracker.markWindow = none) :
    s.nextWindow old new = (some (MarkWindow.mk k (if old < k * s.markPitch then .low else .high) false), Option.none) := by
  simp [State.nextWindow, none, h]

theorem State.nextWindow_within {s : State} {old new : Int} {w : MarkWindow} (h : s.windowAt new = some w.mark)
    (open_ : s.tracker.markWindow = some w) : s.nextWindow old new = (some w, none) := by
  simp [State.nextWindow, open_, h]

theorem State.nextWindow_outside {s : State} {old new : Int} (h : s.windowAt new = none) (none : s.tracker.markWindow = none) :
    s.nextWindow old new = (Option.none, Option.none) := by
  simp [State.nextWindow, none, h]

theorem State.nextWindow_left {s : State} {old new : Int} {w : MarkWindow} (width : 0 ≤ s.markWindowWidth)
    (h : ∀ k, new < k * s.markPitch - s.markWindowWidth ∨ k * s.markPitch + s.markWindowWidth < new)
    (open_ : s.tracker.markWindow = some w) : s.nextWindow old new = (none,
      if w.satisfied = false ∧ ((w.side = .low ∧ w.mark * s.markPitch + s.markWindowWidth < new)
        ∨ (w.side = .high ∧ new < w.mark * s.markPitch - s.markWindowWidth)) then some w.mark else none) := by
  have out := h w.mark
  have beyond : (w.mark * s.markPitch < new) ↔ w.mark * s.markPitch + s.markWindowWidth < new := by omega
  have before : (new < w.mark * s.markPitch) ↔ new < w.mark * s.markPitch - s.markWindowWidth := by omega
  cases hside : w.side with
  | low => simp [State.nextWindow, open_, State.windowAt_outside h, hside, beyond, and_comm]
  | high => simp [State.nextWindow, open_, State.windowAt_outside h, hside, before, and_comm]

/-- Settles O24: the windows lie apart, so a count stands in the window of its nearest mark or in none. -/
theorem markWindowFollowsTheCount : Obligations.MarkWindowFollowsTheCount := by
  refine ⟨fun s old new width apart spacing => ?_, fun s c => ⟨rfl, fun width apart spacing => ?_⟩⟩
  · have wide := State.markPitch_wide apart width spacing
    refine ⟨fun k low high => ?_, fun outside => ⟨fun none => ?_, fun w open_ => State.nextWindow_left width outside open_⟩⟩
    · have inside := State.windowAt_inside width wide low high
      exact ⟨State.nextWindow_entered inside, fun w open_ mark => State.nextWindow_within (mark ▸ inside) open_⟩
    · exact State.nextWindow_outside (State.windowAt_outside outside) none
  · have wide := State.markPitch_wide apart width spacing
    exact ⟨fun k low high => State.windowAt_inside width wide low high, fun outside => State.windowAt_outside outside⟩

/-! ### The delivery of a step (R3, R4, R13) -/

/-- The step that follows where X has changed and the position is still valid. -/
theorem State.trackTransition_eq (s : State) (d : Direction) (old : Int) : s.trackTransition d old =
    let w := s.nextWindow old s.tracker.count
    let t := s.setTracker { s.tracker with markWindow := w.1 }
    let u := (w.2.map fun k => t.slip (.absent (k * s.markSpacing))).getD t
    if u.tracker.position.valid = true ∧ s.positionOf s.tracker.count ≠ s.positionOf old then
      u.carriageStep d (s.positionOf s.tracker.count) else u := by
  have changed (b : Bool) (x y : Int) : (b && decide (x ≠ y)) = true ↔ b = true ∧ y ≠ x := by
    rw [Bool.and_eq_true, decide_eq_true_eq, ne_comm]
  unfold State.trackTransition
  dsimp only
  cases (s.nextWindow old s.tracker.count).2 with
  | none => exact if_congr (changed _ _ _) rfl rfl
  | some k => exact if_congr (changed _ _ _) rfl rfl

/-- Settles O25: a transition of a valid tracker is `trackTransition` from the state with its count and levels. -/
theorem stepIsDelivered : Obligations.StepIsDelivered := by
  intro line s d c x w moved valid range
  have taken : exec (.countTransition line) s = .next ((s.counted line).trackTransition d s.tracker.count) :=
    (exec_countTransition_inRange range).trans (congrArg _ (if_pos valid))
  have window : (s.counted line).nextWindow s.tracker.count (s.counted line).tracker.count = w := rfl
  have position : (s.counted line).positionOf (s.counted line).tracker.count = x := rfl
  have oldPosition : (s.counted line).positionOf s.tracker.count = s.carriageX := rfl
  have state : (s.counted line).setTracker { (s.counted line).tracker with markWindow := w.1 } = moved := rfl
  have spacing : (s.counted line).markSpacing = s.markSpacing := rfl
  have movedValid : moved.tracker.position.valid = true := valid
  rw [taken, State.trackTransition_eq, window, position, oldPosition, spacing]
  simp only [state]
  refine ⟨fun none same => ?_, fun none changed => ?_, fun k passed => ?_⟩
  · simp [none, same]
  · simp [none, changed, movedValid]
  · simp [passed]

/-! ### The home mark and the seek (R5 to R9) -/

theorem exec_homeMarkEdge (s : State) : exec .homeMarkEdge s = execHomeMarkEdge s := rfl

theorem exec_homeMarkEdge_valid {s : State} (h : s.tracker.position.valid = true) :
    exec .homeMarkEdge s = .next (if s.withinWindow (s.tracker.count - s.homeCount) = true then
      s.setTracker { s.tracker with position := .referenced } else s.slip (.home (s.tracker.count - s.homeCount))) := by
  rw [exec_homeMarkEdge, execHomeMarkEdge]
  rcases (PosState.valid_iff _).mp h with p | p
  · simp [p, State.goodMark, PosState.good]
  · simp [p, State.goodMark, PosState.good]

theorem exec_homeMarkEdge_seeking {s : State} (h : s.tracker.position = .seeking) : exec .homeMarkEdge s = .next s.loadHome := by
  simp [exec_homeMarkEdge, execHomeMarkEdge, h]

theorem exec_homeMarkEdge_ignored {s : State} (h : s.tracker.position = .unreferenced ∨ s.tracker.position = .lost) :
    exec .homeMarkEdge s = .next s := by
  rcases h with p | p
  · simp [exec_homeMarkEdge, execHomeMarkEdge, p]
  · simp [exec_homeMarkEdge, execHomeMarkEdge, p]

theorem exec_home {s : State} (h : s.listening) :
    exec (.home []) s = .next ((State.takeHome () s).1.sendReply (kindByte 0x02) (State.takeHome () s).2) :=
  congrArg Host.Outcome.next (State.addressed_some h (kindByte 0x02) () State.takeHome)

theorem State.takeHome_unlocked {s : State} (h : s.settings.locked = false) : State.takeHome () s = (s, refuse .notLocked) := if_pos h

theorem State.takeHome_locked {s : State} (h : s.settings.locked = true) :
    State.takeHome () s = if s.passInProgress = true then (s, refuse .busy) else (s.startSeek, accept []) :=
  if_neg (by simp [h])

theorem State.passInProgress_iff (s : State) : s.passInProgress = true ↔ s.engine.pass ≠ none := Option.isSome_iff_ne_none

theorem State.passInProgress_eq_false {s : State} (h : s.engine.pass = none) : s.passInProgress = false := by
  rw [State.passInProgress, h]
  rfl

/-- Settles O27: the home mark by the position state, HOME by its checks, and the expiry of the seek timer. -/
theorem homingAndItsTimeout : Obligations.HomingAndItsTimeout := by
  refine ⟨fun s => ⟨fun seeking room => ?_, fun valid low high => ?_, fun valid outside => ?_, exec_homeMarkEdge_ignored⟩,
    fun s heard unlocked => ?_, fun s heard locked pass => ?_, fun s heard locked noPass => ?_, fun s seeking => ?_,
    fun s other => ?_⟩
  · rw [exec_homeMarkEdge_seeking seeking, State.loadHome, State.log_room]
    · rfl
    · exact room
  · rw [exec_homeMarkEdge_valid valid, if_pos ((s.withinWindow_iff _).mpr ⟨low, high⟩)]
    rfl
  · rw [exec_homeMarkEdge_valid valid, if_neg]
    rw [State.withinWindow_iff]
    omega
  · rw [exec_home heard, State.takeHome_unlocked unlocked]
  · rw [exec_home heard, State.takeHome_locked locked, if_pos (s.passInProgress_iff.mpr pass)]
  · rw [exec_home heard, State.takeHome_locked locked, if_neg (by simp [State.passInProgress_eq_false noPass])]
    rfl
  · exact congrArg Host.Outcome.next (if_pos seeking)
  · exact congrArg Host.Outcome.next (if_neg other)

/-! ### The stall timer (R19, R121) -/

theorem exec_stallTimerExpiry_ignored {s : State} (h : s.tracker.phase = .none ∨ s.tracker.stallTimer = none) :
    exec .stallTimerExpiry s = .next s := by
  refine congrArg Host.Outcome.next (if_neg ?_)
  rcases h with phase | stopped
  · simp [phase]
  · simp [stopped]

/-- The tracker at the expiry. -/
def State.stalled (s : State) : State := s.setTracker { s.tracker with stallTimer := none, stallLive := true }

theorem exec_stallTimerExpiry_raises {s : State} (phase : s.tracker.phase ≠ .none) (running : s.tracker.stallTimer ≠ none)
    (first : s.tracker.stallLive = false) :
    exec .stallTimerExpiry s = .next (
      let u := s.stalled.raise (.stall s.tracker.phase s.carriageX)
      if s.tracker.phase = .finishing ∧ u.passInProgress = true then u.resolveAll.completeIfSettled else u) := by
  have expiry : (s.tracker.stallTimer.isSome && decide (s.tracker.phase ≠ .none)) = true := by
    simp [phase, Option.isSome_iff_ne_none.mpr running]
  refine (congrArg Host.Outcome.next (if_pos expiry)).trans ?_
  simp only [State.stallExpires, first]
  rfl

theorem State.stall_noted {s : State} (route : s.inStopRoute .stall = false) (room : s.room 1) (p : PassPhase) (x : Int) :
    s.stalled.raise (.stall p x) = s.stalled.noteRaise (.stall p x) :=
  State.raise_quiet (s := s.stalled) room (.stall p x) rfl route

theorem exec_stallTimerExpiry_finishing {s : State} (phase : s.tracker.phase = .finishing) (running : s.tracker.stallTimer ≠ none)
    (first : s.tracker.stallLive = false) (pass : s.engine.pass ≠ none) (route : s.inStopRoute .stall = false) (room : s.room 1) :
    exec .stallTimerExpiry s
      = .next (s.stalled.raise (.stall .finishing s.carriageX)).resolveAll.completeIfSettled := by
  have inPass : (s.stalled.raise (.stall .finishing s.carriageX)).passInProgress = true := by
    rw [State.stall_noted route room]
    exact s.passInProgress_iff.mpr pass
  rw [exec_stallTimerExpiry_raises (by simp [phase]) running first, phase]
  exact congrArg Host.Outcome.next (if_pos ⟨rfl, inPass⟩)

/-- R91, R119: a resolution of every latch lets a FINISHING pass complete. -/
theorem State.resolveAll_completes {s : State} {h : PassRecord} {rest : List PassRecord} (pass : s.engine.pass ≠ none)
    (records : s.queue.records = h :: rest) (finishing : h.state = .finishing) :
    s.resolveAll.completeIfSettled = s.resolveAll.completePass := by
  obtain ⟨es, queue⟩ := s.queue_resolveAll h rest records
  have inPass : s.resolveAll.passInProgress = true := by
    rw [State.passInProgress, (Resolves.resolveAll s).engine]
    exact Option.isSome_iff_ne_none.mpr pass
  have head : s.resolveAll.headFinishing = true := by
    rw [State.headFinishing, queue.1]
    simp [finishing]
  simp [State.completeIfSettled, inPass, head, s.resolveAll_settled]

/-- Settles O29: the expiry raises STALL; a FINISHING pass is resolved and completes unless the raise has ended it. -/
theorem stallTimerExpiryRaisesStall : Obligations.StallTimerExpiryRaisesStall := by
  refine ⟨fun s => ⟨fun phase running first => ?_, exec_stallTimerExpiry_finishing, exec_stallTimerExpiry_ignored⟩,
    fun h rest s phase running first pass records finishing => ⟨fun route room => ?_, fun route => ?_⟩⟩
  · rw [exec_stallTimerExpiry_raises (by simp [phase]) running first, phase]
    rfl
  · rw [exec_stallTimerExpiry_finishing phase running first pass route room, State.stall_noted route room]
    exact congrArg Host.Outcome.next (State.resolveAll_completes (s := s.stalled.noteRaise _) pass records finishing)
  · have raised : s.stalled.raise (.stall .finishing s.carriageX)
        = (s.stalled.noteRaise (.stall .finishing s.carriageX)).abortPass (.routed .stall) :=
      State.raise_routed (s := s.stalled) rfl route
    have ended : ((s.stalled.noteRaise (.stall .finishing s.carriageX)).abortPass (.routed .stall)).passInProgress = false :=
      State.passInProgress_eq_false (State.abortPass_pass _ _)
    rw [exec_stallTimerExpiry_raises (by simp [phase]) running first, phase, raised]
    exact congrArg Host.Outcome.next (if_neg (by simp [ended]))

end Sys2Proof.Machine

/-! SUPPORT. The settings block: the write of a setting, the lock with its checksum, and the opening of a line. -/

namespace Sys2Proof.Machine

/-! ### WRITE_SETTING (R184, R186) -/

theorem between_iff (a b v : Int) : between a b v = true ↔ a ≤ v ∧ v ≤ b := by
  simp [between]

theorem settingInRange_le {n : Nat} {v : Int} (h : settingInRange n v = true) : n ≤ 29 := by
  by_contra past
  obtain ⟨m, rfl⟩ := Nat.exists_eq_add_of_le' (Nat.not_le.mp past)
  cases h

theorem settingInRange_iff (n : Nat) (v : Int) :
    settingInRange n v = true ↔ n = 3 ∧ v ∈ [1, 2, 4, 8] ∨ ∃ lo hi : Int, lo ≤ v ∧ v ≤ hi ∧ (n, lo, hi) ∈
      [(0, 64, 1024), (1, 1, 4), (2, 4, 64), (4, 0, 31), (5, -32768, 32767), (6, 1, 60), (7, -128, 127), (8, -128, 127),
        (9, -128, 127), (10, -128, 127), (11, 1, 8), (12, 0, 64), (13, 0, 16), (14, 5, 2550), (15, 10, 2000), (16, 0, 3),
        (17, 1, 16), (18, 2, 50), (19, 2, 100), (20, 1, 16), (21, 1, 1023), (22, 1, 8), (23, 1, 8), (24, 1, 128), (25, 0, 1000),
        (26, 0, 0x7FFFFF), (27, 0, 0x7FFFFF), (28, 0, 0x7FFFFF), (29, 0, 0x7FFFFF)] := by
  by_cases h : n ≤ 29
  · interval_cases n <;> simp [settingInRange, between_iff, or_assoc]
  · refine iff_of_false (fun inRange => h (settingInRange_le inRange)) ?_
    rintro (⟨rfl, _⟩ | ⟨lo, hi, _, _, row⟩)
    · omega
    · simp only [List.mem_cons, Prod.mk.injEq, List.not_mem_nil, or_false] at row
      omega

theorem parseWriteSetting_bytes (n b0 b1 b2 b3 : Byte) :
    parseWriteSetting [n, b0, b1, b2, b3] = some (n.toNat, (b3 ++ b2 ++ b1 ++ b0).toInt) := by
  have joined : (b3 ++ b2 ++ b1 ++ b0).toNat = word16 b0 b1 + 65536 * word16 b2 b3 := by
    rw [toNat_append_byte, toNat_append_byte, toNat_append_byte, word16, word16]
    omega
  refine congrArg (fun v => some (n.toNat, v)) ?_
  rw [BitVec.toInt_eq_toNat_cond, joined, signedOf]
  split <;> split <;> omega

theorem exec_writeSetting_answer {body : List Byte} {q : Nat × Int} {s t : State} {r : Answer} (p : parseWriteSetting body = some q)
    (h : s.listening) (o : State.writeSetting q s = (t, r)) :
    exec (.writeSetting body) s = .next (t.sendReply (kindByte 0x1C) r) :=
  congrArg Host.Outcome.next (State.addressed_answer h _ p o)

theorem State.writeSetting_unknown {n : Nat} {v : Int} (s : State) (h : 29 < n) : State.writeSetting (n, v) s = (s, refuse .range) :=
  if_pos h

theorem State.writeSetting_locked {n : Nat} {v : Int} {s : State} (h : n ≤ 29) (l : s.settings.locked = true) :
    State.writeSetting (n, v) s = (s, refuse .locked) :=
  (if_neg (Nat.not_lt.mpr h)).trans (if_pos l)

theorem State.writeSetting_outside {n : Nat} {v : Int} {s : State} (h : n ≤ 29) (l : s.settings.locked = false)
    (r : settingInRange n v = false) : State.writeSetting (n, v) s = (s, refuse .range) :=
  (if_neg (Nat.not_lt.mpr h)).trans ((if_neg (by simp [l])).trans (if_pos r))

theorem State.writeSetting_taken {n : Nat} {v : Int} {s : State} (l : s.settings.locked = false) (r : settingInRange n v = true) :
    State.writeSetting (n, v) s = ((s.putSetting n v).settingWritten n s.stopSweeps s.silentLimit, accept []) :=
  (if_neg (Nat.not_lt.mpr (settingInRange_le r))).trans ((if_neg (by simp [l])).trans (if_neg (by simp [r])))

/-- The settings that are only read: a write moves nothing else. -/
theorem State.settingWritten_readOnly {n : Nat} (h : n ∈ [6, 7, 8, 9, 10, 11, 14, 15, 16, 17, 18, 21, 22, 23, 24, 25, 26, 27, 28, 29])
    (a b : Nat) (s : State) : s.settingWritten n a b = s := by
  unfold State.settingWritten
  split
  case h_11 => rfl
  all_goals simp at h

/-- Settles O20: the checks in their order; the ranges row by row. -/
theorem writeSettingTakesTheValue : Obligations.WriteSettingTakesTheValue := by
  refine ⟨⟨settingInRange_iff, fun body n v s parsed heard => ⟨fun unknown => ?_, fun known locked => ?_,
    fun known unlocked outside => ?_, fun unlocked inRange readOnly => ?_⟩⟩, parseWriteSetting_bytes, fun s => ?_⟩
  · exact exec_writeSetting_answer parsed heard (State.writeSetting_unknown s unknown)
  · exact exec_writeSetting_answer parsed heard (State.writeSetting_locked known locked)
  · exact exec_writeSetting_answer parsed heard (State.writeSetting_outside known unlocked outside)
  · refine exec_writeSetting_answer parsed heard ((State.writeSetting_taken unlocked inRange).trans ?_)
    rw [State.settingWritten_readOnly readOnly]
    rfl
  · exact ⟨rfl, rfl, rfl, rfl, rfl, rfl, rfl, fun _ _ => rfl, rfl, rfl, rfl, rfl, rfl, rfl, rfl, rfl, rfl, rfl, rfl, rfl, rfl, rfl,
      rfl, fun c => ⟨Iff.rfl, Iff.rfl, Iff.rfl, Iff.rfl⟩⟩

/-! ### The lock (R187, R189) -/

theorem State.offsetsDiffer_iff (s : State) :
    s.offsetsDiffer = true ↔ ∀ i < s.systems, ∀ j < s.systems, i ≠ j → s.offset i ≠ s.offset j := by
  rw [State.offsetsDiffer, decide_eq_true_iff, State.fitted, List.nodup_map_iff_inj_on List.nodup_range]
  simp only [List.mem_range]
  exact ⟨fun inj i hi j hj ne same => ne (inj i hi j hj same), fun differ i hi j hj same => by
    by_contra ne
    exact differ i hi j hj ne same⟩

theorem State.windowsApart_iff (s : State) : s.windowsApart = true ↔ 2 * s.markWindowWidth + 2 < s.countsPerNeedle :=
  decide_eq_true_iff

theorem exec_lockSettings_answer {s t : State} {r : Answer} (h : s.listening) (o : State.lockSettings () s = (t, r)) :
    exec (.lockSettings []) s = .next (t.sendReply (kindByte 0x1D) r) :=
  congrArg Host.Outcome.next (State.addressed_answer h _ rfl o)

theorem exec_unlockSettings_answer {s t : State} {r : Answer} (h : s.listening) (o : State.unlockSettings () s = (t, r)) :
    exec (.unlockSettings []) s = .next (t.sendReply (kindByte 0x1E) r) :=
  congrArg Host.Outcome.next (State.addressed_answer h _ rfl o)

theorem State.lockSettings_unlocked {s : State} (h : s.settings.locked = false) : State.lockSettings () s =
    if (s.offsetsDiffer && s.windowsApart) = true then
      (s.setSettings { s.settings with locked := true, checksum := some s.computedChecksum }, accept (bytesOf 2 s.computedChecksum.toNat))
    else (s, refuse .range) :=
  if_neg (by simp [h])

theorem State.lockSettings_locked {s : State} {k : Word16} (h : s.settings.locked = true) (c : s.settings.checksum = some k) :
    State.lockSettings () s = (s, accept (bytesOf 2 k.toNat)) :=
  (if_pos h).trans (by simp [c])

theorem State.unlockSettings_locked {s : State} (h : s.settings.locked = true) : State.unlockSettings () s =
    if s.queue.records ≠ [] ∨ s.queue.plan = .running ∨ s.tracker.position = .seeking then (s, refuse .busy)
    else (s.setSettings { s.settings with locked := false }, accept []) :=
  if_pos h

theorem State.unlockSettings_unlocked {s : State} (h : s.settings.locked = false) : State.unlockSettings () s = (s, accept []) :=
  if_neg (by simp [h])

theorem exec_settingsDisturbance (k : Word16) (s : State) : exec (.settingsDisturbance k) s
    = .next (if s.settings.locked = true then s.setSettings { s.settings with checksum := some k } else s) := rfl

/-- The bytes under the checksum: four of every setting, in their order. -/
def State.checksumBytes (s : State) : List Byte := s.settings.values.toList.flatMap (bytesOf 4)

theorem State.computedChecksum_eq (s : State) : s.computedChecksum = checkRegister s.checksumBytes := crc16_eq_checkRegister _

theorem State.checksumBytes_length (s : State) : s.checksumBytes.length = 120 := by
  simp [State.checksumBytes, List.length_flatMap, bytesOf_length]

theorem State.checksumBytes_getD (s : State) {n j : Nat} (hn : n < 30) (hj : j < 4) :
    ((s.checksumBytes.getD (4 * n + j) 0).toNat : Int) = s.settings.values.getD n 0 / 256 ^ j % 256 := by
  have inside : n < s.settings.values.toList.length := by simpa using hn
  have row := recordAt_flatMap [] [] s.settings.values.toList (bytesOf 4) 4 0 rfl (fun v _ => bytesOf_length 4 v) n inside
  simp only [List.nil_append, List.append_nil, Nat.zero_add, recordAt] at row
  have item : s.checksumBytes.getD (4 * n + j) 0 = (bytesOf 4 s.settings.values.toList[n]).getD j 0 := by
    rw [← row]
    simp [List.getD_eq_getElem?_getD, hj, State.checksumBytes]
  rw [item, bytesOf_getD 4 _ hj]
  simp [Vector.getD, hn]

/-- Settles O22: the lock by its two cross-checks, the disturbance by the lock, and the bytes under the checksum. -/
theorem lockAndUnlockSettings : Obligations.LockAndUnlockSettings := by
  refine ⟨⟨⟨fun s heard unlocked differ apart => ?_, fun s heard unlocked fails => ?_, fun s k heard locked stored => ?_,
      fun s k => ⟨fun locked => ?_, fun unlocked => ?_⟩⟩,
      fun s heard => ⟨fun locked busy => ?_, fun locked empty held notSeeking => ?_, fun unlocked => ?_⟩⟩,
    fun s => ⟨s.checksumBytes, s.computedChecksum_eq, s.checksumBytes_length, fun n hn j hj => s.checksumBytes_getD hn hj⟩⟩
  · have checks : (s.offsetsDiffer && s.windowsApart) = true := by
      rw [Bool.and_eq_true, s.offsetsDiffer_iff, s.windowsApart_iff]
      exact ⟨differ, apart⟩
    exact exec_lockSettings_answer heard ((State.lockSettings_unlocked unlocked).trans (if_pos checks))
  · have checks : ¬ (s.offsetsDiffer && s.windowsApart) = true := by
      rw [Bool.and_eq_true, s.offsetsDiffer_iff, s.windowsApart_iff]
      rintro ⟨differ, apart⟩
      rcases fails with ⟨i, hi, j, hj, ne, same⟩ | narrow
      · exact differ i hi j hj ne same
      · omega
    exact exec_lockSettings_answer heard ((State.lockSettings_unlocked unlocked).trans (if_neg checks))
  · exact exec_lockSettings_answer heard (State.lockSettings_locked locked stored)
  · rw [exec_settingsDisturbance, if_pos locked]
    rfl
  · rw [exec_settingsDisturbance, if_neg (by simp [unlocked])]
  · exact exec_unlockSettings_answer heard ((State.unlockSettings_locked locked).trans (if_pos busy))
  · exact exec_unlockSettings_answer heard ((State.unlockSettings_locked locked).trans (if_neg (by simp [empty, held, notSeeking])))
  · exact exec_unlockSettings_answer heard (State.unlockSettings_unlocked unlocked)

/-! ### DEFINE_LINE (R26 to R28) -/

theorem exec_defineLine_answer {i l0 l1 : Byte} {s t : State} {r : Answer} (h : s.listening)
    (o : State.defineLine (i.toNat, word16 l0 l1) s = (t, r)) :
    exec (.defineLine [i, l0, l1]) s = .next (t.sendReply (kindByte 0x04) r) :=
  congrArg Host.Outcome.next (State.addressed_answer h _ rfl o)

theorem definedLength_le_iff (n : Nat) : definedLength n ≤ 1024 ↔ n ≤ 1024 := by
  unfold definedLength
  split <;> omega

theorem State.defineLine_range {id n : Nat} (s : State) (h : 63 < id ∨ 1024 < n) : State.defineLine (id, n) s = (s, refuse .range) := by
  have len := definedLength_le_iff n
  exact if_pos (by dsimp only; omega)

theorem State.defineLine_taken {id n : Nat} {s : State} (hid : id ≤ 63) (hn : n ≤ 1024) (l : s.line id ≠ .free) :
    State.defineLine (id, n) s = (s, refuse .lineState) := by
  have len := definedLength_le_iff n
  unfold State.defineLine
  dsimp only
  rw [if_neg (by omega)]
  split
  · rfl
  · rfl
  next free => exact absurd free l

theorem State.defineLine_free {id n : Nat} {s : State} (hid : id ≤ 63) (hn : n ≤ 1024) (l : s.line id = .free) :
    State.defineLine (id, n) s = if s.cellsFree < definedLength n then (s, refuse .noRoom) else
      let t := s.putLine id (.opened (LineData.mk (List.replicate (definedLength n) .miss) 0 0))
      (t, accept (bytesOf 2 (definedLength n) ++ bytesOf 2 t.cellsFree)) := by
  have len := definedLength_le_iff n
  unfold State.defineLine
  dsimp only
  rw [if_neg (by omega), l]

/-- R26: a line that is opened takes its cells. -/
theorem State.cellCount_define {s : State} {id : Nat} (hid : id ≤ 63) (l : s.line id = .free) (n : Nat) :
    (s.putLine id (.opened (LineData.mk (List.replicate n .miss) 0 0))).cellCount = s.cellCount + n := by
  have moved := s.cellCount_putLine hid (.opened (LineData.mk (List.replicate n .miss) 0 0))
  rw [l] at moved
  simpa [lineCells] using moved

/-- Settles O30: the checks in their order, and the cells by `cellCount_putLine`. -/
theorem defineLineOpensALine : Obligations.DefineLineOpensALine := by
  intro i l0 l1 s heard n len t
  refine ⟨fun outside => ?_, fun hid hn taken => ?_, fun hid hn free noRoom => ?_, fun hid hn free room => ?_⟩
  · exact exec_defineLine_answer heard (State.defineLine_range s outside)
  · exact exec_defineLine_answer heard (State.defineLine_taken hid hn taken)
  · exact exec_defineLine_answer heard ((State.defineLine_free hid hn free).trans (if_pos noRoom))
  · have cells : t.cellCount = s.cellCount + len := State.cellCount_define hid free len
    have left : t.cellsFree = s.cellsFree - len := by
      rw [State.cellsFree, cells, State.cellsFree, Nat.sub_sub]
    refine ⟨?_, cells, left⟩
    rw [← Nat.cast_sub room, ← left]
    exact exec_defineLine_answer heard ((State.defineLine_free hid hn free).trans (if_neg (Nat.not_lt.mpr room)))

end Sys2Proof.Machine

/-! SUPPORT. What a write of a setting brings about in its readers: the tracker, the feeder table, the latches and the heads. -/

namespace Sys2Proof.Machine

/-! ### The settings after a write -/

theorem State.setting_putSetting (s : State) {n : Nat} (h : n < 30) (v : Int) : (s.putSetting n v).setting n = v := by
  rw [State.setting, State.putSetting, State.setSettings_settings, getD_setIfInBounds, if_pos ⟨rfl, h⟩]

/-- R123: the projection after a change of the table. -/
theorem State.followProjection_eq (s : State) : s.followProjection
    = s.setQueue (if s.queue.records = [] then { s.queue with proj := s.feeders.project } else s.queue) := by
  unfold State.followProjection
  split
  next empty => rw [if_pos empty]
  next records => rw [if_neg (by simp [records]), State.setQueue_self]

/-! ### A field setting (R106) -/

theorem setIfInBounds_getD_self {α : Type} {n : Nat} (v : Vector α n) (i : Nat) (d : α) : v.setIfInBounds i (v.getD i d) = v := by
  refine ext_getD d fun j _ => ?_
  rw [getD_setIfInBounds]
  split
  next same => rw [same.1]
  · rfl

/-- The record of feeder f under the field as it now is. -/
def State.feederInField (s : State) (f : Nat) : Feeder :=
  match s.feeder f with
  | .parked rail pos => if s.inField pos then .parked rail pos else .faulted rail
  | .undeclared => .undeclared
  | .taking rail i => .taking rail i
  | .coupled rail i => .coupled rail i
  | .releasing rail i x => .releasing rail i x
  | .faulted rail => .faulted rail

theorem State.feederInField_parked {s : State} {f rail : Nat} {pos : Int} (h : s.feeder f = .parked rail pos) :
    s.feederInField f = if s.fieldLow ≤ pos ∧ pos ≤ s.fieldHigh then .parked rail pos else .faulted rail := by
  simp only [State.feederInField, h, State.inField_iff]

theorem State.feederInField_other {s : State} {f : Nat} (h : ∀ rail pos, s.feeder f ≠ .parked rail pos) :
    s.feederInField f = s.feeder f := by
  cases hf : s.feeder f with
  | parked rail pos => exact absurd hf (h rail pos)
  | undeclared | taking _ _ | coupled _ _ | releasing _ _ _ | faulted _ => simp [State.feederInField, hf]

theorem State.faultOutside_eq (s : State) (f : Nat) : s.faultOutside f
    = s.setFeeders { s.feeders with table := s.feeders.table.setIfInBounds f (s.feederInField f) } := by
  have unchanged (h : s.feederInField f = s.feeder f) :
      s = s.setFeeders { s.feeders with table := s.feeders.table.setIfInBounds f (s.feederInField f) } := by
    rw [h, State.feeder, setIfInBounds_getD_self]
    rfl
  cases hf : s.feeder f with
  | parked rail pos =>
    have down : (s.feeder f).carried = false := by rw [hf]; rfl
    cases inside : s.inField pos with
    | true =>
      have same : s.feederInField f = s.feeder f := by simp [State.feederInField, hf, inside]
      simpa [State.faultOutside, hf, inside] using unchanged same
    | false =>
      have faulted : s.feederInField f = .faulted rail := by simp [State.feederInField, hf, inside]
      simp [State.faultOutside, hf, inside, State.putFeeder_notCarried _ down, faulted]
  | undeclared | taking _ _ | coupled _ _ | releasing _ _ _ | faulted _ =>
    simpa [State.faultOutside, hf] using unchanged (State.feederInField_other (by simp [hf]))

/-- The feeders of a list after the field has been judged: the table alone has moved. -/
theorem State.faultOutside_fold (l : List Nat) (s : State) :
    l.foldl State.faultOutside s = s.setFeeders { s.feeders with table := (l.foldl State.faultOutside s).feeders.table }
      ∧ ∀ f < 16, (l.foldl State.faultOutside s).feeder f = if f ∈ l then s.feederInField f else s.feeder f := by
  induction l generalizing s with
  | nil => exact ⟨rfl, fun f _ => by simp⟩
  | cons g l ih =>
    obtain ⟨same, judged⟩ := ih (s.faultOutside g)
    have first (f : Nat) (hf : f < 16) : (s.faultOutside g).feeder f = if g = f then s.feederInField f else s.feeder f := by
      rw [State.faultOutside_eq, State.feeder, State.setFeeders_feeders, getD_setIfInBounds]
      by_cases same : g = f
      · simp [same, hf]
      · simp [same, State.feeder]
    have again (f : Nat) (hf : f < 16) : (s.faultOutside g).feederInField f = s.feederInField f := by
      have field (p : Int) : (s.faultOutside g).inField p = s.inField p := by rw [State.faultOutside_eq]; rfl
      unfold State.feederInField
      rw [first f hf]
      by_cases same : g = f
      · rw [if_pos same, State.feederInField]
        cases hs : s.feeder f with
        | parked rail pos => cases inside : s.inField pos <;> simp [field, inside]
        | undeclared | taking _ _ | coupled _ _ | releasing _ _ _ | faulted _ => rfl
      · rw [if_neg same]
        simp only [field]
    refine ⟨?_, fun f hf => ?_⟩
    · rw [List.foldl_cons, same, State.faultOutside_eq]
      rfl
    · rw [List.foldl_cons, judged f hf, again f hf, first f hf]
      by_cases same : g = f
      · simp [same]
      · simp [same, Ne.symm same]

theorem State.fieldWritten_eq (s : State) : ∃ t : State, s.fieldWritten = t ∧ t = { s with feeders := t.feeders, queue := t.queue }
    ∧ t.feeders.latches = s.feeders.latches ∧ (∀ f < 16, t.feeder f = s.feederInField f)
    ∧ t.queue = if s.queue.records = [] then { s.queue with proj := t.feeders.project } else s.queue := by
  obtain ⟨same, judged⟩ := State.faultOutside_fold (List.range 16) s
  generalize hu : (List.range 16).foldl State.faultOutside s = u at same judged
  have queue : u.queue = s.queue := by rw [same]; rfl
  have feeders : u = s.setFeeders u.feeders := same.trans (congrArg s.setFeeders (congrArg State.feeders same).symm)
  refine ⟨_, rfl, ?_, ?_, fun f hf => ?_, ?_⟩
  · rw [State.fieldWritten, hu, State.followProjection_eq]
    generalize (if u.queue.records = [] then _ else u.queue) = q
    conv_lhs => rw [feeders]
    rfl
  · rw [State.fieldWritten, hu, State.followProjection_eq, same]
    rfl
  · rw [State.fieldWritten, hu, State.feeder_followProjection, judged f hf, if_pos (by simpa using hf)]
  · rw [State.fieldWritten, hu, State.followProjection_eq, queue]
    rfl

/-! ### SYSTEMS (R106) -/

/-- What the removal of the latch records of a list of systems has done. -/
structure Removes (s : State) (l : List Nat) (t : State) : Prop where
  same : t = { s with feeders := t.feeders, yarn := t.yarn }
  latches : ∀ j < 4, t.latch j = if j ∈ l then Latch.mk .opened 0 else s.latch j
  held : ∀ f < 16, (∃ i ∈ l, (s.latch i).state.held = some f) → t.feeder f = .faulted (s.feeder f).rail
  others : ∀ f < 16, (¬ ∃ i ∈ l, (s.latch i).state.held = some f) → t.feeder f = s.feeder f ∧ t.head f = s.head f

theorem Removes.nil (s : State) : Removes s [] s :=
  ⟨rfl, fun _ _ => by simp, fun _ _ ⟨_, h, _⟩ => absurd h List.not_mem_nil, fun _ _ _ => ⟨rfl, rfl⟩⟩

theorem Removes.cons {s u t : State} {i : Nat} {l : List Nat} (hl : ∀ j ∈ i :: l, j < 4) (h : Removes s [i] u) (k : Removes u l t) :
    Removes s (i :: l) t := by
  have latch (j : Nat) (hj : j < 4) : u.latch j = if j = i then Latch.mk .opened 0 else s.latch j := by
    simpa using h.latches j hj
  have stillHeld (f j : Nat) (hj : j ∈ l) : (u.latch j).state.held = some f → (s.latch j).state.held = some f := by
    rw [latch j (hl j (List.mem_cons_of_mem _ hj))]
    split
    · intro none
      cases none
    · exact id
  have heldOf (f j : Nat) (hj : j ∈ l) (ne : j ≠ i) (hs : (s.latch j).state.held = some f) : (u.latch j).state.held = some f := by
    rwa [latch j (hl j (List.mem_cons_of_mem _ hj)), if_neg ne]
  refine ⟨?_, fun j hj => ?_, fun f hf held => ?_, fun f hf free => ?_⟩
  · rw [k.same, h.same]
  · rw [k.latches j hj, latch j hj]
    by_cases later : j ∈ l <;> simp [later]
  · have rail : (u.feeder f).rail = (s.feeder f).rail := by
      by_cases first : ∃ i' ∈ [i], (s.latch i').state.held = some f
      · rw [h.held f hf first]
        rfl
      · rw [(h.others f hf first).1]
    by_cases later : ∃ j ∈ l, (u.latch j).state.held = some f
    · rw [k.held f hf later, rail]
    · rw [(k.others f hf later).1]
      obtain ⟨j, hj, hs⟩ := held
      refine h.held f hf ⟨i, List.mem_singleton_self i, ?_⟩
      rcases List.mem_cons.mp hj with rfl | tail
      · exact hs
      · by_contra ne
        exact later ⟨j, tail, heldOf f j tail (fun e => ne (e ▸ hs)) hs⟩
  · have first : ¬ ∃ i' ∈ [i], (s.latch i').state.held = some f := by
      rintro ⟨i', hi, hs⟩
      exact free ⟨i', List.mem_cons.mpr (.inl (List.mem_singleton.mp hi)), hs⟩
    have later : ¬ ∃ j ∈ l, (u.latch j).state.held = some f := by
      rintro ⟨j, hj, hu⟩
      exact free ⟨j, List.mem_cons_of_mem _ hj, stillHeld f j hj hu⟩
    obtain ⟨feeder, head⟩ := k.others f hf later
    obtain ⟨feeder', head'⟩ := h.others f hf first
    exact ⟨feeder.trans feeder', head.trans head'⟩

theorem State.putFeeder_same (s : State) (f : Nat) (v : Feeder) :
    s.putFeeder f v = { s with feeders := (s.putFeeder f v).feeders, yarn := (s.putFeeder f v).yarn } := by
  unfold State.putFeeder
  dsimp only
  split <;> rfl

/-- The latch of a system that holds feeder g is removed. -/
theorem Removes.faultFeeder {s : State} {i g : Nat} (holds : (s.latch i).state.held = some g) :
    Removes s [i] (s.faultFeeder i g) := by
  have latches (j : Nat) (hj : j < 4) : (s.faultFeeder i g).latch j = if j ∈ [i] then Latch.mk .opened 0 else s.latch j := by
    rw [State.faultFeeder, State.openLatch, State.latch_putLatch, State.latch_putFeeder]
    simp [hj, eq_comm]
  have feeder (f : Nat) : (s.faultFeeder i g).feeder f = if g = f ∧ f < 16 then .faulted (s.feeder g).rail else s.feeder f := by
    rw [State.faultFeeder, State.openLatch, State.feeder_putLatch, State.feeder_putFeeder]
  refine ⟨?_, latches, fun f hf held => ?_, fun f hf free => ?_⟩
  · rw [State.faultFeeder, State.putFeeder_same]
    rfl
  · obtain ⟨i', hi', hs⟩ := held
    rw [List.mem_singleton.mp hi', holds] at hs
    obtain rfl := Option.some.inj hs
    rw [feeder, if_pos ⟨rfl, hf⟩]
  · have ne : g ≠ f := fun e => free ⟨i, List.mem_singleton_self i, e ▸ holds⟩
    refine ⟨by rw [feeder, if_neg (fun h => ne h.1)], ?_⟩
    exact (s.head_putFeeder g f _).trans (if_neg fun h => ne h.1)

theorem Removes.openLatch {s : State} {i : Nat} (holds : (s.latch i).state.held = none) : Removes s [i] (s.openLatch i) := by
  refine ⟨rfl, fun j hj => ?_, fun f _ held => ?_, fun f _ _ => ⟨s.feeder_putLatch _ _ _, rfl⟩⟩
  · rw [State.openLatch, State.latch_putLatch]
    simp [hj, eq_comm]
  · obtain ⟨i', hi', hs⟩ := held
    simp [List.mem_singleton.mp hi', holds] at hs

theorem State.removeLatch_removes (s : State) (i : Nat) : Removes s [i] (s.removeLatch i) := by
  unfold State.removeLatch
  split
  next held => exact .faultFeeder (by rw [held]; rfl)
  next held => exact .faultFeeder (by rw [held]; rfl)
  next held => exact .faultFeeder (by rw [held]; rfl)
  next opened => exact .openLatch (by rw [opened]; rfl)

theorem State.removeLatch_fold (l : List Nat) (hl : ∀ j ∈ l, j < 4) (s : State) : Removes s l (l.foldl State.removeLatch s) := by
  induction l generalizing s with
  | nil => exact .nil s
  | cons i l ih =>
    exact .cons hl (s.removeLatch_removes i) (ih (fun j hj => hl j (List.mem_cons_of_mem _ hj)) _)

theorem State.systemsWritten_eq (s : State) : ∃ t : State, s.systemsWritten = t
    ∧ t = { s with feeders := t.feeders, queue := t.queue, yarn := t.yarn }
    ∧ (∀ i < 4, s.systems ≤ i → t.latch i = Latch.mk .opened 0) ∧ (∀ i < 4, i < s.systems → t.latch i = s.latch i)
    ∧ (∀ f < 16, (∃ i < 4, s.systems ≤ i ∧ (s.latch i).state.held = some f) → t.feeder f = .faulted (s.feeder f).rail)
    ∧ (∀ f < 16, (¬ ∃ i < 4, s.systems ≤ i ∧ (s.latch i).state.held = some f) →
        t.feeder f = s.feeder f ∧ t.head f = s.head f)
    ∧ t.queue = if s.queue.records = [] then { s.queue with proj := t.feeders.project } else s.queue := by
  have removed := State.removeLatch_fold ((List.range 4).filter fun i => decide (s.systems ≤ i)) (fun j hj => by simpa using (List.mem_filter.mp hj).1) s
  have mem (i : Nat) : i ∈ (List.range 4).filter (fun i => decide (s.systems ≤ i)) ↔ i < 4 ∧ s.systems ≤ i := by simp
  have some' (f : Nat) : (∃ i ∈ (List.range 4).filter (fun i => decide (s.systems ≤ i)), (s.latch i).state.held = some f)
      ↔ ∃ i < 4, s.systems ≤ i ∧ (s.latch i).state.held = some f := by simp only [mem, and_assoc]
  obtain ⟨same, latches, held, others⟩ := removed
  simp only [some'] at held others
  have written : s.systemsWritten = State.followProjection
      (((List.range 4).filter fun i => decide (s.systems ≤ i)).foldl State.removeLatch s) := rfl
  generalize ((List.range 4).filter fun i => decide (s.systems ≤ i)).foldl State.removeLatch s = u at same latches held others written
  have queue : u.queue = s.queue := by rw [same]
  refine ⟨_, rfl, ?_, fun i hi out => ?_, fun i hi fitted => ?_, fun f hf hh => ?_, fun f hf hh => ?_, ?_⟩
  · rw [written, State.followProjection_eq]
    generalize (if u.queue.records = [] then _ else u.queue) = q
    conv_lhs => rw [same]
    rfl
  · rw [written, State.followProjection_eq]
    exact (latches i hi).trans (if_pos ((mem i).mpr ⟨hi, out⟩))
  · rw [written, State.followProjection_eq]
    exact (latches i hi).trans (if_neg fun h => absurd ((mem i).mp h).2 (Nat.not_le.mpr fitted))
  · rw [written, State.feeder_followProjection]
    exact held f hf hh
  · rw [written, State.feeder_followProjection, State.followProjection_eq]
    exact others f hf hh
  · rw [written, State.followProjection_eq, queue]
    rfl

/-! ### STOP_SWEEPS and SILENT_LIMIT (R143) -/

/-- What bringing the heads of a list into a new limit has done: each head as F makes it, and a raise of c where one was hit. -/
structure LimitsHeads (F : HeadRecord → HeadRecord) (hit : HeadRecord → Prop) (c : Cond) (s : State) (l : List Nat) (t : State) :
    Prop where
  same : t = { s with yarn := t.yarn, monitor := t.monitor, freeCount := t.freeCount }
  heads : ∀ f < 16, t.head f = if f ∈ l then F (s.head f) else s.head f
  grows : s.monitor.Grows t.monitor
  raised : (∃ f ∈ l, hit (s.head f)) → (t.monitor.record c).captured = true ∧ (t.monitor.record c).latched ≠ none
  quiet : (∀ f ∈ l, ¬ hit (s.head f)) → t.monitor = s.monitor

theorem LimitsHeads.cons {F : HeadRecord → HeadRecord} {hit : HeadRecord → Prop} {c : Cond} {s u t : State} {f : Nat} {l : List Nat}
    (new : f ∉ l) (small : ∀ g ∈ l, g < 16) (h : LimitsHeads F hit c s [f] u) (k : LimitsHeads F hit c u l t) :
    LimitsHeads F hit c s (f :: l) t := by
  have later (g : Nat) (hg : g ∈ l) : u.head g = s.head g := by
    rw [h.heads g (small g hg), if_neg]
    exact fun e => new ((List.mem_singleton.mp e : g = f) ▸ hg)
  refine ⟨?_, fun g hg => ?_, h.grows.trans k.grows, fun ⟨g, hg, hh⟩ => ?_, fun none => ?_⟩
  · rw [k.same, h.same]
  · rw [k.heads g hg]
    by_cases tail : g ∈ l
    · rw [if_pos tail, if_pos (List.mem_cons_of_mem _ tail), later g tail]
    · rw [if_neg tail, h.heads g hg]
      simp [tail]
  · rcases List.mem_cons.mp hg with rfl | tail
    · obtain ⟨captured, latched⟩ := h.raised ⟨g, List.mem_singleton_self g, hh⟩
      obtain ⟨d, hd⟩ := Option.ne_none_iff_exists'.mp latched
      exact ⟨k.grows.captured captured, by simp [k.grows.latched hd]⟩
    · exact k.raised ⟨g, tail, later g tail ▸ hh⟩
  · rw [k.quiet fun g hg => later g hg ▸ none g (List.mem_cons_of_mem _ hg),
      h.quiet fun g hg => none g (List.mem_cons.mpr (.inl (List.mem_singleton.mp hg)))]

/-- A fold whose step limits one head, in states of one set of settings and with no pass. -/
theorem LimitsHeads.foldl {F : HeadRecord → HeadRecord} {hit : HeadRecord → Prop} {c : Cond} {g : State → Nat → State} (w : State)
    (step : ∀ s f, s.engine = w.engine → s.settings = w.settings → LimitsHeads F hit c s [f] (g s f)) :
    ∀ (l : List Nat) (s : State), l.Nodup → (∀ f ∈ l, f < 16) → s.engine = w.engine → s.settings = w.settings →
      LimitsHeads F hit c s l (l.foldl g s) := by
  intro l
  induction l with
  | nil =>
    intro s _ _ _ _
    exact ⟨rfl, fun _ _ => by simp, .refl _, fun ⟨_, h, _⟩ => absurd h List.not_mem_nil, fun _ => rfl⟩
  | cons f l ih =>
    intro s nodup small engine settings
    obtain ⟨new, rest⟩ := List.nodup_cons.mp nodup
    have tail : ∀ g ∈ l, g < 16 := fun g hg => small g (List.mem_cons_of_mem _ hg)
    have first := step s f engine settings
    have engine' : (g s f).engine = w.engine := by rw [first.same]; exact engine
    have settings' : (g s f).settings = w.settings := by rw [first.same]; exact settings
    exact .cons new tail first (ih _ rest tail engine' settings')

/-- One head written, and a raise of d where it was hit. -/
theorem LimitsHeads.put {F : HeadRecord → HeadRecord} {hit : HeadRecord → Prop} {s : State} {f : Nat} (n : Nat) (d : Detail)
    (noPass : s.engine.pass = none) (b : Prop) [Decidable b] (hb : b ↔ hit (s.head f)) :
    LimitsHeads F hit d.cond s [f]
      (if b then ((s.putHead f (F (s.head f))).setFreeCount n).raise d else s.putHead f (F (s.head f))) := by
  have heads (g : Nat) (hg : g < 16) :
      (s.putHead f (F (s.head f))).head g = if g ∈ [f] then F (s.head g) else s.head g := by
    rw [State.head_putHead]
    by_cases same : f = g
    · simp [same, hg]
    · simp [same, Ne.symm same]
  by_cases hitten : b
  · rw [if_pos hitten, State.raise_noPass (s := (s.putHead f (F (s.head f))).setFreeCount n) noPass]
    refine ⟨rfl, heads, .raise (.refl _) d, fun _ => ?_, fun none => ?_⟩
    · have record := s.monitor.noteRaise_record_eq d
      refine ⟨s.monitor.noteRaise_captured d, ?_⟩
      show ((s.monitor.noteRaise d).record d.cond).latched ≠ none
      rw [record]
      simp
    · exact absurd (hb.mp hitten) (none f (List.mem_singleton_self f))
  · rw [if_neg hitten]
    refine ⟨rfl, heads, .refl _, fun ⟨g, hg, hh⟩ => ?_, fun _ => rfl⟩
    exact absurd (hb.mpr (List.mem_singleton.mp hg ▸ hh)) hitten

theorem min_eq_and_ne_iff (limit old run : Nat) : (min run limit = limit ∧ run ≠ old) ↔ (limit ≤ run ∧ run ≠ old) := by
  rw [min_eq_right_iff]

theorem State.limitStill_limits {s : State} (f : Nat) (noPass : s.engine.pass = none) (old : Nat) :
    LimitsHeads (fun h => { h with stillRun := min h.stillRun s.stopSweeps }) (fun h => s.stopSweeps ≤ h.stillRun ∧ h.stillRun ≠ old)
      .yarnStop s [f] (State.limitStill old s f) :=
  .put s.freeCount (.yarnStop (f + 1)) noPass _ (min_eq_and_ne_iff _ _ _)

theorem State.limitSilent_limits {s : State} (f : Nat) (noPass : s.engine.pass = none) (old : Nat) :
    LimitsHeads (fun h => { h with silentRun := min h.silentRun s.silentLimit })
      (fun h => s.silentLimit ≤ h.silentRun ∧ h.silentRun ≠ old) .headSilent s [f] (State.limitSilent old s f) :=
  .put (s.freeCount + 1) (.headSilent (f + 1) (if Config.freeSilentMalformed s.freeCount then .malformed else .noReply)) noPass _
    (min_eq_and_ne_iff _ _ _)

theorem State.limitStill_fold {s : State} (noPass : s.engine.pass = none) (old : Nat) :
    LimitsHeads (fun h => { h with stillRun := min h.stillRun s.stopSweeps }) (fun h => s.stopSweeps ≤ h.stillRun ∧ h.stillRun ≠ old)
      .yarnStop s (List.range 16) ((List.range 16).foldl (State.limitStill old) s) := by
  refine LimitsHeads.foldl s (fun t f engine settings => ?_) _ s List.nodup_range (fun f => by simp) rfl rfl
  have limit : t.stopSweeps = s.stopSweeps := by rw [State.stopSweeps, State.setting, settings]; rfl
  have limited := State.limitStill_limits (s := t) f (engine ▸ noPass) old
  rwa [limit] at limited

theorem State.limitSilent_fold {s : State} (noPass : s.engine.pass = none) (old : Nat) :
    LimitsHeads (fun h => { h with silentRun := min h.silentRun s.silentLimit })
      (fun h => s.silentLimit ≤ h.silentRun ∧ h.silentRun ≠ old) .headSilent s (List.range 16)
      ((List.range 16).foldl (State.limitSilent old) s) := by
  refine LimitsHeads.foldl s (fun t f engine settings => ?_) _ s List.nodup_range (fun f => by simp) rfl rfl
  have limit : t.silentLimit = s.silentLimit := by rw [State.silentLimit, State.setting, settings]; rfl
  have limited := State.limitSilent_limits (s := t) f (engine ▸ noPass) old
  rwa [limit] at limited

theorem State.limitStill_fold_freeCount (s : State) (old : Nat) (l : List Nat) :
    (l.foldl (State.limitStill old) s).freeCount = s.freeCount := by
  refine (RunFrame.foldl _ (fun t f => ?_) l s).freeCount
  have put := RunFrame.putHead t f { t.head f with stillRun := min (t.head f).stillRun t.stopSweeps }
  exact keeps_ite (P := RunFrame t) (put.trans (RunFrame.raise _ _)) put

/-- Settles O21, setting by setting. -/
theorem writeSettingMovesItsReaders : Obligations.WriteSettingMovesItsReaders := by
  intro body n v s parsed heard unlocked inRange w
  have known : n < 30 := Nat.lt_succ_of_le (settingInRange_le inRange)
  have written (t : State) (h : w.settingWritten n s.stopSweeps s.silentLimit = t) :
      exec (.writeSetting body) s = .next (t.sendReply (kindByte 0x1C) (accept [])) :=
    exec_writeSetting_answer parsed heard ((State.writeSetting_taken unlocked inRange).trans (h ▸ rfl))
  have value : w.setting n = v := State.setting_putSetting s known v
  refine ⟨fun tracking => written _ ?_, fun field => ?_, fun systems => ?_, fun stop noPass => ?_, fun silent noPass => ?_⟩
  · have reader : w.settingWritten n s.stopSweeps s.silentLimit = w.trackingWritten := by
      simp only [List.mem_cons, List.not_mem_nil, or_false] at tracking
      rcases tracking with rfl | rfl | rfl | rfl <;> rfl
    rw [reader]
    rfl
  · have reader : w.settingWritten n s.stopSweeps s.silentLimit = w.fieldWritten := by
      simp only [List.mem_cons, List.not_mem_nil, or_false] at field
      rcases field with rfl | rfl | rfl <;> rfl
    obtain ⟨t, ht, same, latches, feeders, queue⟩ := w.fieldWritten_eq
    refine ⟨t, written t (reader.trans ht), same, latches, fun f hf rail pos parked => ?_, fun f hf other => ?_, queue⟩
    · exact (feeders f hf).trans (State.feederInField_parked (s := w) parked)
    · exact (feeders f hf).trans (State.feederInField_other (s := w) other)
  · subst systems
    have fitted : w.systems = v.toNat := congrArg Int.toNat value
    obtain ⟨t, ht, same, out, kept, held, others, queue⟩ := w.systemsWritten_eq
    rw [fitted] at out kept held others
    exact ⟨t, written t ht, same, out, kept, held, others, queue⟩
  · subst stop
    have limit : w.stopSweeps = v.toNat := congrArg Int.toNat value
    have limited := State.limitStill_fold (s := w) noPass s.stopSweeps
    have free := w.limitStill_fold_freeCount s.stopSweeps (List.range 16)
    rw [limit] at limited
    refine ⟨_, written _ rfl, ?_, fun f hf => ?_, fun ⟨f, hf, hh⟩ => ?_, fun quiet => ?_⟩
    · have same := limited.same
      rw [free] at same
      exact same
    · exact (limited.heads f hf).trans (if_pos (List.mem_range.mpr hf))
    · exact limited.raised ⟨f, List.mem_range.mpr hf, hh⟩
    · refine limited.quiet fun f hf hh => ?_
      rcases quiet f (List.mem_range.mp hf) with below | standing
      · exact absurd hh.1 (Nat.not_le.mpr below)
      · exact hh.2 standing
  · subst silent
    have limit : w.silentLimit = v.toNat := congrArg Int.toNat value
    have limited := State.limitSilent_fold (s := w) noPass s.silentLimit
    rw [limit] at limited
    refine ⟨_, written _ rfl, limited.same, fun f hf => ?_, fun ⟨f, hf, hh⟩ => ?_, fun quiet => ?_⟩
    · exact (limited.heads f hf).trans (if_pos (List.mem_range.mpr hf))
    · exact limited.raised ⟨f, List.mem_range.mpr hf, hh⟩
    · refine limited.quiet fun f hf hh => ?_
      rcases quiet f (List.mem_range.mp hf) with below | standing
      · exact absurd hh.1 (Nat.not_le.mpr below)
      · exact hh.2 standing

end Sys2Proof.Machine

/-! SUPPORT. The requests on the pass queue: QUEUE_PASS, STOP_CYCLING, CANCEL_QUEUED, RESUME, GO and HALT. -/

namespace Sys2Proof.Machine

/-! ### The head arms (R63) -/

theorem PassRecord.arm_eq (r : PassRecord) : r.arm = { r with state := if r.start = .onGo then .armed (some .waitGo) else .armed none } := by
  unfold PassRecord.arm
  cases r.start <;> rfl

theorem State.armHead_held {s : State} (h : s.queue.plan = .held) : s.armHead = s :=
  if_neg (by simp [h])

theorem State.armHead_running {s : State} (h : s.queue.plan = .running) :
    s.armHead = s.mapHead fun r => if r.state = .queued then r.arm else r :=
  if_pos h

theorem State.mapHead_empty {s : State} (h : s.queue.records = []) (g : PassRecord → PassRecord) : s.mapHead g = s := by
  rw [State.mapHead, h]
  exact (congrArg (fun l => s.setQueue { s.queue with records := l }) h.symm).trans s.setQueue_self

theorem State.mapHead_cons {s : State} {h : PassRecord} {rest : List PassRecord} (e : s.queue.records = h :: rest)
    (g : PassRecord → PassRecord) : s.mapHead g = s.setQueue { s.queue with records := g h :: rest } := by
  rw [State.mapHead, e]

theorem State.armHead_same (s : State) : s.armHead = s.setQueue { s.queue with records := s.armHead.queue.records } := by
  unfold State.armHead State.mapHead
  split <;> rfl

/-! ### QUEUE_PASS (R45, R57) -/

theorem exec_queuePass_answer {body : List Byte} {r : PassRecord} {s t : State} {a : Answer} (p : parseQueuePass body = some r)
    (h : s.listening) (o : State.queuePass r s = (t, a)) :
    exec (.queuePass body) s = .next (t.sendReply (kindByte 0x0A) a) :=
  congrArg Host.Outcome.next (State.addressed_answer h _ p o)

theorem State.queuePass_unlocked {s : State} (h : s.settings.locked = false) (r : PassRecord) :
    State.queuePass r s = (s, Answer.mk .notLocked (Locator.mk none none).bytes) := if_pos h

theorem State.queuePass_rejected {s : State} {r : PassRecord} {j : Rejection} (h : s.settings.locked = true)
    (k : s.admission r = some j) : State.queuePass r s = (s, Answer.mk j.result j.locator.bytes) := by
  simp [State.queuePass, h, k]

theorem State.queuePass_admitted {s : State} {r : PassRecord} (h : s.settings.locked = true) (k : s.admission r = none) :
    State.queuePass r s = (s.enqueue r,
      accept (bytesOf 1 (s.enqueue r).queue.records.length ++ bytesOf 1 (s.enqueue r).tailStateCode)) := by
  simp [State.queuePass, h, k]

/-- The state before the head arms. -/
def State.appended (s : State) (r : PassRecord) : State :=
  (s.setStore (addRefs s.store (r.resolve s.needles))).setQueue (PassQueue.mk (s.queue.records ++ [r.resolve s.needles]) s.queue.plan
    (s.queue.proj.advanceRecord (r.resolve s.needles)))

theorem State.enqueue_eq (s : State) (r : PassRecord) : s.enqueue r = (s.appended r).armHead := rfl

/-- R43, R57: the widths say nothing to the projection. -/
theorem Projection.advanceRecord_resolve (p : Projection) (n : Int) (r : PassRecord) :
    p.advanceRecord (r.resolve n) = p.advanceRecord r := by
  rw [Projection.advanceRecord, PassRecord.resolve, List.foldl_map, Projection.advanceRecord]

theorem State.enqueue_proj (s : State) (r : PassRecord) : (s.enqueue r).queue.proj = s.queue.proj.advanceRecord r := by
  rw [State.enqueue_eq, State.armHead_same]
  exact s.queue.proj.advanceRecord_resolve s.needles r

theorem State.enqueue_same (s : State) (r : PassRecord) :
    s.enqueue r = { s with store := (s.enqueue r).store, queue := (s.enqueue r).queue } := by
  conv_lhs => rw [State.enqueue_eq, State.armHead_same]
  rw [State.enqueue_eq, State.armHead_same]
  rfl

theorem State.enqueue_plan (s : State) (r : PassRecord) : (s.enqueue r).queue.plan = s.queue.plan := by
  rw [State.enqueue_eq, State.armHead_same]
  rfl

theorem State.enqueue_content (s : State) (r : PassRecord) (id : Nat) : ((s.enqueue r).line id).content = (s.line id).content := by
  have store : (s.enqueue r).store = addRefs s.store (r.resolve s.needles) := by
    rw [State.enqueue_eq, State.armHead_same]
    rfl
  rw [State.line, store]
  exact addRefs_content s.store _ id

theorem State.enqueue_length (s : State) (r : PassRecord) : (s.enqueue r).queue.records.length = s.queue.records.length + 1 := by
  have appended : (s.appended r).queue.records.length = s.queue.records.length + 1 := by simp [State.appended]
  rw [State.enqueue_eq, State.armHead, apply_ite State.queue, apply_ite PassQueue.records, apply_ite List.length, ← appended]
  refine (ite_congr rfl (fun _ => ?_) fun _ => rfl).trans (ite_self _)
  cases h : (s.appended r).queue.records with
  | nil => rw [State.mapHead_empty h, h]
  | cons r rs => rw [State.mapHead_cons h]; rfl

theorem State.tailStateCode_of {s : State} {rs : List PassRecord} {r : PassRecord} (h : s.queue.records = rs ++ [r]) :
    s.tailStateCode = r.state.code := by
  simp [State.tailStateCode, h]

/-- A plan that is HELD, or whose head is not QUEUED, takes the record as it is. -/
theorem State.enqueue_waits {s : State} (r : PassRecord)
    (h : s.queue.plan = .held ∨ ∃ h rest, s.queue.records = h :: rest ∧ h.state ≠ .queued) :
    (s.enqueue r).queue.records = s.queue.records ++ [r.resolve s.needles] := by
  rw [State.enqueue_eq]
  rcases h with held | ⟨head, rest, records, armed⟩
  · rw [State.armHead_held (s := s.appended r) held]
    rfl
  · cases plan : s.queue.plan with
    | held => rw [State.armHead_held (s := s.appended r) plan]; rfl
    | running =>
      have appended : (s.appended r).queue.records = head :: (rest ++ [r.resolve s.needles]) := by simp [State.appended, records]
      rw [State.armHead_running (s := s.appended r) plan, State.mapHead_cons appended, if_neg armed, records]
      rfl

theorem State.enqueue_arms {s : State} {r : PassRecord} (queued : r.state = .queued) (empty : s.queue.records = [])
    (running : s.queue.plan = .running) : (s.enqueue r).queue.records = [(r.resolve s.needles).arm] := by
  have appended : (s.appended r).queue.records = r.resolve s.needles :: [] := by simp [State.appended, empty]
  have waiting : (r.resolve s.needles).state = .queued := queued
  rw [State.enqueue_eq, State.armHead_running (s := s.appended r) running, State.mapHead_cons appended, if_pos waiting]
  rfl

theorem PassRecord.arm_code (r : PassRecord) : r.arm.state.code = 1 := by
  rw [PassRecord.arm_eq]
  dsimp only
  split <;> rfl

theorem Projection.feeder_take (p : Projection) {i f : Nat} (hf : f < 16) (g : Nat) :
    (p.advance i (.take f)).feeder g = if g = f then .coupled ((p.feeder f).rail?.getD 0) i else p.feeder g :=
  p.feeder_set f _ _ (Nat.le_of_lt_succ hf) g

theorem Projection.holder_take (p : Projection) {i : Nat} (f : Nat) (hi : i < 4) (j : Nat) :
    (p.advance i (.take f)).holder j = if j = i then some f else p.holder j :=
  p.holder_set i _ _ hi j

theorem Projection.feeder_release (p : Projection) (i : Nat) {f : Nat} (x : Int) (hf : f < 16) (g : Nat) :
    (p.advance i (.release f x)).feeder g = if g = f then .parked ((p.feeder f).rail?.getD 0) x else p.feeder g :=
  p.feeder_set f _ _ (Nat.le_of_lt_succ hf) g

theorem Projection.holder_release (p : Projection) {i : Nat} (f : Nat) (x : Int) (hi : i < 4) (j : Nat) :
    (p.advance i (.release f x)).holder j = if j = i then none else p.holder j :=
  p.holder_set i _ _ hi j

/-- R57: the actions that are still ahead, in body order. -/
theorem Projection.advanceRecord_ahead (p : Projection) (r : PassRecord) : p.advanceRecord r
    = (r.entries.flatMap fun e => (e.actions.filter fun a => decide (a.mark = .notReached)).map fun a => (e.system, a.act)).foldl
        (fun q a => q.advance a.1 a.2) p := by
  have entry (q : Projection) (e : SystemEntry) :
      ((e.actions.filter fun a => decide (a.mark = .notReached)).map fun a => (e.system, a.act)).foldl
          (fun q a => q.advance a.1 a.2) q
        = e.actions.foldl (fun q a => if a.mark = .notReached then q.advance e.system a.act else q) q := by
    simp only [List.foldl_map, List.foldl_filter, decide_eq_true_eq]
  rw [Projection.advanceRecord, List.foldl_flatMap]
  simp only [entry]

theorem Locator.bytes_laidOut (l : Locator) : l.bytes.length = 3 ∧ bitsAt l.bytes 0 [l.system.isSome, l.feeder.isSome]
    ∧ fieldAt l.bytes 1 1 = l.system.getD 0 % 256 ∧ fieldAt l.bytes 2 1 = l.feeder.getD 0 % 256 := by
  have bytes : l.bytes = bitsByte [l.system.isSome, l.feeder.isSome]
      :: (bytesOf 1 (l.system.getD 0 : Nat) ++ bytesOf 1 (l.feeder.getD 0 : Nat)) := rfl
  refine ⟨?_, ?_, ?_, ?_⟩
  · rw [bytes, List.length_cons, List.length_append, bytesOf_length, bytesOf_length]
  · rw [bytes]
    refine bitsAt_bitsByte _ _ _ (by simp) rfl fun k h _ => ?_
    match k, h with
    | 0, _ => rfl
    | 1, _ => rfl
  · exact fieldAt_of_byte (by rw [bytes, bytesOf_one, bytesOf_one]; rfl)
  · exact fieldAt_of_byte (by rw [bytes, bytesOf_one, bytesOf_one]; rfl)

/-- Settles O33: the record as `enqueue` appends it, and the fold of its actions. -/
theorem queuePassAppendsOrRefuses : Obligations.QueuePassAppendsOrRefuses := by
  refine ⟨fun body r s parsed heard => ⟨fun unlocked => ?_, fun j locked rejected => ?_, fun locked admitted => ?_⟩,
    fun r n => ⟨rfl, r.arm_eq⟩, fun p i f g j x hi hf => ⟨p.feeder_take hf g, p.holder_take f hi j, p.feeder_release i x hf g,
      p.holder_release f x hi j⟩, fun p r => p.advanceRecord_ahead r, Locator.bytes_laidOut⟩
  · exact exec_queuePass_answer parsed heard (State.queuePass_unlocked unlocked r)
  · exact exec_queuePass_answer parsed heard (State.queuePass_rejected locked rejected)
  · have queued : r.state = .queued := parseQueuePass_state parsed
    have waits (h : s.queue.plan = .held ∨ ∃ h rest, s.queue.records = h :: rest ∧ h.state ≠ .queued) :
        (s.enqueue r).tailStateCode = 0 ∧ (s.enqueue r).queue.records = s.queue.records ++ [r.resolve s.needles] := by
      have records := State.enqueue_waits r h
      refine ⟨(State.tailStateCode_of records).trans ?_, records⟩
      exact congrArg RecordState.code queued
    have answered := exec_queuePass_answer parsed heard (State.queuePass_admitted locked admitted)
    rw [State.enqueue_length] at answered
    refine ⟨s.enqueue r, (s.enqueue r).tailStateCode, answered, s.enqueue_same r, s.enqueue_plan r,
      fun id => ⟨s.enqueue_content r id, enqueue_refs admitted id⟩, s.enqueue_proj r, fun _ held => waits (.inl held),
      fun empty held => ?_, fun empty running => ?_, fun h rest records armed running => waits (.inr ⟨h, rest, records, armed⟩)⟩
    · simpa [empty] using waits (.inl held)
    · have records := State.enqueue_arms queued empty running
      exact ⟨(State.tailStateCode_of (rs := []) records).trans (PassRecord.arm_code _), records⟩

/-! ### STOP_CYCLING and CANCEL_QUEUED (R67, R68) -/

theorem exec_stopCycling {s : State} (h : s.listening) : exec (.stopCycling []) s
    = .next ((State.stopCycling () s).1.sendReply (kindByte 0x0C) (State.stopCycling () s).2) :=
  congrArg Host.Outcome.next (State.addressed_answer h _ rfl rfl)

theorem exec_cancelQueued {s : State} (h : s.listening) : exec (.cancelQueued []) s
    = .next ((State.cancelQueued () s).1.sendReply (kindByte 0x0B) (State.cancelQueued () s).2) :=
  congrArg Host.Outcome.next (State.addressed_answer h _ rfl rfl)

theorem RecordState.inPass_eq (x : RecordState) : x.inPass = (decide (x = .active) || decide (x = .finishing)) := by
  cases x <;> rfl

/-- Settles O35: the cycle flags are cleared in place, and a cancellation keeps the record in its pass alone. -/
theorem stopCyclingAndCancelQueued : Obligations.StopCyclingAndCancelQueued := by
  refine ⟨⟨fun s heard => ⟨_, ?_, rfl⟩, fun s heard => exec_broadcastRefused (by decide) heard⟩, fun s heard room => ?_⟩
  · rw [exec_stopCycling heard, List.countP_eq_length_filter]
    rfl
  · intro kept gone
    have cancelled := exec_cancelQueued heard
    simp only [State.cancelQueued, RecordState.inPass_eq] at cancelled
    have flushed := State.log_room (s := (s.setStore (gone.foldl dropRefs s.store)).setQueue
      (PassQueue.mk kept s.queue.plan (kept.foldl Projection.advanceRecord s.feeders.project))) room (.queueFlushed gone.length .cancel)
    refine ⟨_, cancelled.trans (congrArg (fun t : State => Host.Outcome.next (t.sendReply _ _)) flushed), rfl, rfl, rfl, rfl,
      fun id => ⟨dropAll_content gone s.store id, dropAll_refs gone s.store id⟩, rfl⟩

/-! ### RESUME and GO (R61, R63, R64) -/

theorem exec_resume_answer {s t : State} {a : Answer} (h : s.listening) (o : State.resume () s = (t, a)) :
    exec (.resume []) s = .next (t.sendReply (kindByte 0x0D) a) :=
  congrArg Host.Outcome.next (State.addressed_answer h _ rfl o)

theorem State.headStateCode_empty {s : State} (h : s.queue.records = []) : s.headStateCode = 4 := by
  rw [State.headStateCode, h]

theorem State.headStateCode_cons {s : State} {h : PassRecord} {rest : List PassRecord} (e : s.queue.records = h :: rest) :
    s.headStateCode = h.state.code := by
  rw [State.headStateCode, e]

theorem State.resume_running {s : State} (h : s.queue.plan = .running) :
    State.resume () s = (s, accept (bytesOf 1 1 ++ bytesOf 1 s.headStateCode)) := by
  simp [State.resume, h, PlanState.code]

theorem State.resume_unlocked {s : State} (h : s.queue.plan = .held) (l : s.settings.locked = false) :
    State.resume () s = (s, refuse .notLocked) := by
  simp [State.resume, h, l]

theorem State.resume_notReady {s : State} (h : s.queue.plan = .held) (l : s.settings.locked = true)
    (p : s.tracker.position.valid = false) : State.resume () s = (s, refuse .notReady) := by
  simp [State.resume, h, l, p]

/-- RESUME as it is taken. -/
theorem State.resume_taken {s : State} (h : s.queue.plan = .held) (l : s.settings.locked = true)
    (p : s.tracker.position.valid = true) : State.resume () s =
      let t := (s.setQueue { s.queue with plan := .running }).armHead
      (t, accept (bytesOf 1 t.queue.plan.code ++ bytesOf 1 t.headStateCode)) := by
  simp [State.resume, h, l, p]

theorem State.resume_empty {s : State} (h : s.queue.plan = .held) (l : s.settings.locked = true) (p : s.tracker.position.valid = true)
    (e : s.queue.records = []) : State.resume () s
      = (s.setQueue { s.queue with plan := .running }, accept (bytesOf 1 1 ++ bytesOf 1 4)) := by
  have armed : (s.setQueue { s.queue with plan := .running }).armHead = s.setQueue { s.queue with plan := .running } :=
    (State.armHead_running rfl).trans (State.mapHead_empty (s := s.setQueue { s.queue with plan := .running }) e _)
  rw [State.resume_taken h l p, armed]
  dsimp only
  rw [State.headStateCode_empty (s := s.setQueue { s.queue with plan := .running }) e]
  rfl

theorem State.resume_arms {s : State} {r : PassRecord} {rest : List PassRecord} (h : s.queue.plan = .held)
    (l : s.settings.locked = true) (p : s.tracker.position.valid = true) (e : s.queue.records = r :: rest) (q : r.state = .queued) :
    State.resume () s = (s.setQueue { s.queue with plan := .running, records := r.arm :: rest }, accept (bytesOf 1 1 ++ bytesOf 1 1)) := by
  have armed : (s.setQueue { s.queue with plan := .running }).armHead
      = s.setQueue { s.queue with plan := .running, records := r.arm :: rest } := by
    rw [State.armHead_running rfl, State.mapHead_cons (s := s.setQueue { s.queue with plan := .running }) e, if_pos q]
    rfl
  rw [State.resume_taken h l p, armed]
  dsimp only
  rw [State.headStateCode_cons (h := r.arm) rfl, PassRecord.arm_code]
  rfl

theorem exec_go_answer {s t : State} {a : Answer} (o : State.giveGo () s = (t, a)) :
    (s.listening → exec (.go .addressed []) s = .next (t.sendReply (kindByte 0x0F) a))
    ∧ (s.link.rx.busy = false → exec (.go .broadcast []) s = .next (t.setRx .hunt)) := by
  refine ⟨fun heard => congrArg Host.Outcome.next (State.addressed_answer heard _ rfl o), fun heard => ?_⟩
  refine congrArg Host.Outcome.next ((State.broadcast_some heard (kindByte 0x0F) () State.giveGo).trans ?_)
  rw [o]

theorem State.giveGo_waiting {s : State} {h : PassRecord} {rest : List PassRecord} (e : s.queue.records = h :: rest)
    (w : h.state = .armed (some .waitGo)) : State.giveGo () s
      = (s.setQueue { s.queue with records := { h with state := .armed (some .goGiven) } :: rest }, accept []) := by
  have waits : s.headWaits = true := by simp [State.headWaits, e, w]
  rw [State.giveGo, if_pos waits, State.setHeadState, State.mapHead_cons e]

theorem State.giveGo_notWaiting {s : State} (h : ∀ r rest, s.queue.records = r :: rest → r.state ≠ .armed (some .waitGo)) :
    State.giveGo () s = (s, refuse .notWaiting) := by
  refine if_neg ?_
  unfold State.headWaits
  split
  next r rest e => simpa using h r rest e
  · simp

/-- Settles O36: RESUME by its checks in order and the head it arms; GO by the head that waits. -/
theorem resumeArmsAndGoReleases : Obligations.ResumeArmsAndGoReleases := by
  refine ⟨⟨fun s heard => ⟨fun running => ?_, fun held unlocked => ?_, fun held locked invalid => ?_, fun held locked valid =>
    ⟨fun empty => ?_, fun h rest records queued => ?_⟩⟩,
    fun h rest s records waiting => exec_go_answer (State.giveGo_waiting records waiting),
    fun s none => exec_go_answer (State.giveGo_notWaiting none)⟩, fun s => ⟨State.headStateCode_empty, fun h rest records => ?_⟩⟩
  · exact exec_resume_answer heard (State.resume_running running)
  · exact exec_resume_answer heard (State.resume_unlocked held unlocked)
  · exact exec_resume_answer heard (State.resume_notReady held locked invalid)
  · exact exec_resume_answer heard (State.resume_empty held locked valid empty)
  · have resumed := exec_resume_answer heard (State.resume_arms held locked valid records queued)
    rwa [PassRecord.arm_eq] at resumed
  · rw [State.headStateCode_cons records]
    exact ⟨fun h => by rw [h]; rfl, fun go h => by rw [h]; rfl, fun h => by rw [h]; rfl, fun h => by rw [h]; rfl⟩

/-! ### HALT and the flush (R62, R66) -/

theorem exec_halt_answer {s t : State} (o : (State.halt () s).1 = t) :
    (s.listening → exec (.halt .addressed []) s = .next (t.sendReply (kindByte 0x0E) (accept [])))
    ∧ (s.link.rx.busy = false → exec (.halt .broadcast []) s = .next (t.setRx .hunt)) := by
  refine ⟨fun heard => congrArg Host.Outcome.next ?_, fun heard => congrArg Host.Outcome.next ?_⟩
  · exact (State.addressed_some heard (kindByte 0x0E) () State.halt).trans (o ▸ rfl)
  · exact (State.broadcast_some heard (kindByte 0x0E) () State.halt).trans (o ▸ rfl)

theorem State.halt_noPass {s : State} (h : s.engine.pass = none) : (State.halt () s).1 = s.flush .halt :=
  if_neg (by simp [State.passInProgress_eq_false h])

theorem State.halt_pass {s : State} (h : s.engine.pass ≠ none) : (State.halt () s).1 = s.abortPass .halt :=
  if_pos (s.passInProgress_iff.mpr h)

theorem State.flush_refs (s : State) (cause : FlushCause) (id : Nat) : ((s.flush cause).line id).refs = (s.line id).refs - s.namesOf id := by
  rw [s.flush_eq cause]
  exact dropAll_refs s.queue.records s.store id

theorem FeederUnit.holder_project (u : FeederUnit) (i : Nat) :
    u.project.holder i = (u.latches.getD i (Latch.mk .opened 0)).projectedHolder :=
  getD_mapTable Latch.projectedHolder u.latches i (Latch.mk .opened 0)

/-- Settles O37: HALT by the pass, the flush by its three parts, and the projection record by record. -/
theorem haltAbortsOrFlushes : Obligations.HaltAbortsOrFlushes := by
  refine ⟨⟨fun s noPass => exec_halt_answer (State.halt_noPass noPass), fun s pass => exec_halt_answer (State.halt_pass pass),
    fun cause s => ⟨_, rfl, ?_, fun id => ⟨(RunFrame.flush s cause).lines id, s.flush_refs cause id⟩, fun room => ?_⟩⟩,
    fun u f i => ?_⟩
  · rw [s.flush_eq cause]
  · rw [s.flush_eq cause]
    exact congrArg State.monitor (State.append_room room (.queueFlushed s.queue.records.length cause))
  · intro v l
    have feeder : u.project.feeder f = v.project := u.feeder_project f
    have holder : u.project.holder i = (u.latches.getD i (Latch.mk .opened 0)).projectedHolder := u.holder_project i
    rw [feeder, holder, Latch.projectedHolder]
    refine ⟨fun h => by rw [h]; rfl, fun _ _ h => by rw [h]; rfl, fun _ _ h => ?_, fun _ _ _ h => by rw [h]; rfl,
      fun _ h => by rw [h]; rfl, fun g pos h => ?_, fun g h => ?_⟩
    · rcases h with h | h <;> rw [h] <;> rfl
    · change l = _ ∨ l = _ at h
      rcases h with h | h <;> simp [l] at h <;> simp [h]
    · rcases h with h | h <;> simp [l] at h <;> simp [h]

end Sys2Proof.Machine

/-! SUPPORT. A step of the carriage: its class, the entry crossing, the order of an advancing step and the pair arrivals. -/

namespace Sys2Proof.Machine

/-! ### The geometry of a pass (introduction, section 3.6) -/

theorem Direction.beyond_iff (d : Direction) (y x : Int) : d.beyond y x = true ↔ 0 < (y - x) * d.sign := by
  cases d <;> simp [Direction.beyond, Direction.sign]

/-- A fold by an operation that picks one of its two operands finds a bound that is attained. -/
theorem foldl_max_spec (f : Nat → Int) (l : List Nat) (a : Int) :
    a ≤ l.foldl (fun m i => max m (f i)) a ∧ (∀ i ∈ l, f i ≤ l.foldl (fun m i => max m (f i)) a)
      ∧ (l.foldl (fun m i => max m (f i)) a = a ∨ ∃ i ∈ l, f i = l.foldl (fun m i => max m (f i)) a) := by
  induction l generalizing a with
  | nil => simp
  | cons j l ih =>
    obtain ⟨above, each, attained⟩ := ih (max a (f j))
    simp only [List.foldl_cons, List.mem_cons, forall_eq_or_imp, exists_eq_or_imp]
    generalize l.foldl (fun m i => max m (f i)) (max a (f j)) = m at *
    refine ⟨(le_max_left _ _).trans above, ⟨(le_max_right _ _).trans above, each⟩, ?_⟩
    rcases attained with here | later
    · rcases max_choice a (f j) with h | h <;> simp [here, h]
    · exact .inr (.inr later)

theorem foldl_min_spec (f : Nat → Int) (l : List Nat) (a : Int) :
    l.foldl (fun m i => min m (f i)) a ≤ a ∧ (∀ i ∈ l, l.foldl (fun m i => min m (f i)) a ≤ f i)
      ∧ (l.foldl (fun m i => min m (f i)) a = a ∨ ∃ i ∈ l, f i = l.foldl (fun m i => min m (f i)) a) := by
  induction l generalizing a with
  | nil => simp
  | cons j l ih =>
    obtain ⟨below, each, attained⟩ := ih (min a (f j))
    simp only [List.foldl_cons, List.mem_cons, forall_eq_or_imp, exists_eq_or_imp]
    generalize l.foldl (fun m i => min m (f i)) (min a (f j)) = m at *
    refine ⟨below.trans (min_le_left _ _), ⟨below.trans (min_le_right _ _), each⟩, ?_⟩
    rcases attained with here | later
    · rcases min_choice a (f j) with h | h <;> simp [here, h]
    · exact .inr (.inr later)

theorem State.maxOffset_spec {s : State} (h : 0 < s.systems) :
    (∀ i < s.systems, s.offset i ≤ s.maxOffset) ∧ ∃ i < s.systems, s.offset i = s.maxOffset := by
  obtain ⟨_, each, attained⟩ := foldl_max_spec s.offset s.fitted (s.offset 0)
  simp only [State.fitted, List.mem_range] at each attained
  refine ⟨each, ?_⟩
  rcases attained with here | later
  · exact ⟨0, h, here.symm⟩
  · exact later

theorem State.minOffset_spec {s : State} (h : 0 < s.systems) :
    (∀ i < s.systems, s.minOffset ≤ s.offset i) ∧ ∃ i < s.systems, s.offset i = s.minOffset := by
  obtain ⟨_, each, attained⟩ := foldl_min_spec s.offset s.fitted (s.offset 0)
  simp only [State.fitted, List.mem_range] at each attained
  refine ⟨each, ?_⟩
  rcases attained with here | later
  · exact ⟨0, h, here.symm⟩
  · exact later

theorem State.beyondExit_rightward (s : State) (y : Int) : s.beyondExit .rightward y = true ↔ s.fieldHigh - s.minOffset < y :=
  decide_eq_true_iff

theorem State.beyondExit_leftward (s : State) (y : Int) : s.beyondExit .leftward y = true ↔ y < s.fieldLow - s.maxOffset :=
  decide_eq_true_iff

/-- The geometry reads the settings alone. -/
theorem State.beyondExit_congr {s t : State} (h : t.settings = s.settings) (d : Direction) (x : Int) :
    t.beyondExit d x = s.beyondExit d x := by
  cases s
  cases t
  cases h
  rfl

/-- The figures of the power-on settings. -/
theorem State.geometry_default {s : State} (h : s.settings.values = defaultSettings) :
    s.fieldLow = -16 ∧ s.fieldHigh = 527 ∧ s.maxOffset = 90 ∧ s.minOffset = -90 ∧ s.lead = 3 := by
  have same {α : Type} (g : Vector Int 30 → α) : g s.settings.values = g defaultSettings := congrArg g h
  refine ⟨(same fun v => (-(v.getD 13 0) - v.getD 12 0 : Int)).trans (by decide),
    (same fun v => (v.getD 0 0 - 1 + v.getD 13 0 + v.getD 12 0 : Int)).trans (by decide),
    (same fun v => (List.range (v.getD 1 0).toNat).foldl (fun m i => max m (v.getD (7 + i) 0)) (v.getD 7 0)).trans (by decide),
    (same fun v => (List.range (v.getD 1 0).toNat).foldl (fun m i => min m (v.getD (7 + i) 0)) (v.getD 7 0)).trans (by decide),
    (same fun v => v.getD 11 0).trans (by decide)⟩

/-! ### The class of a step (R3, R19, R73, R74) -/

/-- The tracker at the start of a step. -/
def State.stepTaken (s : State) (d : Direction) : State := s.setTracker { s.tracker with
  lastDir := d
  stallTimer := if s.tracker.phase = .none then s.tracker.stallTimer else some s.stallTime
  stallLive := if s.tracker.phase = .none then s.tracker.stallLive else false }

theorem State.restartStall_eq (s : State) (d : Direction) :
    (s.setTracker { s.tracker with lastDir := d }).restartStall = s.stepTaken d := by
  unfold State.restartStall State.stepTaken
  by_cases h : s.tracker.phase = .none
  · simp [h]
  · simp only [State.setTracker_tracker, h, if_false]
    rfl

theorem State.carriageStep_noPass {s : State} (h : s.engine.pass = none) (d : Direction) (x : Int) :
    s.carriageStep d x
      = if x = s.entryPoint d ∧ s.queue.plan = .running then (s.stepTaken d).entryCrossing d x else s.stepTaken d := by
  have none : (s.stepTaken d).engine.pass = Option.none := h
  unfold State.carriageStep
  rw [State.restartStall_eq]
  dsimp only
  rw [none]
  exact if_congr Iff.rfl rfl rfl

theorem State.carriageStep_pass {s : State} {p : Pass} (h : s.engine.pass = some p) (d : Direction) (x : Int) :
    s.carriageStep d x = if d = p.dir then
        if d.beyond x p.furthestX then (s.stepTaken d).advance p x else (s.stepTaken d).reArrival x
      else (s.stepTaken d).retreat p x := by
  have some' : (s.stepTaken d).engine.pass = some p := h
  unfold State.carriageStep
  rw [State.restartStall_eq]
  dsimp only
  rw [some']

/-- Settles O38: the step is taken, and the pass in progress decides what it is. -/
theorem stepIsClassified : Obligations.StepIsClassified := by
  refine ⟨fun d x s => ?_, fun s fitted => ?_⟩
  · intro u
    have taken : s.stepTaken d = u := rfl
    refine ⟨fun noPass elsewhere => ?_, fun noPass entry running => ?_, fun p pass against => ?_, fun p pass along notBeyond => ?_,
      fun p pass along beyond => ?_, fun default => ?_⟩
    · rw [State.carriageStep_noPass noPass, if_neg, taken]
      rintro ⟨entry, running⟩
      rcases elsewhere with other | held
      · exact other entry
      · simp [held] at running
    · rw [State.carriageStep_noPass noPass, if_pos ⟨entry, running⟩, taken]
    · rw [State.carriageStep_pass pass, if_neg against, taken]
      exact ⟨fun within => if_neg (Int.not_lt.mpr within), fun beyondTol => if_pos beyondTol⟩
    · have behind : d.beyond x p.furthestX = false := by
        rw [← Bool.not_eq_true, Direction.beyond_iff, along]
        omega
      rw [State.carriageStep_pass pass, if_pos along, behind, taken]
      refine ⟨fun finishing => (if_neg Bool.false_ne_true).trans (if_neg ?_), fun active => (if_neg Bool.false_ne_true).trans (if_pos active)⟩
      exact fun active => Bool.false_ne_true (finishing.symm.trans active)
    · have further : d.beyond x p.furthestX = true := by
        rw [Direction.beyond_iff, along]
        exact beyond
      rw [State.carriageStep_pass pass, if_pos along, further, taken]
      rfl
    · obtain ⟨low, high, most, least, lead⟩ := State.geometry_default default
      refine ⟨?_, ?_, fun y => ?_, fun y => ?_⟩
      · rw [State.entryPoint, low, most, lead]
        rfl
      · rw [State.entryPoint, high, least, lead]
        rfl
      · rw [State.beyondExit_rightward, high, least]
        omega
      · rw [State.beyondExit_leftward, low, most]
        omega
  · obtain ⟨most, atMost⟩ := State.maxOffset_spec fitted
    obtain ⟨least, atLeast⟩ := State.minOffset_spec fitted
    exact ⟨s.minOffset, s.maxOffset, fun i hi => ⟨least i hi, most i hi⟩, atLeast, atMost, rfl, rfl, rfl, rfl,
      s.beyondExit_rightward, s.beyondExit_leftward⟩

/-! ### Pair arrivals (R85 to R89) -/

theorem State.needleExists_iff (s : State) (n : Int) : s.needleExists n = true ↔ 0 ≤ n ∧ n < s.needles := by
  simp [State.needleExists]

theorem State.pairExists_iff (s : State) (r p : Int) :
    s.pairExists r p = true ↔ min 0 (-r) ≤ p ∧ p ≤ max (s.needles - 1) (s.needles - 1 - r) := by
  simp only [State.pairExists, Bool.and_eq_true, decide_eq_true_eq]

theorem State.arrivalCodes_none {s : State} {i : Nat} (h : s.headEntry i = none) (r p : Int) :
    s.arrivalCodes i r p = (BankPair.mk .miss .miss, none) := by
  rw [State.arrivalCodes, h]

theorem State.arrivalCodes_some {s : State} {i : Nat} {e : SystemEntry} (h : s.headEntry i = some e) (r p : Int) :
    s.arrivalCodes i r p = match e.mode with
      | .idle => (BankPair.mk .miss .miss, none)
      | .knit => (BankPair.mk (s.foundCode e.front p) (s.foundCode e.back (p + r)), none)
      | .xfer => s.judgeTransfer i r p (s.foundCode e.front p) (s.foundCode e.back (p + r)) := by
  rw [State.arrivalCodes, h] <;> rfl

/-- R88: a transfer never presents SEND on both banks. -/
theorem State.judgeTransfer_notBoth (s : State) (i : Nat) (r p : Int) (f b : Code) :
    ¬ ((s.judgeTransfer i r p f b).1.front = .send ∧ (s.judgeTransfer i r p f b).1.back = .send) := by
  unfold State.judgeTransfer
  split
  · simp
  next notBoth =>
    split
    · simp
    · split
      · simp
      · exact notBoth

theorem State.judgeTransfer_cases (s : State) (i : Nat) (r p : Int) (f b : Code) :
    (f = .send → b = .send → s.judgeTransfer i r p f b = (BankPair.mk .miss .miss, some (.xferClash i p)))
    ∧ (f = .send → b ≠ .send → p + r < 0 ∨ s.needles ≤ p + r →
        s.judgeTransfer i r p f b = (BankPair.mk .miss b, some (.xferEdge i p .front)))
    ∧ (f ≠ .send → b = .send → p < 0 ∨ s.needles ≤ p →
        s.judgeTransfer i r p f b = (BankPair.mk f .miss, some (.xferEdge i p .back)))
    ∧ (f = .send → b ≠ .send → 0 ≤ p + r → p + r < s.needles → s.judgeTransfer i r p f b = (BankPair.mk f b, none))
    ∧ (f ≠ .send → b = .send → 0 ≤ p → p < s.needles → s.judgeTransfer i r p f b = (BankPair.mk f b, none))
    ∧ (f ≠ .send → b ≠ .send → s.judgeTransfer i r p f b = (BankPair.mk f b, none)) := by
  have missing (n : Int) (h : n < 0 ∨ s.needles ≤ n) : s.needleExists n = false := by
    rw [← Bool.not_eq_true, s.needleExists_iff]
    omega
  have present (n : Int) (h : 0 ≤ n) (k : n < s.needles) : s.needleExists n = true := (s.needleExists_iff n).mpr ⟨h, k⟩
  unfold State.judgeTransfer
  refine ⟨fun hf hb => ?_, fun hf hb out => ?_, fun hf hb out => ?_, fun hf hb low high => ?_, fun hf hb low high => ?_,
    fun hf hb => ?_⟩
  · simp [hf, hb]
  · simp [hf, hb, missing _ out]
  · simp [hf, hb, missing _ out]
  · simp [hf, hb, present _ low high]
  · simp [hf, hb, present _ low high]
  · simp [hf, hb]

theorem State.foundCode_outside (s : State) (ch : Option Channel) {n : Int} (h : n < 0 ∨ s.needles ≤ n) : s.foundCode ch n = .miss := by
  refine if_neg ?_
  rw [s.needleExists_iff]
  omega

theorem State.foundCode_absent (s : State) (n : Int) : s.foundCode none n = .miss := by
  unfold State.foundCode
  split <;> rfl

theorem State.foundCode_inside (s : State) (c : Channel) {n : Int} (low : 0 ≤ n) (high : n < s.needles) :
    s.foundCode (some c) n = s.channelCode c n :=
  if_pos ((s.needleExists_iff n).mpr ⟨low, high⟩)

theorem State.channelCode_outside (s : State) {c : Channel} {n : Int} (h : n < c.start ∨ (c.start : Int) + c.width ≤ n) :
    s.channelCode c n = c.fill := by
  refine if_neg ?_
  rw [Bool.and_eq_true, decide_eq_true_eq, decide_eq_true_eq]
  omega

/-- R86: the code of the channel's needle i, by the mode. -/
theorem State.channelCode_inside {s : State} {c : Channel} {d : LineData} {census : List Code} {refs i : Nat}
    (line : s.line c.line = .sealed d census refs) (h : i < c.width) : s.channelCode c ((c.start : Int) + i) = match c.mode with
      | .tile => d.codes.getD ((c.offset + i) % d.codes.length) .miss
      | .span => if c.offset + i < d.codes.length then d.codes.getD (c.offset + i) .miss else c.fill := by
  have width : decide ((c.start : Int) ≤ (c.start : Int) + i) && decide ((c.start : Int) + i < (c.start : Int) + c.width) := by
    rw [Bool.and_eq_true, decide_eq_true_eq, decide_eq_true_eq]
    omega
  have index : ((c.start : Int) + i - c.start).toNat = i := by omega
  rw [State.channelCode, if_pos width]
  dsimp only
  rw [index, line]
  rfl

/-- What an arrival at pair p makes of the banks and of the furthest pair (R71, R85). -/
def State.presented (s : State) (moves : Bool) (q : Pass) (i : Nat) (p : Int) : State := { s with engine := { s.engine with
  banks := s.engine.banks.setIfInBounds i (s.arrivalCodes i q.racking p).1
  pass := some (if moves then { q with furthestPair := furtherPair q.dir q.furthestPair p } else q) } }

theorem State.arriveAt_eq {s : State} {q : Pass} (h : s.engine.pass = some q) (moves : Bool) (i : Nat) (p : Int) :
    s.arriveAt moves q i p = ((s.arrivalCodes i q.racking p).2.map (s.presented moves q i p).raise).getD (s.presented moves q i p) := by
  have put : (if moves = true then (s.putBank i (s.arrivalCodes i q.racking p).1).setEngine
        { (s.putBank i (s.arrivalCodes i q.racking p).1).engine with
          pass := some { q with furthestPair := furtherPair q.dir q.furthestPair p } }
      else s.putBank i (s.arrivalCodes i q.racking p).1) = s.presented moves q i p := by
    cases moves with
    | true => rfl
    | false =>
      have kept : s.presented false q i p = s.putBank i (s.arrivalCodes i q.racking p).1 := by
        have same : some (if false = true then { q with furthestPair := furtherPair q.dir q.furthestPair p } else q) = s.engine.pass := h.symm
        rw [State.presented, same]
        rfl
      exact kept.symm
  unfold State.arriveAt
  dsimp only
  rw [put]
  cases (s.arrivalCodes i q.racking p).2 <;> rfl

theorem State.arrive_noPass {s : State} (h : s.engine.pass = none) (moves : Bool) (x : Int) (i : Nat) : s.arrive moves x i = s := by
  rw [State.arrive, h]

theorem State.arrive_pass {s : State} {q : Pass} (h : s.engine.pass = some q) (moves : Bool) (x : Int) (i : Nat) :
    s.arrive moves x i = if s.pairExists q.racking (s.selectionPoint i x q.dir) = true then
      s.arriveAt moves q i (s.selectionPoint i x q.dir) else s := by
  rw [State.arrive, h]

theorem furtherPair_eq (d : Direction) (old : Option Int) (p : Int) : furtherPair d old p = match old with
    | none => some p
    | some q => if 0 < (p - q) * d.sign then some p else some q := by
  unfold furtherPair
  cases old with
  | none => rfl
  | some q => exact if_congr (d.beyond_iff p q) rfl rfl

theorem State.arrivals_noPass {s : State} (h : s.engine.pass = none) (moves : Bool) (x : Int) : s.arrivals moves x = s := by
  unfold State.arrivals
  induction s.fitted with
  | nil => rfl
  | cons i l ih => rw [List.foldl_cons, State.arrive_noPass h, ih]

/-- R80: where no selection point stands on a pair the arrivals do nothing. -/
theorem State.arrivals_noPair {s : State} {q : Pass} (h : s.engine.pass = some q) (moves : Bool) (x : Int)
    (none : ∀ i < s.systems, s.pairExists q.racking (s.selectionPoint i x q.dir) = false) : s.arrivals moves x = s := by
  have all : ∀ i ∈ s.fitted, s.arrive moves x i = s := fun i hi => by
    rw [State.arrive_pass h, if_neg (by simp [none i (List.mem_range.mp hi)])]
  unfold State.arrivals
  revert all
  generalize s.fitted = l
  intro all
  induction l with
  | nil => rfl
  | cons i l ih => rw [List.foldl_cons, all i List.mem_cons_self, ih fun j hj => all j (List.mem_cons_of_mem _ hj)]

/-- The codes of an arrival read the queue, the lines and the settings alone. -/
theorem State.arrivalCodes_congr {s t : State} (queue : t.queue = s.queue) (store : t.store = s.store) (settings : t.settings = s.settings)
    (i : Nat) (r p : Int) : t.arrivalCodes i r p = s.arrivalCodes i r p := by
  cases s
  cases t
  cases queue
  cases store
  cases settings
  rfl

theorem State.selectionPoint_congr {s t : State} (settings : t.settings = s.settings) (i : Nat) (x : Int) (d : Direction) :
    t.selectionPoint i x d = s.selectionPoint i x d := by
  cases s
  cases t
  cases settings
  rfl

theorem State.pairExists_congr {s t : State} (settings : t.settings = s.settings) (r p : Int) : t.pairExists r p = s.pairExists r p := by
  cases s
  cases t
  cases settings
  rfl

/-- The arrivals of the systems of a list, with the pass still in progress. -/
structure Arrived (s : State) (q : Pass) (x : Int) (l : List Nat) (t : State) : Prop where
  pass : ∃ far, t.engine.pass = some { q with furthestPair := far }
  queue : t.queue = s.queue
  store : t.store = s.store
  settings : t.settings = s.settings
  banks : ∀ i < 4, t.bank i = if i ∈ l ∧ s.pairExists q.racking (s.selectionPoint i x q.dir) = true
    then (s.arrivalCodes i q.racking (s.selectionPoint i x q.dir)).1 else s.bank i

/-- The arrivals after an abort. -/
def Ended (t : State) : Prop := t.engine.pass = none ∧ ∀ i, t.bank i = BankPair.mk .miss .miss

theorem Arrived.raise {s t : State} {q : Pass} {x : Int} {l : List Nat} (h : Arrived s q x l t) (d : Detail) :
    Arrived s q x l (t.raise d) ∨ Ended (t.raise d) := by
  rcases t.raise_cases d with ⟨m, noted⟩ | ended
  · rw [noted]
    exact .inl ⟨h.pass, h.queue, h.store, h.settings, h.banks⟩
  · exact .inr ended

theorem Arrived.arrive {s t : State} {q : Pass} {x : Int} {l : List Nat} (h : Arrived s q x l t) (moves : Bool) (i : Nat) :
    Arrived s q x (l ++ [i]) (t.arrive moves x i) ∨ Ended (t.arrive moves x i) := by
  obtain ⟨far, pass⟩ := h.pass
  rw [State.arrive_pass pass, State.selectionPoint_congr h.settings, State.pairExists_congr h.settings]
  dsimp only
  by_cases pair : s.pairExists q.racking (s.selectionPoint i x q.dir) = true
  · rw [if_pos pair, State.arriveAt_eq pass]
    have codes := State.arrivalCodes_congr h.queue h.store h.settings i q.racking (s.selectionPoint i x q.dir)
    have presented : Arrived s q x (l ++ [i]) (t.presented moves { q with furthestPair := far } i (s.selectionPoint i x q.dir)) := by
      refine ⟨?_, h.queue, h.store, h.settings, fun j hj => ?_⟩
      · cases moves
        · exact ⟨far, rfl⟩
        · exact ⟨_, rfl⟩
      · refine (getD_setIfInBounds t.engine.banks i j _ _).trans ?_
        rw [codes]
        by_cases same : i = j
        · subst same
          simp [hj, pair]
        · rw [if_neg fun hit => same hit.1]
          refine (h.banks j hj).trans ?_
          simp [Ne.symm same]
    cases (t.arrivalCodes i q.racking (s.selectionPoint i x q.dir)).2 with
    | none => exact .inl presented
    | some d => exact presented.raise d
  · rw [if_neg pair]
    refine .inl ⟨⟨far, pass⟩, h.queue, h.store, h.settings, fun j hj => ?_⟩
    rw [h.banks j hj]
    by_cases same : j = i
    · subst same
      simp [pair]
    · simp [same]

theorem Arrived.foldl {s : State} {q : Pass} {x : Int} (moves : Bool) (l : List Nat) :
    ∀ (done : List Nat) (t : State), Arrived s q x done t ∨ Ended t →
      Arrived s q x (done ++ l) (l.foldl (State.arrive moves x) t) ∨ Ended (l.foldl (State.arrive moves x) t) := by
  induction l with
  | nil => simp
  | cons i l ih =>
    intro done t h
    have step : Arrived s q x (done ++ [i]) (t.arrive moves x i) ∨ Ended (t.arrive moves x i) := by
      rcases h with running | ended
      · exact running.arrive moves i
      · rw [State.arrive_noPass ended.1]
        exact .inr ended
    have rest := ih (done ++ [i]) _ step
    rwa [List.append_assoc] at rest

theorem State.arrivals_arrived {s : State} {q : Pass} (h : s.engine.pass = some q) (moves : Bool) (x : Int) :
    Arrived s q x s.fitted (s.arrivals moves x) ∨ Ended (s.arrivals moves x) :=
  Arrived.foldl moves s.fitted [] s (.inl ⟨⟨q.furthestPair, h⟩, rfl, rfl, rfl, fun _ _ => by simp⟩)

/-- Settles O41: the codes by the mode of the entry, the arrival by its pair, and the arrivals as a fold that an abort ends. -/
theorem pairArrivalCodes : Obligations.PairArrivalCodes := by
  refine ⟨fun s i r p => ⟨fun h => State.arrivalCodes_none h r p, fun e h mode => ?_, fun e h mode => ?_, fun e h mode => ?_,
      fun ch n => s.foundCode_outside ch, s.foundCode_absent⟩,
    fun s c n d census refs line offset low high => ⟨fun outside => ?_, fun i index inside => ?_⟩,
    fun moves x i s => ⟨fun noPass => State.arrive_noPass noPass moves x i, fun q pass => ?_⟩,
    fun moves x s => ⟨rfl, fun noPass => State.arrivals_noPass noPass moves x, fun q pass => ?_⟩⟩
  · rw [State.arrivalCodes_some h, mode]
  · rw [State.arrivalCodes_some h, mode]
  · rw [State.arrivalCodes_some h, mode]
    obtain ⟨clash, front, back, sendFront, sendBack, plain⟩ :=
      s.judgeTransfer_cases i r p (s.foundCode e.front p) (s.foundCode e.back (p + r))
    exact ⟨clash, front, back, sendFront, sendBack, plain, s.judgeTransfer_notBoth i r p _ _⟩
  · rw [s.foundCode_inside c low high, s.channelCode_outside outside]
  · rw [s.foundCode_inside c low high, index, State.channelCode_inside line inside]
    refine ⟨fun tile => by rw [tile], fun span within => ?_, fun span past => ?_⟩
    · rw [span]
      exact if_pos within
    · rw [span]
      exact if_neg (Nat.not_lt.mpr past)
  · intro p codes further w
    have presented : s.presented moves q i p = w := by
      rw [State.presented, furtherPair_eq] <;> rfl
    refine ⟨fun outside => ?_, fun low high => ?_⟩
    · rw [State.arrive_pass pass, if_neg]
      rw [s.pairExists_iff]
      change ¬ (_ ≤ p ∧ p ≤ _)
      omega
    · have pair : s.pairExists q.racking (s.selectionPoint i x q.dir) = true := (s.pairExists_iff _ _).mpr ⟨low, high⟩
      have arrived : s.arrive moves x i = (codes.2.map w.raise).getD w := by
        rw [State.arrive_pass pass, if_pos pair, State.arriveAt_eq pass, ← presented]
        rfl
      exact ⟨fun none => by rw [arrived, none]; rfl, fun d demoted => by rw [arrived, demoted]; rfl⟩
  · rcases State.arrivals_arrived pass moves x with arrived | ended
    · obtain ⟨far, running⟩ := arrived.pass
      refine ⟨fun none => by simp [none] at running, fun _ i hi => ?_⟩
      have bank := arrived.banks i hi
      simp only [State.fitted, List.mem_range] at bank
      exact bank
    · exact ⟨fun _ => ended.2, fun running => absurd ended.1 running⟩

end Sys2Proof.Machine

/-! SUPPORT. The entry crossing and the order of an advancing step. -/

namespace Sys2Proof.Machine

/-! ### The entry crossing (R75 to R79) -/

theorem State.entryCrossing_empty {s : State} (h : s.queue.records = []) (d : Direction) (x : Int) :
    s.entryCrossing d x = s.raise (.starved d) := by
  rw [State.entryCrossing, h]

/-- R76 to R78: an armed head is judged by its direction, its GO and the checksum, in this order. -/
theorem State.entryCrossing_armed {s : State} {r : PassRecord} {rest : List PassRecord} {go : Option GoState}
    (e : s.queue.records = r :: rest) (armed : r.state = .armed go) (d : Direction) (x : Int) :
    s.entryCrossing d x =
      if r.direction ≠ d then (s.raise (.wrongWay r.tag d)).abortHead .wrongWay
      else if go = some .waitGo then (s.raise (.noGo r.tag)).abortHead .noGo
      else if s.checksumAgrees then s.startPass r x
      else (s.raise (.settingsCheck (s.settings.checksum.getD 0) s.computedChecksum)).abortHead .settingsCheck := by
  rw [State.entryCrossing, e]
  dsimp only
  rw [armed]

/-- R79: the state in which the arrivals of the entry crossing find the pass. -/
def State.started (s : State) (r : PassRecord) (rest : List PassRecord) (x : Int) : State := { s with
  queue := { s.queue with records := { r with
    state := .active
    entries := r.entries.map fun e => { e with actions := e.actions.map fun a => { a with mark := .notReached } } } :: rest }
  engine := { s.engine with pass := some (Pass.mk r.direction r.racking x none) }
  tracker := { s.tracker with
    phase := .active
    lastAdvance := some s.tracker.clock
    stallTimer := some s.stallTime
    stallLive := false }
  monitor := { s.monitor with events := s.monitor.events ++ [s.entry (.passStarted r.tag r.direction)] } }

theorem State.startPass_eq {s : State} {r : PassRecord} {rest : List PassRecord} (e : s.queue.records = r :: rest) (room : s.room 1)
    (x : Int) : s.startPass r x = (s.started r rest x).arrivals true x := by
  unfold State.startPass
  rw [State.mapHead_cons e]
  exact congrArg (fun w : State => w.arrivals true x) (State.log_room (s := { s.started r rest x with monitor := s.monitor }) room _)

/-- Settles O39: an armed head is judged in the order of R76 to R79, and the start is followed by the arrivals of the crossing. -/
theorem entryCrossingOutcomes : Obligations.EntryCrossingOutcomes := by
  refine fun d x s => ⟨fun empty => State.entryCrossing_empty empty d x, fun r rest go e armed => ?_⟩
  rw [State.entryCrossing_armed e armed]
  refine ⟨fun wrong => if_pos wrong, fun right waiting => ?_, fun k right ready stored differs => ?_, fun right ready agrees room => ?_⟩
  · rw [if_neg (not_not.mpr right), if_pos waiting]
  · have disagrees : ¬ s.checksumAgrees = true := by simp [State.checksumAgrees, stored, differs]
    rw [if_neg (not_not.mpr right), if_neg ready, if_neg disagrees, stored]
    rfl
  · intro started
    subst right
    have begun : s.started r rest x = started := rfl
    have pass : started.engine.pass = some (Pass.mk r.direction r.racking x none) := rfl
    rw [if_neg (not_not.mpr rfl), if_neg ready, if_pos (show s.checksumAgrees = true from decide_eq_true agrees), State.startPass_eq e room, begun]
    exact ⟨rfl, fun noPair => State.arrivals_noPair pass true x noPair⟩

/-! ### An advancing step (R82, R90) -/

/-- R17: the tracker after the needle period has been measured. -/
def State.measured (s : State) (period : Nat) : State := s.setTracker { s.tracker with
  lastPeriod := some period
  lastAdvance := some s.tracker.clock }

theorem State.measurePeriod_some {s : State} {t0 : Word32} (h : s.tracker.lastAdvance = some t0) :
    s.measurePeriod = let period : Nat := min 65535 (s.tracker.clock - t0).toNat
      if (period : Int) < s.minNeedlePeriod then (s.measured period).raise (.overspeed period) else s.measured period := by
  rw [State.measurePeriod, h]
  rfl

/-- R18, R95: OVERSPEED ends the pass. -/
theorem State.overspeed_ends (s : State) (period : Nat) : (s.raise (.overspeed period)).engine.pass = none := by
  rw [State.raise_fatal (reason := .overspeed) rfl]
  by_cases pass : s.engine.pass = none
  · exact (congrArg (fun t : State => t.engine.pass) (State.abortPass_noPass (s := s.noteRaise _) pass _)).trans pass
  · exact (State.abortPass_ends (s := s.noteRaise _) pass _).1

/-- R90: the exit step. -/
theorem State.exitPass_settled {s : State} (h : s.latchOutstanding = false) : s.exitPass = s.clearBanks.completePass :=
  if_neg (Bool.not_eq_true _ ▸ h)

theorem State.exitPass_outstanding {s w : State} (h : s.latchOutstanding = true) (exited : w = s.exitPass) :
    w.tracker.phase = .finishing ∧ w.engine.pass = s.engine.pass ∧ ∀ i, w.bank i = BankPair.mk .miss .miss := by
  have waits : s.exitPass = (s.clearBanks.setHeadState .finishing).setTracker { s.tracker with phase := .finishing } := if_pos h
  rw [exited, waits]
  exact ⟨rfl, rfl, fun _ => getD_replicate _ _⟩

/-- R82: the order of an advancing step in an ACTIVE record whose needle period is not short. -/
theorem State.activeAdvance_order {s m u v : State} (d : Direction) {x : Int} (measure : s.measurePeriod = m)
    (pass : m.engine.pass ≠ none) (arrivals : m.arrivals true x = u) (feeders : (u.feederStep x).markTravel = v) :
    (u.engine.pass = none → s.activeAdvance d x = u)
    ∧ (u.engine.pass ≠ none → v.engine.pass = none ∨ v.beyondExit d x = false → s.activeAdvance d x = v)
    ∧ (u.engine.pass ≠ none → v.engine.pass ≠ none → v.beyondExit d x = true → s.activeAdvance d x = v.exitPass) := by
  have running : m.passInProgress = true := m.passInProgress_iff.mpr pass
  unfold State.activeAdvance
  rw [measure]
  dsimp only
  rw [if_pos running, arrivals, feeders]
  refine ⟨fun ended => ?_, fun going stays => ?_, fun going still beyond => ?_⟩
  · rw [State.passInProgress_eq_false ended, if_neg Bool.false_ne_true]
  · rw [if_pos (u.passInProgress_iff.mpr going), if_neg]
    rw [Bool.and_eq_true, State.passInProgress_iff]
    rintro ⟨still, beyond⟩
    rcases stays with ended | inside
    · exact still ended
    · exact Bool.false_ne_true (inside.symm.trans beyond)
  · rw [if_pos (u.passInProgress_iff.mpr going), if_pos]
    rw [Bool.and_eq_true, State.passInProgress_iff]
    exact ⟨still, beyond⟩

/-- Settles O40: the period, the arrivals, the feeder unit, the travel marks and the exit, in this order. -/
theorem advancingStepOrder : Obligations.AdvancingStepOrder := by
  intro p x s pass t period m u v
  have active (h : s.headActive = true) : s.advance p x = t.activeAdvance p.dir x := if_pos h
  have finishes (h : s.headActive = false) : s.advance p x = t.feederStep x :=
    if_neg fun active => Bool.false_ne_true (h.symm.trans active)
  have measure (h : s.tracker.lastAdvance ≠ none) : t.measurePeriod
      = if (period : Int) < s.minNeedlePeriod then m.raise (.overspeed period) else m := by
    obtain ⟨t0, ht0⟩ := Option.ne_none_iff_exists'.mp h
    rw [State.measurePeriod_some (s := t) ht0]
    simp only [m, period, ht0]
    rfl
  refine ⟨finishes, fun h timed short => ?_, fun h timed long => ?_⟩
  · have ended := m.overspeed_ends period
    have raised : s.advance p x = m.raise (.overspeed period) := by
      rw [active h, State.activeAdvance, measure timed, if_pos short]
      exact if_neg fun going => (State.passInProgress_iff _).mp going ended
    exact ⟨raised, raised.symm ▸ ended⟩
  · have going : m.engine.pass ≠ none := Option.some_ne_none _
    have arrivals : m.arrivals true x = u := rfl
    have feeders : (u.feederStep x).markTravel = v := rfl
    obtain ⟨ends, stays, exits⟩ :=
      State.activeAdvance_order p.dir ((measure timed).trans (if_neg (Int.not_lt.mpr long))) going arrivals feeders
    have exit_ : v.beyondExit p.dir x = s.beyondExit p.dir x := by
      have kept : RunFrame m v := ((RunFrame.arrivals m true x).trans (RunFrame.feederStep u x)).trans (RunFrame.markTravel _)
      exact State.beyondExit_congr kept.settings p.dir x
    rw [← exit_, active h]
    refine ⟨ends, stays, fun arrived running beyond settled => ?_, fun arrived running beyond outstanding => ?_⟩
    · exact (exits arrived running beyond).trans (State.exitPass_settled (s := v) settled)
    · exact State.exitPass_outstanding (s := v) outstanding (exits arrived running beyond)

end Sys2Proof.Machine

/-! SUPPORT. The completion and the abort of a pass. -/

namespace Sys2Proof.Machine

/-! ### The completion of the head record (R65) -/

/-- R65: the queue without its head, which a cycling record enters again at the end. -/
def PassRecord.followers (r : PassRecord) (rest : List PassRecord) : List PassRecord :=
  if r.cycle then rest ++ [{ r with state := .queued }] else rest

/-- R65: the store after the completion of a record. -/
def PassRecord.settleRefs (r : PassRecord) (st : Vector Line 64) : Vector Line 64 :=
  if r.cycle then addRefs (dropRefs st r) r else dropRefs st r

theorem State.completeRecord_eq {s : State} {r : PassRecord} {rest : List PassRecord} (e : s.queue.records = r :: rest) :
    s.completeRecord
      = ((s.setStore (r.settleRefs s.store)).setQueue { s.queue with records := r.followers rest }).armHead := by
  rw [State.completeRecord, e]
  dsimp only
  cases h : r.cycle <;> simp [PassRecord.settleRefs, PassRecord.followers, h]

theorem State.completeRecord_same {s : State} {r : PassRecord} {rest : List PassRecord} (e : s.queue.records = r :: rest) :
    s.completeRecord = { s with
      store := r.settleRefs s.store
      queue := { s.queue with records := s.completeRecord.queue.records } } := by
  have kept := State.armHead_same ((s.setStore (r.settleRefs s.store)).setQueue { s.queue with records := r.followers rest })
  rw [← State.completeRecord_eq e] at kept
  exact kept

/-- R63, R65: the new head arms while the plan is RUNNING. -/
theorem State.completeRecord_records {s : State} {r : PassRecord} {rest : List PassRecord} (e : s.queue.records = r :: rest) :
    (s.queue.plan = .held → s.completeRecord.queue.records = r.followers rest)
    ∧ (s.queue.plan = .running → r.followers rest = [] → s.completeRecord.queue.records = [])
    ∧ (s.queue.plan = .running → ∀ h tail, r.followers rest = h :: tail → h.state = .queued →
        s.completeRecord.queue.records = h.arm :: tail) := by
  rw [State.completeRecord_eq e]
  refine ⟨fun held => ?_, fun running empty => ?_, fun running h tail next queued => ?_⟩
  · rw [State.armHead_held (by exact held)]
    rfl
  · rw [State.armHead_running (by exact running), State.mapHead_empty (by exact empty)]
    exact empty
  · rw [State.armHead_running (by exact running), State.mapHead_cons (by exact next), if_pos queued]
    rfl

theorem State.completeRecord_length {s : State} {r : PassRecord} {rest : List PassRecord} (e : s.queue.records = r :: rest) :
    s.completeRecord.queue.records.length = (r.followers rest).length := by
  rw [State.completeRecord_eq e]
  have views := congrArg (fun v : Vector Line 64 × List (List Channel) => v.2.length)
    (refView_armHead ((s.setStore (r.settleRefs s.store)).setQueue { s.queue with records := r.followers rest }))
  simpa [State.refView] using views

/-- The records in the queue name the channels of the followers. -/
theorem State.completeRecord_names {s : State} {r : PassRecord} {rest : List PassRecord} (e : s.queue.records = r :: rest) (id : Nat) :
    s.completeRecord.namesOf id = s.namesOf id - if r.cycle then 0 else r.channels.countP fun c => decide (c.line = id) := by
  have views := congrArg Prod.snd
    (refView_armHead ((s.setStore (r.settleRefs s.store)).setQueue { s.queue with records := r.followers rest }))
  rw [← State.completeRecord_eq e] at views
  have names : s.completeRecord.queue.records.map PassRecord.channels = (r.followers rest).map PassRecord.channels := views
  rw [State.namesOf_eq, State.namesOf_eq, names, e]
  cases h : r.cycle
  · simp [PassRecord.followers, h]
  · have again : PassRecord.channels { r with cycle := true, state := .queued } = r.channels := rfl
    simp [PassRecord.followers, h, again, Nat.add_comm]

/-! ### The completion of a pass (R92) -/

/-- R93: the PASS_MARK that the new value of the counter is due. -/
def State.markEntries (s : State) (n : Word16) : List EventEntry :=
  if s.passMarkInterval ≠ 0 ∧ (n.toNat : Int) % s.passMarkInterval = 0 then [s.entry (.passMark n)] else []

/-- R16, R92: the pass has ended and is logged; its record still stands at the head. -/
def State.passCounted (s : State) (tag : Word16) : State := { s with
  engine := { s.engine with passCounter := s.engine.passCounter + 1, pass := none }
  tracker := { s.tracker with phase := .none, lastAdvance := none, stallTimer := none, stallLive := false }
  monitor := { s.monitor with
    events := s.monitor.events ++ [s.entry (.passEnded tag (s.engine.passCounter + 1))] ++ s.markEntries (s.engine.passCounter + 1) } }

theorem State.markDue_iff (s : State) (n : Word16) :
    s.markDue n = true ↔ s.passMarkInterval ≠ 0 ∧ (n.toNat : Int) % s.passMarkInterval = 0 := by
  rw [State.markDue, Bool.and_eq_true, decide_eq_true_eq, decide_eq_true_eq]
  norm_cast

/-- R16, R92: the pass is over, before its log. -/
def State.passOver (s : State) : State :=
  (s.setTracker s.tracker.endPass).setEngine { s.engine with passCounter := s.engine.passCounter + 1, pass := none }

/-- R92, R93: the log of the completion. -/
theorem State.logs_completion {s : State} (tag : Word16) (room : s.room 3) :
    (if s.markDue (s.engine.passCounter + 1) then
        (s.passOver.append (.passEnded tag (s.engine.passCounter + 1))).append (.passMark (s.engine.passCounter + 1))
      else s.passOver.append (.passEnded tag (s.engine.passCounter + 1))) = s.passCounted tag := by
  have length : s.monitor.events.length + 3 ≤ 128 := room
  have logged : s.passOver.append (.passEnded tag (s.engine.passCounter + 1)) = { s.passOver with monitor := { s.monitor with
      events := s.monitor.events ++ [s.entry (.passEnded tag (s.engine.passCounter + 1))] } } := by
    refine State.append_room (s := s.passOver) ?_ _
    show s.monitor.events.length + 1 ≤ 128
    omega
  rw [logged]
  by_cases due : s.markDue (s.engine.passCounter + 1) = true
  · have mark : s.markEntries (s.engine.passCounter + 1) = [s.entry (.passMark (s.engine.passCounter + 1))] :=
      if_pos ((s.markDue_iff _).mp due)
    rw [if_pos due, State.append_room, State.passCounted, mark]
    · rfl
    · show (s.monitor.events ++ [_]).length + 1 ≤ 128
      rw [List.length_append, List.length_singleton]
      omega
  · have none : s.markEntries (s.engine.passCounter + 1) = [] := if_neg fun h => due ((s.markDue_iff _).mpr h)
    rw [if_neg due, State.passCounted, none, List.append_nil]
    rfl

theorem State.completePass_eq {s : State} {r : PassRecord} {rest : List PassRecord} (e : s.queue.records = r :: rest) (room : s.room 3) :
    s.completePass = if s.headOffPlan then (s.passCounted r.tag).completeRecord.flush .unconfirmed
      else (s.passCounted r.tag).completeRecord := by
  have tag : s.headTag = r.tag := by rw [State.headTag, e]
  rw [← State.logs_completion r.tag room, ← tag]
  rfl

theorem State.passCounted_length (s : State) (tag : Word16) : (s.passCounted tag).monitor.events.length ≤ s.monitor.events.length + 2 := by
  have marks : (s.markEntries (s.engine.passCounter + 1)).length ≤ 1 := by
    unfold State.markEntries
    split <;> simp
  simp only [State.passCounted, List.length_append, List.length_singleton]
  omega

theorem State.completePass_onPlan {s : State} {r : PassRecord} {rest : List PassRecord} (e : s.queue.records = r :: rest)
    (room : s.room 3) (plan : s.headOffPlan = false) : s.completePass = { s.passCounted r.tag with
      store := r.settleRefs s.store
      queue := { s.queue with records := (s.passCounted r.tag).completeRecord.queue.records } } := by
  rw [State.completePass_eq e room, plan]
  exact State.completeRecord_same (s := s.passCounted r.tag) e

/-- R60, R92: what remains is flushed. -/
theorem State.completePass_offPlan {s : State} {r : PassRecord} {rest : List PassRecord} (e : s.queue.records = r :: rest)
    (room : s.room 3) (plan : s.headOffPlan = true) : s.completePass = { s.passCounted r.tag with
      store := s.completePass.store
      queue := PassQueue.mk [] .held s.feeders.project
      monitor := { s.monitor with events := (s.passCounted r.tag).monitor.events
        ++ [s.entry (.queueFlushed (r.followers rest).length .unconfirmed)] } } := by
  have same := State.completeRecord_same (s := s.passCounted r.tag) e
  have length := State.completeRecord_length (s := s.passCounted r.tag) e
  have done : s.completePass = (s.passCounted r.tag).completeRecord.flush .unconfirmed := by
    rw [State.completePass_eq e room, plan]
    rfl
  have space : State.room (s.passCounted r.tag) 1 := by
    have few := s.passCounted_length r.tag
    have length : s.monitor.events.length + 3 ≤ 128 := room
    show (s.passCounted r.tag).monitor.events.length + 1 ≤ 128
    omega
  generalize s.completePass = t at done
  subst done
  rw [State.flush_eq, length]
  generalize (s.passCounted r.tag).completeRecord = u at same
  generalize u.queue = q at same
  subst same
  have logged := congrArg State.monitor (State.append_room space (.queueFlushed (r.followers rest).length .unconfirmed))
  have monitor : (s.passCounted r.tag).monitor.append (.queueFlushed (r.followers rest).length .unconfirmed)
      = { s.monitor with events := (s.passCounted r.tag).monitor.events
        ++ [s.entry (.queueFlushed (r.followers rest).length .unconfirmed)] } := logged
  dsimp only
  rw [monitor]
  rfl

/-- R59, R60: an action of the head settled off its plan. -/
theorem State.headOffPlan_iff (s : State) : s.headOffPlan = true
    ↔ ∃ r rest, s.queue.records = r :: rest ∧ ∃ e ∈ r.entries, ∃ a ∈ e.actions, a.mark = .otherwise := by
  unfold State.headOffPlan
  cases s.queue.records with
  | nil => simp
  | cons r rest => simp

/-- Settles O42: the pass is counted and logged, and the head leaves by R65 or, off its plan, the queue is flushed. -/
theorem completionCountsThePass : Obligations.CompletionCountsThePass := by
  refine ⟨fun r rest s e room => ?_, State.headOffPlan_iff⟩
  intro t n mark queue
  have onPlan := State.completePass_onPlan e room
  have offPlan := State.completePass_offPlan e room
  refine ⟨?_, fun id => ⟨(RunFrame.completePass s).lines id, fun once plan => ?_, fun law plan => ?_, fun law plan => ?_⟩,
    fun plan => ?_, fun plan => ?_⟩
  · cases plan : s.headOffPlan with
    | true =>
      have whole := offPlan plan
      change t = _ at whole
      clear_value t
      rw [whole]
      rfl
    | false =>
      have whole := onPlan plan
      change t = _ at whole
      clear_value t
      rw [whole]
      rfl
  · have store : t.store = r.settleRefs s.store := (congrArg State.store (onPlan plan) :)
    rw [State.line, store, PassRecord.settleRefs, once]
    exact dropRefs_refs s.store r id
  · have names : t.namesOf id = (s.passCounted r.tag).completeRecord.namesOf id := by
      rw [State.namesOf_eq, State.namesOf_eq, show t.queue.records = _ from (congrArg (fun w : State => w.queue.records) (onPlan plan) :)]
    rw [law.completePass id, names, State.completeRecord_names (s := s.passCounted r.tag) e, law id]
    rfl
  · have empty : t.queue.records = [] := (congrArg (fun w : State => w.queue.records) (offPlan plan) :)
    rw [law.completePass id, State.namesOf_eq, empty]
    rfl
  · obtain ⟨held, last, arms⟩ := State.completeRecord_records (s := s.passCounted r.tag) e
    have records : t.queue.records = (s.passCounted r.tag).completeRecord.queue.records :=
      (congrArg (fun w : State => w.queue.records) (onPlan plan) :)
    rw [records]
    exact ⟨(congrArg (fun w : State => w.monitor.events) (onPlan plan) :), (congrArg (fun w : State => w.queue.plan) (onPlan plan) :),
      (congrArg (fun w : State => w.queue.proj) (onPlan plan) :), held, last, arms⟩
  · exact ⟨(congrArg (fun w : State => w.monitor.events) (offPlan plan) :), (congrArg State.queue (offPlan plan) :)⟩

/-! ### The abort (R96, R97, R99) -/

/-- R96, R97: an abort logs PASS_ABORTED and then the flush. -/
theorem State.abort_log {s : State} {h : PassRecord} {rest : List PassRecord} (e : s.queue.records = h :: rest) (room : s.room 2)
    (reason : AbortReason) (far : Option Int) :
    (s.monitor.append (.passAborted s.headTag reason far)).append (.queueFlushed s.queue.records.length .abort)
      = { s.monitor with events := s.monitor.events
        ++ [s.entry (.passAborted h.tag reason far), s.entry (.queueFlushed (rest.length + 1) .abort)] } := by
  have tag : s.headTag = h.tag := by rw [State.headTag, e]
  have count : s.queue.records.length = rest.length + 1 := congrArg List.length e
  have length : s.monitor.events.length + 2 ≤ 128 := room
  have first := congrArg State.monitor (State.append_room (s := s) (show s.monitor.events.length + 1 ≤ 128 by omega)
    (.passAborted h.tag reason far))
  change s.monitor.append (.passAborted h.tag reason far) = _ at first
  have second := congrArg State.monitor (State.append_room
    (s := s.setMonitor { s.monitor with events := s.monitor.events ++ [s.entry (.passAborted h.tag reason far)] })
    (show (s.monitor.events ++ [_]).length + 1 ≤ 128 by rw [List.length_append, List.length_singleton]; omega)
    (.queueFlushed (rest.length + 1) .abort))
  change ConditionMonitor.append _ (.queueFlushed (rest.length + 1) .abort) = _ at second
  rw [tag, count, first]
  refine second.trans ?_
  simp [State.entry]

/-- R97: the abort of a head that never started logs and flushes alone. -/
theorem State.abortHead_eq {s : State} {h : PassRecord} {rest : List PassRecord} (e : s.queue.records = h :: rest) (room : s.room 2)
    (reason : AbortReason) : s.abortHead reason = { s with
      store := s.queue.records.foldl dropRefs s.store
      queue := PassQueue.mk [] .held s.feeders.project
      monitor := { s.monitor with events := s.monitor.events
        ++ [s.entry (.passAborted h.tag reason none), s.entry (.queueFlushed (rest.length + 1) .abort)] } } := by
  rw [← State.abort_log e room reason none]
  rfl

/-- Settles O43: the abort as one update, by the resolution and the flush. -/
theorem abortEndsThePass : Obligations.AbortEndsThePass := by
  refine fun reason s => ⟨fun noPass => State.abortPass_noPass noPass reason, fun p h rest pass e => ?_, fun h rest e room => ?_⟩
  · intro t
    have whole := State.abortPass_eq s reason p pass
    have feeders : t.feeders = s.resolveAll.feeders := (congrArg State.feeders whole :)
    have store : t.store = s.queue.records.foldl dropRefs s.store := (congrArg State.store whole :)
    refine ⟨?_, feeders, ?_, fun id => ⟨(RunFrame.abortPass s reason).lines id, ?_⟩, fun room => ?_⟩
    · change t = _ at whole
      clear_value t
      subst whole
      rfl
    · rw [State.latchOutstanding_congr feeders]
      exact s.resolveAll_settled
    · rw [State.line, store]
      exact dropAll_refs _ _ id
    · have monitor : t.monitor = _ := (congrArg State.monitor whole :)
      rw [monitor]
      exact State.abort_log e room reason p.furthestPair
  · have whole := State.abortHead_eq e room reason
    have store : (s.abortHead reason).store = s.queue.records.foldl dropRefs s.store := (congrArg State.store whole :)
    rw [store]
    exact whole

end Sys2Proof.Machine

/-! SUPPORT. The resolution of the latches, and the feeders that leave the carried states. -/

namespace Sys2Proof.Machine

/-! ### A feeder under a resolution (R119) -/

/-- R119: how a resolution puts down the feeder of an outstanding latch. -/
def LatchState.putsDown : LatchState → Feeder → Feeder
  | .closing _ pos, v => .parked v.rail pos
  | .opening _, v => .faulted v.rail
  | .opened, v => v
  | .closed _, v => v

theorem LatchState.putsDown_bond {l : LatchState} (h : l.outstanding = true) (v : Feeder) : (l.putsDown v).bond = none := by
  cases l with
  | closing | opening => rfl
  | opened | closed => cases h

/-- A latch with an outstanding action holds a feeder, but not CLOSED on it. -/
theorem LatchState.outstanding_bond {l : LatchState} (h : l.outstanding = true) : ∃ f b, l.bond = some (f, b) ∧ b ≠ .hold := by
  cases l with
  | closing f pos => exact ⟨f, .take, rfl, by decide⟩
  | opening f => exact ⟨f, .release, rfl, by decide⟩
  | opened | closed => cases h

theorem State.resolveLatch_settled {s : State} {i : Nat} (h : (s.latch i).state.outstanding = false) : s.resolveLatch i = s := by
  unfold State.resolveLatch
  cases e : (s.latch i).state with
  | opened | closed => rfl
  | closing | opening =>
    rw [e] at h
    cases h

/-- R119: the feeder that an outstanding latch holds is put down; no other feeder moves. -/
theorem State.feeder_resolveLatch {s : State} {i g : Nat} {b : Bond} (out : (s.latch i).state.outstanding = true)
    (holds : (s.latch i).state.bond = some (g, b)) (f : Nat) :
    (s.resolveLatch i).feeder f = if g = f ∧ f < 16 then (s.latch i).state.putsDown (s.feeder g) else s.feeder f := by
  unfold State.resolveLatch
  cases e : (s.latch i).state with
  | opened =>
    rw [e] at out
    cases out
  | closed =>
    rw [e] at out
    cases out
  | closing h pos =>
    rw [e] at holds
    cases holds
    exact s.feeder_putFeeder g f _
  | opening h =>
    rw [e] at holds
    cases holds
    exact s.feeder_putFeeder g f _

/-- Under the law of R102 a latch resolves the feeder it takes or releases alone. -/
theorem State.LatchLaw.resolveLatch_leaves {s : State} (h : s.LatchLaw) {f i : Nat}
    (apart : ∀ b, (s.feeder f).bond = some (i, b) → b = .hold) : (s.resolveLatch i).feeder f = s.feeder f := by
  cases out : (s.latch i).state.outstanding with
  | false => rw [State.resolveLatch_settled out]
  | true =>
    obtain ⟨g, b, holds, moving⟩ := LatchState.outstanding_bond out
    rw [State.feeder_resolveLatch out holds, if_neg]
    rintro ⟨rfl, -⟩
    obtain ⟨-, -, bond⟩ := h.held holds
    exact moving (apart b bond)

theorem State.LatchLaw.resolveFold_leaves {f : Nat} (l : List Nat) {s : State} (h : s.LatchLaw)
    (apart : ∀ i b, (s.feeder f).bond = some (i, b) → b = .hold) : (l.foldl State.resolveLatch s).feeder f = s.feeder f := by
  induction l generalizing s with
  | nil => rfl
  | cons i l ih =>
    have same := h.resolveLatch_leaves (apart i)
    rw [List.foldl_cons, ih (h.resolveLatch i) (by rwa [same]), same]

theorem State.LatchLaw.resolveFold_putsDown {i f : Nat} {b : Bond} (l : List Nat) {s : State} (h : s.LatchLaw) (reached : i ∈ l)
    (out : (s.latch i).state.outstanding = true) (holds : (s.latch i).state.bond = some (f, b)) :
    (l.foldl State.resolveLatch s).feeder f = (s.latch i).state.putsDown (s.feeder f) := by
  induction l generalizing s with
  | nil => cases reached
  | cons j l ih =>
    obtain ⟨-, small, bond⟩ := h.held holds
    rw [List.foldl_cons]
    by_cases here : j = i
    · subst here
      have down : (s.resolveLatch j).feeder f = (s.latch j).state.putsDown (s.feeder f) :=
        (State.feeder_resolveLatch out holds f).trans (if_pos ⟨rfl, small⟩)
      have free : ∀ k c, ((s.resolveLatch j).feeder f).bond = some (k, c) → c = .hold := fun k c hold => by
        rw [down, LatchState.putsDown_bond out] at hold
        cases hold
      rw [State.LatchLaw.resolveFold_leaves l (h.resolveLatch j) free, down]
    · have later : i ∈ l := (List.mem_cons.mp reached).resolve_left (Ne.symm here)
      have latch : (s.resolveLatch j).latch i = s.latch i := by rw [State.latch_resolveLatch, if_neg fun hit => here hit.1]
      have same : (s.resolveLatch j).feeder f = s.feeder f := h.resolveLatch_leaves fun c other => by
        rw [bond] at other
        cases other
        exact absurd rfl here
      rw [ih (h.resolveLatch j) later (by rwa [latch]) (by rwa [latch]), latch, same]

/-- R119: a feeder that is neither taken nor released stays. -/
theorem State.LatchLaw.resolveAll_leaves {s : State} (h : s.LatchLaw) {f : Nat} (taking : ∀ rail i, s.feeder f ≠ .taking rail i)
    (releasing : ∀ rail i y, s.feeder f ≠ .releasing rail i y) : s.resolveAll.feeder f = s.feeder f := by
  refine State.LatchLaw.resolveFold_leaves _ h fun i b bond => ?_
  cases e : s.feeder f with
  | undeclared | parked | faulted =>
    rw [e] at bond
    cases bond
  | taking rail j => exact absurd e (taking rail j)
  | coupled rail j =>
    rw [e] at bond
    cases bond
    rfl
  | releasing rail j y => exact absurd e (releasing rail j y)

theorem State.LatchLaw.resolveAll_closing {s : State} (h : s.LatchLaw) {i f : Nat} {pos : Int} (e : (s.latch i).state = .closing f pos) :
    s.resolveAll.latch i = Latch.mk .opened 0 ∧ s.resolveAll.feeder f = .parked (s.feeder f).rail pos := by
  have out : (s.latch i).state.outstanding = true := by rw [e]; rfl
  have holds : (s.latch i).state.bond = some (f, .take) := by rw [e]; rfl
  refine ⟨(s.latch_resolveAll i).trans (if_pos out), ?_⟩
  refine (State.LatchLaw.resolveFold_putsDown _ h (List.mem_range.mpr (h.held holds).1) out holds).trans ?_
  rw [e]
  rfl

theorem State.LatchLaw.resolveAll_opening {s : State} (h : s.LatchLaw) {i f : Nat} (e : (s.latch i).state = .opening f) :
    s.resolveAll.latch i = Latch.mk .opened 0 ∧ s.resolveAll.feeder f = .faulted (s.feeder f).rail := by
  have out : (s.latch i).state.outstanding = true := by rw [e]; rfl
  have holds : (s.latch i).state.bond = some (f, .release) := by rw [e]; rfl
  refine ⟨(s.latch_resolveAll i).trans (if_pos out), ?_⟩
  refine (State.LatchLaw.resolveFold_putsDown _ h (List.mem_range.mpr (h.held holds).1) out holds).trans ?_
  rw [e]
  rfl

theorem State.resolveAll_noRecord {s : State} (h : s.queue.records = []) : s.resolveAll.queue = s.queue := by
  have resolved := Resolves.resolveAll s
  have empty : s.resolveAll.queue.records = [] := by
    have tags := congrArg List.length resolved.tags
    rw [h] at tags
    exact List.length_eq_zero_iff.mp (by simpa using tags)
  have queue := congrArg State.queue resolved.same
  change s.resolveAll.queue = _ at queue
  rw [queue, empty, ← h]

/-! ### A feeder that leaves the carried states (R131, R132) -/

theorem State.putFeeder_leaves {s : State} {f : Nat} {v : Feeder} (was : (s.feeder f).carried = true) (is : v.carried = false) :
    s.putFeeder f v = (s.setFeeders { s.feeders with table := s.feeders.table.setIfInBounds f v }).leaveCarried f :=
  if_pos (by rw [was, is]; rfl)

theorem State.putFeeder_stays {s : State} {f : Nat} {v : Feeder} (h : (s.feeder f).carried = false ∨ v.carried = true) :
    s.putFeeder f v = s.setFeeders { s.feeders with table := s.feeders.table.setIfInBounds f v } := by
  refine if_neg ?_
  rcases h with was | is
  · simp [was]
  · simp [is]

theorem State.putFeeder_table (s : State) (f : Nat) (v : Feeder) : s.putFeeder f v
    = { s with feeders := { s.feeders with table := (s.putFeeder f v).feeders.table }, yarn := (s.putFeeder f v).yarn } := by
  by_cases stays : (s.feeder f).carried = false ∨ v.carried = true
  · rw [State.putFeeder_stays stays]
    rfl
  · rw [State.putFeeder_leaves (by simpa using fun h => stays (.inl h)) (by simpa using fun h => stays (.inr h))]
    rfl

theorem Sweep.discard_current (f : Nat) (cut disc : Bool) (rest : List Nat) :
    (Sweep.mk (some (.poll f cut disc)) rest).discard f = Sweep.mk (some (.poll f cut true)) rest :=
  if_pos rfl

theorem Sweep.discard_other {f : Nat} {w : Sweep} (h : ∀ cut disc rest, w ≠ Sweep.mk (some (.poll f cut disc)) rest) : w.discard f = w := by
  obtain ⟨current, rest⟩ := w
  cases current with
  | none => rfl
  | some x =>
    cases x with
    | write => rfl
    | poll g cut disc =>
      refine if_neg ?_
      rintro rfl
      exact h cut disc rest rfl

/-- Settles O44: the resolution of each latch, and a feeder put down or moved. -/
theorem feedersLeaveTheCarriedStates : Obligations.FeedersLeaveTheCarriedStates := by
  refine ⟨⟨fun s law => ?_, fun f v s hf => ?_⟩, fun s => ⟨State.resolveAll_noRecord, State.queue_resolveAll s⟩⟩
  · intro t
    exact ⟨fun i _ f pos => law.resolveAll_closing, fun i _ f => law.resolveAll_opening,
      fun i settled => (s.latch_resolveAll i).trans (if_neg (by simp [settled])), fun f => law.resolveAll_leaves,
      (Resolves.resolveAll s).monitor, law.resolveAll⟩
  · intro t
    have other (g : Nat) (h : g ≠ f) : t.feeder g = s.feeder g ∧ t.head g = s.head g :=
      ⟨(s.feeder_putFeeder f g v).trans (if_neg fun hit => h hit.1.symm),
        (s.head_putFeeder f g v).trans (if_neg fun hit => h hit.1.symm)⟩
    refine ⟨(s.feeder_putFeeder f f v).trans (if_pos ⟨rfl, hf⟩), other, s.putFeeder_table f v, fun was is => ⟨?_, ?_, ?_⟩, fun stays => ?_⟩
    · exact (s.head_putFeeder f f v).trans (if_pos ⟨rfl, hf, was, is⟩)
    · intro cut disc rest sweep
      have left : t.yarn.sweep = s.yarn.sweep.map (Sweep.discard f) := by rw [show t = _ from State.putFeeder_leaves was is]; rfl
      rw [left, sweep]
      exact congrArg some (Sweep.discard_current f cut disc rest)
    · intro elsewhere
      have left : t.yarn.sweep = s.yarn.sweep.map (Sweep.discard f) := by rw [show t = _ from State.putFeeder_leaves was is]; rfl
      rw [left]
      cases e : s.yarn.sweep with
      | none => rfl
      | some w => exact congrArg some (Sweep.discard_other fun cut disc rest same => elsewhere cut disc rest (e.trans (congrArg some same)))
    · rw [show t = _ from State.putFeeder_stays stays]
      rfl

end Sys2Proof.Machine

/-! SUPPORT. The edges of the couple senses and the countdowns that run out. -/

namespace Sys2Proof.Machine

/-! ### Settlements (R91) -/

theorem State.completeIfSettled_eq (s : State) : s.completeIfSettled
    = if s.passInProgress = true ∧ s.headFinishing = true ∧ s.latchOutstanding = false then s.completePass else s := by
  simp only [State.completeIfSettled, Bool.and_eq_true, Bool.not_eq_true', and_assoc]

theorem State.headFinishing_iff (s : State) :
    s.headFinishing = true ↔ ∃ h rest, s.queue.records = h :: rest ∧ h.state = .finishing := by
  unfold State.headFinishing
  cases s.queue.records <;> simp

theorem State.latchOutstanding_iff (s : State) : s.latchOutstanding = true ↔ ∃ i < 4, (s.latch i).state.outstanding = true := by
  simp [State.latchOutstanding]

/-! ### Edges (R110, R114, R117, R118) -/

theorem exec_coupleSenseEdge_level {s : State} {i : Fin 4} {level : Bool} (h : s.sense i = level) :
    exec (.coupleSenseEdge i level) s = .next s :=
  congrArg Host.Outcome.next (if_pos h)

theorem exec_coupleSenseEdge_edge {s : State} {i : Fin 4} {level : Bool} (h : s.sense i ≠ level) :
    exec (.coupleSenseEdge i level) s = .next ((s.setSense i level).takeEdge i level) :=
  congrArg Host.Outcome.next (if_neg h)

theorem State.takeEdge_closing {s : State} {i f : Nat} {pos : Int} (h : i < s.systems) (closing : (s.latch i).state = .closing f pos) :
    s.takeEdge i true = s.confirmTake i f pos := by
  unfold State.takeEdge
  rw [if_pos h, closing]

theorem State.takeEdge_opening {s : State} {i f : Nat} (h : i < s.systems) (opening : (s.latch i).state = .opening f) :
    s.takeEdge i false = s.confirmRelease i f := by
  unfold State.takeEdge
  rw [if_pos h, opening]

theorem State.takeEdge_closed {s : State} {i f : Nat} (h : i < s.systems) (closed : (s.latch i).state = .closed f) :
    s.takeEdge i false = s.dropFeeder i f := by
  unfold State.takeEdge
  rw [if_pos h, closed]

theorem State.takeEdge_notFitted {s : State} {i : Nat} (h : s.systems ≤ i) (level : Bool) : s.takeEdge i level = s :=
  if_neg (Nat.not_lt.mpr h)

/-- R118: an edge that settles nothing. -/
theorem State.takeEdge_idle {s : State} {i : Nat} {level : Bool} (h : (s.latch i).state = .opened
      ∨ (∃ f pos, (s.latch i).state = .closing f pos ∧ level = false)
      ∨ ∃ f, ((s.latch i).state = .closed f ∨ (s.latch i).state = .opening f) ∧ level = true) : s.takeEdge i level = s := by
  by_cases fitted : i < s.systems
  · unfold State.takeEdge
    rw [if_pos fitted]
    rcases h with opened | ⟨f, pos, closing, low⟩ | ⟨f, closed | opening, high⟩
    · rw [opened]
    · rw [closing, low]
    · rw [closed, high]
    · rw [opening, high]
  · exact State.takeEdge_notFitted (Nat.not_lt.mp fitted) level

/-- A log with room, in a state that has the condition monitor of s. -/
theorem State.log_as {s t : State} (room : s.room 1) (same : t.monitor = s.monitor) (e : Event) :
    t.log e = { t with monitor := { t.monitor with events := t.monitor.events ++ [s.entry e] } } := by
  have fits : t.room 1 := by rwa [State.room, same]
  rw [State.log_room fits, State.entry, State.entry, same]

/-- R117: the feeder a CLOSED latch drops. -/
def State.dropped (s : State) (i f : Nat) : State :=
  ((s.noteRaise (.feederMissed f i .dropped)).putFeeder f (.faulted (s.feeder f).rail)).putLatch i (Latch.mk .opened 0)

theorem State.dropped_keeps (s : State) (i f : Nat) : (s.dropped i f).engine = s.engine ∧ (s.dropped i f).queue = s.queue := by
  obtain ⟨engine, queue, -⟩ := State.putFeeder_parts (s.noteRaise (.feederMissed f i .dropped)) f (.faulted (s.feeder f).rail)
  exact ⟨engine, queue⟩

theorem State.dropFeeder_pass {s : State} (h : s.engine.pass ≠ none) (i f : Nat) :
    s.dropFeeder i f = (s.dropped i f).abortPass .feederMissed := by
  refine if_pos ?_
  rw [State.passInProgress_iff]
  exact fun ended => h ((congrArg Engine.pass (s.dropped_keeps i f).1).symm.trans ended)

theorem State.dropFeeder_noPass {s : State} (h : s.engine.pass = none) (i f : Nat) :
    s.dropFeeder i f = (s.dropped i f).correctProjection i f := by
  refine if_neg ?_
  rw [State.passInProgress_iff, not_not]
  exact (congrArg Engine.pass (s.dropped_keeps i f).1).trans h

theorem State.correctProjection_empty {s : State} (h : s.queue.records = []) (i f : Nat) :
    s.correctProjection i f = { s with queue := { s.queue with proj := s.feeders.project } } := by
  rw [State.correctProjection, h]
  dsimp only
  rw [State.followProjection_eq, if_pos h]
  rfl

theorem State.correctProjection_held {s : State} {i f rail : Nat} (h : s.queue.records ≠ []) (coupled : s.queue.proj.feeder f = .coupled rail i) :
    s.correctProjection i f = { s with queue := { s.queue with
      proj := Projection.mk (s.queue.proj.feeders.setIfInBounds f (.faulted rail)) (s.queue.proj.holders.setIfInBounds i none) } } := by
  obtain ⟨r, rest, e⟩ := List.exists_cons_of_ne_nil h
  rw [State.correctProjection, e]
  dsimp only
  rw [coupled]
  exact if_pos rfl

theorem State.correctProjection_other {s : State} {i f : Nat} (h : s.queue.records ≠ []) (other : ∀ rail, s.queue.proj.feeder f ≠ .coupled rail i) :
    s.correctProjection i f = s := by
  obtain ⟨r, rest, e⟩ := List.exists_cons_of_ne_nil h
  rw [State.correctProjection, e]
  dsimp only
  cases p : s.queue.proj.feeder f with
  | undeclared | parked | faulted => rfl
  | coupled rail j =>
    refine if_neg ?_
    rintro rfl
    exact other rail p

/-- Settles O46: an edge in each latch state, and the completion that a settlement allows. -/
theorem coupleSenseEdges : Obligations.CoupleSenseEdges := by
  refine ⟨⟨fun i level s edge => ?_, fun i level s h => exec_coupleSenseEdge_level h⟩, fun s => ⟨fun h rest pass e finishing settled => ?_,
    fun stays => ?_⟩⟩
  · intro u log
    have taken : exec (.coupleSenseEdge i level) s = .next (u.takeEdge i level) := exec_coupleSenseEdge_edge edge
    rw [taken]
    refine ⟨fun past => congrArg _ (State.takeEdge_notFitted (s := u) past level), fun opened => congrArg _ (State.takeEdge_idle (s := u) (.inl opened)),
      fun f pos closing low => congrArg _ (State.takeEdge_idle (s := u) (.inr (.inl ⟨f, pos, closing, low⟩))),
      fun f held high => congrArg _ (State.takeEdge_idle (s := u) (.inr (.inr ⟨f, held, high⟩))),
      fun f pos fitted closing high room => congrArg _ ?_, fun f rail x fitted opening releasing low room => congrArg _ ?_,
      fun f fitted closed low => ?_⟩
    · have same := (Resolves.putFeeder (u.putLatch i (Latch.mk (.closed f) 0)) f (.coupled (s.feeder f).rail i)).monitor
      rw [high, State.takeEdge_closing (s := u) fitted closing]
      exact congrArg (fun t : State => (t.settle i .asPlanned).completeIfSettled) (State.log_as room same _)
    · have same := (Resolves.putFeeder u f (.parked rail x)).monitor
      have confirmed : u.confirmRelease i f
          = ((((u.putFeeder f (.parked rail x)).openLatch i).log (.feederReleased f i x)).settle i .asPlanned).completeIfSettled := by
        rw [State.confirmRelease, show u.feeder f = _ from releasing]
        rfl
      rw [low, State.takeEdge_opening (s := u) fitted opening]
      refine confirmed.trans ?_
      exact congrArg (fun t : State => (t.settle i .asPlanned).completeIfSettled)
        (State.log_as (t := (u.putFeeder f (.parked rail x)).openLatch i) room same _)
    · intro w
      have drop : u.takeEdge i level = u.dropFeeder i f := by
        rw [low, State.takeEdge_closed (s := u) fitted closed]
      have queue : w.queue = s.queue := (u.dropped_keeps i f).2
      rw [drop]
      refine ⟨fun pass => congrArg _ (State.dropFeeder_pass (s := u) pass i f), fun pass empty => congrArg _ ?_,
        fun rail pass some coupled => congrArg _ ?_, fun pass some other => congrArg _ ?_⟩
      · rw [State.dropFeeder_noPass (s := u) pass, ← queue]
        exact State.correctProjection_empty (s := w) (queue ▸ empty) i f
      · rw [State.dropFeeder_noPass (s := u) pass, ← queue]
        exact State.correctProjection_held (s := w) (queue ▸ some) (queue ▸ coupled)
      · rw [State.dropFeeder_noPass (s := u) pass]
        exact State.correctProjection_other (s := w) (queue ▸ some) (queue ▸ other)
  · have closed : s.latchOutstanding = false := by
      rw [← Bool.not_eq_true, State.latchOutstanding_iff]
      rintro ⟨i, hi, out⟩
      exact Bool.false_ne_true ((settled i hi).symm.trans out)
    rw [State.completeIfSettled_eq, if_pos ⟨s.passInProgress_iff.mpr pass, s.headFinishing_iff.mpr ⟨h, rest, e, finishing⟩, closed⟩]
  · rw [State.completeIfSettled_eq, if_neg]
    rw [State.passInProgress_iff, State.headFinishing_iff, ← Bool.not_eq_true, State.latchOutstanding_iff]
    rintro ⟨pass, ⟨h, rest, e, finishing⟩, closed⟩
    rcases stays with ended | active | out
    · exact pass ended
    · exact active h rest e finishing
    · exact closed out

/-! ### Countdowns that run out (R112, R115, R120) -/

theorem exec_takeCountdownExpiry_closing {s : State} {i : Fin 4} {f : Nat} {pos : Int} (h : (s.latch i).state = .closing f pos) :
    exec (.takeCountdownExpiry i) s = .next ((s.expireTake i f pos).abortPass .feederMissed) := by
  show Host.Outcome.next _ = _
  rw [h]

theorem exec_releaseCountdownExpiry_opening {s : State} {i : Fin 4} {f : Nat} (h : (s.latch i).state = .opening f) :
    exec (.releaseCountdownExpiry i) s = .next ((s.expireRelease i f).abortPass .feederStuck) := by
  show Host.Outcome.next _ = _
  rw [h]

theorem exec_takeCountdownExpiry_idle {s : State} {i : Fin 4} (h : ∀ f pos, (s.latch i).state ≠ .closing f pos) :
    exec (.takeCountdownExpiry i) s = .next s := by
  show Host.Outcome.next _ = _
  cases e : (s.latch i).state with
  | closing f pos => exact absurd e (h f pos)
  | opened | closed | opening => rfl

theorem exec_releaseCountdownExpiry_idle {s : State} {i : Fin 4} (h : ∀ f, (s.latch i).state ≠ .opening f) :
    exec (.releaseCountdownExpiry i) s = .next s := by
  show Host.Outcome.next _ = _
  cases e : (s.latch i).state with
  | opening f => exact absurd e (h f)
  | opened | closed | closing => rfl

/-- R112, R115: what a countdown that has run out leaves, before the abort. -/
def State.expired (s : State) (i f : Nat) (d : Detail) (v : Feeder) : State :=
  (((s.noteRaise d).putFeeder f v).putLatch i (Latch.mk .opened 0)).settle i .otherwise

section Expired
variable {s : State} {i f : Nat} {d : Detail} {v : Feeder}

theorem State.expired_engine : (s.expired i f d v).engine = s.engine := (State.putFeeder_parts (s.noteRaise d) f v).1

theorem State.expired_monitor : (s.expired i f d v).monitor = s.monitor.noteRaise d := (Resolves.putFeeder (s.noteRaise d) f v).monitor

theorem State.expired_feeder (g : Nat) : (s.expired i f d v).feeder g = if f = g ∧ g < 16 then v else s.feeder g :=
  (s.noteRaise d).feeder_putFeeder f g v

theorem State.expired_latch (j : Nat) : (s.expired i f d v).latch j = if i = j ∧ j < 4 then Latch.mk .opened 0 else s.latch j :=
  (((s.noteRaise d).putFeeder f v).latch_putLatch i j (Latch.mk .opened 0)).trans
    (by rw [State.latch_putFeeder]; rfl)

theorem State.expired_records {h : PassRecord} {rest : List PassRecord} (e : s.queue.records = h :: rest) :
    ∃ es, (s.expired i f d v).queue.records = { h with entries := es } :: rest := by
  have queue : (((s.noteRaise d).putFeeder f v).putLatch i (Latch.mk .opened 0)).queue = s.queue :=
    State.queue_putFeeder (s.noteRaise d) f v
  obtain ⟨es, marked, -⟩ := State.remark_head i .pending .otherwise (((s.noteRaise d).putFeeder f v).putLatch i (Latch.mk .opened 0))
    h rest (queue.symm ▸ e)
  exact ⟨es, (congrArg (fun t : State => t.queue.records) marked :)⟩

theorem State.LatchLaw.expired {b : Bond} (law : s.LatchLaw) (holds : (s.latch i).state.bond = some (f, b)) (down : v.bond = none) :
    (s.expired i f d v).LatchLaw :=
  (State.LatchLaw.putDown (s := s.noteRaise d) (law.same rfl) (by exact holds) v down).same rfl

/-- R120: the abort after a countdown has run out resolves the other latches, and the expired one stays as its expiry left it. -/
theorem State.LatchLaw.expired_others {b : Bond} (law : s.LatchLaw) (holds : (s.latch i).state.bond = some (f, b)) (down : v.bond = none) :
    (s.expired i f d v).resolveAll.feeder f = v ∧ (s.expired i f d v).resolveAll.latch i = Latch.mk .opened 0
    ∧ (∀ j < 4, j ≠ i →
        (∀ g pos, (s.latch j).state = .closing g pos → (s.expired i f d v).resolveAll.latch j = Latch.mk .opened 0
          ∧ (s.expired i f d v).resolveAll.feeder g = .parked (s.feeder g).rail pos)
        ∧ (∀ g, (s.latch j).state = .opening g → (s.expired i f d v).resolveAll.latch j = Latch.mk .opened 0
          ∧ (s.expired i f d v).resolveAll.feeder g = .faulted (s.feeder g).rail)
        ∧ ((s.latch j).state.outstanding = false → (s.expired i f d v).resolveAll.latch j = s.latch j))
    ∧ ∀ g ≠ f, (∀ rail j, s.feeder g ≠ .taking rail j) → (∀ rail j x, s.feeder g ≠ .releasing rail j x) →
        (s.expired i f d v).resolveAll.feeder g = s.feeder g := by
  obtain ⟨small, low, bond⟩ := law.held holds
  have after : (s.expired i f d v).LatchLaw := law.expired holds down
  have feeder : (s.expired i f d v).feeder f = v := (State.expired_feeder f).trans (if_pos ⟨rfl, low⟩)
  have latch : (s.expired i f d v).latch i = Latch.mk .opened 0 := (State.expired_latch i).trans (if_pos ⟨rfl, small⟩)
  have feeders {g : Nat} (h : g ≠ f) : (s.expired i f d v).feeder g = s.feeder g :=
    (State.expired_feeder g).trans (if_neg fun hit => h hit.1.symm)
  have latches {j : Nat} (h : j ≠ i) : (s.expired i f d v).latch j = s.latch j :=
    (State.expired_latch j).trans (if_neg fun hit => h hit.1.symm)
  have apart {j g : Nat} {c : Bond} (h : j ≠ i) (other : (s.latch j).state.bond = some (g, c)) : g ≠ f := by
    rintro rfl
    cases bond.symm.trans (law.held other).2.2
    exact h rfl
  refine ⟨(after.resolveAll_leaves ?_ ?_).trans feeder, ?_, fun j _ h => ⟨fun g pos e => ?_, fun g e => ?_, fun settled => ?_⟩,
    fun g h taking releasing => ?_⟩
  · rw [feeder]
    rintro rail j rfl
    cases down
  · rw [feeder]
    rintro rail j y rfl
    cases down
  · rw [State.latch_resolveAll, latch]
    rfl
  · have other := feeders (apart h (c := .take) (by rw [e]; rfl))
    rw [← other]
    exact after.resolveAll_closing (by rwa [latches h])
  · have other := feeders (apart h (c := .release) (by rw [e]; rfl))
    rw [← other]
    exact after.resolveAll_opening (by rwa [latches h])
  · rw [State.latch_resolveAll, latches h, settled]
    rfl
  · rw [after.resolveAll_leaves (by rwa [feeders h]) (by rwa [feeders h]), feeders h]

/-- R96: what the abort logs after the raise of the expiry. -/
theorem State.expired_events {p : Pass} {h : PassRecord} {rest : List PassRecord} (pass : s.engine.pass = some p)
    (e : s.queue.records = h :: rest) (room : s.room 3) (reason : AbortReason) :
    ((s.expired i f d v).abortPass reason).monitor.events = s.monitor.events
      ++ (if (s.monitor.record d.cond).latched = none then [s.entry (.condition d)] else [])
      ++ [s.entry (.passAborted h.tag reason p.furthestPair), s.entry (.queueFlushed (rest.length + 1) .abort)] := by
  obtain ⟨es, records⟩ := State.expired_records (i := i) (f := f) (d := d) (v := v) e
  have noted : (s.expired i f d v).monitor.events = _ :=
    (congrArg ConditionMonitor.events State.expired_monitor).trans (State.noteRaise_entries (Nat.le_of_add_right_le (k := 2) room) d)
  have left : (s.expired i f d v).room 2 := by
    unfold State.room at room ⊢
    rw [noted, List.length_append]
    split <;> simp <;> omega
  have stamp (x : Event) : (s.expired i f d v).entry x = s.entry x := by
    rw [State.entry, State.expired_monitor]
    exact State.entry_noteRaise s d x
  rw [State.abortPass_events ((congrArg Engine.pass State.expired_engine).trans pass) records left, noted, stamp, stamp]

end Expired

theorem State.expireRelease_eq {s : State} {i f rail : Nat} {x : Int} (releasing : s.feeder f = .releasing rail i x) :
    s.expireRelease i f = s.expired i f (.feederStuck f i x) (.faulted rail) := by
  have same : s.expireRelease i f
      = s.expired i f (.feederStuck f i (s.feeder f).releasePoint) (.faulted (s.feeder f).rail) := rfl
  rw [same, releasing]
  rfl

/-- R112, R115: either expiry as one form. -/
theorem exec_expiry {i : Fin 4} {c : Instr} {d : Detail} {reason : AbortReason} {f : Nat} {v : Feeder} {s : State}
    (expiry : (∃ pos, (s.latch i).state = .closing f pos ∧ c = .takeCountdownExpiry i ∧ d = .feederMissed f i .take
        ∧ reason = .feederMissed ∧ v = .parked (s.feeder f).rail pos)
      ∨ ∃ rail x, (s.latch i).state = .opening f ∧ s.feeder f = .releasing rail i x ∧ c = .releaseCountdownExpiry i
        ∧ d = .feederStuck f i x ∧ reason = .feederStuck ∧ v = .faulted rail) :
    ∃ b, (s.latch i).state.bond = some (f, b) ∧ b ≠ .hold ∧ v.bond = none ∧ d.cond ≠ .eventOverrun
      ∧ exec c s = .next ((s.expired i f d v).abortPass reason) := by
  rcases expiry with ⟨pos, closing, rfl, rfl, rfl, rfl⟩ | ⟨rail, x, opening, releasing, rfl, rfl, rfl, rfl⟩
  · exact ⟨.take, by rw [closing]; rfl, nofun, rfl, nofun, exec_takeCountdownExpiry_closing closing⟩
  · refine ⟨.release, by rw [opening]; rfl, nofun, rfl, nofun, ?_⟩
    rw [exec_releaseCountdownExpiry_opening opening, State.expireRelease_eq releasing]

/-- Settles O47: the expiry of each countdown, and in a pass the abort that resolves the other latches. -/
theorem countdownExpiryFaults : Obligations.CountdownExpiryFaults := by
  refine ⟨fun i s => ⟨fun f pos => exec_takeCountdownExpiry_closing, fun f => exec_releaseCountdownExpiry_opening,
    exec_takeCountdownExpiry_idle, exec_releaseCountdownExpiry_idle⟩, fun i c d reason f v p h rest s law pass e expiry => ?_⟩
  obtain ⟨b, holds, moving, down, event, run⟩ := exec_expiry expiry
  obtain ⟨feeder, latch, others, stays⟩ := law.expired_others (d := d) holds down
  have going : (s.expired i f d v).engine.pass = some p := (congrArg Engine.pass State.expired_engine).trans pass
  have whole := State.abortPass_eq (s.expired i f d v) reason p going
  obtain ⟨ended, records, plan, banks⟩ := State.abortPass_ends (s := s.expired i f d v) (by rw [going]; exact Option.some_ne_none p) reason
  have proj : ((s.expired i f d v).abortPass reason).queue.proj = (s.expired i f d v).resolveAll.feeders.project :=
    (congrArg (fun t : State => t.queue.proj) whole :)
  have latched := State.abortPass_record_ne (s.expired i f d v) reason event
  rw [State.expired_monitor, ConditionMonitor.noteRaise_record_eq] at latched
  have events := State.expired_events (i := i) (f := f) (d := d) (v := v) pass e (reason := reason)
  obtain ⟨feeders, -⟩ := State.abortPass_parts going reason
  refine ⟨_, run, ?_⟩
  generalize (s.expired i f d v).abortPass reason = t at *
  generalize (s.expired i f d v).resolveAll = u at *
  have feederAt (g : Nat) : t.feeder g = u.feeder g := congrArg (fun w : FeederUnit => w.table.getD g .undeclared) feeders
  have latchAt (j : Nat) : t.latch j = u.latch j := congrArg (fun w : FeederUnit => w.latches.getD j (Latch.mk .opened 0)) feeders
  simp only [feederAt, latchAt, feeders]
  refine ⟨feeder, latch, ended, records, plan, banks, proj, others, fun g taking releasing => stays g ?_ taking releasing, latched, events⟩
  rintro rfl
  have bond := (law.held holds).2.2
  cases at_ : s.feeder g with
  | undeclared | parked | faulted =>
    rw [at_] at bond
    cases bond
  | taking rail j => exact taking rail j at_
  | coupled =>
    rw [at_] at bond
    cases bond
    exact moving rfl
  | releasing rail j x => exact releasing rail j x at_

end Sys2Proof.Machine

/-! SUPPORT. The feeder actions that a step reaches, and the countdowns that it judges. -/

namespace Sys2Proof.Machine

/-! ### The next action of a system (R59, R82) -/

/-- The first element that a test picks, behind elements that it does not. -/
theorem find?_of_first {α : Type} {q : α → Bool} {d l : List α} {e : α} (before : ∀ c ∈ d, q c = false) (here : q e = true) :
    (d ++ e :: l).find? q = some e := by
  rw [List.find?_append, List.find?_eq_none.mpr fun c hc => by simp [before c hc], List.find?_cons_of_pos here]
  rfl

theorem State.nextAction_empty {s : State} (h : s.queue.records = []) (i : Nat) : s.nextAction i = none := by
  rw [State.nextAction, State.headEntry, h]

theorem State.nextAction_cons {s : State} {h : PassRecord} {rest : List PassRecord} (e : s.queue.records = h :: rest) (i : Nat) :
    s.nextAction i = (h.entries.find? fun x => x.system == i).bind fun x =>
      (x.actions.find? fun a => decide (a.mark = .notReached)).map MarkedAction.act := by
  rw [State.nextAction, State.headEntry, e]
  dsimp only
  cases h.entries.find? fun x => x.system == i <;> rfl

theorem State.nextAction_noEntry {s : State} {h : PassRecord} {rest : List PassRecord} (e : s.queue.records = h :: rest) {i : Nat}
    (none : ∀ x ∈ h.entries, x.system ≠ i) : s.nextAction i = Option.none := by
  have missing : (h.entries.find? fun x => x.system == i) = Option.none := List.find?_eq_none.mpr fun x hx => by simp [none x hx]
  rw [State.nextAction_cons e, missing]
  rfl

theorem State.nextAction_entry {s : State} {h : PassRecord} {rest : List PassRecord} (e : s.queue.records = h :: rest) {i : Nat}
    {d l : List SystemEntry} {x : SystemEntry} (split : h.entries = d ++ x :: l) (own : x.system = i) (first : ∀ c ∈ d, c.system ≠ i) :
    s.nextAction i = (x.actions.find? fun a => decide (a.mark = .notReached)).map MarkedAction.act := by
  have found : (h.entries.find? fun y => y.system == i) = some x := by
    rw [split]
    exact find?_of_first (fun c hc => by simp [first c hc]) (by simp [own])
  rw [State.nextAction_cons e, found]
  rfl

/-! ### The actions of a system (R107 to R109, R113) -/

section Reach
variable {s : State} {i f : Nat}

theorem State.reach_nothing (h : s.nextAction i = none) (x : Int) (n : Nat) : State.reach x i (n + 1) s = s := by
  unfold State.reach
  rw [h]

theorem State.reach_take {rail : Nat} {pos : Int} (h : s.nextAction i = some (.take f)) (parked : s.feeder f = .parked rail pos)
    (x : Int) (n : Nat) : State.reach x i (n + 1) s
      = if s.latchPoint i x = pos ∧ (s.latch i).state = .opened then s.driveTake i f rail pos else s := by
  unfold State.reach
  rw [h]
  dsimp only
  rw [parked]

theorem State.reach_release {y : Int} (h : s.nextAction i = some (.release f y)) (x : Int) (n : Nat) : State.reach x i (n + 1) s
      = if s.latchPoint i x = y then
          if (s.latch i).state = .closed f then s.driveRelease i f y else State.reach x i n (s.remark i .notReached .otherwise)
        else s := by
  conv_lhs => unfold State.reach
  rw [h]

theorem State.driveTake_low (h : s.sense i = false) (rail : Nat) (pos : Int) : s.driveTake i f rail pos
    = ((s.putLatch i (Latch.mk (.closing f pos) s.confirmNeedles)).putFeeder f (.taking rail i)).remark i .notReached .pending :=
  if_neg fun high => Bool.false_ne_true (h.symm.trans high)

theorem State.driveTake_high (h : s.sense i = true) (rail : Nat) (pos : Int) : s.driveTake i f rail pos
    = ((s.noteRaise (.feederMissed f i .senseHigh)).remark i .notReached .otherwise).abortPass .feederMissed :=
  if_pos h

end Reach

/-! ### Countdowns (R107, R112, R115, R116) -/

section Countdown
variable {s : State} {i : Nat}

theorem State.countdownStep_settled (h : (s.latch i).state.outstanding = false) (reason : Option AbortReason) :
    State.countdownStep (s, reason) i = (s, reason) := by
  unfold State.countdownStep
  dsimp only
  cases e : (s.latch i).state with
  | opened | closed => rfl
  | closing | opening =>
    rw [e] at h
    cases h

theorem State.countdownStep_running (h : (s.latch i).state.outstanding = true) (more : 1 < (s.latch i).countdown)
    (reason : Option AbortReason) : State.countdownStep (s, reason) i
      = (s.putLatch i { s.latch i with countdown := (s.latch i).countdown - 1 }, reason) := by
  unfold State.countdownStep
  dsimp only
  cases e : (s.latch i).state with
  | opened | closed =>
    rw [e] at h
    cases h
  | closing | opening =>
    dsimp only
    rw [if_neg (Nat.not_le.mpr more)]

theorem Option.or_some_getD {α : Type} (o : Option α) (a : α) : o.or (some a) = some (o.getD a) := by
  cases o <;> rfl

theorem State.countdownStep_take {f : Nat} {pos : Int} (h : (s.latch i).state = .closing f pos) (out : (s.latch i).countdown ≤ 1)
    (reason : Option AbortReason) :
    State.countdownStep (s, reason) i = (s.expireTake i f pos, some (reason.getD .feederMissed)) := by
  unfold State.countdownStep
  dsimp only
  rw [h, ← Option.or_some_getD]
  exact if_pos out

theorem State.countdownStep_release {f : Nat} (h : (s.latch i).state = .opening f) (out : (s.latch i).countdown ≤ 1)
    (reason : Option AbortReason) :
    State.countdownStep (s, reason) i = (s.expireRelease i f, some (reason.getD .feederStuck)) := by
  unfold State.countdownStep
  dsimp only
  rw [h, ← Option.or_some_getD]
  exact if_pos out

end Countdown

/-- The countdowns of the systems below n have fallen by one, and none has run out. -/
structure CountedDown (s : State) (n : Nat) (acc : State × Option AbortReason) : Prop where
  noReason : acc.2 = none
  same : acc.1 = { s with feeders := { s.feeders with latches := acc.1.feeders.latches } }
  latches : ∀ j, acc.1.latch j = if j < n ∧ (s.latch j).state.outstanding = true then
    { s.latch j with countdown := (s.latch j).countdown - 1 } else s.latch j

theorem CountedDown.step {s : State} {n : Nat} {acc : State × Option AbortReason} (h : CountedDown s n acc) (small : n < 4)
    (more : (s.latch n).state.outstanding = true → 1 < (s.latch n).countdown) :
    CountedDown s (n + 1) (State.countdownStep acc n) := by
  obtain ⟨u, reason⟩ := acc
  obtain ⟨rfl, same, latches⟩ := h
  have own : u.latch n = s.latch n := (latches n).trans (if_neg fun hit => Nat.lt_irrefl n hit.1)
  cases out : (s.latch n).state.outstanding with
  | false =>
    rw [State.countdownStep_settled (by rwa [own])]
    refine ⟨rfl, same, fun j => (latches j).trans (if_congr ?_ rfl rfl)⟩
    refine and_congr_left fun hit => ⟨Nat.lt_succ_of_lt, fun lt => lt_of_le_of_ne (Nat.le_of_lt_succ lt) ?_⟩
    rintro rfl
    exact Bool.false_ne_true (out.symm.trans hit)
  | true =>
    rw [State.countdownStep_running (by rwa [own]) (by rw [own]; exact more out), own]
    refine ⟨rfl, ?_, fun j => (u.latch_putLatch n j _).trans ?_⟩
    · generalize hl : (u.putLatch n _).feeders.latches = l
      show { u with feeders := { u.feeders with latches := (u.putLatch n _).feeders.latches } } = _
      change u = _ at same
      rw [hl, same]
    · by_cases here : n = j
      · subst here
        rw [if_pos ⟨rfl, small⟩, if_pos ⟨Nat.lt_succ_self n, out⟩]
      · have below : j < n + 1 ↔ j < n := by omega
        rw [if_neg fun hit => here hit.1, latches j]
        exact if_congr (and_congr_left' below.symm) rfl rfl

theorem CountedDown.range {s : State} (n : Nat) (small : n ≤ 4)
    (more : ∀ i < n, (s.latch i).state.outstanding = true → 1 < (s.latch i).countdown) :
    CountedDown s n ((List.range n).foldl State.countdownStep (s, none)) := by
  induction n with
  | zero => exact ⟨rfl, rfl, fun j => (if_neg fun hit => Nat.not_lt_zero j hit.1).symm⟩
  | succ n ih =>
    rw [List.range_succ, List.foldl_append]
    exact (ih (by omega) fun i hi => more i (Nat.lt_succ_of_lt hi)).step (by omega) (more n (Nat.lt_succ_self n))

/-! ### The travel marks (R136) -/

/-- The travel marks of a list of heads. -/
def State.markHeads (s : State) (l : List Nat) : State := l.foldl (fun t f => t.putHead f { t.head f with travel := true }) s

theorem State.markHeads_same (l : List Nat) (s : State) :
    s.markHeads l = { s with yarn := { s.yarn with heads := (s.markHeads l).yarn.heads } } := by
  induction l generalizing s with
  | nil => rfl
  | cons f l ih => exact ih _

theorem State.markHeads_head (l : List Nat) (s : State) {g : Nat} (small : g < 16) :
    (s.markHeads l).head g = if g ∈ l then { s.head g with travel := true } else s.head g := by
  induction l generalizing s with
  | nil => rfl
  | cons f l ih =>
    refine (ih _).trans ?_
    rw [State.head_putHead]
    by_cases here : f = g
    · subst here
      simp [small]
    · simp [here, Ne.symm here]

theorem State.mem_carriedFeeders (s : State) (f : Nat) : f ∈ s.carriedFeeders ↔ f < 16 ∧ (s.feeder f).carried = true := by
  simp [State.carriedFeeders]

/-- Settles O48: the actions, the countdowns, the marks and the next action of a system, each by its cases. -/
theorem feederActionsAreReached : Obligations.FeederActionsAreReached := by
  refine ⟨⟨fun x i n s => ⟨?_, ?_, ?_, ?_, ?_, ?_, ?_, fun h => State.reach_nothing h x n⟩,
    fun i reason s => ⟨fun h => State.countdownStep_settled h reason, fun h more => State.countdownStep_running h more reason,
      fun f pos h out => State.countdownStep_take h out reason, fun f h out => State.countdownStep_release h out reason⟩,
    fun x s => ?_, fun s => ⟨s.markHeads_same _, fun f hf => ?_⟩⟩, fun i x s => rfl,
    fun i old new s => ⟨rfl, s.remark_empty i old new, s.remark_head i old new⟩,
    fun i s => ⟨fun h => State.nextAction_empty h i, fun h rest e => ⟨State.nextAction_noEntry e, fun d x l split own first => ?_⟩⟩⟩
  · intro f rail pos next parked apart
    rw [State.reach_take next parked, if_neg fun hit => apart hit.1]
  · intro f rail pos next parked here busy
    rw [State.reach_take next parked, if_neg fun hit => busy hit.2]
  · intro f rail pos next parked here opened low
    rw [State.reach_take next parked, if_pos ⟨here, opened⟩, State.driveTake_low low]
  · intro f rail pos next parked here opened high
    rw [State.reach_take next parked, if_pos ⟨here, opened⟩, State.driveTake_high high]
  · intro f y next apart
    rw [State.reach_release next, if_neg apart]
  · intro f y next here held
    rw [State.reach_release next, if_pos here, if_pos held]
    rfl
  · intro f y next here other
    rw [State.reach_release next, if_pos here, if_neg other]
  · intro judged
    have whole : s.countdowns = judged.1.abortFor judged.2 := rfl
    refine ⟨fun none => ?_, fun reason some => ?_, fun ended => ?_, fun going => ?_, fun few more => ?_⟩
    · rw [whole, none]
      rfl
    · rw [whole, some]
      rfl
    · refine if_neg ?_
      rw [State.passInProgress_iff, not_not]
      exact ended
    · refine (if_pos (s.countdowns.passInProgress_iff.mpr going)).trans ?_
      have systems : s.countdowns.systems = s.systems := State.systems_congr (RunFrame.countdowns s).settings
      rw [State.fitted, systems]
      rfl
    · have counted : CountedDown s s.systems judged := CountedDown.range s.systems few more
      rw [whole, counted.noReason]
      refine ⟨counted.same, fun i hi out => (counted.latches i).trans (if_pos ⟨hi, out⟩), fun i rest => (counted.latches i).trans (if_neg ?_)⟩
      rintro ⟨below, out⟩
      rcases rest with past | settled
      · omega
      · exact Bool.false_ne_true (settled.symm.trans out)
  · refine (s.markHeads_head _ hf).trans (if_congr ?_ rfl rfl)
    rw [State.mem_carriedFeeders]
    exact and_iff_right hf
  · rw [State.nextAction_entry e split own first]
    refine ⟨fun none => ?_, fun before a after actions earlier mark => ?_⟩
    · rw [List.find?_eq_none.mpr fun a ha => by simp [none a ha]]
      rfl
    · rw [actions, find?_of_first (fun b hb => by simp [earlier b hb]) (by simp [mark])]
      rfl

end Sys2Proof.Machine

/-! SUPPORT. The yarn monitor: sweeps, polls, the spike of the tension, and head writes. -/

namespace Sys2Proof.Machine

/-! ### Sweeps (R126, R129 to R131) -/

theorem State.newSweep_write {s : State} (h : s.yarn.pendingWrite ≠ none) : s.newSweep = some (Sweep.mk (some .write) s.carriedFeeders) := by
  obtain ⟨w, e⟩ := Option.ne_none_iff_exists'.mp h
  rw [State.newSweep, e]

theorem State.newSweep_polls {s : State} (h : s.yarn.pendingWrite = none) :
    s.newSweep = if s.carriedFeeders = [] then none else some (Sweep.mk none s.carriedFeeders) := by
  rw [State.newSweep, h]

theorem exec_sweepTimerExpiry_running {s : State} (h : s.yarn.sweep ≠ none) :
    exec .sweepTimerExpiry s = .next (s.setYarn { s.yarn with sweepTimer := s.sweepInterval, sweep := s.yarn.sweep }) := by
  obtain ⟨w, e⟩ := Option.ne_none_iff_exists'.mp h
  show Host.Outcome.next _ = _
  rw [e]

theorem exec_sweepTimerExpiry_starts {s : State} (h : s.yarn.sweep = none) :
    exec .sweepTimerExpiry s = .next (s.setYarn { s.yarn with sweepTimer := s.sweepInterval, sweep := s.newSweep }) := by
  show Host.Outcome.next _ = _
  rw [h]

theorem exec_pollStart_due {s : State} {rest : List Nat} (h : s.yarn.sweep = some (Sweep.mk none rest)) :
    exec .pollStart s = .next (s.startPoll rest) := by
  show Host.Outcome.next _ = _
  rw [h]

theorem exec_pollStart_noSweep {s : State} (h : s.yarn.sweep = none) : exec .pollStart s = .next s := by
  show Host.Outcome.next _ = _
  rw [h]

/-- Settles O50: the timer restarts and starts a sweep where none is in progress; a poll begins at the first carried feeder. -/
theorem sweepRunsOverCarriedFeeders : Obligations.SweepRunsOverCarriedFeeders := by
  intro s started
  refine ⟨s.mem_carriedFeeders, exec_sweepTimerExpiry_running, fun none write => ?_, fun none noWrite some => ?_,
    fun none noWrite empty => ?_, fun skipped f later sweep before carried => ?_, fun rest sweep gone => ?_, exec_pollStart_noSweep⟩
  · rw [exec_sweepTimerExpiry_starts none, State.newSweep_write write]
  · rw [exec_sweepTimerExpiry_starts none, State.newSweep_polls noWrite, if_neg some]
  · rw [exec_sweepTimerExpiry_starts none, State.newSweep_polls noWrite, if_pos empty]
  · rw [exec_pollStart_due sweep, State.startPoll_next s skipped f later before carried]
  · rw [exec_pollStart_due sweep, State.startPoll_none s rest gone]

/-! ### Poll outcomes (R134 to R137) -/

/-- R126, R131: the end of the poll of head f, whose record becomes h. -/
def State.polled (s : State) (f : Nat) (rest : List Nat) (h : HeadRecord) : State := { s with yarn := { s.yarn with
  heads := s.yarn.heads.setIfInBounds f h
  gap := 200
  sweep := if rest = [] then none else some (Sweep.mk none rest) } }

theorem State.polled_unchanged (s : State) (f : Nat) (rest : List Nat) : s.polled f rest (s.head f) = s.endTransaction rest := by
  have same : s.yarn.heads.setIfInBounds f (s.head f) = s.yarn.heads := setIfInBounds_getD_self _ _ _
  rw [State.polled, same]
  rfl

section Poll
variable {s : State} {f : Nat} {cut : Bool} {rest : List Nat}

theorem exec_pollEnd_discarded (sweep : s.yarn.sweep = some (Sweep.mk (some (.poll f cut true)) rest)) (o : PollOutcome) :
    exec (.pollEnd o) s = .next (s.polled f rest (s.head f)) := by
  rw [State.polled_unchanged]
  show Host.Outcome.next _ = _
  rw [sweep]
  rfl

theorem exec_pollEnd_taken (sweep : s.yarn.sweep = some (Sweep.mk (some (.poll f cut false)) rest)) (o : PollOutcome) :
    exec (.pollEnd o) s = .next ((s.endTransaction rest).applyOutcome f cut o) := by
  show Host.Outcome.next _ = _
  rw [sweep]
  rfl

/-- R135, R136: a silent outcome, with its silent run. -/
theorem exec_pollEnd_silent (sweep : s.yarn.sweep = some (Sweep.mk (some (.poll f cut false)) rest)) (how : SilentOutcome) {k : Nat}
    (run : (if (s.head f).silentRun < s.silentLimit then (s.head f).silentRun + 1 else s.silentLimit) = k) :
    exec (.pollEnd (.silent how)) s = .next (
      let t := s.polled f rest { s.head f with silentRun := k, travel := (s.head f).travel || cut }
      if (s.head f).silentRun < s.silentLimit ∧ k = s.silentLimit then t.raise (.headSilent (f + 1) how) else t) := by
  rw [exec_pollEnd_taken sweep, ← run]
  rfl

/-- R134, R137: a GOOD outcome up to the judgement of the motion. -/
def State.heard (s : State) (f : Nat) (rest : List Nat) (motion : BitVec 8) (tension : BitVec 10) (k : Nat) : State :=
  s.polled f rest { s.head f with silentRun := 0, stillRun := k, lastMotion := some motion, lastTension := some tension }

theorem exec_pollEnd_good (sweep : s.yarn.sweep = some (Sweep.mk (some (.poll f cut false)) rest)) (motion : BitVec 8)
    (tension : BitVec 10) {k : Nat} (run : nextStill s.stopSweeps cut motion.toNat (s.head f).stillRun = k) :
    exec (.pollEnd (.good motion tension)) s = .next (
      let t := s.heard f rest motion tension k
      let u := if (s.head f).stillRun < s.stopSweeps ∧ k = s.stopSweeps then t.raise (.yarnStop (f + 1)) else t
      if (u.feeder f).carried then u.applyTension f tension.toNat else u) := by
  rw [exec_pollEnd_taken sweep, ← run]
  rfl

/-- R137: the still run does not reach its limit, and the tension is judged at once. -/
theorem exec_pollEnd_quiet (sweep : s.yarn.sweep = some (Sweep.mk (some (.poll f cut false)) rest)) (carried : (s.feeder f).carried = true)
    {motion : BitVec 8} {tension : BitVec 10} {k : Nat} (run : nextStill s.stopSweeps cut motion.toNat (s.head f).stillRun = k)
    (quiet : ¬ ((s.head f).stillRun < s.stopSweeps ∧ k = s.stopSweeps)) :
    exec (.pollEnd (.good motion tension)) s = .next ((s.heard f rest motion tension k).applyTension f tension.toNat) := by
  rw [exec_pollEnd_good sweep motion tension run]
  dsimp only
  rw [if_neg quiet]
  exact congrArg _ (if_pos carried)

/-- R137: the still run reaches its limit. -/
theorem exec_pollEnd_stop (sweep : s.yarn.sweep = some (Sweep.mk (some (.poll f true false)) rest)) (tension : BitVec 10)
    (reaches : (s.head f).stillRun + 1 = s.stopSweeps) :
    exec (.pollEnd (.good 0 tension)) s = .next (
      let u := (s.heard f rest 0 tension s.stopSweeps).raise (.yarnStop (f + 1))
      if (u.feeder f).carried then u.applyTension f tension.toNat else u) := by
  have below : (s.head f).stillRun < s.stopSweeps := by omega
  have run : nextStill s.stopSweeps true (0 : BitVec 8).toNat (s.head f).stillRun = s.stopSweeps := by
    simp [nextStill, below, reaches]
  rw [exec_pollEnd_good sweep 0 tension run]
  have stops : (if (s.head f).stillRun < s.stopSweeps ∧ s.stopSweeps = s.stopSweeps then
      (s.heard f rest 0 tension s.stopSweeps).raise (.yarnStop (f + 1)) else s.heard f rest 0 tension s.stopSweeps)
      = (s.heard f rest 0 tension s.stopSweeps).raise (.yarnStop (f + 1)) := if_pos ⟨below, rfl⟩
  dsimp only
  rw [stops]

end Poll

theorem BitVec.toNat_ne_zero {n : Nat} {v : BitVec n} (h : v ≠ 0) : v.toNat ≠ 0 :=
  fun zero => h (BitVec.eq_of_toNat_eq (by simpa using zero))

/-- R119, R132: what a routed YARN_STOP makes of the feeder polled, by the bond it stood in. -/
theorem State.LatchLaw.resolveAll_carried {s : State} (law : s.LatchLaw) (f : Nat) :
    (∀ rail i, s.feeder f = .coupled rail i → s.resolveAll.feeder f = s.feeder f)
    ∧ (∀ rail i, s.feeder f = .taking rail i → ∃ pos, s.resolveAll.feeder f = .parked rail pos)
    ∧ ∀ rail i x, s.feeder f = .releasing rail i x → s.resolveAll.feeder f = .faulted rail := by
  refine ⟨fun rail i coupled => law.resolveAll_leaves (by simp [coupled]) (by simp [coupled]), fun rail i taking => ?_,
    fun rail i x releasing => ?_⟩
  · have small : i < 4 := law.system f i ⟨rail, 0, .inl taking⟩
    obtain ⟨pos, closing⟩ := (law.taking i small f).mp ⟨rail, taking⟩
    refine ⟨pos, (law.resolveAll_closing closing).2.trans ?_⟩
    rw [taking]
    rfl
  · have small : i < 4 := law.system f i ⟨rail, x, .inr (.inr releasing)⟩
    have opening := (law.releasing i small f).mp ⟨rail, x, releasing⟩
    refine (law.resolveAll_opening opening).2.trans ?_
    rw [releasing]
    rfl

/-- Settles O51: the silent and the still run by the cases of R135 and R137, and the YARN_STOP that aborts a pass. -/
theorem pollsDriveSilentAndStillRuns : Obligations.PollsDriveSilentAndStillRuns := by
  refine ⟨⟨fun f cut disc rest s sweep hf => ?_, fun f cut motion tension rest s sweep hf carried => ?_⟩,
    fun f cut motion tension rest s sweep hf carried still travels reaches => ?_⟩
  · intro next h
    refine ⟨fun o gone => ?_, fun how taken below => ?_, fun how taken reaches => ?_, fun how taken full => ?_⟩
    · rw [gone] at sweep
      exact exec_pollEnd_discarded sweep o
    · rw [taken] at sweep
      rw [exec_pollEnd_silent sweep how (if_pos (show h.silentRun < s.silentLimit by omega))]
      exact congrArg _ (if_neg fun hit => Nat.ne_of_lt below hit.2)
    · rw [taken] at sweep
      have low : h.silentRun < s.silentLimit := by omega
      rw [exec_pollEnd_silent sweep how ((if_pos low).trans reaches)]
      exact congrArg _ (if_pos ⟨low, rfl⟩)
    · rw [taken] at sweep
      have top : ¬ h.silentRun < s.silentLimit := by omega
      rw [exec_pollEnd_silent sweep how ((if_neg top).trans full.symm)]
      exact congrArg _ (if_neg fun hit => top hit.1)
  · intro h next
    refine ⟨fun moves limit => ?_, fun still rests within => ?_, fun still travels below => ?_, fun still travels reaches noPass => ?_,
      fun still travels full => ?_⟩
    · exact exec_pollEnd_quiet sweep carried (if_neg (BitVec.toNat_ne_zero moves)) fun hit => limit hit.2.symm
    · subst still rests
      exact exec_pollEnd_quiet sweep carried rfl fun hit => Nat.ne_of_lt hit.1 hit.2
    · subst still travels
      exact exec_pollEnd_quiet sweep carried (if_pos (show h.stillRun < s.stopSweeps by omega)) fun hit => Nat.ne_of_lt below hit.2
    · subst still travels
      rw [exec_pollEnd_stop sweep tension reaches, State.raise_noPass (s := s.heard f rest 0 tension s.stopSweeps) noPass]
      exact congrArg _ ((if_pos carried).trans (congrArg (fun u : State => u.applyTension f tension.toNat)
        (State.raise_noPass (s := s.heard f rest 0 tension s.stopSweeps) noPass _).symm))
    · subst still travels
      exact exec_pollEnd_quiet sweep carried (if_neg (show ¬ h.stillRun < s.stopSweeps by omega)) fun hit => Nat.ne_of_lt hit.1 full
  · subst still travels
    intro next u
    have run := exec_pollEnd_stop sweep tension reaches
    have head : next.head f = { s.head f with
        silentRun := 0, stillRun := s.stopSweeps, lastMotion := some 0, lastTension := some tension } :=
      (getD_setIfInBounds s.yarn.heads f f _ _).trans (if_pos ⟨rfl, hf⟩)
    refine ⟨fun stays => run.trans (congrArg _ (if_pos stays)), fun leaves => ?_, fun quiet => ?_, fun law pass routed => ?_⟩
    · obtain ⟨ended, reset⟩ := next.raise_leaves (.yarnStop (f + 1)) f hf carried leaves
      refine ⟨run.trans (congrArg _ (if_neg fun stays => Bool.false_ne_true (leaves.symm.trans stays))), ended, reset.trans ?_⟩
      rw [head]
      rfl
    · have noted : u = next.noteRaise (.yarnStop (f + 1)) := by
        rcases quiet with noPass | ⟨unrouted, room⟩
        · exact State.raise_noPass (s := next) noPass _
        · exact State.raise_quiet (s := next) room _ rfl unrouted
      rw [noted]
      rfl
    · have handed : u = (next.noteRaise (.yarnStop (f + 1))).abortPass (.routed .yarnStop) := State.raise_routed rfl routed
      obtain ⟨p, going⟩ := Option.ne_none_iff_exists'.mp pass
      obtain ⟨feeders, -⟩ := State.abortPass_parts (s := next.noteRaise (.yarnStop (f + 1))) going (.routed .yarnStop)
      have feeder : u.feeder f = (next.noteRaise (.yarnStop (f + 1))).resolveAll.feeder f := by
        rw [handed, State.feeder, feeders]
        rfl
      rw [feeder]
      exact ⟨handed, State.LatchLaw.resolveAll_carried (s := next.noteRaise (.yarnStop (f + 1))) (law.same rfl) f⟩

/-! ### The tension (R138 to R140) -/

section Tension
variable {s : State} {f tension : Nat} {p : Spike}

theorem State.applyTension_quiet (h : s.nextSpike (f + 1) tension (s.head f).spike = (p, none)) :
    s.applyTension f tension = s.putHead f { s.head f with spike := p } := by
  rw [State.applyTension, h]

theorem State.applyTension_raises {d : Detail} (h : s.nextSpike (f + 1) tension (s.head f).spike = (p, some d)) :
    s.applyTension f tension = (s.putHead f { s.head f with spike := p }).raise d := by
  rw [State.applyTension, h]

theorem State.nextSpike_high (h : s.knotLevel < tension) (head : Nat) (old : Spike) : s.nextSpike head tension old = match old with
    | .calm => (.rising 1, none)
    | .rising k => if s.shockSweeps < k + 1 then (.snagged, some (.yarnSnag head tension)) else (.rising (k + 1), none)
    | .settling _ => (.rising 1, none)
    | .snagged => (.snagged, none) :=
  if_pos h

theorem State.nextSpike_calm (h : tension ≤ s.knotLevel) (head : Nat) (old : Spike) : s.nextSpike head tension old = match old with
    | .calm => (.calm, none)
    | .rising _ => if s.quietSweeps ≤ 1 then (.calm, some (.yarnKnot head)) else (.settling 1, none)
    | .settling j => if s.quietSweeps ≤ j + 1 then (.calm, some (.yarnKnot head)) else (.settling (j + 1), none)
    | .snagged => (.calm, none) :=
  if_neg (Nat.not_lt.mpr h)

end Tension

/-- Settles O52: the spike by its state, above the knot level and at or below it. -/
theorem tensionDrivesTheSpike : Obligations.TensionDrivesTheSpike := by
  intro f tension s hf put high calm
  refine ⟨fun h e => ?_, fun k h e within => ?_, fun k h e past => ?_, fun j h e => ?_, fun h e => ?_, fun h e => ?_,
    fun k h e long => ?_, fun k h e short => ?_, fun j h e long => ?_, fun j h e short => ?_, fun h e => ?_⟩
  · exact State.applyTension_quiet (by rw [State.nextSpike_high h, e])
  · exact State.applyTension_quiet (by rw [State.nextSpike_high h, e]; exact if_neg (Nat.not_lt.mpr within))
  · exact State.applyTension_raises (by rw [State.nextSpike_high h, e]; exact if_pos past)
  · exact State.applyTension_quiet (by rw [State.nextSpike_high h, e])
  · exact State.applyTension_quiet (by rw [State.nextSpike_high h, e])
  · exact State.applyTension_quiet (by rw [State.nextSpike_calm h, e])
  · exact State.applyTension_quiet (by rw [State.nextSpike_calm h, e]; exact if_neg (Nat.not_le.mpr long))
  · exact State.applyTension_raises (by rw [State.nextSpike_calm h, e]; exact if_pos short)
  · exact State.applyTension_quiet (by rw [State.nextSpike_calm h, e]; exact if_neg (Nat.not_le.mpr long))
  · exact State.applyTension_raises (by rw [State.nextSpike_calm h, e]; exact if_pos short)
  · exact State.applyTension_quiet (by rw [State.nextSpike_calm h, e])

/-! ### Head writes (R141, R142) -/

theorem exec_headWrite {s t : State} {a : Answer} (h : s.listening) {k i v0 v1 : Byte}
    (o : State.holdWrite (HeadWrite.mk k.toNat i.toNat (v0.toNat + 256 * v1.toNat)) s = (t, a)) :
    exec (.headWrite [k, i, v0, v1]) s = .next (t.sendReply (kindByte 0x14) a) :=
  congrArg _ (State.addressed_answer h _ rfl o)

/-- R142: the end of a head write. -/
theorem exec_headWriteEnd_eq {s : State} {w : HeadWrite} {rest : List Nat} (sweep : s.yarn.sweep = some (Sweep.mk (some .write) rest))
    (write : s.yarn.pendingWrite = some w) (o : WriteOutcome) : exec (.headWriteEnd o) s
      = .next (((s.setYarn { s.yarn with pendingWrite := none }).endTransaction rest).log (.headWriteDone w.head o)) := by
  show Host.Outcome.next _ = _
  rw [sweep, write]
  rfl

/-- Settles O53: the write is refused, or held until its end is logged. -/
theorem headWriteIsHeldUntilItsEnd : Obligations.HeadWriteIsHeldUntilItsEnd := by
  refine ⟨fun h i v0 v1 s listening => ?_, fun o w rest s sweep write room => ?_⟩
  · intro v outside
    refine ⟨fun out => exec_headWrite listening (if_pos out), fun inside busy => exec_headWrite listening ?_,
      fun inside free => exec_headWrite listening ?_⟩
    · exact (if_neg inside).trans (if_pos (Option.isSome_iff_ne_none.mpr busy))
    · exact (if_neg inside).trans (if_neg (by rw [free]; exact Bool.false_ne_true))
  · rw [exec_headWriteEnd_eq sweep write]
    exact congrArg _ (State.log_room (s := (s.setYarn { s.yarn with pendingWrite := none }).endTransaction rest) room _)

end Sys2Proof.Machine

/-! SUPPORT. The checks of admission in the order of their numbers (R45 to R56). -/

namespace Sys2Proof.Machine

/-! ### What a check that fails says -/

/-- A rejection with a result code, and with a locator that names a system, a feeder, both or none. -/
def Refuses (o : Option Rejection) (code : ResultCode) (system feeder : Bool) : Prop :=
  ∃ j, o = some j ∧ j.result = code ∧ j.locator.system.isSome = system ∧ j.locator.feeder.isSome = feeder

theorem Refuses.or {o p : Option Rejection} {code : ResultCode} {system feeder : Bool} (h : Refuses o code system feeder) :
    Refuses (o.or p) code system feeder := by
  obtain ⟨j, rfl, said⟩ := h
  exact ⟨j, rfl, said⟩

theorem eq_none_of_not {α : Type} {o : Option α} {P : Prop} (h : o ≠ none ↔ P) (n : ¬ P) : o = none :=
  not_not.mp (mt h.mp n)

theorem rejectSystem_refuses {o : Option Rejection} {code : ResultCode} (some' : o ≠ none) (h : ∀ j, o = some j → ∃ i, j = rejectSystem code i) :
    Refuses o code true false := by
  obtain ⟨j, e⟩ := Option.ne_none_iff_exists'.mp some'
  obtain ⟨i, rfl⟩ := h j e
  exact ⟨_, e, rfl, rfl, rfl⟩

section Checks
variable {s : State} {r : PassRecord}

theorem State.checkRoom_refuses (h : s.checkRoom ≠ none) : Refuses s.checkRoom .queueFull false false := by
  have full := s.checkRoom_iff.mp h
  exact ⟨_, if_pos full, rfl, rfl, rfl⟩

theorem badSystem_refuses {n : Nat} {es : List SystemEntry} (h : badSystem n [] es ≠ none) :
    Refuses (badSystem n [] es) .badSystem true false :=
  rejectSystem_refuses h (badSystem_iff n [] es).2

theorem State.checkRacking_refuses (h : s.checkRacking r ≠ none) : Refuses (s.checkRacking r) .rackRange false false := by
  have over_ : s.maxRack < r.racking ∨ s.maxRack < -r.racking := by
    rcases (s.checkRacking_iff r).mp h with low | high
    · exact .inr (by omega)
    · exact .inl high
  exact ⟨_, if_pos over_, rfl, rfl, rfl⟩

theorem State.checkSealed_refuses (h : s.checkSealed r ≠ none) : Refuses (s.checkSealed r) .lineNotSealed true false :=
  rejectSystem_refuses h (firstChannel_iff _ _ _).2

theorem State.checkRange_refuses (h : s.checkRange r ≠ none) : Refuses (s.checkRange r) .range true false :=
  rejectSystem_refuses h (firstChannel_iff _ _ _).2

theorem State.checkCodes_refuses (h : s.checkCodes r ≠ none) : Refuses (s.checkCodes r) .codeMode true false :=
  rejectSystem_refuses h (firstChannel_iff _ _ _).2

/-- R52: what its locator names is open. -/
theorem checkCycle_refuses (h : checkCycle r ≠ none) : ∃ j, checkCycle r = some j ∧ j.result = .cycleFeeder := by
  unfold checkCycle at h ⊢
  by_cases cycle : r.cycle = true
  · rw [if_pos cycle] at h ⊢
    cases e : r.placedActions with
    | nil =>
      rw [e] at h
      exact absurd rfl h
    | cons a as => exact ⟨_, rfl, rfl⟩
  · rw [if_neg cycle] at h
    exact absurd rfl h

theorem Projection.walk_refuses {p : Projection} {hs : Vector (Option Nat) 4} {before as : List PlacedAction} (h : p.walk hs before as ≠ none) :
    Refuses (p.walk hs before as) .feederState true true := by
  obtain ⟨j, e⟩ := Option.ne_none_iff_exists'.mp h
  obtain ⟨i, f, rfl⟩ := (p.walk_iff hs before as).2 j e
  exact ⟨_, e, rfl, rfl, rfl⟩

theorem State.checkOnPath_refuses (h : s.checkOnPath r ≠ none) : Refuses (s.checkOnPath r) .offPath true true := by
  obtain ⟨j, e⟩ := Option.ne_none_iff_exists'.mp h
  obtain ⟨a, -, rfl⟩ := Option.map_eq_some_iff.mp e
  exact ⟨_, e, rfl, rfl, rfl⟩

theorem State.checkSpacing_refuses (h : s.checkSpacing r ≠ none) : Refuses (s.checkSpacing r) .actionOrder true false := by
  obtain ⟨j, e⟩ := Option.ne_none_iff_exists'.mp h
  obtain ⟨a, -, rfl⟩ := Option.map_eq_some_iff.mp e
  exact ⟨_, e, rfl, rfl, rfl⟩

theorem checkShared_refuses {cs : List Carried} (h : checkShared cs ≠ none) : Refuses (checkShared cs) .railShared false true := by
  obtain ⟨j, e⟩ := Option.ne_none_iff_exists'.mp h
  obtain ⟨a, -, rfl⟩ := Option.map_eq_some_iff.mp e
  exact ⟨_, e, rfl, rfl, rfl⟩

theorem checkBlocked_refuses {p : Projection} {taken : List Nat} {cs : List Carried} (h : checkBlocked p taken cs ≠ none) :
    Refuses (checkBlocked p taken cs) .railBlocked false true := by
  obtain ⟨j, e⟩ := Option.ne_none_iff_exists'.mp h
  obtain ⟨a, -, rfl⟩ := Option.map_eq_some_iff.mp e
  exact ⟨_, e, rfl, rfl, rfl⟩

end Checks

/-! ### The path positions (R53, R55) -/

/-- R53: the path position of an action, a TAKE's where its feeder is parked. -/
def Projection.standsAt (p : Projection) (a : MarkedAction) (x : Int) : Prop :=
  match a.act with
  | .take f => ∃ rail, p.feeder f = .parked rail x
  | .release _ y => x = y

theorem Projection.standsAt_eq {p : Projection} {a : MarkedAction} {x : Int} (h : p.standsAt a x) : p.pathPosition a.act = x := by
  unfold Projection.standsAt at h
  cases e : a.act with
  | take f =>
    rw [e] at h
    obtain ⟨rail, parked⟩ := h
    exact congrArg ProjFeeder.pos parked
  | release f y =>
    rw [e] at h
    exact h.symm

/-- R54: an action that does not fail where the walk reaches it stands at its path position. -/
theorem Projection.standsAt_of_passes {p : Projection} {i : Nat} {before : List MarkedAction} {a : MarkedAction}
    (h : ¬ p.actionFails i before a.act) : p.standsAt a (p.pathPosition a.act) := by
  unfold Projection.standsAt
  cases e : a.act with
  | take f =>
    rw [e] at h
    have parked : ¬ ∀ rail x, p.feeder f ≠ .parked rail x := fun none => h (.inr (.inl none))
    simp only [not_forall, not_not] at parked
    obtain ⟨rail, x, parked⟩ := parked
    exact ⟨rail, by rw [Projection.pathPosition, parked]; rfl⟩
  | release f y => rfl

/-- R54: every TAKE of a record whose walk passes finds its feeder parked. -/
theorem Projection.parked_of_passes {p : Projection} {r : PassRecord}
    (h : ¬ ∃ e ∈ r.entries, ∃ before a after, e.actions = before ++ a :: after ∧ p.actionFails e.system before a.act) :
    ∀ e ∈ r.entries, ∀ a ∈ e.actions, ∀ f, a.act = .take f → ∃ rail x, p.feeder f = .parked rail x := by
  intro e he a ha f take
  obtain ⟨before, after, split⟩ := List.append_of_mem ha
  have passes : ¬ p.actionFails e.system before a.act := fun fails => h ⟨e, he, before, a, after, split, fails⟩
  have stands := Projection.standsAt_of_passes passes
  rw [Projection.standsAt, take] at stands
  obtain ⟨rail, parked⟩ := stands
  exact ⟨rail, _, parked⟩

/-- R55: the spacing in the path positions of the two actions. -/
theorem State.checkSpacing_positions {s : State} {r : PassRecord}
    (h : ¬ ∃ e ∈ r.entries, ∃ before a after, e.actions = before ++ a :: after ∧ s.queue.proj.actionFails e.system before a.act) :
    s.checkSpacing r ≠ none ↔ ∃ e ∈ r.entries, ∃ a b x y, e.actions = [a, b] ∧ s.queue.proj.standsAt a x
      ∧ s.queue.proj.standsAt b y ∧ (y - x) * r.direction.sign < s.confirmNeedles := by
  rw [State.checkSpacing_iff]
  constructor
  · rintro ⟨e, he, a, b, actions, close⟩
    have first : ¬ s.queue.proj.actionFails e.system [] a.act := fun fails => h ⟨e, he, [], a, [b], actions, fails⟩
    have second : ¬ s.queue.proj.actionFails e.system [a] b.act := fun fails => h ⟨e, he, [a], b, [], actions, fails⟩
    exact ⟨e, he, a, b, _, _, actions, Projection.standsAt_of_passes first, Projection.standsAt_of_passes second, close⟩
  · rintro ⟨e, he, a, b, x, y, actions, first, second, close⟩
    refine ⟨e, he, a, b, actions, ?_⟩
    rw [Projection.standsAt_eq first, Projection.standsAt_eq second]
    exact close

/-- Settles O34: the first check that fails refuses the record, and one that fails none is admitted. -/
theorem admittedRecordPassesTheChecks : Obligations.AdmittedRecordPassesTheChecks := by
  intro r s few law p pathPosition full badSystems rackOver notSealed outOfRange codesBarred cyclesFeeders actionsFail offPath tooClose refused
  have room := s.checkRoom_iff
  have systems := badSystem_nil_iff s.systems r.entries
  have racking := s.checkRacking_iff r
  have sealed_ := s.checkSealed_iff r
  have range (h : ¬ notSealed) := s.checkRange_iff r h
  have codes (h : ¬ badSystems) := s.checkCodes_iff r fun idle => h (.inr (.inr idle))
  have cycle := checkCycle_iff r
  have named (h : ¬ badSystems) (e : SystemEntry) (he : e ∈ r.entries) : e.system < s.systems :=
    Nat.not_le.mp fun past => h (.inl ⟨e, he, past⟩)
  have walk (h : ¬ badSystems) : p.walk p.holders [] r.placedActions ≠ none ↔ actionsFail :=
    Projection.walk_fails_iff r p (not_not.mp fun twice => h (.inr (.inl twice))) fun e he => Nat.lt_of_lt_of_le (named h e he) few
  have onPath := s.checkOnPath_iff r
  have spacing (h : ¬ actionsFail) : s.checkSpacing r ≠ none ↔ tooClose := State.checkSpacing_positions fun fails => h (.inr fails)
  have carried (h : ¬ badSystems) (k : ¬ actionsFail) := s.mem_carriedBy_iff r (named h) (fun twice => k (.inl twice))
    (Projection.parked_of_passes fun fails => k (.inr fails))
  have shared (h : ¬ badSystems) (k : ¬ actionsFail) := s.checkShared_iff r law (carried h k)
  have blocked (h : ¬ badSystems) (k : ¬ actionsFail) := s.checkBlocked_iff r law (carried h k)
  refine ⟨fun h => ?_, fun h1 h => ?_, fun h1 h2 h => ?_, fun h1 h2 h3 h => ?_, fun h1 h2 h3 h4 h => ?_, fun h1 h2 h3 h4 h5 h => ?_,
    fun h1 h2 h3 h4 h5 h6 h => ?_, fun h1 h2 h3 h4 h5 h6 h7 => ?_⟩
  · exact (State.checkRoom_refuses (room.mpr h)).or
  all_goals simp only [refused, State.admission, eq_none_of_not room h1, Option.none_or]
  · exact (badSystem_refuses (systems.mpr h)).or
  all_goals simp only [eq_none_of_not systems h2, Option.none_or]
  · exact (State.checkRacking_refuses (racking.mpr h)).or
  all_goals simp only [eq_none_of_not racking h3, Option.none_or]
  · exact (State.checkSealed_refuses (sealed_.mpr h)).or
  all_goals simp only [eq_none_of_not sealed_ h4, Option.none_or]
  · exact (State.checkRange_refuses ((range h4).mpr h)).or
  all_goals simp only [eq_none_of_not (range h4) h5, Option.none_or]
  · exact (State.checkCodes_refuses ((codes h2).mpr h)).or
  all_goals simp only [eq_none_of_not (codes h2) h6, Option.none_or]
  · obtain ⟨j, e, code⟩ := checkCycle_refuses (cycle.mpr h)
    exact ⟨j, by rw [e]; rfl, code⟩
  simp only [eq_none_of_not cycle h7, Option.none_or]
  refine ⟨fun h => ?_, fun h8 h => ?_, fun h8 h9 h => ?_, fun h8 h9 h10 h => ?_, fun h8 h9 h10 h11 h => ?_, fun h8 h9 h10 h11 h12 => ?_⟩
  · exact (Projection.walk_refuses ((walk h2).mpr h)).or
  all_goals
    have walked : s.queue.proj.walk s.queue.proj.holders [] r.placedActions = none := eq_none_of_not (walk h2) h8
    simp only [walked, Option.none_or]
  · exact (State.checkOnPath_refuses (onPath.mpr h)).or
  all_goals simp only [eq_none_of_not onPath h9, Option.none_or]
  · exact (State.checkSpacing_refuses ((spacing h8).mpr h)).or
  all_goals simp only [eq_none_of_not (spacing h8) h10, Option.none_or]
  · exact (checkShared_refuses ((shared h2 h8).mpr h)).or
  all_goals simp only [eq_none_of_not (shared h2 h8) h11, Option.none_or]
  · exact checkBlocked_refuses ((blocked h2 h8).mpr h)
  · exact eq_none_of_not (blocked h2 h8) h12

end Sys2Proof.Machine

/-! SUPPORT. The records of the queries, field by field (section 8.8.3). -/

namespace Sys2Proof.Machine

/-! ### Bits and fields by their place -/

/-- R181: the bits of a byte, each by its fact. -/
theorem bitsAt_of_facts {l : List Bool} {ps : List Prop} (bs : List Byte) (small : l.length ≤ 8)
    (facts : List.Forall₂ (fun (b : Bool) (p : Prop) => b = true ↔ p) l ps) : bitsAt (bitsByte l :: bs) 0 ps :=
  bitsAt_bitsByte l ps bs small facts.length_eq fun _ h1 h3 => facts.get h1 h3

/-- The facts of the bits themselves. -/
theorem facts_self (l : List Bool) : List.Forall₂ (fun (b : Bool) (p : Prop) => b = true ↔ p) l (l.map fun b => b = true) := by
  induction l with
  | nil => exact .nil
  | cons b l ih => exact .cons Iff.rfl ih

theorem bitsAt_self (l : List Bool) (bs : List Byte) (small : l.length ≤ 8) : bitsAt (bitsByte l :: bs) 0 (l.map fun b => b = true) :=
  bitsAt_of_facts bs small (facts_self l)

/-- A field of zeros. -/
theorem fieldAt_of_zeros {b : List Byte} {i n : Nat} (h : (b.drop i).take n = bytesOf n 0) : fieldAt b i n = 0 :=
  (fieldAt_of_natBytes (v := 0) h).trans (Nat.zero_mod _)

theorem flatMap_length {α : Type} (l : List α) (g : α → List Byte) (n : Nat) (h : ∀ a, (g a).length = n) :
    (l.flatMap g).length = n * l.length := by
  induction l with
  | nil => rfl
  | cons a l ih => rw [List.flatMap_cons, List.length_append, h, ih, List.length_cons, Nat.mul_succ, Nat.add_comm]

/-- The k-th of the records that follow a prefix. -/
theorem recordAt_of {α : Type} {b pre post : List Byte} {l : List α} {g : α → List Byte} {n i k : Nat} {a : α}
    (h : b = pre ++ l.flatMap g ++ post) (hp : pre.length = i) (hg : ∀ a, (g a).length = n) (hk : l[k]? = some a) :
    recordAt b i n k = g a := by
  obtain ⟨inside, rfl⟩ := List.getElem?_eq_some_iff.mp hk
  rw [h, recordAt_flatMap pre post l g n i hp (fun a _ => hg a) k inside]

theorem toList_getElem? {α : Type} {n : Nat} (v : Vector α n) (d : α) {k : Nat} (h : k < n) : v.toList[k]? = some (v.getD k d) := by
  simp [Vector.getD, h]

theorem RecordState.code_lt_byte (x : RecordState) : x.code < 256 := by cases x <;> simp [RecordState.code]
theorem LatchState.code_lt_byte (l : LatchState) : l.code < 256 := by cases l <;> simp [LatchState.code]
theorem PlanState.code_lt_byte (x : PlanState) : x.code < 256 := by cases x <;> decide

/-! ### The records of the queue (R69) -/

theorem PassRecord.bytes_length (r : PassRecord) : r.bytes.length = 6 := by
  simp [PassRecord.bytes, bytesOf_length]

theorem ProjFeeder.bytes_length (v : ProjFeeder) : v.bytes.length = 6 := by
  cases v <;> simp [ProjFeeder.bytes, bytesOf_length]

theorem holderBytes_length (h : Option Nat) : (holderBytes h).length = 2 := by
  simp [holderBytes, bytesOf_length]

/-- R69: the fields of a queued record. -/
theorem PassRecord.bytes_laidOut (r : PassRecord) : fieldAt r.bytes 0 2 = r.tag.toNat
    ∧ bitsAt r.bytes 2 [(r.direction = .leftward), (r.start = .onGo), r.cycle, ∃ g, r.state = .armed (some g),
        (r.state = .armed (some .goGiven))]
    ∧ signedAt r.bytes 3 1 = Int.bmod r.racking 256 ∧ fieldAt r.bytes 4 1 = r.entries.length % 256
    ∧ fieldAt r.bytes 5 1 = r.state.code := by
  refine ⟨fieldAt_of_bits (by decide) rfl, ?_, signedAt_of_bytes (n := 1) rfl, fieldAt_of_byte rfl, fieldAt_of_code r.state.code_lt_byte rfl⟩
  refine bitsAt_of_facts (bytesOf 1 r.racking ++ bytesOf 1 r.entries.length ++ bytesOf 1 r.state.code) (by simp)
    (.cons decide_eq_true_iff (.cons decide_eq_true_iff (.cons Iff.rfl (.cons ?_ (.cons ?_ .nil)))))
  · cases r.state with
    | armed go => cases go <;> simp
    | queued | active | finishing => simp
  · cases r.state with
    | armed go => simp
    | queued | active | finishing => simp

theorem ProjFeeder.bytes_laidOut (v : ProjFeeder) :
    (v = .undeclared → v.bytes = [0, 0, 0, 0, 0, 0])
    ∧ (∀ rail x, v = .parked rail x → bitsAt v.bytes 0 [true, true, false] ∧ fieldAt v.bytes 1 1 = 1
        ∧ fieldAt v.bytes 2 1 = rail % 256 ∧ signedAt v.bytes 3 2 = Int.bmod x 65536 ∧ fieldAt v.bytes 5 1 = 0)
    ∧ (∀ rail i, v = .coupled rail i → bitsAt v.bytes 0 [true, false, true] ∧ fieldAt v.bytes 1 1 = 3
        ∧ fieldAt v.bytes 2 1 = rail % 256 ∧ fieldAt v.bytes 3 2 = 0 ∧ fieldAt v.bytes 5 1 = i % 256)
    ∧ (∀ rail, v = .faulted rail → bitsAt v.bytes 0 [true, false, false] ∧ fieldAt v.bytes 1 1 = 5
        ∧ fieldAt v.bytes 2 1 = rail % 256 ∧ fieldAt v.bytes 3 2 = 0 ∧ fieldAt v.bytes 5 1 = 0) := by
  refine ⟨?_, fun rail x => ?_, fun rail i => ?_, fun rail => ?_⟩
  · rintro rfl
    rfl
  · rintro rfl
    exact ⟨bitsAt_self [true, true, false] _ (by decide), fieldAt_of_code (by decide) rfl, fieldAt_of_byte rfl, signedAt_of_word rfl,
      fieldAt_of_zeros rfl⟩
  · rintro rfl
    exact ⟨bitsAt_self [true, false, true] _ (by decide), fieldAt_of_code (by decide) rfl, fieldAt_of_byte rfl, fieldAt_of_zeros rfl,
      fieldAt_of_byte rfl⟩
  · rintro rfl
    exact ⟨bitsAt_self [true, false, false] _ (by decide), fieldAt_of_code (by decide) rfl, fieldAt_of_byte rfl, fieldAt_of_zeros rfl,
      fieldAt_of_zeros rfl⟩

theorem holderBytes_laidOut (h : Option Nat) :
    bitsAt (holderBytes h) 0 [h.isSome] ∧ fieldAt (holderBytes h) 1 1 = (h.getD 0) % 256 :=
  ⟨bitsAt_self [h.isSome] _ (by simp), fieldAt_of_byte rfl⟩

/-- The two bytes before the records. -/
def State.queueHeader (s : State) : List Byte := bytesOf 1 s.queue.plan.code ++ bytesOf 1 s.queue.records.length

theorem State.queueRecord_length (s : State) : s.queueRecord.length = 2 + 6 * s.queue.records.length + 96 + 2 * s.systems := by
  simp only [State.queueRecord, List.length_append, bytesOf_length, flatMap_length _ _ _ PassRecord.bytes_length,
    flatMap_length _ _ _ ProjFeeder.bytes_length, flatMap_length _ _ _ fun i => holderBytes_length (s.queue.proj.holder i)]
  simp [State.fitted]

/-- The bytes of the queued records, of the projected feeders and of the projected holders. -/
theorem State.queueRecord_parts (s : State) : s.queueRecord = s.queueHeader ++ s.queue.records.flatMap PassRecord.bytes
    ++ (s.queue.proj.feeders.toList.flatMap ProjFeeder.bytes ++ s.fitted.flatMap fun i => holderBytes (s.queue.proj.holder i)) := by
  simp [State.queueRecord, State.queueHeader]

theorem State.queueRecord_record {s : State} {k : Nat} {r : PassRecord} (h : s.queue.records[k]? = some r) :
    recordAt s.queueRecord 2 6 k = r.bytes :=
  recordAt_of s.queueRecord_parts rfl PassRecord.bytes_length h

theorem State.queueRecord_feeder (s : State) {f : Nat} (h : f < 16) :
    recordAt s.queueRecord (2 + 6 * s.queue.records.length) 6 f = (s.queue.proj.feeder f).bytes := by
  refine recordAt_of (pre := s.queueHeader ++ s.queue.records.flatMap PassRecord.bytes)
    (post := s.fitted.flatMap fun i => holderBytes (s.queue.proj.holder i)) ?_ ?_ ProjFeeder.bytes_length (toList_getElem? _ _ h)
  · rw [s.queueRecord_parts, List.append_assoc, List.append_assoc, List.append_assoc]
  · rw [List.length_append, flatMap_length _ _ _ PassRecord.bytes_length]
    rfl

theorem State.queueRecord_holder (s : State) {i : Nat} (h : i < s.systems) :
    recordAt s.queueRecord (2 + 6 * s.queue.records.length + 96) 2 i = holderBytes (s.queue.proj.holder i) := by
  refine recordAt_of (g := fun i => holderBytes (s.queue.proj.holder i)) (post := [])
    (pre := s.queueHeader ++ s.queue.records.flatMap PassRecord.bytes ++ s.queue.proj.feeders.toList.flatMap ProjFeeder.bytes) ?_ ?_
    (fun i => holderBytes_length _) (List.getElem?_range h)
  · rw [s.queueRecord_parts, List.append_nil, List.append_assoc, List.append_assoc, List.append_assoc, State.fitted]
  · rw [List.length_append, List.length_append, flatMap_length _ _ _ PassRecord.bytes_length,
      flatMap_length _ _ _ ProjFeeder.bytes_length]
    simp [State.queueHeader, bytesOf_length]

/-! ### Feeder and latch records (R124) -/

theorem Feeder.bytes_length (v : Feeder) : v.bytes.length = 8 := by
  cases v <;> simp [Feeder.bytes, bytesOf_length]

theorem latchBytes_length (l : Latch) (sense : Bool) : (latchBytes l sense).length = 7 := by
  simp [latchBytes, bytesOf_length]

theorem Feeder.bytes_laidOut (v : Feeder) :
    (v = .undeclared → v.bytes = [0, 0, 0, 0, 0, 0, 0, 0])
    ∧ (∀ rail x, v = .parked rail x → bitsAt v.bytes 0 [true, true, false, false] ∧ fieldAt v.bytes 1 1 = 1
        ∧ fieldAt v.bytes 2 1 = rail % 256 ∧ signedAt v.bytes 3 2 = Int.bmod x 65536 ∧ fieldAt v.bytes 5 1 = 0 ∧ fieldAt v.bytes 6 2 = 0)
    ∧ (∀ rail i, v = .taking rail i ∨ v = .coupled rail i → bitsAt v.bytes 0 [true, false, true, false]
        ∧ fieldAt v.bytes 1 1 = (if v = .taking rail i then 2 else 3)
        ∧ fieldAt v.bytes 2 1 = rail % 256 ∧ fieldAt v.bytes 3 2 = 0 ∧ fieldAt v.bytes 5 1 = i % 256 ∧ fieldAt v.bytes 6 2 = 0)
    ∧ (∀ rail i x, v = .releasing rail i x → bitsAt v.bytes 0 [true, false, true, true] ∧ fieldAt v.bytes 1 1 = 4
        ∧ fieldAt v.bytes 2 1 = rail % 256 ∧ fieldAt v.bytes 3 2 = 0 ∧ fieldAt v.bytes 5 1 = i % 256
        ∧ signedAt v.bytes 6 2 = Int.bmod x 65536)
    ∧ (∀ rail, v = .faulted rail → bitsAt v.bytes 0 [true, false, false, false] ∧ fieldAt v.bytes 1 1 = 5
        ∧ fieldAt v.bytes 2 1 = rail % 256 ∧ fieldAt v.bytes 3 2 = 0 ∧ fieldAt v.bytes 5 1 = 0 ∧ fieldAt v.bytes 6 2 = 0) := by
  refine ⟨?_, fun rail x => ?_, fun rail i => ?_, fun rail i x => ?_, fun rail => ?_⟩
  · rintro rfl
    rfl
  · rintro rfl
    exact ⟨bitsAt_self [true, true, false, false] _ (by decide), fieldAt_of_code (by decide) rfl, fieldAt_of_byte rfl,
      signedAt_of_word rfl, fieldAt_of_zeros rfl, fieldAt_of_zeros rfl⟩
  · rintro (rfl | rfl)
    · rw [if_pos rfl]
      exact ⟨bitsAt_self [true, false, true, false] _ (by decide), fieldAt_of_code (by decide) rfl, fieldAt_of_byte rfl,
        fieldAt_of_zeros rfl, fieldAt_of_byte rfl, fieldAt_of_zeros rfl⟩
    · rw [if_neg nofun]
      exact ⟨bitsAt_self [true, false, true, false] _ (by decide), fieldAt_of_code (by decide) rfl, fieldAt_of_byte rfl,
        fieldAt_of_zeros rfl, fieldAt_of_byte rfl, fieldAt_of_zeros rfl⟩
  · rintro rfl
    exact ⟨bitsAt_self [true, false, true, true] _ (by decide), fieldAt_of_code (by decide) rfl, fieldAt_of_byte rfl,
      fieldAt_of_zeros rfl, fieldAt_of_byte rfl, signedAt_of_word rfl⟩
  · rintro rfl
    exact ⟨bitsAt_self [true, false, false, false] _ (by decide), fieldAt_of_code (by decide) rfl, fieldAt_of_byte rfl,
      fieldAt_of_zeros rfl, fieldAt_of_zeros rfl, fieldAt_of_zeros rfl⟩

/-- The take position that a latch record carries. -/
def LatchState.takePosition : LatchState → Option Int
  | .closing _ x => some x
  | .opened => none
  | .closed _ => none
  | .opening _ => none

theorem latchBytes_eq (l : Latch) (sense : Bool) : latchBytes l sense
    = bitsByte [l.state.held.isSome, l.state.takePosition.isSome] :: (bytesOf 1 l.state.code ++ bytesOf 1 (l.state.held.getD 0 : Nat)
      ++ bytesOf 2 (l.state.takePosition.getD 0) ++ bytesOf 1 l.countdown ++ [bitsByte [l.state.driveClosed, sense]]) := by
  obtain ⟨state, countdown⟩ := l
  cases state <;> rfl

theorem latchBytes_laidOut (l : Latch) (sense : Bool) : let q := latchBytes l sense
    bitsAt q 0 [l.state.held.isSome, (∃ f x, l.state = .closing f x)] ∧ fieldAt q 1 1 = l.state.code
    ∧ fieldAt q 2 1 = (l.state.held.getD 0) % 256 ∧ (∀ f x, l.state = .closing f x → signedAt q 3 2 = Int.bmod x 65536)
    ∧ ((∀ f x, l.state ≠ .closing f x) → fieldAt q 3 2 = 0) ∧ fieldAt q 5 1 = l.countdown % 256
    ∧ bitsAt q 6 [l.state.driveClosed, sense] := by
  dsimp only
  rw [latchBytes_eq]
  refine ⟨bitsAt_of_facts _ (by simp) (.cons Iff.rfl (.cons ?_ .nil)), fieldAt_of_code l.state.code_lt_byte rfl, fieldAt_of_byte rfl, fun f x e => ?_,
    fun other => ?_, fieldAt_of_byte rfl, bitsAt_self [l.state.driveClosed, sense] [] (by simp)⟩
  · cases l.state <;> simp [LatchState.takePosition]
  · rw [e]
    exact signedAt_of_word rfl
  · have none : l.state.takePosition = none := by
      cases e : l.state with
      | closing f x => exact absurd e (other f x)
      | opened | closed | opening => rfl
    rw [none]
    exact fieldAt_of_zeros rfl

theorem State.feederRecords_length (s : State) : s.feederRecords.length = 128 + 7 * s.systems := by
  rw [State.feederRecords, List.length_append, flatMap_length _ _ _ Feeder.bytes_length,
    flatMap_length _ _ _ fun i => latchBytes_length (s.latch i) (s.sense i)]
  simp [State.fitted]

theorem State.feederRecords_feeder (s : State) {f : Nat} (h : f < 16) : recordAt s.feederRecords 0 8 f = (s.feeder f).bytes :=
  recordAt_of (pre := []) rfl rfl Feeder.bytes_length (toList_getElem? _ _ h)

theorem State.feederRecords_latch (s : State) {i : Nat} (h : i < s.systems) :
    recordAt s.feederRecords 128 7 i = latchBytes (s.latch i) (s.sense i) := by
  refine recordAt_of (pre := s.feeders.table.toList.flatMap Feeder.bytes) (post := []) (g := fun i => latchBytes (s.latch i) (s.sense i))
    (List.append_nil _).symm ?_ (fun i => latchBytes_length _ _) (List.getElem?_range h)
  rw [flatMap_length _ _ _ Feeder.bytes_length]
  simp

/-! ### Head records (R145) -/

theorem State.headBytes_length (s : State) (f : Nat) : (s.headBytes f).length = 7 := by
  simp [State.headBytes, bytesOf_length]

theorem State.headBytes_laidOut (s : State) (f : Nat) : let q := s.headBytes f; let h := s.head f
    bitsAt q 0 [(s.feeder f).carried, h.travel, (h.silentRun = s.silentLimit), (h.stillRun = s.stopSweeps),
      (h.spike = .snagged), h.lastMotion.isSome]
    ∧ fieldAt q 1 1 = h.silentRun % 256 ∧ fieldAt q 2 1 = h.stillRun % 256
    ∧ (h.spike = .calm → fieldAt q 3 1 = 0) ∧ (∀ k < 16, h.spike = .rising k → fieldAt q 3 1 = 1 + 16 * k)
    ∧ (∀ j < 16, h.spike = .settling j → fieldAt q 3 1 = 2 + 16 * j) ∧ (h.spike = .snagged → fieldAt q 3 1 = 3)
    ∧ fieldAt q 4 1 = (h.lastMotion.map BitVec.toNat).getD 0 ∧ fieldAt q 5 2 = (h.lastTension.map BitVec.toNat).getD 0 := by
  dsimp only
  have spike : fieldAt (s.headBytes f) 3 1 = (s.head f).spike.code % 256 := fieldAt_of_byte rfl
  have motion : ((s.head f).lastMotion.map BitVec.toNat).getD 0 < 256 := by
    cases (s.head f).lastMotion with
    | none => decide
    | some m => exact m.isLt
  have tension : ((s.head f).lastTension.map BitVec.toNat).getD 0 < 65536 := by
    cases (s.head f).lastTension with
    | none => decide
    | some w => exact Nat.lt_trans w.isLt (by decide)
  refine ⟨?_, fieldAt_of_byte rfl, fieldAt_of_byte rfl, fun calm => ?_, fun k small rising => ?_, fun j small settling => ?_, fun snagged => ?_,
    fieldAt_of_code motion rfl, (fieldAt_of_natBytes (n := 2) rfl).trans (Nat.mod_eq_of_lt tension)⟩
  · exact bitsAt_of_facts _ (by simp) (.cons Iff.rfl (.cons Iff.rfl (.cons decide_eq_true_iff (.cons decide_eq_true_iff
      (.cons decide_eq_true_iff (.cons Iff.rfl .nil))))))
  · rw [spike, calm]
    rfl
  · rw [spike, rising]
    exact Nat.mod_eq_of_lt (show 1 + 16 * k < 256 by omega)
  · rw [spike, settling]
    exact Nat.mod_eq_of_lt (show 2 + 16 * j < 256 by omega)
  · rw [spike, snagged]
    rfl

/-- The bytes of the pending write. -/
def writeBytes : Option HeadWrite → List Byte
  | some w => [presence [true]] ++ bytesOf 1 w.head ++ bytesOf 1 w.item ++ bytesOf 2 w.value
  | none => [presence [false]] ++ bytesOf 1 0 ++ bytesOf 1 0 ++ bytesOf 2 0

theorem writeBytes_length (w : Option HeadWrite) : (writeBytes w).length = 5 := by
  cases w <;> simp [writeBytes, bytesOf_length]

/-- The bytes of the sixteen heads. -/
def State.allHeads (s : State) : List Byte := (List.range 16).flatMap s.headBytes

theorem State.allHeads_length (s : State) : s.allHeads.length = 112 :=
  flatMap_length _ _ _ s.headBytes_length

theorem State.headRecords_parts (s : State) :
    s.headRecords = s.allHeads ++ (writeBytes s.yarn.pendingWrite ++ bytesOf 1 s.yarn.sweep.isSome.toNat) := by
  rw [State.headRecords, State.allHeads, List.append_assoc]
  cases s.yarn.pendingWrite <;> rfl

theorem State.headRecords_length (s : State) : s.headRecords.length = 118 := by
  rw [s.headRecords_parts, List.length_append, List.length_append, s.allHeads_length, writeBytes_length, bytesOf_length]

theorem State.headRecords_head (s : State) {f : Nat} (h : f < 16) : recordAt s.headRecords 0 7 f = s.headBytes f :=
  recordAt_of (pre := []) s.headRecords_parts rfl s.headBytes_length (List.getElem?_range h)

/-- A field behind the sixteen heads. -/
theorem State.headRecords_field (s : State) (i n : Nat) :
    fieldAt s.headRecords (112 + i) n = fieldAt (writeBytes s.yarn.pendingWrite ++ bytesOf 1 s.yarn.sweep.isSome.toNat) i n := by
  rw [s.headRecords_parts, fieldAt_append _ _ 112 i n s.allHeads_length]

theorem State.headRecords_laidOut (s : State) : let b := s.headRecords
    (s.yarn.pendingWrite = none → (b.drop 112).take 5 = [0, 0, 0, 0, 0])
    ∧ (∀ w, s.yarn.pendingWrite = some w → bitsAt b 112 [true] ∧ fieldAt b 113 1 = w.head % 256 ∧ fieldAt b 114 1 = w.item % 256
        ∧ fieldAt b 115 2 = w.value % 65536)
    ∧ fieldAt b 117 1 = s.yarn.sweep.isSome.toNat := by
  dsimp only
  refine ⟨fun none => ?_, fun w some => ⟨?_, ?_, ?_, ?_⟩, ?_⟩
  · rw [s.headRecords_parts, List.drop_left' s.allHeads_length, none]
    rfl
  · rw [s.headRecords_parts, bitsAt_append s.allHeads _ 112 0 s.allHeads_length, some]
    exact bitsAt_self [true] _ (by decide)
  · rw [s.headRecords_field 1, some]
    exact fieldAt_of_byte rfl
  · rw [s.headRecords_field 2, some]
    exact fieldAt_of_byte rfl
  · rw [s.headRecords_field 3, some]
    exact fieldAt_of_natBytes (n := 2) rfl
  · have small : s.yarn.sweep.isSome.toNat < 256 := Nat.lt_of_le_of_lt (Bool.toNat_le _) (by decide)
    refine (s.headRecords_field 5 1).trans (fieldAt_of_code small ?_)
    rw [List.drop_left' (writeBytes_length _)]
    rfl

/-! ### Condition records (R167) -/

/-- The four bytes of a latched detail. -/
def detailBytes : Option Detail → List Byte
  | some d => d.bytes
  | none => bytesOf 4 0

theorem detailBytes_length (d : Option Detail) : (detailBytes d).length = 4 := by
  cases d with
  | none => rfl
  | some d => exact padTo_length 4 d.fields

theorem State.conditionBytes_eq (s : State) (c : Cond) : s.conditionBytes c
    = bitsByte [s.latched c, s.captured c, c.isLiveKind, s.live c, s.latched c] :: detailBytes (s.monitor.record c).latched := by
  rw [State.conditionBytes]
  cases e : (s.monitor.record c).latched <;> simp [State.latched, State.captured, detailBytes, e]

theorem State.conditionBytes_length (s : State) (c : Cond) : (s.conditionBytes c).length = 5 := by
  rw [s.conditionBytes_eq, List.length_cons, detailBytes_length]

theorem Cond.all_getElem? (c : Cond) : Cond.all[c.num]? = some c := by
  cases c <;> rfl

theorem State.conditionRecords_length (s : State) : s.conditionRecords.length = 116 := by
  rw [State.conditionRecords, List.length_append, flatMap_length _ _ _ s.conditionBytes_length]
  rfl

theorem State.conditionRecords_record (s : State) (c : Cond) : recordAt s.conditionRecords 0 5 c.num = s.conditionBytes c :=
  recordAt_of (pre := []) rfl rfl s.conditionBytes_length c.all_getElem?

theorem State.conditionRecords_laidOut (s : State) : let b := s.conditionRecords
    (∀ c : Cond, let q := recordAt b 0 5 c.num
      bitsAt q 0 [s.latched c, s.captured c, c.isLiveKind, s.live c, s.latched c]
      ∧ (∀ d, (s.monitor.record c).latched = some d → d.laidOut (q.drop 1))
      ∧ ((s.monitor.record c).latched = none → q.drop 1 = [0, 0, 0, 0]))
    ∧ bitsAt b 115 [s.monitor.forcedAlert, s.monitor.forcedCaution, s.alert, s.caution, s.service, s.stopLine, s.attnLine] := by
  dsimp only
  refine ⟨fun c => ?_, ?_⟩
  · rw [s.conditionRecords_record, s.conditionBytes_eq]
    refine ⟨bitsAt_self [_, _, _, _, _] _ (by simp), fun d latched => ?_, fun clear => ?_⟩
    · rw [latched]
      exact d.laidOut_bytes
    · rw [clear]
      rfl
  · refine (bitsAt_append (Cond.all.flatMap s.conditionBytes) _ 115 0 (flatMap_length _ _ _ s.conditionBytes_length) _).mpr ?_
    exact bitsAt_self [_, _, _, _, _, _, _] [] (by simp)

/-! ### The record of a line (R36) -/

/-- The bytes of a line. -/
def Line.bytes : Line → List Byte
  | .free => [presence [false, false]] ++ bytesOf 1 0 ++ bytesOf 2 0 ++ bytesOf 2 0 ++ bytesOf 2 0 ++ bytesOf 1 0 ++ bytesOf 1 0
  | .opened d => [presence [true, false]] ++ bytesOf 1 1 ++ bytesOf 2 d.codes.length ++ bytesOf 2 d.cursor ++ bytesOf 2 d.extent
      ++ bytesOf 1 0 ++ bytesOf 1 0
  | .sealed d c n => [presence [true, true]] ++ bytesOf 1 2 ++ bytesOf 2 d.codes.length ++ bytesOf 2 d.cursor ++ bytesOf 2 d.extent
      ++ [censusByte c] ++ bytesOf 1 n

theorem Line.bytes_length (l : Line) : l.bytes.length = 10 := by
  cases l <;> simp [Line.bytes, bytesOf_length]

theorem State.lineRecord_parts (s : State) (id : Nat) : s.lineRecord id
    = bytesOf 1 id ++ ((s.line id).bytes ++ (bytesOf 1 s.linesNotFree ++ bytesOf 2 s.cellsFree)) := by
  rw [State.lineRecord, List.append_assoc, List.append_assoc]
  cases s.line id <;> rfl

theorem State.lineRecord_length (s : State) (id : Nat) : (s.lineRecord id).length = 14 := by
  rw [s.lineRecord_parts]
  simp only [List.length_append, bytesOf_length, Line.bytes_length]

theorem State.store_toList (s : State) : s.store.toList = (List.range 64).map s.line := by
  refine List.ext_getElem? fun k => ?_
  by_cases h : k < 64
  · rw [toList_getElem? s.store .free h, List.getElem?_map, List.getElem?_range h]
    rfl
  · rw [List.getElem?_eq_none (by simpa using h), List.getElem?_eq_none (by simpa using h)]

theorem State.linesNotFree_eq (s : State) : s.linesNotFree = (List.range 64).countP fun k => decide (s.line k ≠ .free) := by
  rw [State.linesNotFree, s.store_toList, ← List.countP_eq_length_filter, List.countP_map]
  rfl

/-- A field of the line's bytes, behind the number of the line. -/
theorem State.lineRecord_field (s : State) (id i n : Nat) : fieldAt (s.lineRecord id) (1 + i) n
    = fieldAt ((s.line id).bytes ++ (bytesOf 1 s.linesNotFree ++ bytesOf 2 s.cellsFree)) i n := by
  rw [s.lineRecord_parts, fieldAt_append _ _ 1 i n rfl]

theorem State.lineRecord_bits (s : State) (id i : Nat) (ps : List Prop) : bitsAt (s.lineRecord id) (1 + i) ps
    ↔ bitsAt ((s.line id).bytes ++ (bytesOf 1 s.linesNotFree ++ bytesOf 2 s.cellsFree)) i ps := by
  rw [s.lineRecord_parts, bitsAt_append _ _ 1 i rfl]

theorem State.lineRecord_laidOut (s : State) (id : Nat) : let b := s.lineRecord id
    fieldAt b 0 1 = id % 256 ∧ fieldAt b 11 1 = ((List.range 64).countP fun k => decide (s.line k ≠ .free)) ∧ fieldAt b 12 2 = s.cellsFree
    ∧ (s.line id = .free → fieldAt b 1 1 = 0 ∧ fieldAt b 2 1 = 0 ∧ (b.drop 3).take 8 = List.replicate 8 0)
    ∧ (∀ d, s.line id = .opened d → bitsAt b 1 [true, false] ∧ fieldAt b 2 1 = 1 ∧ fieldAt b 3 2 = d.codes.length % 65536
        ∧ fieldAt b 5 2 = d.cursor % 65536 ∧ fieldAt b 7 2 = d.extent % 65536 ∧ fieldAt b 9 2 = 0)
    ∧ (∀ d c n, s.line id = .sealed d c n → bitsAt b 1 [true, true] ∧ fieldAt b 2 1 = 2 ∧ fieldAt b 3 2 = d.codes.length % 65536
        ∧ fieldAt b 5 2 = d.cursor % 65536 ∧ fieldAt b 7 2 = d.extent % 65536
        ∧ bitsAt b 9 ([Code.miss, .tuck, .knit, .send].map fun k => k ∈ c) ∧ fieldAt b 10 1 = n % 256) := by
  dsimp only
  have head : fieldAt (s.lineRecord id) 0 1 = id % 256 := fieldAt_of_byte (by rw [s.lineRecord_parts]; rfl)
  have lines : s.linesNotFree < 256 := by
    have few := List.countP_le_length (p := fun k => decide (s.line k ≠ .free)) (l := List.range 64)
    rw [← s.linesNotFree_eq, List.length_range] at few
    omega
  have cells : s.cellsFree < 65536 := Nat.lt_of_le_of_lt (Nat.sub_le _ _) (by decide)
  have count : fieldAt (s.lineRecord id) 11 1 = s.linesNotFree := by
    refine (s.lineRecord_field id 10 1).trans (fieldAt_of_code lines ?_)
    rw [List.drop_left' (Line.bytes_length _)]
    rfl
  have free : fieldAt (s.lineRecord id) 12 2 = s.cellsFree := by
    rw [s.lineRecord_field id 11 2, fieldAt_append _ _ 10 1 2 (Line.bytes_length _)]
    exact (fieldAt_of_natBytes (n := 2) rfl).trans (Nat.mod_eq_of_lt cells)
  refine ⟨head, count.trans s.linesNotFree_eq, free, fun e => ?_, fun d e => ?_, fun d c n e => ?_⟩
  · refine ⟨?_, ?_, ?_⟩
    · rw [s.lineRecord_field id 0, e]
      exact fieldAt_of_zeros rfl
    · rw [s.lineRecord_field id 1, e]
      exact fieldAt_of_zeros rfl
    · rw [s.lineRecord_parts, e]
      rfl
  · rw [s.lineRecord_bits id 0, s.lineRecord_field id 1, s.lineRecord_field id 2, s.lineRecord_field id 4, s.lineRecord_field id 6,
      s.lineRecord_field id 8, e]
    exact ⟨bitsAt_self [true, false] _ (by decide), fieldAt_of_code (by decide) rfl, fieldAt_of_natBytes (n := 2) rfl,
      fieldAt_of_natBytes (n := 2) rfl, fieldAt_of_natBytes (n := 2) rfl, fieldAt_of_zeros rfl⟩
  · rw [s.lineRecord_bits id 0, s.lineRecord_field id 1, s.lineRecord_field id 2, s.lineRecord_field id 4, s.lineRecord_field id 6,
      s.lineRecord_bits id 8, s.lineRecord_field id 9, e]
    refine ⟨bitsAt_self [true, true] _ (by decide), fieldAt_of_code (by decide) rfl, fieldAt_of_natBytes (n := 2) rfl,
      fieldAt_of_natBytes (n := 2) rfl, fieldAt_of_natBytes (n := 2) rfl, ?_, fieldAt_of_byte rfl⟩
    exact bitsAt_of_facts (bytesOf 1 n ++ (bytesOf 1 s.linesNotFree ++ bytesOf 2 s.cellsFree)) (by simp)
      (.cons List.contains_iff_mem (.cons List.contains_iff_mem (.cons List.contains_iff_mem (.cons List.contains_iff_mem .nil))))

/-! ### The position record (R21) -/

theorem positionX_length (x : Int) : (positionX x).length = 2 := by
  unfold positionX
  split <;> exact bytesOf_length _ _

/-- The seek time remaining, while it runs. -/
def State.seekLeft (s : State) : Option Nat := if s.tracker.position = .seeking then s.tracker.seekTimer else none

/-- The bytes of X. -/
def State.xBytes (s : State) : List Byte := if s.tracker.position.valid then positionX s.carriageX else bytesOf 2 0

/-- The bytes of the mark of an open window. -/
def State.markBytes (s : State) : List Byte :=
  ((s.tracker.markWindow.map fun w => positionX (w.mark * s.markSpacing))).getD (bytesOf 2 0)

theorem State.xBytes_length (s : State) : s.xBytes.length = 2 := by
  unfold State.xBytes
  split
  · exact positionX_length _
  · exact bytesOf_length _ _

theorem State.markBytes_length (s : State) : s.markBytes.length = 2 := by
  unfold State.markBytes
  cases s.tracker.markWindow with
  | none => exact bytesOf_length _ _
  | some w => exact positionX_length _

/-- The record, with the two bytes of X and the two bytes of the mark. -/
theorem State.positionRecord_bytes {s : State} {x0 x1 m0 m1 : Byte} (hx : s.xBytes = [x0, x1]) (hm : s.markBytes = [m0, m1]) :
    s.positionRecord = bitsByte [s.tracker.position.valid, s.seekLeft.isSome, s.tracker.markWindow.isSome, s.tracker.lastPeriod.isSome]
      :: (bytesOf 1 s.tracker.position.code ++ bytesOf 4 s.tracker.count ++ [x0, x1]
        ++ [bitsByte [decide (s.tracker.lastDir = .leftward), decide (s.tracker.phase = .active), decide (s.tracker.phase = .finishing),
          s.tracker.stallLive, (s.tracker.markWindow.map fun w => decide (w.side = .high)).getD false,
          (s.tracker.markWindow.map MarkWindow.satisfied).getD false]]
        ++ bytesOf 2 ((s.seekLeft.map seekMs).getD 0 : Nat) ++ [m0, m1] ++ bytesOf 2 (s.tracker.lastPeriod.getD 0 : Nat)) := by
  rw [← hx, ← hm, State.markBytes]
  have mark : (match s.tracker.markWindow with
      | some w => positionX (w.mark * s.markSpacing)
      | none => bytesOf 2 0) = (s.tracker.markWindow.map fun w => positionX (w.mark * s.markSpacing)).getD (bytesOf 2 0) := by
    cases s.tracker.markWindow <;> rfl
  rw [← mark]
  rfl

theorem State.positionRecord_length (s : State) : s.positionRecord.length = 15 := by
  obtain ⟨x0, x1, hx⟩ := List.length_eq_two.mp s.xBytes_length
  obtain ⟨m0, m1, hm⟩ := List.length_eq_two.mp s.markBytes_length
  rw [State.positionRecord_bytes hx hm]
  simp [bytesOf_length]

theorem State.seekLeft_isSome (s : State) : s.seekLeft.isSome = true ↔ s.tracker.position = .seeking ∧ s.tracker.seekTimer ≠ none := by
  rw [State.seekLeft, Option.isSome_iff_ne_none]
  by_cases seeking : s.tracker.position = .seeking
  · simp [seeking]
  · simp [seeking]

theorem seekMs_cases (n : Nat) : seekMs n = n / 10000 ∨ n % 10000 ≠ 0 ∧ seekMs n = n / 10000 + 1 := by
  unfold seekMs
  by_cases whole : n % Config.ticksPerMs = 0
  · exact .inl (if_pos whole)
  · rw [if_neg whole]
    cases Config.freeSeekRoundsUp n with
    | false => exact .inl rfl
    | true => exact .inr ⟨whole, rfl⟩

theorem State.positionRecord_laidOut (s : State) : let b := s.positionRecord; let t := s.tracker
    bitsAt b 0 [t.position.valid, (t.position = .seeking ∧ t.seekTimer ≠ none), t.markWindow.isSome, t.lastPeriod.isSome]
    ∧ fieldAt b 1 1 = t.position.code ∧ signedAt b 2 4 = Int.bmod t.count 4294967296
    ∧ (t.position.valid = false → fieldAt b 6 2 = 0)
    ∧ (t.position.valid = true → s.carriageX = clampX s.carriageX → signedAt b 6 2 = s.carriageX)
    ∧ bitsAt b 8 [(t.lastDir = .leftward), (t.phase = .active), (t.phase = .finishing), t.stallLive,
        (∃ w, t.markWindow = some w ∧ w.side = .high), (∃ w, t.markWindow = some w ∧ w.satisfied = true)]
    ∧ (t.position ≠ .seeking ∨ t.seekTimer = none → fieldAt b 9 2 = 0)
    ∧ (∀ n, t.position = .seeking → t.seekTimer = some n → n ≤ 600000000 →
        fieldAt b 9 2 = n / 10000 ∨ n % 10000 ≠ 0 ∧ fieldAt b 9 2 = n / 10000 + 1)
    ∧ (t.markWindow = none → fieldAt b 11 2 = 0)
    ∧ (∀ w, t.markWindow = some w → w.mark * s.markSpacing = clampX (w.mark * s.markSpacing) →
        signedAt b 11 2 = w.mark * s.markSpacing)
    ∧ fieldAt b 13 2 = (t.lastPeriod.getD 0) % 65536 := by
  obtain ⟨x0, x1, hx⟩ := List.length_eq_two.mp s.xBytes_length
  obtain ⟨m0, m1, hm⟩ := List.length_eq_two.mp s.markBytes_length
  have seek : fieldAt s.positionRecord 9 2 = (s.seekLeft.map seekMs).getD 0 % 65536 := by
    rw [State.positionRecord_bytes hx hm]
    exact fieldAt_of_natBytes (n := 2) rfl
  dsimp only
  rw [State.positionRecord_bytes hx hm] at seek ⊢
  refine ⟨bitsAt_of_facts _ (by simp) (.cons Iff.rfl (.cons s.seekLeft_isSome (.cons Iff.rfl (.cons Iff.rfl .nil)))),
    fieldAt_of_code s.tracker.position.code_lt_byte rfl, signedAt_of_bytes (n := 4) rfl, fun lost => ?_, fun valid fits => ?_, ?_,
    fun idle => ?_, fun n seeking timer small => ?_, fun closed => ?_, fun w window fits => ?_, fieldAt_of_natBytes (n := 2) rfl⟩
  · exact fieldAt_of_zeros (hx.symm.trans (if_neg (by simp [lost])))
  · have bytes : s.xBytes = bytesOf 2 (clampX s.carriageX) := by
      rw [State.xBytes, if_pos valid, positionX, if_pos fits, ← fits]
    refine (signedAt_of_clampX ?_).trans fits.symm
    exact hx.symm.trans bytes
  · refine bitsAt_of_facts (bytesOf 2 ((s.seekLeft.map seekMs).getD 0 : Nat) ++ [m0, m1] ++ bytesOf 2 (s.tracker.lastPeriod.getD 0 : Nat))
      (by simp) (.cons decide_eq_true_iff (.cons decide_eq_true_iff (.cons decide_eq_true_iff (.cons Iff.rfl (.cons ?_ (.cons ?_ .nil))))))
    · cases s.tracker.markWindow <;> simp
    · cases s.tracker.markWindow <;> simp
  · have none : s.seekLeft = none := by
      rw [← Option.not_isSome_iff_eq_none, s.seekLeft_isSome]
      rintro ⟨seeking, timer⟩
      exact idle.elim (fun other => other seeking) timer
    rw [seek, none]
    rfl
  · have left : s.seekLeft = some n := (if_pos seeking).trans timer
    have millis := seekMs_cases n
    rw [seek, left, Option.map_some, Option.getD_some]
    omega
  · have bytes : s.markBytes = bytesOf 2 0 := by
      rw [State.markBytes, closed]
      rfl
    exact fieldAt_of_zeros (hm.symm.trans bytes)
  · have bytes : s.markBytes = bytesOf 2 (clampX (w.mark * s.markSpacing)) := by
      rw [State.markBytes, window, ← fits]
      exact if_pos fits
    refine (signedAt_of_clampX ?_).trans fits.symm
    exact hm.symm.trans bytes

/-! ### The queries -/

theorem State.queryLine_inRange (s : State) {id : Nat} (h : id ≤ 63) : State.queryLine id s = (s, accept (s.lineRecord id)) :=
  if_neg (Nat.not_lt.mpr h)

theorem State.queryLine_range (s : State) {id : Nat} (h : 63 < id) : State.queryLine id s = (s, refuse .range) :=
  if_pos h

/-- Settles O12: the answer of each query, and the fields of its record. -/
theorem queriesOnlyReport : Obligations.QueriesOnlyReport := by
  refine ⟨fun s listening => ⟨?_, fun id low => ?_, fun id high => ?_, ?_, ?_, ?_, ?_⟩, fun s => ⟨s.positionRecord_length, s.lineRecord_length,
      s.queueRecord_length, s.feederRecords_length, s.headRecords_length, s.conditionRecords_length⟩, ?_, State.positionRecord_laidOut,
    State.lineRecord_laidOut, fun s => ⟨?_, ?_, fun k r h => ?_, fun f h => ?_, fun i h => ?_⟩, fun s => ⟨fun f h => ?_, fun i h => ?_⟩,
    fun s => ⟨fun f h => ?_, s.headRecords_laidOut⟩, State.conditionRecords_laidOut⟩
  · exact congrArg _ (State.addressed_answer listening _ rfl rfl)
  · exact congrArg _ (State.addressed_answer listening _ rfl (s.queryLine_inRange low))
  · exact congrArg _ (State.addressed_answer listening _ rfl (s.queryLine_range high))
  · exact congrArg _ (State.addressed_answer listening _ rfl rfl)
  · exact congrArg _ (State.addressed_answer listening _ rfl rfl)
  · exact congrArg _ (State.addressed_answer listening _ rfl rfl)
  · exact congrArg _ (State.addressed_answer listening _ rfl rfl)
  · exact ⟨rfl, rfl, rfl, rfl, rfl, rfl, rfl⟩
  · rw [s.queueRecord_parts]
    exact fieldAt_of_code s.queue.plan.code_lt_byte rfl
  · rw [s.queueRecord_parts]
    exact fieldAt_of_byte rfl
  · rw [State.queueRecord_record h]
    exact r.bytes_laidOut
  · rw [s.queueRecord_feeder h]
    exact (s.queue.proj.feeder f).bytes_laidOut
  · rw [s.queueRecord_holder h]
    exact holderBytes_laidOut _
  · rw [s.feederRecords_feeder h]
    exact (s.feeder f).bytes_laidOut
  · rw [s.feederRecords_latch h]
    exact latchBytes_laidOut _ _
  · rw [s.headRecords_head h]
    exact s.headBytes_laidOut f

end Sys2Proof.Machine

/-! SUPPORT. The law of the latches through every command (R102), and what stands with it: the settled latches outside a pass, the
fitted systems and the projection of an empty queue (R58, R91, R106, R122, R123, R184). -/

namespace Sys2Proof.Machine

/-! ### Requests that leave the feeder unit, the pass and the queue -/

/-- What the feeder unit's laws read stands. -/
structure Aside (s t : State) : Prop where
  feeders : t.feeders = s.feeders
  engine : t.engine = s.engine
  queue : t.queue = s.queue
  values : t.settings.values = s.settings.values

namespace Aside

/-- An update of other blocks. -/
theorem update {s t : State} (feeders : t.feeders = s.feeders := by rfl) (engine : t.engine = s.engine := by rfl)
    (queue : t.queue = s.queue := by rfl) (values : t.settings.values = s.settings.values := by rfl) : Aside s t :=
  ⟨feeders, engine, queue, values⟩

theorem ofStore {s t : State} (h : ∃ v, t = s.setStore v) : Aside s t := by
  obtain ⟨v, rfl⟩ := h
  exact update

theorem takeHome (a : Unit) (s : State) : Aside s (State.takeHome a s).1 := by
  unfold State.takeHome
  repeat' split
  all_goals exact update

theorem holdWrite (w : HeadWrite) (s : State) : Aside s (State.holdWrite w s).1 := by
  obtain ⟨v, held⟩ := State.holdWrite_yarn w s
  exact held.symm ▸ update

theorem takeEvents (k : Nat) (s : State) : Aside s (State.takeEvents k s).1 := by
  rcases State.takeEvents_monitor k s with taken | refused
  · exact taken.symm ▸ update
  · exact refused.symm ▸ update

theorem lockSettings (a : Unit) (s : State) : Aside s (State.lockSettings a s).1 := by
  unfold State.lockSettings
  repeat' split
  all_goals exact update

theorem unlockSettings (a : Unit) (s : State) : Aside s (State.unlockSettings a s).1 := by
  unfold State.unlockSettings
  repeat' split
  all_goals exact update

theorem pollStart (s : State) : Leaves (Aside s) (execPollStart s) := by
  unfold execPollStart
  apply Leaves.next
  split
  · unfold State.startPoll
    split
    all_goals exact update
  all_goals exact update

theorem frameStart (s : State) : Leaves (Aside s) (execFrameStart s) := by
  unfold execFrameStart
  apply Leaves.next
  split
  all_goals exact update

end Aside

/-- What a law needs to be kept by every request whose owner leaves the feeder unit, the pass and the queue. -/
structure AsideLaw (P : State → Prop) : Prop where
  aside : ∀ {s t}, P s → Aside s t → P t
  raise : ∀ {s} d, P s → P (s.raise d)

namespace AsideLaw

variable {P : State → Prop}

theorem addressed (h : AsideLaw P) {s : State} (hs : P s) {α : Type} (k : Byte) (p : Option α) (o : α → State → State × Answer)
    (ho : ∀ a, p = some a → P (o a s).1) : P (s.addressed k p o) :=
  State.addressed_keeps P (fun t _ ht => h.aside ht Aside.update) (fun t _ _ ht => h.aside ht Aside.update)
    (fun _ d ht => h.raise d ht) hs k p o ho

theorem request (h : AsideLaw P) {s : State} (hs : P s) {α : Type} (d : Dest) (k : Byte) (p : Option α)
    (o : α → State → State × Answer) (ho : ∀ a, p = some a → P (o a s).1) : P (s.request d k p o) :=
  State.request_keeps P (fun t _ ht => h.aside ht Aside.update) (fun t _ _ ht => h.aside ht Aside.update)
    (fun _ d ht => h.raise d ht) hs d k p o ho

theorem faultFrame (h : AsideLaw P) {s : State} (hs : P s) (c : FrameCause) (k : Option Byte) : P (s.faultFrame c k) :=
  keeps_ite hs (h.aside (h.raise _ hs) Aside.update)

/-- The commands that leave the feeder unit, the pass and the queue, but for the abort that a raise of theirs hands over. -/
def isAside : Instr → Bool
  | .restart _ | .sweepTimerExpiry | .pollStart | .strapRead _ | .settingsDisturbance _ | .frameAbandon | .badCheckFrame => true
  | .unknownKind _ | .broadcastRefused _ | .replyEnd | .status _ | .home _ | .queryPosition _ | .defineLine _ => true
  | .writeLine _ | .sealLine _ | .reopenLine _ | .dropLine _ | .queryLine _ | .queryQueue _ | .queryFeeders _ => true
  | .headWrite _ | .queryHeads _ | .queryConditions _ | .clearConditions _ _ | .force _ | .readEvents _ => true
  | .syncTime _ _ | .readSetting _ | .lockSettings _ | .unlockSettings _ | .identify _ | .frameStart | .foreignFrame => true
  | .seekTimerExpiry => true
  | .powerOn _ | .restartEffect _ | .countTransition _ | .illegalTransition | .homeMarkEdge | .needleMarkEdge => false
  | .stallTimerExpiry | .takeCountdownExpiry _ | .releaseCountdownExpiry _ | .coupleSenseEdge _ _ | .pollEnd _ => false
  | .headWriteEnd _ | .queuePass _ | .cancelQueued _ | .stopCycling _ | .resume _ | .halt _ _ | .go _ _ => false
  | .declareFeeder _ | .forgetFeeder _ | .writeSetting _ => false

theorem exec (h : AsideLaw P) {s : State} (hs : P s) (c : Instr) (aside : isAside c = true) : Leaves P (exec c s) := by
  have same : ∀ {t}, Aside s t → P t := fun a => h.aside hs a
  cases c with
  | restart b => exact .next (h.addressed hs _ _ _ fun _ _ => same .update)
  | sweepTimerExpiry => exact .next (same .update)
  | pollStart => exact fun t e => same (Aside.pollStart s t e)
  | seekTimerExpiry => exact .next (keeps_ite (h.raise _ (same .update)) hs)
  | strapRead l =>
    have read : P (s.setLink { s.link with reading := l }) := same .update
    exact .next (keeps_ite (h.raise _ read) read)
  | settingsDisturbance k => exact .next (keeps_ite (same .update) hs)
  | frameAbandon => exact .next (h.faultFrame hs _ _)
  | badCheckFrame => exact .next (h.faultFrame hs _ _)
  | unknownKind k =>
    have answered : P ((s.raise (.frameFault .kind (some k))).sendReply k (refuse .badRequest)) :=
      h.aside (h.raise _ hs) Aside.update
    exact .ite (.next (keeps_ite hs (keeps_ite (same .update) answered))) (.refused _)
  | broadcastRefused k => exact .ite (.next (h.faultFrame hs _ _)) (.refused _)
  | replyEnd => exact .next (keeps_ite (same .update) hs)
  | status b => exact .next (h.addressed hs _ _ _ fun _ _ => hs)
  | home b => exact .next (h.addressed hs _ _ _ fun a _ => same (Aside.takeHome a s))
  | queryPosition b => exact .next (h.addressed hs _ _ _ fun _ _ => hs)
  | defineLine b => exact .next (h.addressed hs _ _ _ fun q _ => same (.ofStore (State.defineLine_store q s)))
  | writeLine b => exact .next (h.addressed hs _ _ _ fun w _ => same (.ofStore (State.writeLine_store w s)))
  | sealLine b => exact .next (h.addressed hs _ _ _ fun id _ => same (.ofStore (State.sealLine_store id s)))
  | reopenLine b => exact .next (h.addressed hs _ _ _ fun id _ => same (.ofStore (State.reopenLine_store id s)))
  | dropLine b => exact .next (h.addressed hs _ _ _ fun id _ => same (.ofStore (State.dropLine_store id s)))
  | queryLine b => exact .next (h.addressed hs _ _ _ fun id _ => (State.queryLine_state id s).symm ▸ hs)
  | queryQueue b => exact .next (h.addressed hs _ _ _ fun _ _ => hs)
  | queryFeeders b => exact .next (h.addressed hs _ _ _ fun _ _ => hs)
  | headWrite b => exact .next (h.addressed hs _ _ _ fun w _ => same (Aside.holdWrite w s))
  | queryHeads b => exact .next (h.addressed hs _ _ _ fun _ _ => hs)
  | queryConditions b => exact .next (h.addressed hs _ _ _ fun _ _ => hs)
  | clearConditions d b => exact .next (h.request hs d _ _ _ fun _ _ => same .update)
  | force b => exact .next (h.addressed hs _ _ _ fun _ _ => same .update)
  | readEvents b => exact .next (h.addressed hs _ _ _ fun k _ => same (Aside.takeEvents k s))
  | syncTime d b => exact .next (h.request hs d _ _ _ fun _ _ => same .update)
  | readSetting b => exact .next (h.addressed hs _ _ _ fun n _ => (State.readSetting_state n s).symm ▸ hs)
  | lockSettings b => exact .next (h.addressed hs _ _ _ fun a _ => same (Aside.lockSettings a s))
  | unlockSettings b => exact .next (h.addressed hs _ _ _ fun a _ => same (Aside.unlockSettings a s))
  | identify b => exact .next (h.addressed hs _ _ _ fun _ _ => hs)
  | frameStart => exact fun t e => same (Aside.frameStart s t e)
  | foreignFrame => exact .next (keeps_ite hs (same .update))
  | powerOn _ | restartEffect _ | countTransition _ | illegalTransition | homeMarkEdge | needleMarkEdge => cases aside
  | stallTimerExpiry | takeCountdownExpiry _ | releaseCountdownExpiry _ | coupleSenseEdge _ _ | pollEnd _ => cases aside
  | headWriteEnd _ | queuePass _ | cancelQueued _ | stopCycling _ | resume _ | halt _ _ | go _ _ => cases aside
  | declareFeeder _ | forgetFeeder _ | writeSetting _ => cases aside

end AsideLaw

/-! ### The law of R102 through every command -/

namespace State.LatchLaw

theorem asideLaw : AsideLaw State.LatchLaw := ⟨fun h a => h.same a.feeders, fun d h => h.raise d⟩

theorem expireTake {s : State} (h : s.LatchLaw) {i f : Nat} {pos : Int} (e : (s.latch i).state = .closing f pos) :
    (s.expireTake i f pos).LatchLaw := by
  have noted : (s.noteRaise (.feederMissed f i .take)).LatchLaw := h.same rfl
  have held : ((s.noteRaise (.feederMissed f i .take)).latch i).state.bond = some (f, .take) := by
    show (s.latch i).state.bond = _
    rw [e]
    rfl
  exact (noted.putDown held _ rfl).same rfl

theorem expireRelease {s : State} (h : s.LatchLaw) {i f : Nat} (e : (s.latch i).state = .opening f) :
    (s.expireRelease i f).LatchLaw := by
  have noted : (s.noteRaise (.feederStuck f i (s.feeder f).releasePoint)).LatchLaw := h.same rfl
  have held : ((s.noteRaise (.feederStuck f i (s.feeder f).releasePoint)).latch i).state.bond = some (f, .release) := by
    show (s.latch i).state.bond = _
    rw [e]
    rfl
  exact (noted.putDown held _ rfl).same rfl

theorem takeCountdownExpiry {s : State} (h : s.LatchLaw) (i : Fin 4) : Leaves State.LatchLaw (execTakeCountdownExpiry i s) := by
  unfold execTakeCountdownExpiry
  apply Leaves.next
  split
  case h_1 e => exact (h.expireTake e).abortPass _
  all_goals exact h

theorem releaseCountdownExpiry {s : State} (h : s.LatchLaw) (i : Fin 4) :
    Leaves State.LatchLaw (execReleaseCountdownExpiry i s) := by
  unfold execReleaseCountdownExpiry
  apply Leaves.next
  split
  case h_1 e => exact (h.expireRelease e).abortPass _
  all_goals exact h

/-- R109: a take that is driven bonds its feeder and its latch; one with the sense high ends the pass. -/
theorem driveTake {s : State} (h : s.LatchLaw) {i f rail : Nat} {pos : Int} (hi : i < 4) (hf : f < 16)
    (opened : (s.latch i).state = .opened) (parked : s.feeder f = .parked rail pos) : (s.driveTake i f rail pos).LatchLaw := by
  unfold State.driveTake
  refine keeps_ite (State.LatchLaw.abortPass (by exact h.same rfl) _) ?_
  have driven : ((s.putLatch i (Latch.mk (.closing f pos) s.confirmNeedles)).putFeeder f (.taking rail i)).LatchLaw := by
    refine h.swap (i := i) (f := f) hi (fun g hg => ?_) (fun j hj => ?_) (fun j b k => ?_) (fun g b k => ?_)
      (.inl ⟨.take, ?_, ?_⟩)
    · rw [State.feeder_putFeeder, if_neg fun k => hg k.1.symm]
      rfl
    · rw [State.latch_putFeeder, State.latch_putLatch, if_neg fun k => hj k.1.symm]
    · rw [parked] at k
      cases k
    · rw [opened] at k
      cases k
    · rw [State.feeder_putFeeder, if_pos ⟨rfl, hf⟩]
      rfl
    · rw [State.latch_putFeeder, State.latch_putLatch, if_pos ⟨rfl, hi⟩]
      rfl
  exact driven.same rfl

/-- R113: a release that is driven keeps the bond of its feeder and its latch. -/
theorem driveRelease {s : State} (h : s.LatchLaw) {i f : Nat} (x : Int) (closed : (s.latch i).state = .closed f) :
    (s.driveRelease i f x).LatchLaw := by
  have driven : ((s.putLatch i (Latch.mk (.opening f) s.confirmNeedles)).putFeeder f
      (.releasing (s.feeder f).rail i x)).LatchLaw := by
    refine h.rebond (i := i) (f := f) (b := .hold) (by rw [closed]; rfl) .release (.releasing (s.feeder f).rail i x)
      (Latch.mk (.opening f) s.confirmNeedles) rfl rfl (fun g => ?_) (fun j => ?_)
    · rw [State.feeder_putFeeder]
      rfl
    · rw [State.latch_putFeeder, State.latch_putLatch]
  exact driven.same rfl

/-- With no pass a step can start one and nothing more. -/
theorem carriageStep_noPass {s : State} (h : s.LatchLaw) (d x) (p : s.engine.pass = none) : (s.carriageStep d x).LatchLaw := by
  have moved : (s.setTracker { s.tracker with lastDir := d }).restartStall.LatchLaw :=
    keeps_ite (h.same rfl) (h.same rfl)
  have noPass : (s.setTracker { s.tracker with lastDir := d }).restartStall.engine.pass = none :=
    keeps_ite (P := fun t : State => t.engine.pass = none) p p
  unfold State.carriageStep
  dsimp only
  rw [noPass]
  exact keeps_ite (moved.entryCrossing d x) moved

theorem trackTransition_noPass {s : State} (h : s.LatchLaw) (d old) (p : s.engine.pass = none) :
    (s.trackTransition d old).LatchLaw := by
  have windowed : ∀ w, (s.setTracker { s.tracker with markWindow := w }).LatchLaw := fun _ => h.same rfl
  unfold State.trackTransition
  dsimp only
  split
  · exact keeps_ite (((windowed _).slip _).carriageStep_noPass d _ (State.noPass_slip (by exact p) _)) ((windowed _).slip _)
  · exact keeps_ite ((windowed _).carriageStep_noPass d _ p) (windowed _)

theorem countTransition {s : State} (h : s.LatchLaw) (l : EncLine) (k : s.engine.pass = none ∨ s.systems ≤ 4) :
    Leaves State.LatchLaw (execCountTransition l s) := by
  cases p : s.engine.pass with
  | none =>
    unfold execCountTransition
    refine .next (keeps_ite (keeps_ite (State.LatchLaw.trackTransition_noPass ?_ _ _ ?_) ?_)
      (State.LatchLaw.positionJump ?_))
    · cases l <;> exact h.same rfl
    · cases l <;> exact p
    · cases l <;> exact h.same rfl
    · cases l <;> exact h.same rfl
  | some q =>
    have inPass : s.engine.pass ≠ none := by rw [p]; nofun
    have run : State.FeederRun False s.engine.passCounter s :=
      ⟨h, fun none => absurd none inPass, False.elim, rfl, k.resolve_left inPass, False.elim⟩
    intro t e
    rcases run.countTransition l e with ran | ⟨law, -⟩
    · exact ran.law
    · exact law

theorem homeMarkEdge {s : State} (h : s.LatchLaw) : Leaves State.LatchLaw (execHomeMarkEdge s) := by
  unfold execHomeMarkEdge
  apply Leaves.next
  split
  · exact State.LatchLaw.log (by exact h.same rfl) _
  · exact keeps_ite (h.same rfl) (h.slip _)
  · exact keeps_ite (h.same rfl) (h.slip _)
  all_goals exact h

theorem pollEnd {s : State} (h : s.LatchLaw) (o) : Leaves State.LatchLaw (execPollEnd o s) := by
  unfold execPollEnd
  apply Leaves.next
  split
  case h_1 f cut disc rest _ =>
    have ended : (s.endTransaction rest).LatchLaw := h.same rfl
    exact keeps_ite ended (ended.applyOutcome f cut o)
  all_goals exact h

theorem headWriteEnd {s : State} (h : s.LatchLaw) (o) : Leaves State.LatchLaw (execHeadWriteEnd o s) := by
  unfold execHeadWriteEnd
  apply Leaves.next
  split
  · exact State.LatchLaw.log (by exact h.same rfl) _
  all_goals exact h

/-- The level of an input is no part of the law. -/
theorem setSense {s : State} (h : s.LatchLaw) (i l) : (s.setSense i l).LatchLaw := h.congr (fun _ => rfl) fun _ => rfl

theorem queuePass {s : State} (h : s.LatchLaw) (r) : (State.queuePass r s).1.LatchLaw := by
  unfold State.queuePass
  split
  · exact h
  · split
    · exact h
    · exact h.same (State.feeders_armHead _)

theorem resume {s : State} (h : s.LatchLaw) (a) : (State.resume a s).1.LatchLaw := by
  unfold State.resume
  split
  · exact h
  · split
    · exact h
    · split
      · exact h
      · exact h.same (State.feeders_armHead _)

/-- R104, R105: a feeder that is not carried takes a record that is not carried. -/
theorem putFollow {s : State} (h : s.LatchLaw) {f : Nat} {v : Feeder} (down : (s.feeder f).carried = false)
    (hv : v.bond = none) : (s.putFeeder f v).followProjection.LatchLaw := by
  rw [Feeder.carried_eq, Option.isSome_eq_false_iff, Option.isNone_iff_eq_none] at down
  exact (h.putUnbound f v hv down).followProjection

theorem declareFeeder {s : State} (h : s.LatchLaw) (q) : (State.declareFeeder q s).1.LatchLaw := by
  unfold State.declareFeeder
  repeat' split
  case isFalse.isFalse.isFalse.isFalse.isFalse => exact h.putFollow (by rwa [Bool.not_eq_true] at *) rfl
  all_goals exact h

theorem forgetFeeder {s : State} (h : s.LatchLaw) (f) : (State.forgetFeeder f s).1.LatchLaw := by
  unfold State.forgetFeeder
  repeat' split
  case isFalse.isFalse.isFalse => exact h.putFollow (by rwa [Bool.not_eq_true] at *) rfl
  all_goals exact h

theorem writeSetting {s : State} (h : s.LatchLaw) (q) : (State.writeSetting q s).1.LatchLaw := by
  have put : (s.putSetting q.1 q.2).LatchLaw := h.same rfl
  unfold State.writeSetting
  repeat' split
  case isFalse.isFalse.isFalse => exact put.settingWritten _ _ _
  all_goals exact h

/-- R102: each command keeps the law of the latches; a transition in a pass, where no more than four systems are fitted. -/
theorem exec {s : State} (h : s.LatchLaw) (c : Instr)
    (k : s.engine.pass = none ∨ s.systems ≤ 4 ∨ ∀ l, c ≠ .countTransition l) : Leaves State.LatchLaw (exec c s) := by
  cases c with
  | powerOn pins => exact .next (keeps_ite (State.LatchLaw.raise (.blocksReset s _ pins) _) (.blocksReset s _ pins))
  | restartEffect pins =>
    exact .next (keeps_ite (keeps_ite (State.LatchLaw.raise (.blocksReset s _ pins) _) (.blocksReset s _ pins)) h)
  | countTransition l =>
    exact h.countTransition l (k.imp_right fun fitted => fitted.resolve_right fun other => other l rfl)
  | illegalTransition => exact .next (State.LatchLaw.positionJump (by exact h.same rfl))
  | homeMarkEdge => exact h.homeMarkEdge
  | needleMarkEdge => exact .next (keeps_ite (keeps_ite (h.same rfl) (h.slip _)) h)
  | stallTimerExpiry => exact .next (keeps_ite h.stallExpires h)
  | takeCountdownExpiry i => exact h.takeCountdownExpiry i
  | releaseCountdownExpiry i => exact h.releaseCountdownExpiry i
  | coupleSenseEdge i l => exact .next (keeps_ite h ((h.setSense _ _).takeEdge _ _))
  | pollEnd o => exact h.pollEnd o
  | headWriteEnd o => exact h.headWriteEnd o
  | queuePass b => exact .next (h.addressed _ _ _ h.queuePass)
  | cancelQueued b => exact .next (h.addressed _ _ _ fun _ => State.LatchLaw.log (by exact h.same rfl) _)
  | stopCycling b => exact .next (h.addressed _ _ _ fun _ => h.same rfl)
  | resume b => exact .next (h.addressed _ _ _ h.resume)
  | halt d b => exact .next (h.request d _ _ _ fun _ => keeps_ite (h.abortPass _) (h.flush _))
  | go d b =>
    exact .next (h.request d _ _ _ fun _ => keeps_ite (P := fun p : State × Answer => p.1.LatchLaw) (h.same rfl) h)
  | declareFeeder b => exact .next (h.addressed _ _ _ h.declareFeeder)
  | forgetFeeder b => exact .next (h.addressed _ _ _ h.forgetFeeder)
  | writeSetting b => exact .next (h.addressed _ _ _ h.writeSetting)
  | _ => exact asideLaw.exec h _ rfl

end State.LatchLaw

end Sys2Proof.Machine

/-! SUPPORT. What stands with the law of the latches, through every command: the settled latches outside a pass, the fitted systems and
the projection of an empty queue (R58, R91, R106, R122, R123, R184). -/

namespace Sys2Proof.Machine

namespace State.FeederRun

section
variable {P : Prop} {n : Word16} {s t : State}

theorem aside (h : State.FeederRun P n s) (a : Aside s t) : State.FeederRun P n t where
  law := h.law.same a.feeders
  settled := fun e => (State.latchOutstanding_congr a.feeders).trans (h.settled (a.engine ▸ e))
  current := fun p e => by
    rw [a.engine] at e
    rw [a.queue]
    exact h.current p e
  counter := (congrArg Engine.passCounter a.engine).trans h.counter
  fitted := by
    unfold State.systems State.setting
    rw [a.values]
    exact h.fitted
  projection := fun p e => by
    rw [a.queue] at e ⊢
    rw [a.feeders]
    exact h.projection p e

theorem asideLaw (P : Prop) (n : Word16) : AsideLaw (State.FeederRun P n) := ⟨fun h a => h.aside a, fun d h => h.raise d⟩

/-- An update of the feeder unit, the fitted systems and the projection that settles what was settled. -/
theorem refeed (h : State.FeederRun P n s) (law : t.LatchLaw)
    (settled : s.latchOutstanding = false → t.latchOutstanding = false) (engine : t.engine = s.engine)
    (records : t.queue.records = s.queue.records) (fitted : t.systems ≤ 4)
    (projection : t.queue.records = [] → t.queue.proj = t.feeders.project) : State.FeederRun P n t where
  law := law
  settled := fun e => settled (h.settled (engine ▸ e))
  current := fun p e => by
    rw [engine] at e
    rw [records]
    exact h.current p e
  counter := (congrArg Engine.passCounter engine).trans h.counter
  fitted := fitted
  projection := fun _ e => projection e

end

end State.FeederRun

/-! ### The projection that follows the feeder table (R123) -/

theorem State.followProjection_feeders (s : State) : s.followProjection.feeders = s.feeders := by
  unfold State.followProjection
  split <;> rfl

theorem State.followProjection_engine (s : State) : s.followProjection.engine = s.engine := by
  unfold State.followProjection
  split <;> rfl

theorem State.followProjection_settings (s : State) : s.followProjection.settings = s.settings := by
  unfold State.followProjection
  split <;> rfl

theorem State.followProjection_records (s : State) : s.followProjection.queue.records = s.queue.records := by
  unfold State.followProjection
  split <;> rfl

theorem State.followProjection_proj (s : State) (h : s.followProjection.queue.records = []) :
    s.followProjection.queue.proj = s.followProjection.feeders.project := by
  rw [State.followProjection_records] at h
  rw [State.followProjection_noRecords h]
  rfl

/-! ### Settled latches -/

theorem State.not_latchOutstanding_iff (s : State) :
    s.latchOutstanding = false ↔ ∀ i < 4, (s.latch i).state.outstanding = false := by
  rw [← Bool.not_eq_true, State.latchOutstanding_iff]
  simp only [not_exists, not_and, Bool.not_eq_true]

/-- A state whose latches each stand as before, or are settled, settles what was settled. -/
theorem State.settled_of_latches {s t : State}
    (h : ∀ i, t.latch i = s.latch i ∨ (t.latch i).state.outstanding = false) (k : s.latchOutstanding = false) :
    t.latchOutstanding = false := by
  rw [State.not_latchOutstanding_iff] at k ⊢
  intro i hi
  rcases h i with same | settled
  · rw [same]
    exact k i hi
  · exact settled

theorem State.latches_foldl {α : Type} (g : State → α → State)
    (hg : ∀ s a i, (g s a).latch i = s.latch i ∨ ((g s a).latch i).state.outstanding = false) (l : List α) (s : State) (i : Nat) :
    (l.foldl g s).latch i = s.latch i ∨ ((l.foldl g s).latch i).state.outstanding = false := by
  induction l generalizing s with
  | nil => exact .inl rfl
  | cons a l ih =>
    rcases ih (g s a) with same | settled
    · rw [List.foldl_cons, same]
      exact hg s a i
    · exact .inr settled

theorem State.latch_faultFeeder (s : State) (i f j : Nat) :
    (s.faultFeeder i f).latch j = if i = j ∧ j < 4 then Latch.mk .opened 0 else s.latch j := by
  rw [State.faultFeeder, State.openLatch, State.latch_putLatch, State.latch_putFeeder]

theorem State.faultOutside_latches (s : State) (f i : Nat) :
    (s.faultOutside f).latch i = s.latch i ∨ ((s.faultOutside f).latch i).state.outstanding = false := by
  left
  unfold State.faultOutside
  split
  case h_1 => exact keeps_ite (P := fun t : State => t.latch i = s.latch i) rfl (State.latch_putFeeder s f _ i)
  all_goals rfl

theorem State.removeLatch_latches (s : State) (i j : Nat) :
    (s.removeLatch i).latch j = s.latch j ∨ ((s.removeLatch i).latch j).state.outstanding = false := by
  have opened : ∀ t : State, (t.latch j = if i = j ∧ j < 4 then Latch.mk .opened 0 else s.latch j) →
      t.latch j = s.latch j ∨ (t.latch j).state.outstanding = false := fun t e => by
    rw [e]
    split
    · exact .inr rfl
    · exact .inl rfl
  unfold State.removeLatch
  split
  · exact opened _ (State.latch_faultFeeder s i _ j)
  · exact opened _ (State.latch_faultFeeder s i _ j)
  · exact opened _ (State.latch_faultFeeder s i _ j)
  · exact opened _ (State.latch_putLatch s i j _)

/-! ### Writes of the settings -/

/-- The number of fitted systems is 1 to 4 (R184). -/
theorem State.systems_putSetting {s : State} {m : Nat} {v : Int} (h : s.systems ≤ 4) (fits : settingInRange m v = true) :
    (s.putSetting m v).systems ≤ 4 := by
  have read : (s.putSetting m v).setting 1 = if m = 1 ∧ 1 < 30 then v else s.setting 1 := getD_setIfInBounds ..
  unfold State.systems
  rw [read]
  split
  case isTrue systems =>
    obtain ⟨rfl, -⟩ := systems
    have range : between 1 4 v = true := fits
    unfold between at range
    simp only [Bool.and_eq_true, decide_eq_true_eq] at range
    omega
  case isFalse => exact h

/-- What the two writes that touch feeders leave. -/
structure FeederWrite (s t : State) : Prop where
  engine : t.engine = s.engine
  queue : t.queue = s.queue
  settings : t.settings = s.settings

namespace FeederWrite

theorem refl (s : State) : FeederWrite s s := ⟨rfl, rfl, rfl⟩

theorem trans {s t u : State} (h : FeederWrite s t) (k : FeederWrite t u) : FeederWrite s u :=
  ⟨k.engine.trans h.engine, k.queue.trans h.queue, k.settings.trans h.settings⟩

theorem putFeeder (s : State) (f : Nat) (v : Feeder) : FeederWrite s (s.putFeeder f v) := by
  obtain ⟨engine, queue, settings⟩ := State.putFeeder_parts s f v
  exact ⟨engine, queue, settings⟩

theorem faultFeeder (s : State) (i f : Nat) : FeederWrite s (s.faultFeeder i f) := (putFeeder s f _).trans ⟨rfl, rfl, rfl⟩

theorem faultOutside (s : State) (f : Nat) : FeederWrite s (s.faultOutside f) := by
  unfold State.faultOutside
  split
  · exact keeps_ite (refl s) (putFeeder s f _)
  all_goals exact refl s

theorem removeLatch (s : State) (i : Nat) : FeederWrite s (s.removeLatch i) := by
  unfold State.removeLatch
  split
  case h_4 => exact ⟨rfl, rfl, rfl⟩
  all_goals exact faultFeeder s i _

theorem foldl {α : Type} (g : State → α → State) (hg : ∀ s a, FeederWrite s (g s a)) (l : List α) (s : State) :
    FeederWrite s (l.foldl g s) := by
  induction l generalizing s with
  | nil => exact refl s
  | cons a l ih => exact (hg s a).trans (ih _)

end FeederWrite

namespace State.FeederRun

section
variable {P : Prop} {n : Word16} {s t : State}

/-- A write to feeders after which the projection follows. -/
theorem follow (h : State.FeederRun P n s) (law : t.LatchLaw)
    (settled : s.latchOutstanding = false → t.latchOutstanding = false) (write : FeederWrite s t) :
    State.FeederRun P n t.followProjection := by
  refine h.refeed law.followProjection (fun k => ?_) (t.followProjection_engine.trans write.engine)
    (t.followProjection_records.trans (congrArg PassQueue.records write.queue)) ?_ t.followProjection_proj
  · rw [State.latchOutstanding_congr t.followProjection_feeders]
    exact settled k
  · rw [State.systems_congr t.followProjection_settings, State.systems_congr write.settings]
    exact h.fitted

theorem putFollow (h : State.FeederRun P n s) {f : Nat} {v : Feeder} (down : (s.feeder f).carried = false) (hv : v.bond = none) :
    State.FeederRun P n (s.putFeeder f v).followProjection := by
  refine h.follow ?_ (State.settled_of_latches fun i => .inl (State.latch_putFeeder s f v i)) (FeederWrite.putFeeder s f v)
  rw [Feeder.carried_eq, Option.isSome_eq_false_iff, Option.isNone_iff_eq_none] at down
  exact h.law.putUnbound f v hv down

theorem fieldWritten (h : State.FeederRun P n s) : State.FeederRun P n s.fieldWritten := by
  refine h.follow ?_ (State.settled_of_latches (State.latches_foldl _ State.faultOutside_latches _ s))
    (FeederWrite.foldl _ FeederWrite.faultOutside _ s)
  refine State.LatchLaw.foldl _ (fun t f k => ?_) _ s h.law
  unfold State.faultOutside
  split
  case h_1 parked => exact keeps_ite k (k.putUnbound f _ rfl (by rw [parked]; rfl))
  all_goals exact k

theorem systemsWritten (h : State.FeederRun P n s) : State.FeederRun P n s.systemsWritten := by
  have law : s.systemsWritten.LatchLaw := h.law.settingWritten 1 0 0
  refine h.refeed law (fun k => ?_) ?_ ?_ ?_ (State.followProjection_proj _)
  · rw [State.systemsWritten, State.latchOutstanding_congr (State.followProjection_feeders _)]
    exact State.settled_of_latches (State.latches_foldl _ State.removeLatch_latches _ s) k
  · exact (State.followProjection_engine _).trans (FeederWrite.foldl _ FeederWrite.removeLatch _ s).engine
  · exact (State.followProjection_records _).trans
      (congrArg PassQueue.records (FeederWrite.foldl _ FeederWrite.removeLatch _ s).queue)
  · rw [State.systemsWritten, State.systems_congr (State.followProjection_settings _),
      State.systems_congr (FeederWrite.foldl _ FeederWrite.removeLatch _ s).settings]
    exact h.fitted

theorem limitStill (h : State.FeederRun P n s) (old f : Nat) : State.FeederRun P n (State.limitStill old s f) := by
  have put : ∀ r, State.FeederRun P n (s.putHead f r) := fun _ => h.aside .update
  exact keeps_ite ((put _).raise _) (put _)

theorem limitSilent (h : State.FeederRun P n s) (old f : Nat) : State.FeederRun P n (State.limitSilent old s f) := by
  have put : ∀ r, State.FeederRun P n (s.putHead f r) := fun _ => h.aside .update
  have counted : ∀ r k, State.FeederRun P n ((s.putHead f r).setFreeCount k) := fun _ _ => h.aside .update
  exact keeps_ite ((counted _ _).raise _) (put _)

theorem settingWritten (h : State.FeederRun P n s) (m a b : Nat) : State.FeederRun P n (s.settingWritten m a b) := by
  have tracking : State.FeederRun P n s.trackingWritten := keeps_ite (h.track _) h
  have still := State.FeederRun.foldl (State.limitStill a) (fun _ f k => k.limitStill a f) (List.range 16) h
  have silent := State.FeederRun.foldl (State.limitSilent b) (fun _ f k => k.limitSilent b f) (List.range 16) h
  unfold State.settingWritten
  split
  · exact tracking
  · exact tracking
  · exact tracking
  · exact tracking
  · exact h.fieldWritten
  · exact h.fieldWritten
  · exact h.fieldWritten
  · exact h.systemsWritten
  · exact still
  · exact silent
  · exact h

theorem writeSetting (h : State.FeederRun P n s) (q) : State.FeederRun P n (State.writeSetting q s).1 := by
  unfold State.writeSetting
  split
  · exact h
  · split
    · exact h
    · split
      · exact h
      next fits =>
        have put : State.FeederRun P n (s.putSetting q.1 q.2) :=
          { h with
            law := h.law.same rfl
            fitted := State.systems_putSetting h.fitted (by simpa using fits) }
        exact put.settingWritten _ _ _

/-! ### Requests on the feeders and on the queue -/

theorem declareFeeder (h : State.FeederRun P n s) (q) : State.FeederRun P n (State.declareFeeder q s).1 := by
  unfold State.declareFeeder
  repeat' split
  case isFalse.isFalse.isFalse.isFalse.isFalse => exact h.putFollow (by rwa [Bool.not_eq_true] at *) rfl
  all_goals exact h

theorem forgetFeeder (h : State.FeederRun P n s) (f) : State.FeederRun P n (State.forgetFeeder f s).1 := by
  unfold State.forgetFeeder
  repeat' split
  case isFalse.isFalse.isFalse => exact h.putFollow (by rwa [Bool.not_eq_true] at *) rfl
  all_goals exact h

/-- Arming the head moves its state alone. -/
theorem armHead (h : State.FeederRun P n s) : State.FeederRun P n s.armHead := keeps_ite (h.mapHead _) h

/-- With a record appended the queue is not empty. -/
theorem queuePass (h : State.FeederRun P n s) (r) : State.FeederRun P n (State.queuePass r s).1 := by
  unfold State.queuePass
  split
  · exact h
  · split
    · exact h
    · refine State.FeederRun.armHead (?_ : State.FeederRun P n ((s.setStore _).setQueue _))
      exact { h with
        law := h.law.same rfl
        current := fun _ _ => List.append_ne_nil_of_right_ne_nil _ (List.cons_ne_nil _ _)
        projection := fun _ e => absurd e (List.append_ne_nil_of_right_ne_nil _ (List.cons_ne_nil _ _)) }

/-- R67: the cancel keeps the record of a pass in progress, and the projection is rebuilt from the table. -/
theorem cancelQueued (h : State.FeederRun P n s)
    (kept : P → s.engine.pass ≠ none → (s.queue.records.filter fun r => r.state.inPass) ≠ []) (a) :
    State.FeederRun P n (State.cancelQueued a s).1 := by
  refine State.FeederRun.log (s := (s.setStore _).setQueue _) ?_ _
  exact { h with
    law := h.law.same rfl
    current := kept
    projection := fun _ e => by
      simp only [State.setQueue_queue] at e ⊢
      rw [e]
      rfl }

theorem stopCycling (h : State.FeederRun P n s) (a) : State.FeederRun P n (State.stopCycling a s).1 :=
  h.keep rfl rfl rfl List.map_eq_nil_iff rfl rfl

theorem resume (h : State.FeederRun P n s) (a) : State.FeederRun P n (State.resume a s).1 := by
  have running : State.FeederRun P n (s.setQueue { s.queue with plan := .running }).armHead :=
    State.FeederRun.armHead (h.keep rfl rfl rfl Iff.rfl rfl rfl)
  unfold State.resume
  split
  · exact h
  · split
    · exact h
    · split
      · exact h
      · exact running

theorem halt (h : State.FeederRun P n s) (a) : State.FeederRun P n (State.halt a s).1 := by
  unfold State.halt
  cases p : s.engine.pass with
  | none =>
    rw [State.passInProgress, p]
    exact h.flush p _
  | some q =>
    rw [State.passInProgress, p]
    exact h.abortPass _

theorem giveGo (h : State.FeederRun P n s) (a) : State.FeederRun P n (State.giveGo a s).1 :=
  keeps_ite (P := fun p : State × Answer => State.FeederRun P n p.1) (h.mapHead _) h

/-! ### Events -/

theorem takeCountdownExpiry (h : State.FeederRun P n s) (i : Fin 4) :
    Leaves (State.FeederRun P n) (execTakeCountdownExpiry i s) := by
  unfold execTakeCountdownExpiry
  apply Leaves.next
  split
  case h_1 e => exact (h.expireTake e).abortPass _
  all_goals exact h

theorem releaseCountdownExpiry (h : State.FeederRun P n s) (i : Fin 4) :
    Leaves (State.FeederRun P n) (execReleaseCountdownExpiry i s) := by
  unfold execReleaseCountdownExpiry
  apply Leaves.next
  split
  case h_1 e => exact (h.expireRelease e).abortPass _
  all_goals exact h

theorem resolveAll (h : State.FeederRun P n s) (inPass : s.engine.pass ≠ none) : State.FeederRun P n s.resolveAll := by
  have resolves := Resolves.resolveAll s
  refine h.inPass inPass h.law.resolveAll resolves.engine ?_ resolves.settings
  have length := congrArg List.length resolves.channels
  rw [List.length_map, List.length_map] at length
  rw [← List.length_eq_zero_iff, ← List.length_eq_zero_iff, length]

/-- R91: a finishing pass that ends with every latch resolved. -/
theorem resolveFinishing (h : State.FeederRun P n s) (p : PassPhase) :
    State.FeederEnd P n (if p = .finishing ∧ s.passInProgress = true then s.resolveAll.completeIfSettled else s) := by
  split
  case isTrue finishing =>
    exact State.FeederRun.completeIfSettled (h.resolveAll (s.passInProgress_iff.mp finishing.2))
  case isFalse => exact .inl h

theorem stallExpires (h : State.FeederRun P n s) : State.FeederEnd P n s.stallExpires := by
  unfold State.stallExpires
  refine State.FeederRun.resolveFinishing ?_ _
  split
  · exact h.track _
  · exact (h.track _).raise _

/-- R114, R117: a held feeder is put down and its latch opens, in a pass. -/
theorem putDown (h : State.FeederRun P n s) (inPass : s.engine.pass ≠ none) {i f : Nat} {b : Bond}
    (e : (s.latch i).state.bond = some (f, b)) (v : Feeder) (hv : v.bond = none) :
    State.FeederRun P n ((s.putFeeder f v).openLatch i) := by
  have write := FeederWrite.putFeeder s f v
  refine h.inPass inPass (h.law.putDown e v hv) write.engine ?_ write.settings
  rw [show ((s.putFeeder f v).openLatch i).queue = s.queue from write.queue]

theorem correctProjection_keeps (t : State) (i f : Nat) : (t.correctProjection i f).feeders = t.feeders
    ∧ (t.correctProjection i f).engine = t.engine ∧ (t.correctProjection i f).settings = t.settings
    ∧ (t.correctProjection i f).queue.records = t.queue.records := by
  by_cases empty : t.queue.records = []
  · rw [State.correctProjection_empty empty]
    exact ⟨rfl, rfl, rfl, rfl⟩
  by_cases coupled : ∃ rail, t.queue.proj.feeder f = .coupled rail i
  · obtain ⟨rail, coupled⟩ := coupled
    rw [State.correctProjection_held empty coupled]
    exact ⟨rfl, rfl, rfl, rfl⟩
  · rw [State.correctProjection_other empty fun rail e => coupled ⟨rail, e⟩]
    exact ⟨rfl, rfl, rfl, rfl⟩

/-- R123: after a drop with no pass the projection follows an empty queue, and no other. -/
theorem dropFeeder (h : State.FeederRun P n s) {i f : Nat} (e : (s.latch i).state = .closed f) :
    State.FeederRun P n (s.dropFeeder i f) := by
  have noted : State.FeederRun P n (s.noteRaise (.feederMissed f i .dropped)) := h.aside .update
  have held : ((s.noteRaise (.feederMissed f i .dropped)).latch i).state.bond = some (f, .hold) := by
    show (s.latch i).state.bond = _
    rw [e]
    rfl
  by_cases pass : s.engine.pass = none
  · have law : (s.dropped i f).LatchLaw := noted.law.putDown held (.faulted (s.feeder f).rail) rfl
    have write : FeederWrite s (s.dropped i f) :=
      ⟨(s.dropped_keeps i f).1, (s.dropped_keeps i f).2,
        (FeederWrite.putFeeder (s.noteRaise (.feederMissed f i .dropped)) f (.faulted (s.feeder f).rail)).settings⟩
    have latches : ∀ j, (s.dropped i f).latch j = s.latch j ∨ ((s.dropped i f).latch j).state.outstanding = false := by
      intro j
      rw [State.dropped, State.latch_putLatch, State.latch_putFeeder]
      split
      · exact .inr rfl
      · exact .inl rfl
    have same := correctProjection_keeps (s.dropped i f) i f
    obtain ⟨feeders, engine, settings, records⟩ := same
    rw [State.dropFeeder_noPass pass]
    refine h.refeed (law.same feeders) (fun k => ?_) (engine.trans write.engine)
      (records.trans (congrArg PassQueue.records write.queue)) ?_ fun empty => ?_
    · exact (State.latchOutstanding_congr feeders).trans (State.settled_of_latches latches k)
    · rw [State.systems_congr settings, State.systems_congr write.settings]
      exact h.fitted
    · rw [records] at empty
      rw [State.correctProjection_empty empty]
  · rw [State.dropFeeder_pass pass]
    exact State.FeederRun.abortPass (noted.putDown pass held (.faulted (s.feeder f).rail) rfl) _

/-- R110: a confirmed take. -/
theorem confirmTake (h : State.FeederRun P n s) {i f : Nat} {pos : Int} (e : (s.latch i).state = .closing f pos) :
    State.FeederEnd P n (s.confirmTake i f pos) := by
  have inPass := h.outPass (i := i) (by rw [e]; rfl)
  have held : (s.latch i).state.bond = some (f, .take) := by
    rw [e]
    rfl
  have law : ((s.putLatch i (Latch.mk (.closed f) 0)).putFeeder f (.coupled (s.feeder f).rail i)).LatchLaw := by
    refine h.law.rebond held .hold (.coupled (s.feeder f).rail i) (Latch.mk (.closed f) 0) rfl rfl (fun g => ?_) (fun j => ?_)
    · exact State.feeder_putFeeder ..
    · rw [State.latch_putFeeder, State.latch_putLatch]
  have write := FeederWrite.putFeeder (s.putLatch i (Latch.mk (.closed f) 0)) f (.coupled (s.feeder f).rail i)
  have taken : State.FeederRun P n ((s.putLatch i (Latch.mk (.closed f) 0)).putFeeder f (.coupled (s.feeder f).rail i)) := by
    refine h.inPass inPass law write.engine ?_ write.settings
    rw [write.queue]
    rfl
  exact State.FeederRun.completeIfSettled ((taken.log _).settle _ _)

/-- R114: a confirmed release. -/
theorem confirmRelease (h : State.FeederRun P n s) {i f : Nat} (e : (s.latch i).state = .opening f) :
    State.FeederEnd P n (s.confirmRelease i f) := by
  have inPass := h.outPass (i := i) (by rw [e]; rfl)
  have held : (s.latch i).state.bond = some (f, .release) := by
    rw [e]
    rfl
  have down := h.putDown inPass held (.parked (s.feeder f).rail (s.feeder f).releasePoint) rfl
  exact State.FeederRun.completeIfSettled ((down.log _).settle _ _)

theorem takeEdge (h : State.FeederRun P n s) (i : Nat) (level : Bool) : State.FeederEnd P n (s.takeEdge i level) := by
  unfold State.takeEdge
  split
  · split
    case h_1 closing => exact h.confirmTake closing
    case h_2 opening => exact h.confirmRelease opening
    case h_3 closed => exact .inl (h.dropFeeder closed)
    all_goals exact .inl h
  · exact .inl h

theorem homeMarkEdge (h : State.FeederRun P n s) : Leaves (State.FeederRun P n) (execHomeMarkEdge s) := by
  unfold execHomeMarkEdge
  apply Leaves.next
  split
  · exact State.FeederRun.log (by exact h.track _) _
  · exact keeps_ite (h.track _) (h.slip _)
  · exact keeps_ite (h.track _) (h.slip _)
  all_goals exact h

theorem applyMotion (h : State.FeederRun P n s) (f : Nat) (cut : Bool) (m) (g) : State.FeederRun P n (s.applyMotion f cut m g) := by
  have put : ∀ r, State.FeederRun P n (s.putHead f r) := fun _ => h.aside .update
  exact keeps_ite ((put _).raise _) (put _)

theorem applyTension (h : State.FeederRun P n s) (f g : Nat) : State.FeederRun P n (s.applyTension f g) := by
  have put : ∀ r, State.FeederRun P n (s.putHead f r) := fun _ => h.aside .update
  unfold State.applyTension
  dsimp only
  split
  · exact (put _).raise _
  · exact put _

theorem applyOutcome (h : State.FeederRun P n s) (f : Nat) (cut : Bool) (o) : State.FeederRun P n (s.applyOutcome f cut o) := by
  have put : ∀ r, State.FeederRun P n (s.putHead f r) := fun _ => h.aside .update
  cases o with
  | silent how => exact keeps_ite ((put _).raise _) (put _)
  | good motion tension =>
    exact keeps_ite ((h.applyMotion f cut motion tension).applyTension f _) (h.applyMotion f cut motion tension)

theorem pollEnd (h : State.FeederRun P n s) (o) : Leaves (State.FeederRun P n) (execPollEnd o s) := by
  unfold execPollEnd
  apply Leaves.next
  split
  case h_1 f cut disc rest _ =>
    have ended : State.FeederRun P n (s.endTransaction rest) := h.aside .update
    exact keeps_ite ended (ended.applyOutcome f cut o)
  all_goals exact h

theorem headWriteEnd (h : State.FeederRun P n s) (o) : Leaves (State.FeederRun P n) (execHeadWriteEnd o s) := by
  unfold execHeadWriteEnd
  apply Leaves.next
  split
  · exact State.FeederRun.log (by exact h.aside .update) _
  all_goals exact h

/-- R91, R106, R122: right after a reset every latch is OPEN. -/
theorem blocksReset (s : State) (block : SettingsBlock) (pins : PinLevels) (fits : (block.values.getD 1 0).toNat ≤ 4) :
    State.FeederRun P 0 (s.blocksReset block pins) where
  law := .blocksReset s block pins
  settled := fun _ => rfl
  current := fun _ e => absurd rfl e
  counter := rfl
  fitted := fits
  projection := fun _ _ => rfl

end

end State.FeederRun

end Sys2Proof.Machine

/-! SUPPORT. The law of the feeder unit through every command (R58, R91, R102, R103, R106, R122, R123, R184). -/

namespace Sys2Proof.Machine

namespace State.FeederRun

section
variable {P : Prop} {n : Word16} {s t : State}

/-- What a command leaves: its operations' run, or a fresh one after a reset. -/
def Left (P : Prop) (n : Word16) (t : State) : Prop := State.FeederEnd P n t ∨ State.FeederRun P 0 t

theorem left (h : State.FeederRun P n t) : Left P n t := .inl (.inl h)

theorem powerOn (s : State) (pins) : Leaves (State.FeederRun P 0) (execPowerOn pins s) := by
  have fresh : State.FeederRun P 0 (s.blocksReset SettingsBlock.initial pins) := .blocksReset s _ pins (by decide)
  exact .next (keeps_ite (fresh.raise _) fresh)

theorem restartEffect (h : State.FeederRun P n s) (pins) : Leaves (Left P n) (execRestartEffect pins s) := by
  have fresh : State.FeederRun P 0 (s.blocksReset s.settings pins) := .blocksReset s _ pins h.fitted
  exact .next (keeps_ite (.inr (keeps_ite (fresh.raise _) fresh)) h.left)

/-- The level of an input is no part of the laws. -/
theorem setSense (h : State.FeederRun P n s) (i : Nat) (level : Bool) : State.FeederRun P n (s.setSense i level) :=
  { h with law := h.law.setSense i level }

/-- Each command runs under the laws to its end, if it keeps the record of a pass in progress (R67). -/
theorem exec (h : State.FeederRun P n s)
    (kept : P → s.engine.pass ≠ none → (s.queue.records.filter fun r => r.state.inPass) ≠ []) (c : Instr) :
    Leaves (Left P n) (exec c s) := by
  have request := fun {t : State} => asideLaw P n |>.addressed (s := t)
  have run : ∀ {o}, Leaves (State.FeederRun P n) o → Leaves (Left P n) o := fun r t e => (r t e).left
  cases c with
  | powerOn pins => exact fun t e => .inr (powerOn s pins t e)
  | restartEffect pins => exact h.restartEffect pins
  | countTransition l => exact fun t e => .inl (h.countTransition l e)
  | illegalTransition => exact run (.next (State.FeederRun.positionJump (by exact h.track _)))
  | homeMarkEdge => exact run h.homeMarkEdge
  | needleMarkEdge => exact run (.next (keeps_ite (keeps_ite (h.track _) (h.slip _)) h))
  | stallTimerExpiry => exact .next (keeps_ite (.inl h.stallExpires) h.left)
  | takeCountdownExpiry i => exact run (h.takeCountdownExpiry i)
  | releaseCountdownExpiry i => exact run (h.releaseCountdownExpiry i)
  | coupleSenseEdge i l =>
    have sensed : State.FeederRun P n (s.setSense i l) := h.setSense i l
    exact .next (keeps_ite h.left (.inl (sensed.takeEdge i l)))
  | pollEnd o => exact run (h.pollEnd o)
  | headWriteEnd o => exact run (h.headWriteEnd o)
  | queuePass b => exact run (.next (request h _ _ _ fun r _ => h.queuePass r))
  | cancelQueued b => exact run (.next (request h _ _ _ fun a _ => h.cancelQueued kept a))
  | stopCycling b => exact run (.next (request h _ _ _ fun a _ => h.stopCycling a))
  | resume b => exact run (.next (request h _ _ _ fun a _ => h.resume a))
  | halt d b => exact run (.next ((asideLaw P n).request h d _ _ _ fun a _ => h.halt a))
  | go d b => exact run (.next ((asideLaw P n).request h d _ _ _ fun a _ => h.giveGo a))
  | declareFeeder b => exact run (.next (request h _ _ _ fun q _ => h.declareFeeder q))
  | forgetFeeder b => exact run (.next (request h _ _ _ fun f _ => h.forgetFeeder f))
  | writeSetting b => exact run (.next (request h _ _ _ fun q _ => h.writeSetting q))
  | _ => exact run ((asideLaw P n).exec h _ rfl)

end

end State.FeederRun

/-! ### From the laws of the model to a run and back -/

theorem State.FeederLaw.run {s : State} (h : s.FeederLaw) : State.FeederRun False s.engine.passCounter s :=
  ⟨h.latches, h.settled, False.elim, rfl, h.systems, False.elim⟩

theorem State.FeederRun.feederLaw {P : Prop} {n : Word16} {s : State} (h : State.FeederRun P n s) : s.FeederLaw :=
  ⟨h.law, h.fitted, h.settled⟩

theorem State.FeederRun.Left.feederLaw {P : Prop} {n : Word16} {s : State} (h : State.FeederRun.Left P n s) : s.FeederLaw := by
  rcases h with (run | ⟨latches, settled, -, -, systems⟩) | fresh
  · exact run.feederLaw
  · exact ⟨latches, systems, fun _ => settled⟩
  · exact fresh.feederLaw

/-- R91, R106, R122, R184: each command keeps them. -/
theorem State.FeederLaw.exec {s : State} (h : s.FeederLaw) (c : Instr) : Leaves State.FeederLaw (exec c s) :=
  fun t e => (h.run.exec False.elim c t e).feederLaw

theorem State.FeederLaw.step {s : State} (h : s.FeederLaw) : Leaves State.FeederLaw (step s) :=
  step_keeps (fun _ _ k => ⟨k.latches.same rfl, k.systems, k.settled⟩) (fun _ k => ⟨k.latches.same rfl, k.systems, k.settled⟩)
    (fun c _ k => k.exec c) h

/-- R71: the record of a pass in progress is at the head, and a cancel keeps it (R67). -/
theorem State.PlanLaw.kept {s : State} (h : s.PlanLaw) (inPass : s.engine.pass ≠ none) :
    (s.queue.records.filter fun r => r.state.inPass) ≠ [] := by
  have current := h.pass.current
  rw [(s.passInProgress_iff).mpr inPass] at current
  unfold State.headActive State.headFinishing at current
  cases records : s.queue.records with
  | nil => simp [records] at current
  | cons r rest =>
    have passing : r.state.inPass = true := by
      simp only [records] at current
      cases state : r.state <;> simp_all [RecordState.inPass]
    simp [passing]

/-- The laws of the plan, of the latches and of the empty queue's projection make a run. -/
theorem State.FeederLaw.planRun {s : State} (h : s.FeederLaw) (plan : s.PlanLaw)
    (projection : s.queue.records = [] → s.queue.proj = s.feeders.project) : State.FeederRun True s.engine.passCounter s where
  law := h.latches
  settled := h.settled
  current := fun _ inPass empty => plan.kept inPass (by rw [empty]; rfl)
  counter := rfl
  fitted := h.systems
  projection := fun _ => projection

theorem word16_succ_ne (n : Word16) : n + 1 ≠ n := by
  simp

/-- R58, R123: with no pass completed the projection of an empty queue is the feeder table. -/
theorem State.FeederRun.Left.projection {n : Word16} {t : State} (h : State.FeederRun.Left True n t) (empty : t.queue.records = [])
    (count : t.engine.passCounter = n) : t.queue.proj = t.feeders.project := by
  rcases h with (run | ⟨-, -, -, completed, -⟩) | fresh
  · exact run.projection trivial empty
  · exact absurd (completed.symm.trans count) (word16_succ_ne n)
  · exact fresh.projection trivial empty

end Sys2Proof.Machine

/-! SUPPORT. The parked feeders of one rail through every command with no pass (R103). -/

namespace Sys2Proof.Machine

/-- What the law of the parked feeders needs to be kept by an operation that drives nothing: no latch is outstanding. -/
structure State.Rest (s : State) : Prop where
  /-- R103. -/
  parked : s.parkedLaw
  /-- R91, R106, R122. -/
  settled : s.latchOutstanding = false

/-- With every latch settled nothing is resolved. -/
theorem State.resolveAll_noneOutstanding {s : State} (h : s.latchOutstanding = false) : s.resolveAll = s := by
  rw [State.not_latchOutstanding_iff] at h
  have fold : ∀ l : List Nat, (∀ i ∈ l, i < 4) → l.foldl State.resolveLatch s = s := by
    intro l hl
    induction l with
    | nil => rfl
    | cons i l ih =>
      obtain ⟨hi, hl⟩ := List.forall_mem_cons.mp hl
      rw [List.foldl_cons, State.resolveLatch_settled (h i hi), ih hl]
  exact fold _ fun i => List.mem_range.mp

namespace State.Rest

variable {s t : State}

theorem same (h : s.Rest) (e : t.feeders = s.feeders) : t.Rest where
  parked := by
    have feeder : ∀ f, t.feeder f = s.feeder f := fun f => by
      unfold State.feeder
      rw [e]
    intro f g rail x
    rw [feeder, feeder]
    exact h.parked f g rail x
  settled := (State.latchOutstanding_congr e).trans h.settled

/-- A write after which no feeder is newly parked. -/
theorem fewer (h : s.Rest) (feeders : ∀ f rail x, t.feeder f = .parked rail x → s.feeder f = .parked rail x)
    (latches : ∀ i, t.latch i = s.latch i ∨ (t.latch i).state.outstanding = false) : t.Rest where
  parked := fun f g rail x hf hg => h.parked f g rail x (feeders f rail x hf) (feeders g rail x hg)
  settled := State.settled_of_latches latches h.settled

theorem abortPass (h : s.Rest) (r) : (s.abortPass r).Rest := by
  cases pass : s.engine.pass with
  | none =>
    rw [State.abortPass_noPass pass]
    exact h
  | some p =>
    refine h.same ((State.abortPass_parts pass r).1.trans ?_)
    rw [State.resolveAll_noneOutstanding h.settled]

theorem abortFor (h : s.Rest) (r) : (s.abortFor r).Rest := by
  cases r with
  | none => exact h
  | some r => exact h.abortPass r

theorem raise (h : s.Rest) (d) : (s.raise d).Rest := State.Rest.abortFor (s := s.noteRaise d) (h.same rfl) _

theorem log (h : s.Rest) (e) : (s.log e).Rest := State.Rest.abortFor (s := s.append e) (h.same rfl) _

theorem foldl {α : Type} (g : State → α → State) (hg : ∀ s a, s.Rest → (g s a).Rest) (l : List α) (h : s.Rest) :
    (l.foldl g s).Rest := by
  induction l generalizing s with
  | nil => exact h
  | cons a l ih => exact ih (hg s a h)

theorem asideLaw : AsideLaw State.Rest := ⟨fun h a => h.same a.feeders, fun d h => h.raise d⟩

/-! ### The start of a pass -/

theorem arriveAt (h : s.Rest) (m pass i p) : (s.arriveAt m pass i p).Rest := by
  unfold State.arriveAt
  dsimp only
  split <;> split
  · exact State.Rest.raise (by exact h.same rfl) _
  · exact State.Rest.raise (by exact h.same rfl) _
  · exact h.same rfl
  · exact h.same rfl

theorem arrive (h : s.Rest) (m x i) : (State.arrive m x s i).Rest := by
  unfold State.arrive
  split
  · exact h
  · exact keeps_ite (h.arriveAt _ _ _ _) h

theorem startPass (h : s.Rest) (r x) : (s.startPass r x).Rest :=
  State.Rest.foldl _ (fun _ i k => k.arrive true x i) _ (State.Rest.log (by exact h.same rfl) _)

theorem entryCrossing (h : s.Rest) (d x) : (s.entryCrossing d x).Rest := by
  have fatal : ∀ e r, ((s.raise e).abortHead r).Rest := fun e _ => (h.raise e).same rfl
  unfold State.entryCrossing
  split
  · exact h.raise _
  · split
    case h_4 => exact keeps_ite (fatal _ _) (keeps_ite (fatal _ _) (keeps_ite (h.startPass _ x) (fatal _ _)))
    all_goals exact h

theorem carriageStep (h : s.Rest) (d x) (p : s.engine.pass = none) : (s.carriageStep d x).Rest := by
  have moved : (s.setTracker { s.tracker with lastDir := d }).restartStall.Rest := keeps_ite (h.same rfl) (h.same rfl)
  have noPass : (s.setTracker { s.tracker with lastDir := d }).restartStall.engine.pass = none :=
    keeps_ite (P := fun t : State => t.engine.pass = none) p p
  unfold State.carriageStep
  dsimp only
  rw [noPass]
  exact keeps_ite (moved.entryCrossing d x) moved

theorem enterLost (h : s.Rest) (c) : (s.enterLost c).Rest := State.Rest.raise (by exact h.same rfl) _

theorem slip (h : s.Rest) (src) : (s.slip src).Rest := by
  have raised := h.raise (.markSlip src)
  unfold State.slip
  dsimp only
  split
  · exact raised.same rfl
  · exact raised.enterLost _
  all_goals exact raised

theorem positionJump (h : s.Rest) : s.positionJump.Rest := keeps_ite ((h.raise _).enterLost _) h

theorem trackTransition (h : s.Rest) (d old) (p : s.engine.pass = none) : (s.trackTransition d old).Rest := by
  have windowed : ∀ w, (s.setTracker { s.tracker with markWindow := w }).Rest := fun _ => h.same rfl
  unfold State.trackTransition
  dsimp only
  split
  · exact keeps_ite (((windowed _).slip _).carriageStep d _ (State.noPass_slip (by exact p) _)) ((windowed _).slip _)
  · exact keeps_ite ((windowed _).carriageStep d _ p) (windowed _)

theorem countTransition (h : s.Rest) (l) (p : s.engine.pass = none) : Leaves State.Rest (execCountTransition l s) := by
  unfold execCountTransition
  refine .next (keeps_ite (keeps_ite (State.Rest.trackTransition ?_ _ _ ?_) ?_) (State.Rest.positionJump ?_))
  · cases l <;> exact h.same rfl
  · cases l <;> exact p
  · cases l <;> exact h.same rfl
  · cases l <;> exact h.same rfl

/-! ### The feeder table -/

/-- A feeder that is no longer parked. -/
theorem putGone (h : s.Rest) {f : Nat} {v : Feeder} (gone : ∀ rail x, v ≠ .parked rail x) : (s.putFeeder f v).Rest := by
  refine h.fewer (fun g rail x parked => ?_) fun i => .inl (State.latch_putFeeder s f v i)
  rw [State.feeder_putFeeder] at parked
  split at parked
  · exact absurd parked (gone rail x)
  · exact parked

theorem openLatch (h : s.Rest) (i) : (s.openLatch i).Rest := by
  refine h.fewer (fun _ _ _ parked => parked) fun j => ?_
  rw [State.openLatch, State.latch_putLatch]
  split
  · exact .inr rfl
  · exact .inl rfl

theorem faultFeeder (h : s.Rest) (i f) : (s.faultFeeder i f).Rest := State.Rest.openLatch (h.putGone fun _ _ => Feeder.noConfusion) i

theorem followProjection (h : s.Rest) : s.followProjection.Rest := h.same s.followProjection_feeders

/-- R104: a feeder parked at a free spot of its rail. -/
theorem putFree (h : s.Rest) {f rail : Nat} {x : Int} (free : s.spotTaken f rail x = false) :
    (s.putFeeder f (.parked rail x)).Rest where
  parked := by
    have spot : ∀ g, s.feeder g = .parked rail x → g = f := fun g parked => by
      by_contra other
      have bound : g < 16 := Decidable.byContradiction fun past => by
        rw [State.feeder_past _ past] at parked
        cases parked
      rw [(s.spotTaken_iff f rail x).mpr ⟨g, bound, other, parked⟩] at free
      cases free
    have was : ∀ g r y, (s.putFeeder f (.parked rail x)).feeder g = .parked r y →
        s.feeder g = .parked r y ∨ (g = f ∧ r = rail ∧ y = x) := fun g r y parked => by
      rw [State.feeder_putFeeder] at parked
      split at parked
      next same =>
        obtain ⟨rfl, -⟩ := same
        cases parked
        exact .inr ⟨rfl, rfl, rfl⟩
      next => exact .inl parked
    intro g k r y hg hk
    rcases was g r y hg with oldG | ⟨rfl, rfl, rfl⟩
    · rcases was k r y hk with oldK | ⟨rfl, rfl, rfl⟩
      · exact h.parked g k r y oldG oldK
      · exact spot g oldG
    · rcases was k _ _ hk with oldK | ⟨rfl, -, -⟩
      · exact (spot k oldK).symm
      · rfl
  settled := State.settled_of_latches (fun i => .inl (State.latch_putFeeder s f _ i)) h.settled

theorem declareFeeder (h : s.Rest) (q) : (State.declareFeeder q s).1.Rest := by
  unfold State.declareFeeder
  repeat' split
  case isFalse.isFalse.isFalse.isFalse.isFalse free => exact (h.putFree (by rwa [Bool.not_eq_true] at free)).followProjection
  all_goals exact h

theorem forgetFeeder (h : s.Rest) (f) : (State.forgetFeeder f s).1.Rest := by
  unfold State.forgetFeeder
  repeat' split
  case isFalse.isFalse.isFalse => exact (h.putGone fun _ _ => Feeder.noConfusion).followProjection
  all_goals exact h

theorem faultOutside (h : s.Rest) (f : Nat) : (s.faultOutside f).Rest := by
  unfold State.faultOutside
  split
  · exact keeps_ite h (h.putGone fun _ _ => Feeder.noConfusion)
  all_goals exact h

theorem removeLatch (h : s.Rest) (i : Nat) : (s.removeLatch i).Rest := by
  unfold State.removeLatch
  split
  case h_4 => exact h.openLatch i
  all_goals exact h.faultFeeder i _

theorem limitStill (h : s.Rest) (old f : Nat) : (State.limitStill old s f).Rest := by
  have put : ∀ r, (s.putHead f r).Rest := fun _ => h.same rfl
  exact keeps_ite ((put _).raise _) (put _)

theorem limitSilent (h : s.Rest) (old f : Nat) : (State.limitSilent old s f).Rest := by
  have put : ∀ r, (s.putHead f r).Rest := fun _ => h.same rfl
  have counted : ∀ r k, ((s.putHead f r).setFreeCount k).Rest := fun _ _ => h.same rfl
  exact keeps_ite ((counted _ _).raise _) (put _)

theorem settingWritten (h : s.Rest) (m a b : Nat) : (s.settingWritten m a b).Rest := by
  have tracking : s.trackingWritten.Rest := keeps_ite (h.same rfl) h
  have field : s.fieldWritten.Rest := (foldl _ (fun _ f k => k.faultOutside f) _ h).followProjection
  have systems : s.systemsWritten.Rest := (foldl _ (fun _ i k => k.removeLatch i) _ h).followProjection
  have still : ((List.range 16).foldl (State.limitStill a) s).Rest :=
    foldl _ (fun _ f k => k.limitStill a f) _ h
  have silent : ((List.range 16).foldl (State.limitSilent b) s).Rest :=
    foldl _ (fun _ f k => k.limitSilent b f) _ h
  unfold State.settingWritten
  split
  · exact tracking
  · exact tracking
  · exact tracking
  · exact tracking
  · exact field
  · exact field
  · exact field
  · exact systems
  · exact still
  · exact silent
  · exact h

theorem writeSetting (h : s.Rest) (q) : (State.writeSetting q s).1.Rest := by
  have put : (s.putSetting q.1 q.2).Rest := h.same rfl
  unfold State.writeSetting
  repeat' split
  case isFalse.isFalse.isFalse => exact put.settingWritten _ _ _
  all_goals exact h

/-! ### Edges and the other events -/

/-- With every latch settled an edge can drop a held feeder and nothing more. -/
theorem takeEdge (h : s.Rest) {i : Nat} (hi : i < 4) (level : Bool) : (s.takeEdge i level).Rest := by
  have settled := (State.not_latchOutstanding_iff s).mp h.settled i hi
  unfold State.takeEdge
  split
  · split
    case h_1 closing => rw [closing] at settled; cases settled
    case h_2 opening => rw [opening] at settled; cases settled
    case h_3 f _ =>
      have faulted : ((s.noteRaise (.feederMissed f i .dropped)).faultFeeder i f).Rest := State.Rest.faultFeeder (by exact h.same rfl) i f
      exact keeps_ite (faulted.abortPass _) (faulted.same (State.FeederRun.correctProjection_keeps _ i f).1)
    all_goals exact h
  · exact h

theorem setSense (h : s.Rest) (i l) : (s.setSense i l).Rest := h.fewer (fun _ _ _ parked => parked) fun _ => .inl rfl

theorem homeMarkEdge (h : s.Rest) : Leaves State.Rest (execHomeMarkEdge s) := by
  unfold execHomeMarkEdge
  apply Leaves.next
  split
  · exact State.Rest.log (by exact h.same rfl) _
  · exact keeps_ite (h.same rfl) (h.slip _)
  · exact keeps_ite (h.same rfl) (h.slip _)
  all_goals exact h

theorem applyOutcome (h : s.Rest) (f : Nat) (cut : Bool) (o) : (s.applyOutcome f cut o).Rest := by
  have put : ∀ r, (s.putHead f r).Rest := fun _ => h.same rfl
  have tensioned : ∀ {t : State} (g : Nat), t.Rest → (t.applyTension f g).Rest := fun {t} g k => by
    unfold State.applyTension
    dsimp only
    split
    · exact State.Rest.raise (by exact k.same rfl) _
    · exact k.same rfl
  cases o with
  | silent how => exact keeps_ite ((put _).raise _) (put _)
  | good motion tension =>
    have moved : (s.applyMotion f cut motion tension).Rest := keeps_ite ((put _).raise _) (put _)
    exact keeps_ite (tensioned _ moved) moved

theorem pollEnd (h : s.Rest) (o) : Leaves State.Rest (execPollEnd o s) := by
  unfold execPollEnd
  apply Leaves.next
  split
  case h_1 f cut disc rest _ =>
    have ended : (s.endTransaction rest).Rest := h.same rfl
    exact keeps_ite ended (ended.applyOutcome f cut o)
  all_goals exact h

theorem headWriteEnd (h : s.Rest) (o) : Leaves State.Rest (execHeadWriteEnd o s) := by
  unfold execHeadWriteEnd
  apply Leaves.next
  split
  · exact State.Rest.log (by exact h.same rfl) _
  all_goals exact h

/-- With no pass no countdown runs. -/
theorem takeCountdownExpiry (h : s.Rest) (i : Fin 4) : Leaves State.Rest (execTakeCountdownExpiry i s) := by
  have settled := (State.not_latchOutstanding_iff s).mp h.settled i i.isLt
  unfold execTakeCountdownExpiry
  apply Leaves.next
  split
  case h_1 closing => rw [closing] at settled; cases settled
  all_goals exact h

theorem releaseCountdownExpiry (h : s.Rest) (i : Fin 4) : Leaves State.Rest (execReleaseCountdownExpiry i s) := by
  have settled := (State.not_latchOutstanding_iff s).mp h.settled i i.isLt
  unfold execReleaseCountdownExpiry
  apply Leaves.next
  split
  case h_1 opening => rw [opening] at settled; cases settled
  all_goals exact h

/-- With no pass there is none to complete. -/
theorem resolveFinishing (h : s.Rest) (noPass : s.engine.pass = none) (p : PassPhase) :
    (if p = .finishing ∧ s.passInProgress = true then s.resolveAll.completeIfSettled else s).Rest := by
  rw [if_neg fun finishing => s.passInProgress_iff.mp finishing.2 noPass]
  exact h

theorem stallExpires (h : s.Rest) (noPass : s.engine.pass = none) : s.stallExpires.Rest := by
  unfold State.stallExpires
  refine State.Rest.resolveFinishing ?_ ?_ _
  · split
    · exact h.same rfl
    · exact State.Rest.raise (by exact h.same rfl) _
  · split
    · exact noPass
    · exact State.noPass_raise (by exact noPass) _

/-- Right after a reset no feeder is declared. -/
theorem blocksReset (s : State) (block : SettingsBlock) (pins) : (s.blocksReset block pins).Rest where
  parked := fun f _ _ _ parked => by
    rw [show (s.blocksReset block pins).feeder f = .undeclared from getD_replicate _ _] at parked
    cases parked
  settled := rfl

theorem queuePass (h : s.Rest) (r) : (State.queuePass r s).1.Rest := by
  unfold State.queuePass
  split
  · exact h
  · split
    · exact h
    · exact h.same (State.feeders_armHead _)

theorem resume (h : s.Rest) (a) : (State.resume a s).1.Rest := by
  unfold State.resume
  repeat' split
  case isFalse.isFalse => exact h.same (State.feeders_armHead _)
  all_goals exact h

theorem exec (h : s.Rest) (p : s.engine.pass = none) (c : Instr) : Leaves State.Rest (exec c s) := by
  have request := fun {t : State} => asideLaw.addressed (s := t)
  cases c with
  | powerOn pins => exact .next (keeps_ite ((blocksReset s _ pins).raise _) (blocksReset s _ pins))
  | restartEffect pins => exact .next (keeps_ite (keeps_ite ((blocksReset s _ pins).raise _) (blocksReset s _ pins)) h)
  | countTransition l => exact h.countTransition l p
  | illegalTransition => exact .next (State.Rest.positionJump (by exact h.same rfl))
  | homeMarkEdge => exact h.homeMarkEdge
  | needleMarkEdge => exact .next (keeps_ite (keeps_ite (h.same rfl) (h.slip _)) h)
  | stallTimerExpiry => exact .next (keeps_ite (h.stallExpires p) h)
  | takeCountdownExpiry i => exact h.takeCountdownExpiry i
  | releaseCountdownExpiry i => exact h.releaseCountdownExpiry i
  | coupleSenseEdge i l => exact .next (keeps_ite h ((h.setSense i l).takeEdge i.isLt l))
  | pollEnd o => exact h.pollEnd o
  | headWriteEnd o => exact h.headWriteEnd o
  | queuePass b => exact .next (request h _ _ _ fun r _ => h.queuePass r)
  | cancelQueued b => exact .next (request h _ _ _ fun _ _ => State.Rest.log (by exact h.same rfl) _)
  | stopCycling b => exact .next (request h _ _ _ fun _ _ => h.same rfl)
  | resume b => exact .next (request h _ _ _ fun a _ => h.resume a)
  | halt d b => exact .next (asideLaw.request h d _ _ _ fun _ _ => keeps_ite (h.abortPass _) (h.same rfl))
  | go d b =>
    exact .next (asideLaw.request h d _ _ _ fun _ _ => keeps_ite (P := fun p : State × Answer => p.1.Rest) (h.same rfl) h)
  | declareFeeder b => exact .next (request h _ _ _ fun q _ => h.declareFeeder q)
  | forgetFeeder b => exact .next (request h _ _ _ fun f _ => h.forgetFeeder f)
  | writeSetting b => exact .next (request h _ _ _ fun q _ => h.writeSetting q)
  | _ => exact asideLaw.exec h _ rfl

end State.Rest

/-- R103: with no pass each command keeps the law of the parked feeders. -/
theorem State.FeederLaw.parkedLaw {s : State} (h : s.FeederLaw) (noPass : s.engine.pass = none) (parked : s.parkedLaw) (c : Instr) :
    Leaves State.parkedLaw (Sys2Proof.Machine.exec c s) := fun t e => ((State.Rest.mk parked (h.settled noPass)).exec noPass c t e).parked

end Sys2Proof.Machine

/-! SUPPORT. The law of the rails in the table as the queue plans it, through an admission (R53 to R57, R103). -/

namespace Sys2Proof.Machine

/-! ### A record that admission judged (R45) -/

/-- What the checks of R47 and R53 to R56 have found of an admitted record. -/
structure Admitted (s : State) (r : PassRecord) : Prop where
  /-- R47. -/
  fitted : ∀ e ∈ r.entries, e.system < s.systems
  /-- R47. -/
  systems : (r.entries.map SystemEntry.system).Nodup
  /-- R54. -/
  walk : s.queue.proj.walk s.queue.proj.holders [] r.placedActions = none
  /-- R56, check 9. -/
  shared : ¬ s.railShared r
  /-- R56, check 10. -/
  blocked : ¬ s.railBlocked r

theorem State.admission_none {s : State} {r : PassRecord} (few : s.systems ≤ 4) (law : s.queue.proj.holderLaw) (h : s.admission r = none) :
    Admitted s r := by
  simp only [State.admission, Option.or_eq_none_iff] at h
  obtain ⟨-, systems, -, -, -, -, -, walk, -, -, shared, blocked⟩ := h
  have sound := mt (badSystem_nil_iff s.systems r.entries).mpr (not_not.mpr systems)
  simp only [not_or, not_exists, not_and, Nat.not_le, not_not] at sound
  obtain ⟨fitted, nodup, -⟩ := sound
  have passes := mt (Projection.walk_fails_iff r s.queue.proj nodup fun e he => Nat.lt_of_lt_of_le (fitted e he) few).mpr
    (not_not.mpr walk)
  obtain ⟨once, actions⟩ := not_or.mp passes
  have carried := s.mem_carriedBy_iff r fitted once (Projection.parked_of_passes actions)
  exact ⟨fitted, nodup, walk, mt (s.checkShared_iff r law carried).mpr (not_not.mpr shared),
    mt (s.checkBlocked_iff r law carried).mpr (not_not.mpr blocked)⟩

section
variable {s : State} {r : PassRecord} {f : Nat}

/-- R53: a feeder released at x has been carried to x. -/
theorem Admitted.carries_release (h : Admitted s r) {q : Projection} (walked : Projection.Walked s.queue.proj r.placedActions q) {i : Nat}
    {x : Int} (released : PlacedAction.mk i (.release f x) ∈ r.placedActions) : ∃ v, s.carries r f v x := by
  obtain ⟨rail, -, -, held | taken⟩ := walked.released f x i released
  all_goals
    obtain ⟨e, he, system, a, ha, release⟩ := (r.mem_placedActions_iff i _).mp released
  · have fits : i < s.systems := system ▸ h.fitted e he
    exact ⟨_, .inl ⟨i, fits, held, rfl, .inl ⟨e, he, system, .inl ⟨a, ha, release⟩⟩⟩⟩
  · obtain ⟨rail, pos, parked, -⟩ := walked.taken f i taken
    obtain ⟨d, hd, same, b, hb, take⟩ := (r.mem_placedActions_iff i _).mp taken
    obtain rfl : d = e := List.inj_on_of_nodup_map h.systems hd he (same.trans system.symm)
    exact ⟨pos, .inr ⟨d, hd, b, hb, take, ⟨rail, parked⟩, .inl ⟨a, ha, release⟩⟩⟩

/-- A feeder that the record does not release. -/
def PassRecord.keeps (r : PassRecord) (f : Nat) : Prop := ∀ i x, PlacedAction.mk i (.release f x) ∉ r.placedActions

theorem PassRecord.keeps.unnamed (h : r.keeps f) (untaken : ∀ i, PlacedAction.mk i (.take f) ∉ r.placedActions) :
    ∀ b ∈ r.placedActions, b.act.feeder ≠ f := by
  rintro ⟨i, act⟩ hb rfl
  cases act with
  | take f => exact untaken i hb
  | release f x => exact h i x hb

theorem PassRecord.keeps.carriesUntil (h : r.keeps f) {e : SystemEntry} (he : e ∈ r.entries) :
    s.carriesUntil r.direction e f (s.farEdge r.direction) :=
  .inr ⟨fun a ha z release => h e.system z ((r.mem_placedActions_iff _ _).mpr ⟨e, he, rfl, a, ha, release⟩), rfl⟩

/-- R53: a feeder held at the end of the record has been carried to the far edge. -/
theorem carries_farEdge {q : Projection} (walked : Projection.Walked s.queue.proj r.placedActions q) (law : s.queue.proj.holderLaw)
    (past : ∀ i, s.systems ≤ i → s.queue.proj.holder i = none) {rail i : Nat} (coupled : q.feeder f = .coupled rail i) :
    (∃ x, s.carries r f x (s.farEdge r.direction)) ∧ (s.queue.proj.feeder f).rail? = some rail := by
  have kept : r.keeps f := fun j z released => by
    obtain ⟨_, -, parked, -⟩ := walked.released f z j released
    rw [parked] at coupled
    cases coupled
  by_cases taken : ∃ j, PlacedAction.mk j (.take f) ∈ r.placedActions
  · obtain ⟨j, taken⟩ := taken
    obtain ⟨e, he, -, a, ha, take⟩ := (r.mem_placedActions_iff j _).mp taken
    obtain ⟨rail', pos, parked, ⟨now, -⟩ | ⟨k, z, released⟩⟩ := walked.taken f j taken
    · rw [now] at coupled
      cases coupled
      exact ⟨⟨pos, .inr ⟨e, he, a, ha, take, ⟨_, parked⟩, kept.carriesUntil he⟩⟩, by rw [parked]; rfl⟩
    · exact absurd released (kept k z)
  · have unnamed : ∀ b ∈ r.placedActions, b.act.feeder ≠ f := by
      rintro ⟨j, act⟩ hb named
      cases act with
      | take g => exact taken ⟨j, by rwa [← show g = f from named]⟩
      | release g z => exact kept j z (by rwa [← show g = f from named])
    rw [walked.unnamed f unnamed] at coupled
    have held : s.queue.proj.holder i = some f := (law f i).mp ⟨rail, coupled⟩
    have fits : i < s.systems := Nat.not_le.mp fun beyond => by
      rw [past i beyond] at held
      cases held
    refine ⟨⟨_, .inl ⟨i, fits, held, rfl, ?_⟩⟩, by rw [coupled]; rfl⟩
    by_cases entry : ∃ e ∈ r.entries, e.system = i
    · obtain ⟨e, he, system⟩ := entry
      exact .inl ⟨e, he, system, kept.carriesUntil he⟩
    · exact .inr ⟨fun e he system => entry ⟨e, he, system⟩, rfl⟩

theorem liesBetween_right (x y : Int) : liesBetween y x y := ⟨min_le_right x y, le_max_right x y⟩

/-- A feeder parked at the end of the record is one it does not name, or one it has carried there. -/
theorem Admitted.parked_cases (h : Admitted s r) {q : Projection} (walked : Projection.Walked s.queue.proj r.placedActions q)
    {rail : Nat} {x : Int} (parked : q.feeder f = .parked rail x) :
    (s.queue.proj.feeder f = .parked rail x ∧ f ∉ r.taken)
      ∨ ((∃ v, s.carries r f v x) ∧ (s.queue.proj.feeder f).rail? = some rail) := by
  by_cases released : ∃ i y, PlacedAction.mk i (.release f y) ∈ r.placedActions
  · obtain ⟨i, y, released⟩ := released
    obtain ⟨_, onRail, now, -⟩ := walked.released f y i released
    rw [now] at parked
    cases parked
    exact .inr ⟨h.carries_release walked released, onRail⟩
  · have kept : r.keeps f := fun i y mem => released ⟨i, y, mem⟩
    have untaken : ∀ j, PlacedAction.mk j (.take f) ∉ r.placedActions := fun j taken => by
      obtain ⟨_, _, -, ⟨now, -⟩ | ⟨k, z, later⟩⟩ := walked.taken f j taken
      · rw [now] at parked
        cases parked
      · exact kept k z later
    have unnamed := kept.unnamed untaken
    rw [walked.unnamed f unnamed] at parked
    refine .inl ⟨parked, fun taken => ?_⟩
    obtain ⟨e, he, a, ha, take⟩ := (r.mem_taken_iff f).mp taken
    exact untaken e.system ((r.mem_placedActions_iff _ _).mpr ⟨e, he, rfl, a, ha, take⟩)

end

/-- R103: an admission keeps the law of the rails. -/
theorem Admitted.railLaw {s : State} {r : PassRecord} (h : Admitted s r) {q : Projection}
    (walked : Projection.Walked s.queue.proj r.placedActions q) (law : s.queue.proj.holderLaw) (rails : s.queue.proj.RailLaw)
    (past : ∀ i, s.systems ≤ i → s.queue.proj.holder i = none) : q.RailLaw where
  carried := fun f g rail i j hf hg => by
    by_contra other
    obtain ⟨⟨x, carriesF⟩, railF⟩ := carries_farEdge walked law past hf
    obtain ⟨⟨y, carriesG⟩, railG⟩ := carries_farEdge walked law past hg
    exact h.shared ⟨f, g, x, _, y, _, _, other, carriesF, carriesG,
          railF.trans railG.symm, liesBetween_right _ _, liesBetween_right _ _⟩
  parked := fun f g rail x hf hg => by
    have way : ∀ {f g v}, s.carries r f v x → (s.queue.proj.feeder f).rail? = some rail →
        s.queue.proj.feeder g = .parked rail x → g ∉ r.taken → False := fun {f g v} carries onRail stands untaken =>
      h.blocked ⟨f, v, x, g, rail, x, carries, onRail, stands,
        fun e he a ha take => untaken ((r.mem_taken_iff g).mpr ⟨e, he, a, ha, take⟩), liesBetween_right v x⟩
    rcases h.parked_cases walked hf with ⟨oldF, untakenF⟩ | ⟨⟨v, carriesF⟩, railF⟩
    · rcases h.parked_cases walked hg with ⟨oldG, -⟩ | ⟨⟨w, carriesG⟩, railG⟩
      · exact rails.parked f g rail x oldF oldG
      · exact (way carriesG railG oldF untakenF).elim
    · rcases h.parked_cases walked hg with ⟨oldG, untakenG⟩ | ⟨⟨w, carriesG⟩, railG⟩
      · exact (way carriesF railF oldG untakenG).elim
      · by_contra other
        exact h.shared ⟨f, g, v, x, w, x, x, other, carriesF, carriesG,
          railF.trans railG.symm, liesBetween_right v x, liesBetween_right w x⟩

/-- R57, R58, R103: the projection that an admission advances keeps the laws of the holders and of the rails. -/
theorem State.admission_rails {s : State} {r : PassRecord} (few : s.systems ≤ 4)
    (past : ∀ i, s.systems ≤ i → s.queue.proj.holder i = none) (law : s.queue.proj.holderLaw) (rails : s.queue.proj.RailLaw)
    (ahead : ∀ e ∈ r.entries, ∀ a ∈ e.actions, a.mark = .notReached) (admitted : s.admission r = none) :
    (s.queue.proj.advanceRecord r).RailLaw ∧ (s.queue.proj.advanceRecord r).holderLaw := by
  have found := State.admission_none few law admitted
  have small : ∀ a ∈ r.placedActions, a.system < 4 := by
    rintro ⟨i, act⟩ ha
    obtain ⟨e, he, rfl, -⟩ := (r.mem_placedActions_iff _ _).mp ha
    exact Nat.lt_of_lt_of_le (found.fitted e he) few
  have walked := Projection.Walked.of_walk s.queue.proj r.placedActions law small found.walk
  rw [Projection.advanceRecord_eq _ _ ahead]
  exact ⟨found.railLaw walked law rails past, walked.law⟩

/-- Settles O49: the laws of the latches, of the feeder unit, of the parked feeders and of the empty queue's projection through every
command, and the law of the rails through an admission. -/
theorem latchLawIsKept : Obligations.LatchLawIsKept :=
  ⟨fun c _ t law k e => law.exec c k t e,
    fun _ _ _ _ _ law hi hf opened parked => law.driveTake hi hf opened parked,
    fun _ _ x _ law _ closed => law.driveRelease x closed,
    fun _ t law e => law.step t e,
    fun c _ t law noPass parked e => law.parkedLaw noPass parked c t e,
    fun _ _ few past law rails ahead admitted => State.admission_rails few past law rails ahead admitted,
    fun c _ t law plan projection e empty count =>
      ((law.planRun plan projection).exec (fun _ => plan.kept) c t e).projection empty count⟩

end Sys2Proof.Machine
